-- ==== Sys2Proof/Word.lean ====
section
/-! DEFINITION. The plain words of the part: bytes, the identifiers of ports, axes, inputs, channels and entries
(spec/00_scope.md, Identifiers), and the replacement of one record in a fixed row of records. -/

namespace Sys2Proof

/-- One byte of a frame, a record or a notice. -/
abbrev Byte := BitVec 8

/-- Master ports MP0 to MP3. -/
abbrev Port := Fin 4

/-- Axes A0 to A3; A3 is the time axis. -/
abbrev AxisId := Fin 4

/-- Encoder axes A0 to A2. -/
abbrev EncId := Fin 3

/-- Mark inputs MK0 to MK3. -/
abbrev MarkId := Fin 4

/-- Output channels OUT0 to OUT11. -/
abbrev ChanId := Fin 12

/-- Indexes 0 to 255 of the trigger table. -/
abbrev EntryIx := Fin 256

/-- The row `v` with its record `i` replaced by `x`. -/
def upd {α : Type} {n : Nat} (v : Vector α n) (i : Fin n) (x : α) : Vector α n :=
  v.set i.val x i.isLt

end Sys2Proof
end

