-- ==== Sys2Proof/Config.lean ====
section
/-! DEFINITION. The fixed numbers of the TS412, each with the rule that states it. The spec leaves no value to an
implementation, so nothing here is free. -/

namespace Sys2Proof.Config

/-- The largest magnitude an axis value, a target or an offset may have: 2^47 − 1 (spec/00_scope.md, Units; R2). -/
def axisMax : Int := 140737488355327

/-- Intervals, pitches and search limits reach 2^31 − 1 (spec/00_scope.md, Units). -/
def countMax : Nat := 2147483647

/-- Non-FREE entries one port may hold (R34). -/
def quota : Nat := 96

/-- Operations one group may hold (R105, R107). -/
def groupCapacity : Nat := 16

/-- Notices one queue may hold (R156). -/
def queueCapacity : Nat := 32

/-- Capture records one history may hold (R79, R90). -/
def historyCapacity : Nat := 8

/-- The longest payload of a frame (R143). -/
def maxPayload : Nat := 58

/-- The longest transaction in bytes (R143). -/
def maxTransaction : Nat := 64

/-- Base ticks in one millisecond (R148, R113). -/
def ticksPerMs : Nat := 1000

/-- The largest dropped count LATE_DROPPED reports: 2^32 − 1 (R58). -/
def maxDropped : Nat := 4294967295

/-- Vendor code, part code and revision that IDENT returns (R154). -/
def vendorCode : Nat := 0x0C41
def partCode : Nat := 0x0412
def revision : Byte := 1

end Sys2Proof.Config
end

