-- ==== Sys2Proof/Syntax.lean ====
section
/-! DEFINITION. The commands and events of spec/opcode_table.json, one constructor for each row. A frame command carries
the issuing port and its payload bytes as received; the owning block reads the fields (R166). -/

namespace Sys2Proof

/-- The four blocks that do a part of a port's teardown (R147, R151). -/
inductive Block where
  | scu
  | otu
  | mku
  | axu
  deriving DecidableEq, Repr

/-- One step of the part: everything that can happen to it (spec/95_what_each_step_holds.md). -/
inductive Instr where
  /-- RSTn goes low, or power-on (R1). -/
  | deviceReset
  /-- One base tick of 1 µs (R1). -/
  | baseTick
  /-- The chip select of a port falls (R142). -/
  | chipSelectFall (p : Port)
  /-- The chip select of a port rises after no whole byte (R142). -/
  | emptyTransaction (p : Port)
  /-- A malformed transaction, with the bytes received (R143). -/
  | malformedFrame (p : Port) (bytes : List Byte)
  /-- A well-formed frame whose code the part does not define (R145). -/
  | unknownCode (p : Port) (code : Byte) (payload : List Byte)
  | nop (p : Port) (payload : List Byte)
  | ident (p : Port) (payload : List Byte)
  | attach (p : Port) (payload : List Byte)
  | detach (p : Port) (payload : List Byte)
  | status (p : Port) (payload : List Byte)
  | axisConfig (p : Port) (payload : List Byte)
  | axisEnable (p : Port) (payload : List Byte)
  | axisDisable (p : Port) (payload : List Byte)
  | axisSet (p : Port) (payload : List Byte)
  | axisHome (p : Port) (payload : List Byte)
  | axisRead (p : Port) (payload : List Byte)
  | timePreset (p : Port) (payload : List Byte)
  | timePresetClear (p : Port) (payload : List Byte)
  | arm (p : Port) (payload : List Byte)
  | cancel (p : Port) (payload : List Byte)
  | recordRead (p : Port) (payload : List Byte)
  | tableStatus (p : Port) (payload : List Byte)
  | groupBegin (p : Port) (payload : List Byte)
  | groupEnd (p : Port) (payload : List Byte)
  | groupDiscard (p : Port) (payload : List Byte)
  | groupStatus (p : Port) (payload : List Byte)
  | markConfig (p : Port) (payload : List Byte)
  | markStart (p : Port) (payload : List Byte)
  | markStop (p : Port) (payload : List Byte)
  | markRead (p : Port) (payload : List Byte)
  | markStatus (p : Port) (payload : List Byte)
  | channelClaim (p : Port) (payload : List Byte)
  | channelRelease (p : Port) (payload : List Byte)
  | channelDrive (p : Port) (payload : List Byte)
  | channelStatus (p : Port) (payload : List Byte)
  | noticeRead (p : Port) (payload : List Byte)
  | subscribe (p : Port) (payload : List Byte)
  | postPeer (p : Port) (payload : List Byte)
  /-- The lease of a port runs out (R149). -/
  | leaseExpiry (p : Port)
  /-- A block takes a port's teardown request (R25, R50, R101, R140). -/
  | axuTeardown (p : Port)
  | scuTeardown (p : Port)
  | mkuTeardown (p : Port)
  | otuTeardown (p : Port)
  /-- The PIF takes a block's report that its part is done (R152). -/
  | teardownPartDone (p : Port) (b : Block)
  /-- The levels of an encoder's A and B become these (R5 to R7). -/
  | encoderTransition (x : EncId) (a b : Bool)
  /-- The prescaler of A3 expires (R10). -/
  | prescalerExpiry
  /-- The level of an encoder's Z becomes this (R18). -/
  | indexEdge (x : EncId) (level : Bool)
  /-- The level of EPOCH becomes this (R23). -/
  | epochEdge (level : Bool)
  /-- The MKU takes a freeze, a thaw or a re-base of an axis (R97, R98). -/
  | freezeEvent (a : AxisId)
  | thawEvent (a : AxisId)
  | rebaseEvent (a : AxisId)
  /-- The SCU takes the next step of an axis (R63). -/
  | scuStep (a : AxisId)
  /-- The MKU takes the next step of an axis (R87). -/
  | mkuStep (a : AxisId)
  /-- The level of a mark pin becomes this (R83). -/
  | markEdge (m : MarkId) (level : Bool)
  /-- The debounce of a pending capture ends (R84). -/
  | debounceEnd (m : MarkId)
  /-- The SCU takes the next mark, stop request or holder-teardown stop request of the MKU (R92, R100, R101). -/
  | markHandoff
  | stopRequest
  | holderStopRequest
  /-- A pending group expires (R119). -/
  | groupExpiry (p : Port)
  /-- The OTU takes the next batch of actions (R132, R133). -/
  | action
  /-- A pulse expires (R135). -/
  | pulseExpiry (c : ChanId)
  /-- The PIF takes the next posted notice (R157). -/
  | noticePosting
  /-- RSTn is released (R1). -/
  | releaseOfReset
  deriving DecidableEq, Repr

/-- The frame commands of the command table (spec/09_frame_record_and_notice_layouts.md, Command payloads). -/
inductive Command where
  | nop
  | ident
  | attach
  | detach
  | status
  | axisConfig
  | axisEnable
  | axisDisable
  | axisSet
  | axisHome
  | axisRead
  | timePreset
  | timePresetClear
  | arm
  | cancel
  | recordRead
  | tableStatus
  | groupBegin
  | groupEnd
  | groupDiscard
  | groupStatus
  | markConfig
  | markStart
  | markStop
  | markRead
  | markStatus
  | channelClaim
  | channelRelease
  | channelDrive
  | channelStatus
  | noticeRead
  | subscribe
  | postPeer
  deriving DecidableEq, Repr

end Sys2Proof
end

