-- ==== Sys2Proof/Machine/Frame.lean ====
section
/-! DEFINITION. Bits, bytes and frames (spec/09_frame_record_and_notice_layouts.md; R142, R143, R166): little-endian fields,
the command table, and the judgement of a transaction as a frame. -/

namespace Sys2Proof

/-- The bits of a byte in the order in which they are shifted, most significant first (R142). -/
def byteBits (b : Byte) : List Bool := (List.range 8).map b.getMsbD

/-- The byte that bits spell, the first shifted in being the most significant (R142). -/
def bitsByte (bits : List Bool) : Byte := bits.foldl (fun b x => b <<< 1 ||| (BitVec.ofBool x).setWidth 8) 0

/-- The whole bytes that a port counts in the bits it received; a last byte of fewer than eight bits is discarded (R142). -/
def wholeBytes : List Bool → List Byte
  | b7 :: b6 :: b5 :: b4 :: b3 :: b2 :: b1 :: b0 :: rest => bitsByte [b7, b6, b5, b4, b3, b2, b1, b0] :: wholeBytes rest
  | _ => []

/-- The `k` bytes of `n`, least significant first (spec/09, Offsets). -/
def leBytes : Nat → Nat → List Byte
  | 0, _ => []
  | k + 1, n => BitVec.ofNat 8 n :: leBytes k (n / 256)

/-- The number that little-endian bytes spell. -/
def leValue : List Byte → Nat
  | [] => 0
  | b :: bs => b.toNat + 256 * leValue bs

/-- A signed 48-bit field as six bytes in two's complement. -/
def leInt48 (x : Int) : List Byte :=
  leBytes 6 (x % 281474976710656).toNat

/-- The signed value of a 48-bit field. -/
def signed48 (n : Nat) : Int :=
  if n < 140737488355328 then (n : Int) else (n : Int) - 281474976710656

/-- The unsigned field of `size` bytes at offset `off` of a payload. -/
def field (payload : List Byte) (off size : Nat) : Nat :=
  leValue ((payload.drop off).take size)

/-- The signed 48-bit field at offset `off` of a payload. -/
def fieldInt48 (payload : List Byte) (off : Nat) : Int :=
  signed48 (field payload off 6)

/-- The command code of each command (spec/09, Command payloads). -/
def Command.code : Command → Byte
  | .nop => 0x00
  | .ident => 0x01
  | .attach => 0x02
  | .detach => 0x03
  | .status => 0x04
  | .axisConfig => 0x10
  | .axisEnable => 0x11
  | .axisDisable => 0x12
  | .axisSet => 0x13
  | .axisHome => 0x14
  | .axisRead => 0x15
  | .timePreset => 0x16
  | .timePresetClear => 0x17
  | .arm => 0x20
  | .cancel => 0x21
  | .recordRead => 0x22
  | .tableStatus => 0x23
  | .groupBegin => 0x30
  | .groupEnd => 0x31
  | .groupDiscard => 0x32
  | .groupStatus => 0x33
  | .markConfig => 0x40
  | .markStart => 0x41
  | .markStop => 0x42
  | .markRead => 0x43
  | .markStatus => 0x44
  | .channelClaim => 0x50
  | .channelRelease => 0x51
  | .channelDrive => 0x52
  | .channelStatus => 0x53
  | .noticeRead => 0x60
  | .subscribe => 0x61
  | .postPeer => 0x62

/-- The payload length the command table gives for each command (spec/09; R166). -/
def Command.length : Command → Nat
  | .nop => 0
  | .ident => 0
  | .attach => 2
  | .detach => 0
  | .status => 0
  | .axisConfig => 6
  | .axisEnable => 1
  | .axisDisable => 1
  | .axisSet => 7
  | .axisHome => 11
  | .axisRead => 0
  | .timePreset => 6
  | .timePresetClear => 0
  | .arm => 26
  | .cancel => 2
  | .recordRead => 2
  | .tableStatus => 0
  | .groupBegin => 0
  | .groupEnd => 11
  | .groupDiscard => 0
  | .groupStatus => 0
  | .markConfig => 14
  | .markStart => 1
  | .markStop => 1
  | .markRead => 2
  | .markStatus => 1
  | .channelClaim => 3
  | .channelRelease => 1
  | .channelDrive => 5
  | .channelStatus => 0
  | .noticeRead => 1
  | .subscribe => 3
  | .postPeer => 3

/-- Every command of the table, in its order. -/
def Command.all : List Command :=
  [.nop, .ident, .attach, .detach, .status, .axisConfig, .axisEnable, .axisDisable, .axisSet, .axisHome, .axisRead, .timePreset, .timePresetClear, .arm, .cancel, .recordRead, .tableStatus, .groupBegin, .groupEnd, .groupDiscard, .groupStatus, .markConfig, .markStart, .markStop, .markRead, .markStatus, .channelClaim, .channelRelease, .channelDrive, .channelStatus, .noticeRead, .subscribe, .postPeer]

/-- The command a code names, if the part defines it (R145, check 1). -/
def commandOfCode (code : Byte) : Option Command :=
  Command.all.find? (fun c => c.code == code)

/-- The check of a command frame: the sum of its bytes modulo 65536 (spec/09, Frames). -/
def byteSum (bytes : List Byte) : Nat :=
  (bytes.map BitVec.toNat).sum % 65536

/-- The bytes of a command frame: CODE, LEN, PAYLOAD, CHECK. -/
def frameBytes (code : Byte) (payload : List Byte) : List Byte :=
  let head := code :: BitVec.ofNat 8 payload.length :: payload
  head ++ leBytes 2 (byteSum head)

/-- LEN of a transaction of two or more bytes. -/
def frameLen (bytes : List Byte) : Nat :=
  field bytes 1 1

/-- The judgement of R143 on a transaction of one or more whole bytes: it is malformed. -/
def malformed (bytes : List Byte) : Bool :=
  let len := frameLen bytes
  decide (bytes.length < 2) || decide (bytes.length < len + 4) || decide (Config.maxPayload < len)
    || decide (Config.maxTransaction < bytes.length)
    || (bytes.drop (len + 4)).any (fun b => b != 0xFF)
    || field bytes (len + 2) 2 != byteSum (bytes.take (len + 2))

/-- The command step that a well-formed frame with this command and payload stands for. -/
def Command.instr (p : Port) (payload : List Byte) : Command → Instr
  | .nop => .nop p payload
  | .ident => .ident p payload
  | .attach => .attach p payload
  | .detach => .detach p payload
  | .status => .status p payload
  | .axisConfig => .axisConfig p payload
  | .axisEnable => .axisEnable p payload
  | .axisDisable => .axisDisable p payload
  | .axisSet => .axisSet p payload
  | .axisHome => .axisHome p payload
  | .axisRead => .axisRead p payload
  | .timePreset => .timePreset p payload
  | .timePresetClear => .timePresetClear p payload
  | .arm => .arm p payload
  | .cancel => .cancel p payload
  | .recordRead => .recordRead p payload
  | .tableStatus => .tableStatus p payload
  | .groupBegin => .groupBegin p payload
  | .groupEnd => .groupEnd p payload
  | .groupDiscard => .groupDiscard p payload
  | .groupStatus => .groupStatus p payload
  | .markConfig => .markConfig p payload
  | .markStart => .markStart p payload
  | .markStop => .markStop p payload
  | .markRead => .markRead p payload
  | .markStatus => .markStatus p payload
  | .channelClaim => .channelClaim p payload
  | .channelRelease => .channelRelease p payload
  | .channelDrive => .channelDrive p payload
  | .channelStatus => .channelStatus p payload
  | .noticeRead => .noticeRead p payload
  | .subscribe => .subscribe p payload
  | .postPeer => .postPeer p payload

end Sys2Proof
end

