-- ==== Sys2Proof/Machine/State.lean ====
section
/-! DEFINITION. The state of the TS412 as plain data: the records of the five blocks, the hand-offs in transit between
them, the pins, and the queue of commands waiting. -/

namespace Sys2Proof.Machine

/-! ## Axis Unit (spec/01_axes_and_the_timebase.md) -/

/-- States of an axis (R3). -/
inductive AxisState where
  | disabled
  | running
  | homing
  | faulted
  deriving DecidableEq, Repr

/-- Causes of an axis fault (R2). -/
inductive FaultCause where
  | quadError
  | overrange
  | homeFailed
  deriving DecidableEq, Repr

/-- Decode modes of an encoder axis (R2). -/
inductive Decode where
  | quadX1
  | quadX2
  | quadX4
  | stepDir
  deriving DecidableEq, Repr

/-- Fault policies (R2). -/
inductive FaultPolicy where
  | hold
  | continued
  deriving DecidableEq, Repr

/-- A direction of motion, of a mark input or of a boundary. -/
inductive Direction where
  | forward
  | reverse
  deriving DecidableEq, Repr

/-- Validity of a captured value (R3). -/
inductive Validity where
  | valid
  | suspect
  | absent
  deriving DecidableEq, Repr

/-- Causes of a re-base (R15). -/
inductive RebaseCause where
  | set
  | home
  | epoch
  deriving DecidableEq, Repr

/-- The ways an axis recovers (R24). -/
inductive Recovery where
  | set
  | home
  deriving DecidableEq, Repr

/-- Results of an EPOCH edge (R23). -/
inductive EpochResult where
  | applied
  | noPreset
  | notRunning
  | inUse
  deriving DecidableEq, Repr

/-- The fields of R2 that every axis has. -/
structure AxisRec where
  state : AxisState
  value : Int
  cause : Option FaultCause
  deriving DecidableEq, Repr

/-- The fields of R2 that A0 to A2 have, with the followed level of Z (R18). -/
structure EncRec where
  decode : Decode
  invert : Bool
  policy : FaultPolicy
  refA : Bool
  refB : Bool
  levelZ : Bool
  homeValue : Int
  searchLimit : Nat
  searchTravel : Nat
  recover : Bool
  deriving DecidableEq, Repr

/-- The fields of R2 that A3 has. The phase equals the prescaler while an expiry is due (log 4). -/
structure TimeRec where
  prescaler : Nat
  phase : Nat
  deriving DecidableEq, Repr

/-- A filled time preset slot (R21). -/
structure Preset where
  value : Int
  setter : Port
  deriving DecidableEq, Repr

/-- A step in transit from the AXU (R8). -/
structure StepMsg where
  dir : Direction
  value : Int
  frozen : Bool
  deriving DecidableEq, Repr

/-- What the AXU hands the MKU about one axis (R4, R8, R15). -/
inductive AxuEvent where
  | step (m : StepMsg)
  | rebase (cause : RebaseCause) (old new : Int)
  | freeze
  | thaw
  deriving DecidableEq, Repr

/-! ## Mark Unit (spec/04_registration_marks.md) -/

/-- States of a mark input (R80). -/
inductive MarkState where
  | idle
  | seeking
  | tracking
  | suspended
  deriving DecidableEq, Repr

/-- Edges a mark input captures (R83). -/
inductive Edge where
  | rise
  | fall
  | both
  deriving DecidableEq, Repr

/-- Kinds of capture record (R79). -/
inductive CaptureKind where
  | real
  | substituted
  deriving DecidableEq, Repr

/-- Causes of MARK_LOST (R104). -/
inductive LostCause where
  | missed
  | rebase
  | axisFault
  | stopped
  deriving DecidableEq, Repr

/-- A capture record (R79, Capture records). -/
structure Capture where
  input : MarkId
  kind : CaptureKind
  seq : BitVec 16
  stamp : BitVec 32
  values : Vector Int 4
  validities : Vector Validity 4
  deriving DecidableEq, Repr

/-- A capture that waits for the end of its debounce (R83, R84). -/
structure PendingCapture where
  record : Capture
  remaining : Nat
  deriving DecidableEq, Repr

/-- The last mark of an input (R79). -/
structure LastMark where
  ref : Int
  seq : BitVec 16
  deriving DecidableEq, Repr

/-- The record of a mark input (R79). -/
structure MarkRec where
  state : MarkState
  holder : Option Port
  refAxis : AxisId
  edge : Edge
  direction : Direction
  pitch : Nat
  tolerance : Nat
  missLimit : Nat
  debounce : Nat
  last : Option LastMark
  misses : Nat
  seq : BitVec 16
  history : List Capture
  capture : Option PendingCapture
  deferred : Bool
  level : Bool
  deriving DecidableEq, Repr

/-- What the MKU hands the SCU (R90, R100, R101). -/
inductive MkuHandoff where
  | mark (record : Capture)
  | stop (m : MarkId) (issuer : Port)
  | holderStop (m : MarkId)
  deriving DecidableEq, Repr

/-! ## Schedule Unit (spec/02_the_trigger_table.md, 03, 05) -/

/-- Approach of an entry (R27). -/
inductive Approach where
  | forward
  | reverse
  | either
  deriving DecidableEq, Repr

/-- Reference of an entry (R27). -/
inductive Reference where
  | absolute
  | markOnce
  | markEach
  deriving DecidableEq, Repr

/-- Actions on a channel (R27, R133). -/
inductive Action where
  | pulse
  | set
  | clear
  | toggle
  deriving DecidableEq, Repr

/-- Late policies (R27). -/
inductive LatePolicy where
  | fireLate
  | dropLate
  deriving DecidableEq, Repr

/-- Notify settings (R27). -/
inductive Notify where
  | none
  | each
  | last
  deriving DecidableEq, Repr

/-- The fields an ARM supplies (R27). `place` is the target of an ABSOLUTE entry and the offset of a mark-relative one;
`mark` is 0 where no input is present, as the description carries it (R36). -/
structure TriggerDesc where
  tag : BitVec 16
  axis : AxisId
  approach : Approach
  reference : Reference
  mark : MarkId
  markCount : Nat
  place : Int
  action : Action
  mask : BitVec 12
  width : Nat
  repeats : Nat
  interval : Nat
  fireN : Nat
  skipN : Nat
  late : LatePolicy
  notify : Notify
  deriving DecidableEq, Repr

/-- The states of a non-FREE entry (R29). -/
inductive LiveState where
  | staged
  | waiting
  | armed
  deriving DecidableEq, Repr

/-- The record of a non-FREE entry (R27, R28, R75). -/
structure Entry where
  desc : TriggerDesc
  owner : Port
  state : LiveState
  target : Option Int
  occ : Nat
  marksLeft : Nat
  owed : Option Capture
  finalBurst : Bool
  deriving DecidableEq, Repr

/-- One place of the trigger table: its generation, and its record while it is not FREE (R26, R32). -/
structure Slot where
  gen : BitVec 8
  entry : Option Entry
  deriving DecidableEq, Repr

/-- A handle (R32). -/
structure Handle where
  index : EntryIx
  gen : BitVec 8
  deriving DecidableEq, Repr

/-- Why an entry ended (R73). -/
inductive EndCause where
  | complete
  | rangeExit
  | allLate
  | marksDone
  | inputStopped
  deriving DecidableEq, Repr

/-- States of a group (R105). -/
inductive GroupState where
  | none
  | staging
  | pending
  deriving DecidableEq, Repr

/-- A staged operation (R105). `stopped` is the input-stopped marker of a staged mark-relative ARM (R111). -/
inductive GroupOp where
  | arm (ix : EntryIx) (stopped : Bool)
  | cancel (h : Handle)
  | drive (mask : BitVec 12) (act : Action) (width : Nat)
  deriving DecidableEq, Repr

/-- The boundary of a PENDING group (R105). -/
inductive Boundary where
  | atMark (m : MarkId)
  | atPosition (a : AxisId) (value : Int) (dir : Direction)
  deriving DecidableEq, Repr

/-- The record of a port's group (R105). -/
structure GroupRec where
  state : GroupState
  ops : List GroupOp
  boundary : Option Boundary
  period : Nat
  remaining : Nat
  deriving DecidableEq, Repr

/-- One action with the port on whose behalf it is sent (R132). -/
structure OutAction where
  port : Port
  chan : ChanId
  act : Action
  width : Nat
  deriving DecidableEq, Repr

/-! ## Output Unit (spec/06_output_channels.md) -/

/-- Polarities (R126). -/
inductive Polarity where
  | activeHigh
  | activeLow
  deriving DecidableEq, Repr

/-- States of a channel (R127). -/
inductive ChanState where
  | unowned
  | rest
  | active
  | pulsing
  deriving DecidableEq, Repr

/-- The record of a channel (R126). A level is true for HIGH. -/
structure ChanRec where
  owner : Option Port
  polarity : Polarity
  safe : Bool
  state : ChanState
  remaining : Nat
  deriving DecidableEq, Repr

/-! ## Port Interface (spec/07_master_ports_and_leases.md, 08) -/

/-- Status codes (spec/07, Status codes). -/
inductive Status where
  | ok
  | noCommand
  | frameError
  | unknownCode
  | badLength
  | badField
  | notAttached
  | expired
  | busy
  | owned
  | notOwner
  | inUse
  | tableFull
  | quotaFull
  | stale
  | groupState
  | groupFull
  | late
  | axisState
  | markState
  | peerUnavailable
  | peerFull
  deriving DecidableEq, Repr

/-- States of a port (R147). -/
inductive PortState where
  | detached
  | attached
  | releasing
  | expired
  deriving DecidableEq, Repr

/-- Teardown end states (R147). -/
inductive EndState where
  | detached
  | expired
  deriving DecidableEq, Repr

/-- A set of the blocks that do teardown parts (R147). -/
structure BlockSet where
  scu : Bool
  otu : Bool
  mku : Bool
  axu : Bool
  deriving DecidableEq, Repr

/-- The stored part of a response (R144). -/
structure Response where
  status : Status
  echo : Byte
  payload : List Byte
  deriving DecidableEq, Repr

/-- Causes of WITHDRAWN (R104). -/
inductive WithdrawCause where
  | stopped
  | holderGone
  deriving DecidableEq, Repr

/-- Causes of GROUP_DISCARDED (R125). -/
inductive DiscardCause where
  | expired
  | markStopped
  deriving DecidableEq, Repr

/-- Where a group applied, as GROUP_APPLIED tells it (R118). -/
inductive AppliedAt where
  | now
  | atMark (m : MarkId) (seq : BitVec 16)
  | atPosition (a : AxisId) (value : Int)
  deriving DecidableEq, Repr

/-- A notice's kind and contents (R159 and the rules it names). -/
inductive NoticeBody where
  | fired (h : Handle) (tag : BitVec 16) (occ : Nat) (value : Int) (late : Bool)
  | retired (h : Handle) (tag : BitVec 16) (cause : EndCause) (occ : Nat)
  | lateDropped (h : Handle) (tag : BitVec 16) (first count : Nat) (ended : Bool)
  | withdrawn (h : Handle) (tag : BitVec 16) (m : MarkId) (cause : WithdrawCause)
  | markOverrun (h : Handle) (tag : BitVec 16) (m : MarkId) (replaced new : BitVec 16)
  | unresolved (h : Handle) (tag : BitVec 16) (m : MarkId) (seq : BitVec 16) (a : AxisId) (v : Validity)
  | markCaptured (m : MarkId) (kind : CaptureKind) (seq : BitVec 16) (ref : Int) (misses : Nat)
  | markRejected (m : MarkId) (ref : Int) (seq : BitVec 16)
  | markLost (m : MarkId) (cause : LostCause) (seq : BitVec 16) (value : Int)
  | groupApplied (where_ : AppliedAt) (applied skipped : Nat) (first : Option Nat)
  | groupDiscarded (cause : DiscardCause) (count : Nat) (boundary : Option Boundary)
  | axisFault (a : AxisId) (cause : FaultCause) (continued : Bool) (value : Int)
  | axisRecovered (a : AxisId) (by_ : Recovery) (value : Int)
  | axisRebased (a : AxisId) (cause : RebaseCause) (old new : Int)
  | epochSeen (result : EpochResult) (value : Int)
  | peer (sender : Port) (word : BitVec 16)
  deriving DecidableEq, Repr

/-- A notice in a queue: its contents and its uptime stamp (R156, R157). -/
structure Notice where
  stamp : BitVec 32
  body : NoticeBody
  deriving DecidableEq, Repr

/-- A notice handed to the PIF with the ports it is addressed to (R157). -/
structure Posting where
  body : NoticeBody
  addressed : List Port
  deriving DecidableEq, Repr

/-- The chip select and the shift registers of a port (R142): high; low, with the response frame being sent, the bits received
so far and the number of the bit presented on data-out; low in a transaction that began before the release of device reset. -/
inductive Link where
  | high
  | sending (frame : List Byte) (received : List Bool) (presented : Nat)
  | abandoned
  deriving DecidableEq, Repr

/-- The edges on the serial pins of a port: chip select falls, the serial clock rises with this level at data-in, the serial
clock falls, chip select rises (R142, log 18). -/
inductive SerialEdge where
  | selectFall (p : Port)
  | clockRise (p : Port) (dataIn : Bool)
  | clockFall (p : Port)
  | selectRise (p : Port)
  deriving DecidableEq, Repr

/-- The record of a port (R147, R156). -/
structure PortRec where
  state : PortState
  period : Nat
  remaining : Nat
  endState : Option EndState
  outstanding : BlockSet
  requested : BlockSet
  reported : BlockSet
  buffer : Response
  queue : List Notice
  markSubs : BitVec 4
  axisSubs : BitVec 4
  peerEnable : Bool
  overrun : Bool
  link : Link
  deriving DecidableEq, Repr

/-! ## The part -/

/-- The levels at the input pins (spec/00_scope.md, Pin and electrical summary). -/
structure Pins where
  encA : Vector Bool 3
  encB : Vector Bool 3
  encZ : Vector Bool 3
  mark : Vector Bool 4
  epoch : Bool
  deriving DecidableEq, Repr

/-- The whole state of the part, with the queue of commands waiting. -/
structure State where
  /-- Commands and events waiting, first in, first out (log 1). -/
  pending : List Instr
  /-- Edges on the serial pins still to come, oldest first, taken while no command waits (R142, log 18). -/
  serial : List SerialEdge
  /-- RSTn is asserted (R1, log 7). -/
  inReset : Bool
  pins : Pins
  uptime : BitVec 32
  axes : Vector AxisRec 4
  encs : Vector EncRec 3
  time : TimeRec
  preset : Option Preset
  epochLevel : Bool
  marks : Vector MarkRec 4
  table : Vector Slot 256
  due : Vector (List EntryIx) 4
  waiting : List EntryIx
  groups : Vector GroupRec 4
  pendingGroups : List Port
  chans : Vector ChanRec 12
  ports : Vector PortRec 4
  /-- Steps of each axis in transit from the AXU to the SCU, oldest first (log 3). -/
  toScu : Vector (List StepMsg) 4
  /-- Events of each axis in transit from the AXU to the MKU, oldest first (log 3). -/
  toMku : Vector (List AxuEvent) 4
  /-- Notices of each axis that wait, oldest first, until the MKU has taken the re-base they follow (R15, log 25); the ports of
  R24 join the ports addressed at the posting. -/
  heldNotices : Vector (List Posting) 4
  /-- Hand-offs in transit from the MKU to the SCU, oldest first (R90). -/
  mkuToScu : List MkuHandoff
  /-- Batches of actions in transit from the SCU to the OTU, oldest first (R132). -/
  toOtu : List (List OutAction)
  /-- Notices in transit to the PIF, oldest first (R158). -/
  posted : List Posting
  deriving DecidableEq, Repr

/-- The empty set of blocks. -/
def BlockSet.empty : BlockSet := ⟨false, false, false, false⟩

/-- The set of all four blocks. -/
def BlockSet.full : BlockSet := ⟨true, true, true, true⟩

/-- An axis record after device reset (R2). -/
def AxisRec.reset : AxisRec := { state := .disabled, value := 0, cause := none }

/-- An encoder axis after device reset, its samples taken from the levels given (R2, R18). -/
def EncRec.reset (a b z : Bool) : EncRec :=
  { decode := .quadX4, invert := false, policy := .hold, refA := a, refB := b, levelZ := z, homeValue := 0,
    searchLimit := 0, searchTravel := 0, recover := false }

/-- A mark input after device reset, its sample taken from the level given (R79). -/
def MarkRec.reset (level : Bool) : MarkRec :=
  { state := .idle, holder := none, refAxis := 0, edge := .rise, direction := .forward, pitch := 1, tolerance := 0,
    missLimit := 0, debounce := 0, last := none, misses := 0, seq := 0, history := [], capture := none,
    deferred := false, level := level }

/-- A group after device reset and after the SCU part of its port's teardown (R105). -/
def GroupRec.reset : GroupRec :=
  { state := .none, ops := [], boundary := none, period := 0, remaining := 0 }

/-- A channel after device reset (R126). -/
def ChanRec.reset : ChanRec :=
  { owner := none, polarity := .activeHigh, safe := false, state := .unowned, remaining := 0 }

/-- A port after device reset (R144, R147, R156). -/
def PortRec.reset (link : Link) : PortRec :=
  { state := .detached, period := 0, remaining := 0, endState := none, outstanding := .empty, requested := .empty,
    reported := .empty, buffer := { status := .noCommand, echo := 0, payload := [] }, queue := [], markSubs := 0,
    axisSubs := 0, peerEnable := false, overrun := false, link := link }

/-- All input pins low (log 6). -/
def Pins.low : Pins :=
  { encA := .replicate 3 false, encB := .replicate 3 false, encZ := .replicate 3 false, mark := .replicate 4 false,
    epoch := false }

/-- The part after device reset with these levels at its input pins, every chip select as given. -/
def State.resetWith (pins : Pins) (links : Vector Link 4) : State :=
  { pending := [], serial := [], inReset := false, pins := pins, uptime := 0, axes := .replicate 4 .reset,
    encs := .ofFn fun x => .reset pins.encA[x] pins.encB[x] pins.encZ[x],
    time := { prescaler := 1, phase := 0 }, preset := none, epochLevel := pins.epoch,
    marks := .ofFn fun m => .reset pins.mark[m],
    table := .replicate 256 { gen := 0, entry := none }, due := .replicate 4 [], waiting := [],
    groups := .replicate 4 .reset, pendingGroups := [], chans := .replicate 12 .reset,
    ports := .ofFn fun p => .reset links[p],
    toScu := .replicate 4 [], toMku := .replicate 4 [], heldNotices := .replicate 4 [], mkuToScu := [], toOtu := [], posted := [] }

/-- The part right after the release of device reset: every field at the value the spec gives for reset, with the input
pins low (log 6) and every chip select high (log 8). -/
def State.reset : State := State.resetWith Pins.low (.replicate 4 .high)

/-- The faults of a step. The spec gives the part no stop: a refused command is a status in a response, and a fault of an
axis is a state of the axis. -/
inductive Fault where
  deriving DecidableEq, Repr

/-- The refusals of a step. -/
inductive Refusal where
  /-- Raised by no arm of `exec`: every command has its meaning. Safe. -/
  | notModelled (mnemonic : String)
  deriving DecidableEq, Repr

end Sys2Proof.Machine
end

