-- ==== Sys2Proof/Machine/Ops.lean ====
section
/-! DEFINITION. The operations that several meanings share: replacing one record of State, posting and queueing notices
(R157 to R159), the questions one block asks another (R3, R13, R20, R24, R34, R98, R139), and the taking of a frame
(R142 to R146). -/

namespace Sys2Proof.Machine

/-! ## Replacing one record -/

def State.setAxis (s : State) (a : AxisId) (r : AxisRec) : State := { s with axes := upd s.axes a r }
def State.setEnc (s : State) (x : EncId) (r : EncRec) : State := { s with encs := upd s.encs x r }
def State.setMark (s : State) (m : MarkId) (r : MarkRec) : State := { s with marks := upd s.marks m r }
def State.setSlot (s : State) (i : EntryIx) (r : Slot) : State := { s with table := upd s.table i r }
def State.setDue (s : State) (a : AxisId) (l : List EntryIx) : State := { s with due := upd s.due a l }
def State.setGroup (s : State) (p : Port) (r : GroupRec) : State := { s with groups := upd s.groups p r }
def State.setChan (s : State) (c : ChanId) (r : ChanRec) : State := { s with chans := upd s.chans c r }
def State.setPort (s : State) (p : Port) (r : PortRec) : State := { s with ports := upd s.ports p r }
def State.setToScu (s : State) (a : AxisId) (l : List StepMsg) : State := { s with toScu := upd s.toScu a l }
def State.setToMku (s : State) (a : AxisId) (l : List AxuEvent) : State := { s with toMku := upd s.toMku a l }
def State.setHeld (s : State) (a : AxisId) (l : List Posting) : State := { s with heldNotices := upd s.heldNotices a l }

/-- The axis that an encoder axis is. -/
def encAxis (x : EncId) : AxisId := ⟨x.val, by omega⟩

/-- The encoder axis that an axis is, if it is not the time axis. -/
def axisEnc (a : AxisId) : Option EncId := if h : a.val < 3 then some ⟨a.val, h⟩ else none

/-- The time axis A3. -/
def timeAxis : AxisId := 3

/-- Whether a value lies in the usable range of an axis (spec/00_scope.md, Units). -/
def inRange (v : Int) : Bool := decide (-Config.axisMax ≤ v) && decide (v ≤ Config.axisMax)

/-! ## The AXU's answers -/

/-- The fault policy of an axis; the time axis behaves as HOLD (R2). -/
def policyOf (s : State) (a : AxisId) : FaultPolicy :=
  match axisEnc a with
  | some x => s.encs[x].policy
  | none => .hold

/-- Whether an axis is frozen: in HOMING, or FAULTED under HOLD (R3). -/
def axisFrozen (s : State) (a : AxisId) : Bool :=
  match s.axes[a].state with
  | .homing => true
  | .faulted => policyOf s a == .hold
  | .disabled | .running => false

/-- The validity of the value of an axis in this state (R3). -/
def validityOf : AxisState → Validity
  | .running => .valid
  | .homing | .faulted => .suspect
  | .disabled => .absent

/-- The axis part of a snapshot: the four values (R20). -/
def snapshotValues (s : State) : Vector Int 4 := s.axes.map (·.value)

/-- The axis part of a snapshot: the validity of each value (R20). -/
def snapshotValidities (s : State) : Vector Validity 4 := s.axes.map (fun r => validityOf r.state)

/-! ## The SCU's answers -/

/-- The records of the non-FREE entries, in index order. -/
def entriesOf (s : State) : List Entry := s.table.toList.filterMap (·.entry)

/-- The number of a port's entries in one state (R34). -/
def countIn (s : State) (p : Port) (st : LiveState) : Nat :=
  (entriesOf s).countP (fun e => e.owner == p && e.state == st)

/-- A port's non-FREE count (R34). -/
def liveCount (s : State) (p : Port) : Nat := (entriesOf s).countP (fun e => e.owner == p)

/-- The table free count (R34). -/
def freeCount (s : State) : Nat := 256 - (entriesOf s).length

/-- The FREE entry with the lowest index (R43). -/
def lowestFree (s : State) : Option EntryIx :=
  (List.finRange 256).find? (fun i => s.table[i].entry.isNone)

/-- The ports that hold a non-FREE entry on an axis (R24). -/
def entryHolders (s : State) (a : AxisId) : List Port :=
  (List.finRange 4).filter (fun p => (entriesOf s).any (fun e => e.owner == p && e.desc.axis == a))

/-- Whether an entry's reference is a mark of this input (R99). -/
def Entry.marksOn (e : Entry) (m : MarkId) : Bool := e.desc.reference != .absolute && e.desc.mark == m

/-- The owners of the references to an axis, one item for each reference (R13): non-FREE entries on it, mark inputs not
IDLE that follow it, and PENDING groups with a boundary AT_POSITION on it. -/
def axisReferences (s : State) (a : AxisId) : List (Option Port) :=
  ((entriesOf s).filter (fun e => e.desc.axis == a)).map (fun e => some e.owner)
    ++ (s.marks.toList.filter (fun m => m.state != .idle && m.refAxis == a)).map (·.holder)
    ++ ((List.finRange 4).filter (fun p => s.groups[p].state == .pending
        && (match s.groups[p].boundary with
            | some (.atPosition b _ _) => b == a
            | _ => false))).map some

/-- The all-ports reference test (R13). -/
def axisReferenced (s : State) (a : AxisId) : Bool := !(axisReferences s a).isEmpty

/-- The foreign reference test on behalf of a port (R13). -/
def axisForeign (s : State) (a : AxisId) (p : Port) : Bool := (axisReferences s a).any (· != some p)

/-! ## The OTU's answers -/

/-- The channels of a mask, in ascending number (R67). -/
def maskChans (mask : BitVec 12) : List ChanId := (List.finRange 12).filter (fun c => mask.getLsbD c.val)

/-- Whether a port owns every channel of a mask (R41, R139). -/
def ownsMask (s : State) (p : Port) (mask : BitVec 12) : Bool :=
  (maskChans mask).all (fun c => s.chans[c].owner == some p)

/-- The set of channels a port owns, as a mask (R139). -/
def ownedMask (s : State) (p : Port) : Nat :=
  ((List.finRange 12).map (fun c => if s.chans[c].owner == some p then 2 ^ c.val else 0)).sum

/-- The set of mark inputs a port holds, as a mask (R79). -/
def heldMask (s : State) (p : Port) : Nat :=
  ((List.finRange 4).map (fun m => if s.marks[m].holder == some p then 2 ^ m.val else 0)).sum

/-! ## The PIF's answers and the notices -/

/-- Whether a port is ATTACHED (R147). -/
def attached (s : State) (p : Port) : Bool := s.ports[p].state == .attached

/-- A block hands a notice to the PIF, addressed to these ports (R157). -/
def post (b : NoticeBody) (recipients : List Port) (s : State) : State :=
  { s with posted := s.posted ++ [{ body := b, addressed := recipients }] }

/-- Whether a port's subscriptions ask for a notice (R159). -/
def PortRec.subscribes (r : PortRec) : NoticeBody → Bool
  | .markCaptured m .. | .markRejected m .. | .markLost m .. => r.markSubs.getLsbD m.val
  | .axisFault a .. | .axisRecovered a .. | .axisRebased a .. => r.axisSubs.getLsbD a.val
  | .epochSeen .. => r.axisSubs.getLsbD timeAxis.val
  | .fired .. | .retired .. | .lateDropped .. | .withdrawn .. | .markOverrun .. | .unresolved .. | .groupApplied ..
  | .groupDiscarded .. | .peer .. => false

/-- One copy of a notice at one port: queued, lost to a full queue, or discarded (R157). -/
def PortRec.receive (r : PortRec) (n : Notice) : PortRec :=
  if r.state = .attached then
    if r.queue.length < Config.queueCapacity then { r with queue := r.queue ++ [n] } else { r with overrun := true }
  else r

/-- The PIF takes one posted notice: it stamps it and treats a copy for each recipient (R157). -/
def deliver (q : Posting) (s : State) : State :=
  { s with ports := .ofFn fun p =>
      if q.addressed.contains p || s.ports[p].subscribes q.body then
        s.ports[p].receive { stamp := s.uptime, body := q.body }
      else s.ports[p] }

/-- The PIF takes the oldest notice in transit (R157, R158). -/
def takePosting (s : State) : State :=
  match s.posted with
  | [] => s
  | q :: rest => deliver q { s with posted := rest }

/-- The PIF takes every notice in transit, oldest first (log 5). -/
def takePostings (s : State) : State :=
  s.posted.foldl (fun t q => deliver q t) { s with posted := [] }

/-- The attention line of a port is asserted, that is low (R165). -/
def attnAsserted (s : State) (p : Port) : Bool := attached s p && !s.ports[p].queue.isEmpty

/-- The start of a port's teardown (R151). -/
def startTeardown (p : Port) (e : EndState) (s : State) : State :=
  s.setPort p { s.ports[p] with state := .releasing, endState := some e, remaining := 0, queue := [], markSubs := 0,
                                axisSubs := 0, peerEnable := false, overrun := false, outstanding := .full,
                                requested := .full, reported := .empty }

/-! ## Taking a frame -/

/-- What an owning block answers: a status and a payload. -/
structure Answer where
  status : Status
  payload : List Byte
  deriving DecidableEq, Repr

/-- The answer OK with this payload. -/
def Answer.ok (payload : List Byte) : Answer := ⟨.ok, payload⟩

/-- A refusal: no payload (R167). -/
def Answer.refuse (st : Status) : Answer := ⟨st, []⟩

/-- The response buffer of a port takes this answer (R144). -/
def respond (p : Port) (echo : Byte) (ans : Answer) (s : State) : State :=
  s.setPort p { s.ports[p] with buffer := { status := ans.status, echo := echo, payload := ans.payload } }

/-- The lease of an ATTACHED port is renewed (R145, R149). -/
def renewLease (p : Port) (s : State) : State :=
  if attached s p then s.setPort p { s.ports[p] with remaining := s.ports[p].period * Config.ticksPerMs } else s

/-- Chip select is high again (R142). -/
def raiseSelect (p : Port) (s : State) : State := s.setPort p { s.ports[p] with link := .high }

/-- The refusal of a command by the port state, check 3 of R145. -/
def stateRefusal (c : Command) (st : PortState) : Option Status :=
  match c with
  | .nop | .ident | .status => none
  | .attach =>
    match st with
    | .releasing => some .busy
    | .detached | .attached | .expired => none
  | _ =>
    match st with
    | .detached => some .notAttached
    | .attached => none
    | .releasing => some .busy
    | .expired => some .expired

/-- A malformed transaction loads FRAME_ERROR with the first byte received as the echo (R143). -/
def rejectFrame (p : Port) (first : Byte) (s : State) : State := respond p first (.refuse .frameError) s

/-- The rise of chip select after one or more bytes: what follows is not run for a transaction that began before the
release of device reset, nor while reset is asserted (R142). -/
def atRise (p : Port) (run : State → State) (s : State) : State :=
  if s.inReset || s.ports[p].link == .abandoned then raiseSelect p s else run (raiseSelect p s)

/-- A well-formed frame with this command code: the lease is renewed, then LEN and the port state are checked, then the
owning block acts and answers (R145, R146). A payload above 58 bytes makes the transaction malformed (R143). -/
def takeFrame (p : Port) (c : Command) (payload : List Byte) (act : State → State × Answer) (s : State) : State :=
  atRise p (fun s =>
    if Config.maxPayload < payload.length then rejectFrame p c.code s
    else
      let s := renewLease p s
      if payload.length ≠ c.length then respond p c.code (.refuse .badLength) s
      else
        match stateRefusal c s.ports[p].state with
        | some st => respond p c.code (.refuse st) s
        | none => let (s, ans) := act s; respond p c.code ans s) s

end Sys2Proof.Machine
end

