-- ==== Sys2Proof/Machine/Flags.lean ====
section
/-! DEFINITION. The codes of the layouts chapter (spec/09, Status codes and Enumerated codes), the PORTFLAGS byte (R155)
and the response frame (R142). -/

namespace Sys2Proof.Machine

/-- Status codes (spec/09, Status codes). -/
def Status.code : Status → Byte
  | .ok => 0x00
  | .noCommand => 0x01
  | .frameError => 0x02
  | .unknownCode => 0x03
  | .badLength => 0x04
  | .badField => 0x05
  | .notAttached => 0x06
  | .expired => 0x07
  | .busy => 0x08
  | .owned => 0x09
  | .notOwner => 0x0A
  | .inUse => 0x0B
  | .tableFull => 0x0C
  | .quotaFull => 0x0D
  | .stale => 0x0E
  | .groupState => 0x0F
  | .groupFull => 0x10
  | .late => 0x11
  | .axisState => 0x12
  | .markState => 0x13
  | .peerUnavailable => 0x14
  | .peerFull => 0x15

/-! Enumerated codes (spec/09, Enumerated codes). -/

def AxisState.code : AxisState → Nat
  | .disabled => 0
  | .running => 1
  | .homing => 2
  | .faulted => 3

def Validity.code : Validity → Nat
  | .valid => 0
  | .suspect => 1
  | .absent => 2

def Approach.code : Approach → Nat
  | .forward => 0
  | .reverse => 1
  | .either => 2

def Direction.code : Direction → Nat
  | .forward => 0
  | .reverse => 1

def Reference.code : Reference → Nat
  | .absolute => 0
  | .markOnce => 1
  | .markEach => 2

def Action.code : Action → Nat
  | .pulse => 0
  | .set => 1
  | .clear => 2
  | .toggle => 3

def LatePolicy.code : LatePolicy → Nat
  | .fireLate => 0
  | .dropLate => 1

def Notify.code : Notify → Nat
  | .none => 0
  | .each => 1
  | .last => 2

def LiveState.code : LiveState → Nat
  | .staged => 1
  | .waiting => 2
  | .armed => 3

/-- The code of a table entry's state; FREE is 0. -/
def entryStateCode : Option Entry → Nat
  | none => 0
  | some e => e.state.code

def MarkState.code : MarkState → Nat
  | .idle => 0
  | .seeking => 1
  | .tracking => 2
  | .suspended => 3

def Edge.code : Edge → Nat
  | .rise => 0
  | .fall => 1
  | .both => 2

def CaptureKind.code : CaptureKind → Nat
  | .real => 0
  | .substituted => 1

def GroupState.code : GroupState → Nat
  | .none => 0
  | .staging => 1
  | .pending => 2

def Boundary.code : Boundary → Nat
  | .atMark _ => 1
  | .atPosition .. => 2

def ChanState.code : ChanState → Nat
  | .unowned => 0
  | .rest => 1
  | .active => 2
  | .pulsing => 3

def Polarity.code : Polarity → Nat
  | .activeHigh => 0
  | .activeLow => 1

def PortState.code : PortState → Nat
  | .detached => 0
  | .attached => 1
  | .releasing => 2
  | .expired => 3

def EndCause.code : EndCause → Nat
  | .complete => 0
  | .rangeExit => 1
  | .allLate => 2
  | .marksDone => 3
  | .inputStopped => 4

def WithdrawCause.code : WithdrawCause → Nat
  | .stopped => 0
  | .holderGone => 1

def LostCause.code : LostCause → Nat
  | .missed => 0
  | .rebase => 1
  | .axisFault => 2
  | .stopped => 3

def DiscardCause.code : DiscardCause → Nat
  | .expired => 0
  | .markStopped => 1

def FaultCause.code : FaultCause → Nat
  | .quadError => 0
  | .overrange => 1
  | .homeFailed => 2

def Recovery.code : Recovery → Nat
  | .set => 0
  | .home => 1

def RebaseCause.code : RebaseCause → Nat
  | .set => 0
  | .home => 1
  | .epoch => 2

def EpochResult.code : EpochResult → Nat
  | .applied => 0
  | .noPreset => 1
  | .notRunning => 2
  | .inUse => 3

/-- The code of a port that may be absent: none is 0xFF. -/
def portCode : Option Port → Nat
  | none => 0xFF
  | some p => p.val

/-- A flag or a level as one byte's bit. -/
def bit (b : Bool) : Nat := if b then 1 else 0

/-- Whether some axis is FAULTED (R3). -/
def someAxisFaulted (s : State) : Bool := s.axes.any (fun r => r.state == .faulted)

/-- The PORTFLAGS byte of a port (R155). -/
def portFlags (s : State) (p : Port) : Byte :=
  let r := s.ports[p]
  BitVec.ofNat 8 (r.state.code + 4 * bit (!r.queue.isEmpty) + 8 * bit r.overrun
    + 16 * s.groups[p].state.code + 64 * bit (someAxisFaulted s))

/-- The response frame with these flags (R142; spec/09, Frames). -/
def Response.frame (r : Response) (flags : Byte) : List Byte :=
  let head := r.status.code :: r.echo :: flags :: BitVec.ofNat 8 r.payload.length :: r.payload
  head ++ leBytes 2 (byteSum head)

/-- The byte a port sends at place `n` of a transaction: after the response frame every byte reads 0xFF (R142). -/
def sentByte (frame : List Byte) (n : Nat) : Byte := frame.getD n 0xFF

/-- The bit a port presents at place `n` of a transaction: most significant bit of each byte first (R142). -/
def sentBit (frame : List Byte) (n : Nat) : Bool := (sentByte frame (n / 8)).getMsbD (n % 8)

end Sys2Proof.Machine
end

