-- ==== Sys2Proof/Machine/Operands.lean ====
section
/-! DEFINITION. The operands of the frame commands: each field read at its offset (spec/09, Command payloads) and judged
by the field checks of its command. `none` is the refusal BAD_FIELD. -/

namespace Sys2Proof.Machine

/-! ## Codes read back (R166: a code outside the listed values fails the field check) -/

/-- A number below 4: an axis, a mark input or a port. -/
def fin4 (n : Nat) : Option (Fin 4) := if h : n < 4 then some ⟨n, h⟩ else none

/-- A number below 12: a channel. -/
def chanOf (n : Nat) : Option ChanId := if h : n < 12 then some ⟨n, h⟩ else none

/-- A byte that is 0 or 1. -/
def flagOf : Nat → Option Bool
  | 0 => some false
  | 1 => some true
  | _ => none

def Decode.ofCode : Nat → Option Decode
  | 0 => some .quadX1
  | 1 => some .quadX2
  | 2 => some .quadX4
  | 3 => some .stepDir
  | _ => none

def FaultPolicy.ofCode : Nat → Option FaultPolicy
  | 0 => some .hold
  | 1 => some .continued
  | _ => none

def Approach.ofCode : Nat → Option Approach
  | 0 => some .forward
  | 1 => some .reverse
  | 2 => some .either
  | _ => none

def Direction.ofCode : Nat → Option Direction
  | 0 => some .forward
  | 1 => some .reverse
  | _ => none

def Reference.ofCode : Nat → Option Reference
  | 0 => some .absolute
  | 1 => some .markOnce
  | 2 => some .markEach
  | _ => none

def Action.ofCode : Nat → Option Action
  | 0 => some .pulse
  | 1 => some .set
  | 2 => some .clear
  | 3 => some .toggle
  | _ => none

def LatePolicy.ofCode : Nat → Option LatePolicy
  | 0 => some .fireLate
  | 1 => some .dropLate
  | _ => none

def Notify.ofCode : Nat → Option Notify
  | 0 => some .none
  | 1 => some .each
  | 2 => some .last
  | _ => none

def Edge.ofCode : Nat → Option Edge
  | 0 => some .rise
  | 1 => some .fall
  | 2 => some .both
  | _ => none

def Polarity.ofCode : Nat → Option Polarity
  | 0 => some .activeHigh
  | 1 => some .activeLow
  | _ => none

/-- A value within the usable range of an axis. -/
def rangedValue (v : Int) : Option Int := if inRange v then some v else none

/-- A number within bounds, both included. -/
def boundedNat (lo hi n : Nat) : Option Nat := if lo ≤ n ∧ n ≤ hi then some n else none

/-- A non-empty set of channels among OUT0 to OUT11. -/
def channelMask (n : Nat) : Option (BitVec 12) := if 0 < n ∧ n < 4096 then some (BitVec.ofNat 12 n) else none

/-- Goes on when the condition holds, refuses otherwise. -/
def demand (b : Bool) : Option Unit := if b then some () else none

/-! ## Axis commands -/

/-- The configuration that AXIS_CONFIG carries (R11). -/
inductive AxisConfigOp where
  | encoder (x : EncId) (decode : Decode) (invert : Bool) (policy : FaultPolicy)
  | time (prescaler : Nat)
  deriving DecidableEq, Repr

/-- The axis that a configuration names. -/
def AxisConfigOp.axis : AxisConfigOp → AxisId
  | .encoder x .. => encAxis x
  | .time _ => timeAxis

/-- AXIS_CONFIG: axis 1, decode 1, invert 1, fault policy 1, prescaler 2, with check 1 of R11. -/
def parseAxisConfig (pl : List Byte) : Option AxisConfigOp := do
  let a ← fin4 (field pl 0 1)
  match axisEnc a with
  | some x =>
    let decode ← Decode.ofCode (field pl 1 1)
    let invert ← flagOf (field pl 2 1)
    let policy ← FaultPolicy.ofCode (field pl 3 1)
    demand (field pl 4 2 == 0)
    return .encoder x decode invert policy
  | none =>
    demand (field pl 1 1 == 0 && field pl 2 1 == 0 && field pl 3 1 == 0)
    let prescaler ← boundedNat 1 1000 (field pl 4 2)
    return .time prescaler

/-- AXIS_SET: axis 1, value 6, with check 1 of R16. -/
def parseAxisSet (pl : List Byte) : Option (AxisId × Int) := do
  let a ← fin4 (field pl 0 1)
  let v ← rangedValue (fieldInt48 pl 1)
  return (a, v)

/-- AXIS_HOME: axis 1, home value 6, search limit 4, with check 1 of R17. -/
def parseAxisHome (pl : List Byte) : Option (EncId × Int × Nat) := do
  let a ← fin4 (field pl 0 1)
  let x ← axisEnc a
  let home ← rangedValue (fieldInt48 pl 1)
  let limit ← boundedNat 1 Config.countMax (field pl 7 4)
  return (x, home, limit)

/-! ## The trigger description -/

/-- ARM: the trigger description of 26 bytes, with the range checks of R37 and the combination checks of R38. -/
def parseTrigger (pl : List Byte) : Option TriggerDesc := do
  let axis ← fin4 (field pl 2 1)
  let approach ← Approach.ofCode (field pl 3 1)
  let reference ← Reference.ofCode (field pl 4 1)
  let mark ← fin4 (field pl 5 1)
  let markCount := field pl 6 1
  let place ← rangedValue (fieldInt48 pl 7)
  let act ← Action.ofCode (field pl 13 1)
  let mask ← channelMask (field pl 14 2)
  let width := field pl 16 2
  let repeats := field pl 18 2
  let interval := field pl 20 4
  let skip := field pl 24 1
  let policy := field pl 25 1
  let late ← LatePolicy.ofCode (policy % 16)
  let notify ← Notify.ofCode (policy / 16)
  -- R37
  demand (!(act == .pulse && width == 0))
  demand (repeats == 1 || (1 ≤ interval && interval ≤ Config.countMax))
  -- R38
  demand (!(axis == timeAxis && approach != .forward))
  demand (!(approach == .either && repeats != 1))
  demand (!(reference == .absolute && (mark != 0 || markCount != 0)))
  demand (!(reference == .markOnce && markCount != 0))
  demand (!(act != .pulse && width != 0))
  demand (!(repeats == 1 && interval != 0))
  demand (!(skip % 16 == 0 && skip / 16 != 0))
  return { tag := BitVec.ofNat 16 (field pl 0 2), axis := axis, approach := approach, reference := reference,
           mark := mark, markCount := markCount, place := place, action := act, mask := mask, width := width,
           repeats := repeats, interval := interval, fireN := skip % 16, skipN := skip / 16, late := late,
           notify := notify }

/-- The 26 bytes of a trigger description (spec/09, The trigger description). -/
def TriggerDesc.bytes (d : TriggerDesc) : List Byte :=
  leBytes 2 d.tag.toNat ++ leBytes 1 d.axis.val ++ leBytes 1 d.approach.code ++ leBytes 1 d.reference.code
    ++ leBytes 1 d.mark.val ++ leBytes 1 d.markCount ++ leInt48 d.place ++ leBytes 1 d.action.code
    ++ leBytes 2 d.mask.toNat ++ leBytes 2 d.width ++ leBytes 2 d.repeats ++ leBytes 4 d.interval
    ++ leBytes 1 (d.fireN + 16 * d.skipN) ++ leBytes 1 (d.late.code + 16 * d.notify.code)

/-- CANCEL and RECORD_READ: index 1, generation 1. -/
def parseHandle (pl : List Byte) : Handle :=
  { index := ⟨field pl 0 1 % 256, Nat.mod_lt _ (by decide)⟩, gen := BitVec.ofNat 8 (field pl 1 1) }

/-! ## Group, mark and channel commands -/

/-- The boundary that GROUP_END carries (R112). -/
inductive GroupEndOp where
  | now
  | at (b : Boundary)
  deriving DecidableEq, Repr

/-- GROUP_END: boundary 1, input or axis 1, direction 1, value 6, expiry 2, with check 2 of R112. -/
def parseGroupEnd (pl : List Byte) : Option GroupEndOp :=
  match field pl 0 1 with
  | 0 => do
    demand (field pl 1 1 == 0 && field pl 2 1 == 0 && field pl 3 6 == 0)
    return .now
  | 1 => do
    let m ← fin4 (field pl 1 1)
    demand (field pl 2 1 == 0 && field pl 3 6 == 0)
    return .at (.atMark m)
  | 2 => do
    let a ← fin4 (field pl 1 1)
    let dir ← Direction.ofCode (field pl 2 1)
    demand (!(a == timeAxis && dir == .reverse))
    let v ← rangedValue (fieldInt48 pl 3)
    return .at (.atPosition a v dir)
  | _ => none

/-- The expiry period of GROUP_END in ms. -/
def groupEndPeriod (pl : List Byte) : Nat := field pl 9 2

/-- The configuration of a mark input (R81). -/
structure MarkConfigOp where
  m : MarkId
  refAxis : AxisId
  edge : Edge
  direction : Direction
  pitch : Nat
  tolerance : Nat
  missLimit : Nat
  debounce : Nat
  deriving DecidableEq, Repr

/-- MARK_CONFIG: input 1, reference axis 1, edge 1, direction 1, pitch 4, tolerance 4, miss limit 1, debounce 1, with
check 1 of R81. -/
def parseMarkConfig (pl : List Byte) : Option MarkConfigOp := do
  let m ← fin4 (field pl 0 1)
  let a ← fin4 (field pl 1 1)
  let edge ← Edge.ofCode (field pl 2 1)
  let dir ← Direction.ofCode (field pl 3 1)
  demand (!(a == timeAxis && dir == .reverse))
  let pitch ← boundedNat 1 Config.countMax (field pl 4 4)
  demand (field pl 8 4 < pitch)
  let missLimit ← boundedNat 0 15 (field pl 12 1)
  return { m := m, refAxis := a, edge := edge, direction := dir, pitch := pitch, tolerance := field pl 8 4,
           missLimit := missLimit, debounce := field pl 13 1 }

/-- CHANNEL_CLAIM: channel 1, polarity 1, safe level 1, with check 1 of R128. -/
def parseClaim (pl : List Byte) : Option (ChanId × Polarity × Bool) := do
  let c ← chanOf (field pl 0 1)
  let pol ← Polarity.ofCode (field pl 1 1)
  let safe ← flagOf (field pl 2 1)
  return (c, pol, safe)

/-- What CHANNEL_DRIVE carries (R137). -/
structure DriveOp where
  mask : BitVec 12
  act : Action
  width : Nat
  deriving DecidableEq, Repr

/-- CHANNEL_DRIVE: channel mask 2, action 1, width 2, with check 1 of R137. -/
def parseDrive (pl : List Byte) : Option DriveOp := do
  let mask ← channelMask (field pl 0 2)
  let act ← Action.ofCode (field pl 2 1)
  let width := field pl 3 2
  demand (!(act == .pulse && width == 0))
  demand (!(act != .pulse && width != 0))
  return { mask := mask, act := act, width := width }

/-- SUBSCRIBE: mark set 1, axis set 1, peer enable 1, with the check of R160. -/
def parseSubscribe (pl : List Byte) : Option (BitVec 4 × BitVec 4 × Bool) := do
  demand (field pl 0 1 < 16)
  demand (field pl 1 1 < 16)
  let peer ← flagOf (field pl 2 1)
  return (BitVec.ofNat 4 (field pl 0 1), BitVec.ofNat 4 (field pl 1 1), peer)

end Sys2Proof.Machine
end

