-- ==== Sys2Proof/Machine/Layout.lean ====
section
/-! DEFINITION. The bytes of records and notices (spec/09, Records returned and Notices; R167). A field with nothing to
report reads 0, and a port field that names no port reads 0xFF (R167, log 10). -/

namespace Sys2Proof.Machine

/-- The pin level of a channel (R127). -/
def ChanRec.pin (r : ChanRec) : Bool :=
  match r.state with
  | .unowned => r.safe
  | .rest => r.polarity == .activeLow
  | .active | .pulsing => r.polarity == .activeHigh

/-- One record of CHANNEL_STATUS. -/
def ChanRec.bytes (r : ChanRec) : List Byte :=
  leBytes 1 (portCode r.owner)
    ++ leBytes 1 (r.state.code + 4 * r.polarity.code + 8 * bit r.safe + 16 * bit r.pin)
    ++ leBytes 2 r.remaining

/-- A capture record (R102). -/
def Capture.bytes (c : Capture) : List Byte :=
  leBytes 1 c.input.val ++ leBytes 1 c.kind.code ++ leBytes 2 c.seq.toNat ++ leBytes 4 c.stamp.toNat
    ++ c.values.toList.flatMap leInt48 ++ c.validities.toList.flatMap (fun v => leBytes 1 v.code)

/-- The AXIS_READ snapshot (R20). -/
def snapshotBytes (s : State) : List Byte :=
  s.axes.toList.flatMap (fun r => leBytes 1 r.state.code) ++ s.axes.toList.flatMap (fun r => leInt48 r.value)
    ++ leBytes 4 s.uptime.toNat

/-- The owed mark's part of an entry record: sequence number, stamp, and the value and validity of the entry's axis. -/
def owedBytes (a : AxisId) : Option Capture → List Byte
  | none => leBytes 13 0
  | some c => leBytes 2 c.seq.toNat ++ leBytes 4 c.stamp.toNat ++ leInt48 c.values[a]
      ++ leBytes 1 (c.validities[a]).code

/-- The entry record of RECORD_READ (R48). -/
def Entry.bytes (h : Handle) (e : Entry) : List Byte :=
  leBytes 1 h.index.val ++ leBytes 1 h.gen.toNat ++ leBytes 1 e.state.code ++ e.desc.bytes
    ++ leBytes 1 (bit e.target.isSome + 2 * bit e.owed.isSome + 4 * bit e.finalBurst)
    ++ leInt48 (e.target.getD 0) ++ leBytes 2 e.occ ++ leBytes 1 e.marksLeft ++ owedBytes e.desc.axis e.owed

/-- Base ticks in whole milliseconds, rounded up (R124, R153). -/
def ticksToMs (t : Nat) : Nat := (t + 999) / 1000

/-- The STATUS payload (R153). -/
def statusBytes (s : State) (p : Port) : List Byte :=
  let r := s.ports[p]
  leBytes 1 p.val ++ leBytes 1 r.state.code ++ leBytes 2 r.period
    ++ leBytes 2 (if r.state = .attached then ticksToMs r.remaining else 0) ++ leBytes 1 r.queue.length
    ++ leBytes 1 (bit r.overrun) ++ leBytes 1 (s.groups[p].state.code) ++ leBytes 2 (ownedMask s p)
    ++ leBytes 1 (liveCount s p) ++ leBytes 1 (heldMask s p)

/-- The MARK_STATUS payload (R103). -/
def MarkRec.bytes (r : MarkRec) : List Byte :=
  leBytes 1 r.state.code ++ leBytes 1 (portCode r.holder) ++ leBytes 2 r.seq.toNat ++ leBytes 1 r.misses
    ++ leBytes 1 r.history.length ++ leBytes 1 (bit r.last.isSome) ++ leInt48 ((r.last.map (·.ref)).getD 0)
    ++ leBytes 1 r.refAxis.val ++ leBytes 1 r.edge.code ++ leBytes 1 r.direction.code ++ leBytes 4 r.pitch
    ++ leBytes 4 r.tolerance ++ leBytes 1 r.missLimit ++ leBytes 1 r.debounce

/-- The boundary fields of GROUP_STATUS and GROUP_DISCARDED: boundary 1, input or axis 1, direction 1, value 6. An absent
boundary reads 0 (log 10). -/
def boundaryBytes : Option Boundary → List Byte
  | none => leBytes 9 0
  | some (.atMark m) => leBytes 1 1 ++ leBytes 1 m.val ++ leBytes 7 0
  | some (.atPosition a v dir) => leBytes 1 2 ++ leBytes 1 a.val ++ leBytes 1 dir.code ++ leInt48 v

/-- Whether an operation is of kind ARM (R124). -/
def GroupOp.isArm : GroupOp → Bool
  | .arm .. => true
  | .cancel _ | .drive .. => false

/-- The GROUP_STATUS payload (R124). -/
def GroupRec.bytes (g : GroupRec) : List Byte :=
  leBytes 1 g.state.code ++ leBytes 1 g.ops.length ++ leBytes 1 (g.ops.countP GroupOp.isArm)
    ++ boundaryBytes g.boundary ++ leBytes 2 (if g.state = .pending then ticksToMs g.remaining else 0)

/-- A handle as two bytes. -/
def Handle.bytes (h : Handle) : List Byte := leBytes 1 h.index.val ++ leBytes 1 h.gen.toNat

/-- The kind value of a notice (R159). -/
def NoticeBody.kind : NoticeBody → Byte
  | .fired .. => 0x01
  | .retired .. => 0x02
  | .lateDropped .. => 0x03
  | .withdrawn .. => 0x04
  | .markOverrun .. => 0x05
  | .unresolved .. => 0x06
  | .markCaptured .. => 0x10
  | .markRejected .. => 0x11
  | .markLost .. => 0x12
  | .groupApplied .. => 0x20
  | .groupDiscarded .. => 0x21
  | .axisFault .. => 0x30
  | .axisRecovered .. => 0x31
  | .axisRebased .. => 0x32
  | .epochSeen .. => 0x33
  | .peer .. => 0x40

/-- The fields of a notice body as the layout lists them, without the bytes it does not assign. -/
def NoticeBody.fields : NoticeBody → List Byte
  | .fired h tag occ v late => h.bytes ++ leBytes 2 tag.toNat ++ leBytes 2 occ ++ leInt48 v ++ leBytes 1 (bit late)
  | .retired h tag cause occ => h.bytes ++ leBytes 2 tag.toNat ++ leBytes 1 cause.code ++ leBytes 2 occ
  | .lateDropped h tag first count ended =>
    h.bytes ++ leBytes 2 tag.toNat ++ leBytes 2 first ++ leBytes 4 count ++ leBytes 1 (bit ended)
  | .withdrawn h tag m cause => h.bytes ++ leBytes 2 tag.toNat ++ leBytes 1 m.val ++ leBytes 1 cause.code
  | .markOverrun h tag m replaced new =>
    h.bytes ++ leBytes 2 tag.toNat ++ leBytes 1 m.val ++ leBytes 2 replaced.toNat ++ leBytes 2 new.toNat
  | .unresolved h tag m seq a v =>
    h.bytes ++ leBytes 2 tag.toNat ++ leBytes 1 m.val ++ leBytes 2 seq.toNat ++ leBytes 1 a.val ++ leBytes 1 v.code
  | .markCaptured m kind seq ref misses =>
    leBytes 1 m.val ++ leBytes 1 kind.code ++ leBytes 2 seq.toNat ++ leInt48 ref ++ leBytes 1 misses
  | .markRejected m ref seq => leBytes 1 m.val ++ leInt48 ref ++ leBytes 2 seq.toNat
  | .markLost m cause seq v => leBytes 1 m.val ++ leBytes 1 cause.code ++ leBytes 2 seq.toNat ++ leInt48 v
  | .groupApplied at_ applied skipped first =>
    let tail := match at_ with
      | .now => []
      | .atMark m seq => leBytes 1 m.val ++ leBytes 2 seq.toNat
      | .atPosition a v => leBytes 1 a.val ++ leInt48 v
    let kind := match at_ with
      | .now => 0
      | .atMark .. => 1
      | .atPosition .. => 2
    leBytes 1 kind ++ leBytes 1 applied ++ leBytes 1 skipped ++ leBytes 1 (first.getD 0xFF) ++ tail
  | .groupDiscarded cause count boundary => leBytes 1 cause.code ++ leBytes 1 count ++ boundaryBytes boundary
  | .axisFault a cause continued v =>
    leBytes 1 a.val ++ leBytes 1 cause.code ++ leBytes 1 (bit continued) ++ leInt48 v
  | .axisRecovered a by_ v => leBytes 1 a.val ++ leBytes 1 by_.code ++ leInt48 v
  | .axisRebased a cause old new => leBytes 1 (a.val + 16 * cause.code) ++ leInt48 old ++ leInt48 new
  | .epochSeen result v => leBytes 1 result.code ++ leInt48 v
  | .peer sender word => leBytes 1 sender.val ++ leBytes 2 word.toNat

/-- The 18 bytes of a notice: kind, uptime stamp, and a body of 13 bytes (spec/09, Notices). -/
def Notice.bytes (n : Notice) : List Byte :=
  n.body.kind :: leBytes 4 n.stamp.toNat ++ (n.body.fields ++ List.replicate (13 - n.body.fields.length) 0)

end Sys2Proof.Machine
end

