-- ==== Sys2Proof/Machine/Axis.lean ====
section
/-! DEFINITION. The Axis Unit (spec/01_axes_and_the_timebase.md): counts and steps, faults, re-bases, homing, the axis
commands, the epoch input and the time preset slot, and the AXU part of a teardown. -/

namespace Sys2Proof.Machine

/-! ## What the AXU hands on -/

/-- The AXU hands the MKU an event of an axis, after those it handed before (R4, R8, R15). -/
def tellMku (a : AxisId) (e : AxuEvent) (s : State) : State := s.setToMku a (s.toMku[a] ++ [e])

/-- The AXU hands a step to the SCU and to the MKU (R8). -/
def handStep (a : AxisId) (m : StepMsg) (s : State) : State :=
  tellMku a (.step m) (s.setToScu a (s.toScu[a] ++ [m]))

/-- The ports that hold an entry on the axis of AXIS_FAULT and AXIS_REBASED, at the moment of posting (R24). -/
def noticeHolders (s : State) : NoticeBody → List Port
  | .axisFault a .. | .axisRebased a .. => entryHolders s a
  | _ => []

/-- What a notice of the AXU carries as it is posted: AXIS_FAULT the axis value of that moment, the others the values of the
event they tell of (R24, log 25). -/
def noticeAtPosting (s : State) : NoticeBody → NoticeBody
  | .axisFault a cause continued _ => .axisFault a cause continued s.axes[a].value
  | body => body

/-- A notice of the AXU as it is posted, with what R24 takes at that moment: the value of AXIS_FAULT, and the holders. -/
def asPosted (s : State) (q : Posting) : Posting :=
  ⟨noticeAtPosting s q.body, q.addressed ++ noticeHolders s q.body⟩

/-- Whether a notice is AXIS_REBASED. -/
def Posting.isRebased (q : Posting) : Bool :=
  match q.body with
  | .axisRebased .. => true
  | _ => false

/-- The AXU has a notice of an axis: it is posted at once, or joins those that wait behind a re-base of the axis (R15, R24,
log 25). -/
def notify (a : AxisId) (q : Posting) (s : State) : State :=
  { s with
    posted := if s.heldNotices[a] = [] then s.posted ++ [asPosted s q] else s.posted
    heldNotices := if s.heldNotices[a] = [] then s.heldNotices else upd s.heldNotices a (s.heldNotices[a] ++ [q]) }

/-- The MKU has taken a re-base of an axis: its AXIS_REBASED is posted, and the notices behind it up to the next re-base that
the MKU has not taken (R15, log 25). -/
def releaseNotices (a : AxisId) (s : State) : State :=
  match s.heldNotices[a] with
  | [] => s
  | q :: rest =>
    { s with
      posted := s.posted ++ (q :: rest.takeWhile (fun q => !q.isRebased)).map (asPosted s)
      heldNotices := upd s.heldNotices a (rest.dropWhile (fun q => !q.isRebased)) }

/-- AXIS_FAULT goes to the subscribers and to the ports holding an entry on the axis (R24). -/
def postFault (a : AxisId) (cause : FaultCause) (continued : Bool) (s : State) : State :=
  notify a ⟨.axisFault a cause continued s.axes[a].value, []⟩ s

/-- The axis enters FAULTED with this cause (R2). -/
def enterFaulted (a : AxisId) (cause : FaultCause) (s : State) : State :=
  s.setAxis a { s.axes[a] with state := .faulted, cause := some cause }

/-- The axis enters RUNNING, its fault cause none (R2). -/
def enterRunning (a : AxisId) (s : State) : State :=
  s.setAxis a { s.axes[a] with state := .running, cause := none }

/-! ## Counting (R8, R9, R19) -/

/-- The value one count away in a direction. -/
def Direction.next (d : Direction) (v : Int) : Int :=
  match d with
  | .forward => v + 1
  | .reverse => v - 1

/-- A step of a HOMING axis adds one to its search travel, and ends the search when the travel exceeds the limit (R19). -/
def searchStep (x : EncId) (s : State) : State :=
  let a := encAxis x
  let r := s.encs[x]
  if r.searchLimit < r.searchTravel + 1 then
    let s := enterFaulted a .homeFailed (s.setEnc x { r with searchTravel := 0, recover := false })
    let s := postFault a .homeFailed false s
    if r.policy = .continued then tellMku a .thaw s else s
  else s.setEnc x { r with searchTravel := r.searchTravel + 1 }

/-- A count within the range: the value changes by one and the step is handed on (R8); then a search takes note of it
(R19). -/
def applyCount (a : AxisId) (d : Direction) (s : State) : State :=
  let v := d.next s.axes[a].value
  let frozen := axisFrozen s a
  let homing := s.axes[a].state == .homing
  let s := handStep a { dir := d, value := v, frozen := frozen } (s.setAxis a { s.axes[a] with value := v })
  match axisEnc a with
  | some x => if homing then searchStep x s else s
  | none => s

/-- A count that would leave the range: refused, with the effect R9 gives for each state. -/
def refuseCount (a : AxisId) (s : State) : State :=
  match s.axes[a].state with
  | .disabled => s
  | .running =>
    let s := postFault a .overrange false (enterFaulted a .overrange s)
    if policyOf s a = .hold then tellMku a .freeze s else s
  | .homing =>
    let s := match axisEnc a with
      | some x => s.setEnc x { s.encs[x] with recover := false }
      | none => s
    let s := postFault a .overrange false (enterFaulted a .overrange s)
    if policyOf s a = .continued then tellMku a .thaw s else s
  | .faulted =>
    if s.axes[a].cause = some .overrange then s
    else postFault a .overrange false (enterFaulted a .overrange s)

/-- One count of an axis in a direction (R8, R9). -/
def count (a : AxisId) (d : Direction) (s : State) : State :=
  if s.axes[a].state = .disabled then s
  else if inRange (d.next s.axes[a].value) then applyCount a d s
  else refuseCount a s

/-! ## Encoder decoding (R5 to R7) -/

/-- The direction of a count, exchanged by invert (R5, R6). -/
def countDir (forward invert : Bool) : Direction := if forward != invert then .forward else .reverse

/-- The count that a change of the pair (A, B) from the decoder reference makes, for a change that is no quadrature error
(R5, R6). -/
def decodeCount (r : EncRec) (a b : Bool) : Option Direction :=
  match r.decode with
  | .quadX4 =>
    if a != r.refA then some (countDir (a != b) r.invert)
    else if b != r.refB then some (countDir (a == b) r.invert)
    else none
  | .quadX2 => if a != r.refA then some (countDir (a != b) r.invert) else none
  | .quadX1 => if a != r.refA && !b then some (countDir a r.invert) else none
  | .stepDir => if a && !r.refA then some (countDir (!b) r.invert) else none

/-- Whether a change is a quadrature error (R7): in a quadrature mode both levels differ from the reference. -/
def isQuadError (r : EncRec) (a b : Bool) : Bool :=
  r.decode != .stepDir && a != r.refA && b != r.refB

/-- A quadrature error, by the axis state and its fault policy (R7). -/
def quadError (x : EncId) (s : State) : State :=
  let a := encAxis x
  match s.axes[a].state, s.encs[x].policy with
  | .disabled, _ | .faulted, _ => s
  | .running, .hold => tellMku a .freeze (postFault a .quadError false (enterFaulted a .quadError s))
  | .running, .continued => postFault a .quadError true s
  | .homing, .hold => postFault a .quadError false (s.setEnc x { s.encs[x] with recover := true })
  | .homing, .continued => postFault a .quadError true s

/-- The levels of A and B become these: the pins change, and the decoder compares them with its reference (R5). -/
def encoderChange (x : EncId) (a b : Bool) (s : State) : State :=
  let r := s.encs[x]
  let s := { s with pins := { s.pins with encA := upd s.pins.encA x a, encB := upd s.pins.encB x b } }
  if s.inReset then s
  else
    let s := s.setEnc x { r with refA := a, refB := b }
    if isQuadError r a b then quadError x s
    else
      match decodeCount r a b with
      | some d => count (encAxis x) d s
      | none => s

/-- The decoder reference is loaded from the levels at the pins (R11, R12). -/
def loadReference (x : EncId) (s : State) : State :=
  s.setEnc x { s.encs[x] with refA := s.pins.encA[x], refB := s.pins.encB[x] }

/-! ## The time axis (R10) -/

/-- The prescaler of A3 has reached its value and its expiry waits to be taken (log 4). -/
def prescalerDue (s : State) : Bool :=
  s.axes[timeAxis].state != .disabled && decide (s.time.prescaler ≤ s.time.phase)

/-- The prescaler expires: the phase returns to 0 and A3 makes one forward count (R10). -/
def expirePrescaler (s : State) : State :=
  if prescalerDue s then count timeAxis .forward { s with time := { s.time with phase := 0 } } else s

/-! ## Re-base (R15) -/

/-- A re-base of an axis: the value is loaded and the MKU is told; AXIS_REBASED waits until the MKU has taken the re-base; on A3
the prescaler phase becomes 0 (R10, R15, log 25). -/
def rebase (a : AxisId) (cause : RebaseCause) (new : Int) (s : State) : State :=
  let old := s.axes[a].value
  let s := s.setAxis a { s.axes[a] with value := new }
  let s := if a = timeAxis then { s with time := { s.time with phase := 0 } } else s
  let s := tellMku a (.rebase cause old new) s
  s.setHeld a (s.heldNotices[a] ++ [⟨.axisRebased a cause old new, []⟩])

/-- AXIS_RECOVERED goes to the subscribers of the axis (R24). -/
def postRecovered (a : AxisId) (by_ : Recovery) (s : State) : State :=
  notify a ⟨.axisRecovered a by_ s.axes[a].value, []⟩ s

/-- A homing search ends in RUNNING after its re-base: travel 0, a thaw, and AXIS_RECOVERED if recover on home was set
(R16, R18). -/
def endSearch (x : EncId) (by_ : Recovery) (s : State) : State :=
  let a := encAxis x
  let recover := s.encs[x].recover
  let s := enterRunning a (s.setEnc x { s.encs[x] with searchTravel := 0, recover := false })
  let s := tellMku a .thaw s
  if recover then postRecovered a by_ s else s

/-! ## Axis commands -/

/-- AXIS_CONFIG (R11). -/
def axisConfigAct (pl : List Byte) (s : State) : State × Answer :=
  match parseAxisConfig pl with
  | none => (s, .refuse .badField)
  | some op =>
    if s.axes[op.axis].state ≠ .disabled then (s, .refuse .axisState)
    else
      match op with
      | .encoder x decode invert policy =>
        (loadReference x (s.setEnc x { s.encs[x] with decode := decode, invert := invert, policy := policy }), .ok [])
      | .time prescaler => ({ s with time := { s.time with prescaler := prescaler } }, .ok [])

/-- AXIS_ENABLE (R12). -/
def axisEnableAct (pl : List Byte) (s : State) : State × Answer :=
  match fin4 (field pl 0 1) with
  | none => (s, .refuse .badField)
  | some a =>
    if s.axes[a].state ≠ .disabled then (s, .refuse .axisState)
    else
      let s := enterRunning a s
      match axisEnc a with
      | some x => (loadReference x s, .ok [])
      | none => ({ s with time := { s.time with phase := 0 } }, .ok [])

/-- AXIS_DISABLE (R14). The search travel becomes 0 also where a search that ended by OVERRANGE has left some (log 27). -/
def axisDisableAct (pl : List Byte) (s : State) : State × Answer :=
  match fin4 (field pl 0 1) with
  | none => (s, .refuse .badField)
  | some a =>
    if s.axes[a].state = .disabled then (s, .refuse .axisState)
    else if axisReferenced s a then (s, .refuse .inUse)
    else
      let s := s.setAxis a { s.axes[a] with state := .disabled, cause := none }
      match axisEnc a with
      | some x => (s.setEnc x { s.encs[x] with searchTravel := 0, recover := false }, .ok [])
      | none => ({ s with time := { s.time with phase := 0 } }, .ok [])

/-- AXIS_SET on an axis that passes its checks, by the axis state (R16). -/
def setAxisValue (a : AxisId) (v : Int) (s : State) : State :=
  match s.axes[a].state with
  | .disabled => s.setAxis a { s.axes[a] with value := v }
  | .running => rebase a .set v s
  | .faulted =>
    let wasFrozen := axisFrozen s a
    let s := enterRunning a (rebase a .set v s)
    let s := if wasFrozen then tellMku a .thaw s else s
    postRecovered a .set s
  | .homing =>
    match axisEnc a with
    | some x => endSearch x .set (rebase a .set v s)
    | none => tellMku a .thaw (enterRunning a (rebase a .set v s))

/-- AXIS_SET (R16). -/
def axisSetAct (p : Port) (pl : List Byte) (s : State) : State × Answer :=
  match parseAxisSet pl with
  | none => (s, .refuse .badField)
  | some (a, v) => if axisForeign s a p then (s, .refuse .inUse) else (setAxisValue a v s, .ok [])

/-- A homing search starts or starts again (R17). -/
def startSearch (x : EncId) (home : Int) (limit : Nat) (s : State) : State :=
  let a := encAxis x
  let wasFrozen := axisFrozen s a
  let r := s.encs[x]
  let recover := match s.axes[a].state with
    | .running | .disabled => false
    | .faulted => true
    | .homing => r.recover
  let s := s.setEnc x { r with homeValue := home, searchLimit := limit, searchTravel := 0, recover := recover }
  let s := s.setAxis a { s.axes[a] with state := .homing, cause := none }
  if wasFrozen then s else tellMku a .freeze s

/-- AXIS_HOME (R17). -/
def axisHomeAct (pl : List Byte) (s : State) : State × Answer :=
  match parseAxisHome pl with
  | none => (s, .refuse .badField)
  | some (x, home, limit) =>
    if s.axes[encAxis x].state = .disabled then (s, .refuse .axisState)
    else (startSearch x home limit s, .ok [])

/-- TIME_PRESET (R21). -/
def timePresetAct (p : Port) (pl : List Byte) (s : State) : State × Answer :=
  match rangedValue (fieldInt48 pl 0) with
  | none => (s, .refuse .badField)
  | some v =>
    if (match s.preset with
        | some q => q.setter != p
        | none => false) then (s, .refuse .owned)
    else if axisForeign s timeAxis p then (s, .refuse .inUse)
    else ({ s with preset := some { value := v, setter := p } }, .ok [])

/-- TIME_PRESET_CLEAR (R22). -/
def timePresetClearAct (p : Port) (s : State) : State × Answer :=
  match s.preset with
  | none => (s, .ok [])
  | some q => if q.setter = p then ({ s with preset := none }, .ok []) else (s, .refuse .notOwner)

/-! ## The index and the epoch input -/

/-- The level of Z becomes this; a rising edge ends a homing search (R18). -/
def indexChange (x : EncId) (level : Bool) (s : State) : State :=
  let s := { s with pins := { s.pins with encZ := upd s.pins.encZ x level } }
  if s.inReset then s
  else
    let rising := level && !s.encs[x].levelZ
    let s := s.setEnc x { s.encs[x] with levelZ := level }
    if rising && s.axes[encAxis x].state == .homing then
      endSearch x .home (rebase (encAxis x) .home s.encs[x].homeValue s)
    else s

/-- EPOCH_SEEN goes to the subscribers of A3 and to these ports, with the value of A3 after the edge (R23). -/
def postEpoch (result : EpochResult) (recipients : List Port) (s : State) : State :=
  notify timeAxis ⟨.epochSeen result s.axes[timeAxis].value, recipients⟩ s

/-- A rising edge of EPOCH, judged by the table of R23. -/
def epochRise (s : State) : State :=
  if s.axes[timeAxis].state ≠ .running then
    postEpoch .notRunning (s.preset.map (·.setter)).toList s
  else
    match s.preset with
    | none => postEpoch .noPreset [] s
    | some q =>
      if axisForeign s timeAxis q.setter then postEpoch .inUse [q.setter] { s with preset := none }
      else postEpoch .applied [q.setter] { rebase timeAxis .epoch q.value s with preset := none }

/-- The level of EPOCH becomes this; every rising edge is judged (R23). -/
def epochChange (level : Bool) (s : State) : State :=
  let s := { s with pins := { s.pins with epoch := level } }
  if s.inReset then s
  else
    let rising := level && !s.epochLevel
    let s := { s with epochLevel := level }
    if rising then epochRise s else s

/-! ## Teardown -/

/-- The port is RELEASING and this block has not yet taken its teardown request (R151). -/
def BlockSet.has (b : BlockSet) : Block → Bool
  | .scu => b.scu
  | .otu => b.otu
  | .mku => b.mku
  | .axu => b.axu

/-- The set with one block put in or taken out. -/
def BlockSet.put (b : BlockSet) (k : Block) (v : Bool) : BlockSet :=
  match k with
  | .scu => { b with scu := v }
  | .otu => { b with otu := v }
  | .mku => { b with mku := v }
  | .axu => { b with axu := v }

/-- A block that has done its part of a port's teardown: its request is taken and its report is on its way (R152). -/
def reportPart (p : Port) (k : Block) (s : State) : State :=
  s.setPort p { s.ports[p] with requested := s.ports[p].requested.put k false,
                                reported := s.ports[p].reported.put k true }

/-- A block takes a port's teardown request and does its part; without a request nothing happens (log 2). -/
def teardownPart (p : Port) (k : Block) (part : State → State) (s : State) : State :=
  if s.ports[p].requested.has k then reportPart p k (part s) else s

/-- The AXU's part: the slot is emptied if the port is its setter (R25). -/
def clearPreset (p : Port) (s : State) : State :=
  match s.preset with
  | none => s
  | some q => if q.setter = p then { s with preset := none } else s

/-! ## Meanings -/

def execAxisConfig (p : Port) (pl : List Byte) (s : State) : Host.Outcome State Fault Refusal :=
  .next (takeFrame p .axisConfig pl (axisConfigAct pl) s)

def execAxisEnable (p : Port) (pl : List Byte) (s : State) : Host.Outcome State Fault Refusal :=
  .next (takeFrame p .axisEnable pl (axisEnableAct pl) s)

def execAxisDisable (p : Port) (pl : List Byte) (s : State) : Host.Outcome State Fault Refusal :=
  .next (takeFrame p .axisDisable pl (axisDisableAct pl) s)

def execAxisSet (p : Port) (pl : List Byte) (s : State) : Host.Outcome State Fault Refusal :=
  .next (takeFrame p .axisSet pl (axisSetAct p pl) s)

def execAxisHome (p : Port) (pl : List Byte) (s : State) : Host.Outcome State Fault Refusal :=
  .next (takeFrame p .axisHome pl (axisHomeAct pl) s)

/-- AXIS_READ returns a snapshot and changes nothing (R20). -/
def execAxisRead (p : Port) (pl : List Byte) (s : State) : Host.Outcome State Fault Refusal :=
  .next (takeFrame p .axisRead pl (fun s => (s, .ok (snapshotBytes s))) s)

def execTimePreset (p : Port) (pl : List Byte) (s : State) : Host.Outcome State Fault Refusal :=
  .next (takeFrame p .timePreset pl (timePresetAct p pl) s)

def execTimePresetClear (p : Port) (pl : List Byte) (s : State) : Host.Outcome State Fault Refusal :=
  .next (takeFrame p .timePresetClear pl (timePresetClearAct p) s)

def execEncoderTransition (x : EncId) (a b : Bool) (s : State) : Host.Outcome State Fault Refusal :=
  .next (encoderChange x a b s)

def execPrescalerExpiry (s : State) : Host.Outcome State Fault Refusal := .next (expirePrescaler s)

def execIndexEdge (x : EncId) (level : Bool) (s : State) : Host.Outcome State Fault Refusal :=
  .next (indexChange x level s)

def execEpochEdge (level : Bool) (s : State) : Host.Outcome State Fault Refusal := .next (epochChange level s)

def execAxuTeardown (p : Port) (s : State) : Host.Outcome State Fault Refusal :=
  .next (teardownPart p .axu (clearPreset p) s)

end Sys2Proof.Machine
end

