-- ==== Sys2Proof/Machine/Output.lean ====
section
/-! DEFINITION. The Output Unit (spec/06_output_channels.md): claims and releases, actions, pulses, and the OTU part of a
teardown. CHANNEL_DRIVE is staged by the SCU while the issuer's group is STAGING (R107, R110). -/

namespace Sys2Proof.Machine

/-! ## Actions (R133, R134) -/

/-- An action on an owned channel, by its state (R133). -/
def ChanRec.act (r : ChanRec) (act : Action) (width : Nat) : ChanRec :=
  match act with
  | .pulse => { r with state := .pulsing, remaining := width }
  | .set => { r with state := .active, remaining := 0 }
  | .clear => { r with state := .rest, remaining := 0 }
  | .toggle =>
    match r.state with
    | .active | .pulsing => { r with state := .rest, remaining := 0 }
    | .rest | .unowned => { r with state := .active, remaining := 0 }

/-- The OTU takes one action: only for a channel owned by the port on whose behalf it is sent (R132). -/
def takeAction (s : State) (x : OutAction) : State :=
  if s.chans[x.chan].owner = some x.port then s.setChan x.chan (s.chans[x.chan].act x.act x.width) else s

/-- The OTU takes the actions of one event, one after another (R132, R136). -/
def takeBatch (batch : List OutAction) (s : State) : State := batch.foldl takeAction s

/-- The OTU takes the oldest batch in transit (R132, log 3). -/
def takeOldestBatch (s : State) : State :=
  match s.toOtu with
  | [] => s
  | batch :: rest => takeBatch batch { s with toOtu := rest }

/-- One action for each channel of a mask, in ascending number (R67, R116, R137). -/
def actionsFor (p : Port) (mask : BitVec 12) (act : Action) (width : Nat) : List OutAction :=
  (maskChans mask).map (fun c => { port := p, chan := c, act := act, width := width })

/-! ## Pulses (R135) -/

/-- A pulse has run out and its expiry waits to be taken (log 4). -/
def pulseDue (s : State) (c : ChanId) : Bool := s.chans[c].state == .pulsing && s.chans[c].remaining == 0

/-- A pulse expires: the channel enters REST (R135). -/
def expirePulse (c : ChanId) (s : State) : State :=
  if pulseDue s c then s.setChan c { s.chans[c] with state := .rest } else s

/-! ## Commands -/

/-- A claim that passes its checks: the channel is the issuer's, in REST, with this polarity and safe level and no pulse
(R128, R129). -/
def claimChannel (p : Port) (c : ChanId) (pol : Polarity) (safe : Bool) (s : State) : State :=
  s.setChan c { owner := some p, polarity := pol, safe := safe, state := .rest, remaining := 0 }

/-- CHANNEL_CLAIM (R128). -/
def channelClaimAct (p : Port) (pl : List Byte) (s : State) : State × Answer :=
  match parseClaim pl with
  | none => (s, .refuse .badField)
  | some (c, pol, safe) =>
    match s.chans[c].owner with
    | some q => if q = p then (claimChannel p c pol safe s, .ok []) else (s, .refuse .owned)
    | none => (claimChannel p c pol safe s, .ok [])

/-- A channel becomes UNOWNED at its safe level, with no pulse running (R131, R140). -/
def ChanRec.release (r : ChanRec) : ChanRec := { r with owner := none, state := .unowned, remaining := 0 }

/-- Whether a staged operation is a DRIVE that names a channel (R130). -/
def GroupOp.drives (c : ChanId) : GroupOp → Bool
  | .drive mask _ _ => mask.getLsbD c.val
  | .arm .. | .cancel _ => false

/-- Whether a port's non-FREE entries or its staged drives name a channel: check 3 of R130. -/
def channelNamed (s : State) (p : Port) (c : ChanId) : Bool :=
  (entriesOf s).any (fun e => e.owner == p && e.desc.mask.getLsbD c.val)
    || s.groups[p].ops.any (GroupOp.drives c)

/-- CHANNEL_RELEASE (R130, R131). -/
def channelReleaseAct (p : Port) (pl : List Byte) (s : State) : State × Answer :=
  match chanOf (field pl 0 1) with
  | none => (s, .refuse .badField)
  | some c =>
    if s.chans[c].owner ≠ some p then (s, .refuse .notOwner)
    else if channelNamed s p c then (s, .refuse .inUse)
    else (s.setChan c s.chans[c].release, .ok [])

/-- A staged command that passed its checks becomes the group's next operation (R107). -/
def stageOp (p : Port) (op : GroupOp) (s : State) : State :=
  s.setGroup p { s.groups[p] with ops := s.groups[p].ops ++ [op] }

/-- The operation index that an immediate command reports (spec/09, Command payloads). -/
def immediateIndex : Nat := 0xFF

/-- CHANNEL_DRIVE: staged while the issuer's group is STAGING, immediate otherwise (R107, R110, R137). -/
def channelDriveAct (p : Port) (pl : List Byte) (s : State) : State × Answer :=
  let g := s.groups[p]
  if g.state = .staging ∧ Config.groupCapacity ≤ g.ops.length then (s, .refuse .groupFull)
  else
    match parseDrive pl with
    | none => (s, .refuse .badField)
    | some d =>
      if !ownsMask s p d.mask then (s, .refuse .notOwner)
      else if g.state = .staging then
        (stageOp p (.drive d.mask d.act d.width) s, .ok (leBytes 1 g.ops.length))
      else (takeBatch (actionsFor p d.mask d.act d.width) s, .ok (leBytes 1 immediateIndex))

/-- The CHANNEL_STATUS payload: twelve records, OUT0 first (R138). -/
def channelStatusBytes (s : State) : List Byte := s.chans.toList.flatMap ChanRec.bytes

/-- The OTU's part of a teardown: every channel the port owns is released (R140). -/
def releaseChannels (p : Port) (s : State) : State :=
  { s with chans := s.chans.map (fun r => if r.owner = some p then r.release else r) }

/-! ## Meanings -/

def execChannelClaim (p : Port) (pl : List Byte) (s : State) : Host.Outcome State Fault Refusal :=
  .next (takeFrame p .channelClaim pl (channelClaimAct p pl) s)

def execChannelRelease (p : Port) (pl : List Byte) (s : State) : Host.Outcome State Fault Refusal :=
  .next (takeFrame p .channelRelease pl (channelReleaseAct p pl) s)

def execChannelDrive (p : Port) (pl : List Byte) (s : State) : Host.Outcome State Fault Refusal :=
  .next (takeFrame p .channelDrive pl (channelDriveAct p pl) s)

/-- CHANNEL_STATUS returns all twelve channels and changes nothing (R138). -/
def execChannelStatus (p : Port) (pl : List Byte) (s : State) : Host.Outcome State Fault Refusal :=
  .next (takeFrame p .channelStatus pl (fun s => (s, .ok (channelStatusBytes s))) s)

def execAction (s : State) : Host.Outcome State Fault Refusal := .next (takeOldestBatch s)

def execPulseExpiry (c : ChanId) (s : State) : Host.Outcome State Fault Refusal := .next (expirePulse c s)

def execOtuTeardown (p : Port) (s : State) : Host.Outcome State Fault Refusal :=
  .next (teardownPart p .otu (releaseChannels p) s)

end Sys2Proof.Machine
end

