-- ==== Sys2Proof/Machine/Schedule.lean ====
section
/-! DEFINITION. The Schedule Unit's entries (spec/02_the_trigger_table.md, spec/03_due_lists_and_firing.md): allocation,
due lists and waiting set, occurrences, admission with its late handling, the end of an entry, and the commands ARM,
CANCEL, RECORD_READ and TABLE_STATUS. -/

namespace Sys2Proof.Machine

/-! ## Moving an entry between its states (R29, R31, R52) -/

/-- The current target of the entry at an index. -/
def targetAt (s : State) (i : EntryIx) : Int := ((s.table[i].entry.bind (·.target))).getD 0

/-- The place of a new entry in a due list: after every entry whose target is not greater (R52). -/
def insertDue (key : EntryIx → Int) (i : EntryIx) (t : Int) (l : List EntryIx) : List EntryIx :=
  l.takeWhile (fun j => decide (key j ≤ t)) ++ i :: l.dropWhile (fun j => decide (key j ≤ t))

/-- An entry leaves the due list of its axis and the waiting set. -/
def unlist (i : EntryIx) (s : State) : State :=
  { s with due := s.due.map (fun l => l.filter (· != i)), waiting := s.waiting.filter (· != i) }

/-- The record of an entry is written; its generation stays (R43). -/
def writeEntry (i : EntryIx) (e : Entry) (s : State) : State :=
  s.setSlot i { s.table[i] with entry := some e }

/-- An entry returns to FREE: it leaves its list and its generation increases by one (R32, R47). -/
def freeEntry (i : EntryIx) (s : State) : State :=
  let s := unlist i s
  s.setSlot i { gen := s.table[i].gen + 1, entry := none }

/-- An entry becomes or stays ARMED at the target `t`, in its due list at the place of R52. -/
def placeArmed (i : EntryIx) (e : Entry) (t : Int) (s : State) : State :=
  let s := unlist i s
  let s := writeEntry i { e with state := .armed, target := some t } s
  s.setDue e.desc.axis (insertDue (targetAt s) i t s.due[e.desc.axis])

/-- An entry becomes WAITING, at the tail of the waiting set, with no current target (R31, R43, R74). -/
def placeWaiting (i : EntryIx) (e : Entry) (s : State) : State :=
  let s := unlist i s
  let s := writeEntry i { e with state := .waiting, target := none } s
  { s with waiting := s.waiting ++ [i] }

/-- The handle of the entry at an index (R32). -/
def handleAt (s : State) (i : EntryIx) : Handle := { index := i, gen := s.table[i].gen }

/-! ## The work of one event at the SCU -/

/-- The state within one event of the SCU, with the actions sent so far in the event (R132). -/
structure Work where
  st : State
  acts : List OutAction

/-- The end of an event: its actions go to the OTU together (R132). -/
def Work.done (w : Work) : State :=
  if w.acts.isEmpty then w.st else { w.st with toOtu := w.st.toOtu ++ [w.acts] }

/-- A state with no action sent yet. -/
def Work.begin (s : State) : Work := { st := s, acts := [] }

/-- A change of the state within the event. -/
def Work.map (w : Work) (f : State → State) : Work := { w with st := f w.st }

/-- Actions sent to the OTU (R67). -/
def Work.send (w : Work) (acts : List OutAction) : Work := { w with acts := w.acts ++ acts }

/-! ## One occurrence (R66 to R71) -/

/-- Whether occurrence `k` is driven, by the skip pattern (R66). -/
def TriggerDesc.driven (d : TriggerDesc) (k : Nat) : Bool :=
  d.fireN == 0 || decide (k % (d.fireN + d.skipN) < d.fireN)

/-- One occurrence at axis value `v`: driven or skipped by the skip pattern; a driven one sends its actions and under
notify EACH posts FIRED (R66 to R68). -/
def occur (i : EntryIx) (e : Entry) (v : Int) (late : Bool) (w : Work) : Work :=
  if e.desc.driven e.occ then
    let w := w.send (actionsFor e.owner e.desc.mask e.desc.action e.desc.width)
    if e.desc.notify = .each then
      w.map (post (.fired (handleAt w.st i) e.desc.tag e.occ v late) [e.owner])
    else w
  else w

/-- What becomes of an entry: ARMED at a target, or ended with a cause. -/
inductive Verdict where
  | armed (e : Entry) (t : Int)
  | ended (e : Entry) (cause : EndCause)
  deriving DecidableEq, Repr

/-- The target `n` counts further in the approach direction (R69). -/
def Approach.advance (ap : Approach) (t : Int) (n : Nat) : Int :=
  match ap with
  | .forward | .either => t + n
  | .reverse => t - n

/-- After an occurrence at target `t`: the entry goes on at its advanced target, or ends (R69, R70). -/
def afterOccurrence (e : Entry) (t : Int) : Verdict :=
  if e.desc.repeats = 0 ∨ e.occ + 1 < e.desc.repeats then
    let t' := e.desc.approach.advance t e.desc.interval
    if inRange t' then .armed { e with occ := (e.occ + 1) % 65536 } t' else .ended e .rangeExit
  else .ended e .complete

/-! ## Admission (R53 to R61) -/

/-- How many members of the series from `t` lie behind `v` (R42, R57). -/
def behindCount (ap : Approach) (interval : Nat) (t v : Int) : Nat :=
  let gap := match ap with
    | .forward => (v - t).toNat
    | .reverse => (t - v).toNat
    | .either => 0
  if interval = 0 then (if gap = 0 then 0 else 1) else (gap + interval - 1) / interval

/-- The consumption of late members from the member `t` with index `k` (R59): the entry goes on from the first member not
behind `v`, or ends. -/
def consumeLate (e : Entry) (k : Nat) (t v : Int) : Verdict :=
  let n := behindCount e.desc.approach e.desc.interval t v
  if e.desc.repeats ≠ 0 ∧ e.desc.repeats ≤ k + n then
    .ended { e with occ := e.desc.repeats - 1 } .allLate
  else
    let t' := e.desc.approach.advance t (n * e.desc.interval)
    if inRange t' then .armed { e with occ := (k + n) % 65536 } t'
    else .ended { e with occ := (k + n - 1) % 65536 } .rangeExit

/-- A target reached at admission: an on-time occurrence (R56). -/
def admitReached (i : EntryIx) (e : Entry) (v : Int) (w : Work) : Work × Verdict :=
  (occur i e v false w, afterOccurrence e v)

/-- The first member not behind `v` is taken: reached, or ahead (R57, R58). -/
def admitFrom (i : EntryIx) (v : Int) (r : Verdict) (w : Work) : Work × Verdict :=
  match r with
  | .armed e t => if t = v then admitReached i e v w else (w, .armed e t)
  | .ended e cause => (w, .ended e cause)

/-- A late target under FIRE_LATE (R57). -/
def admitFireLate (i : EntryIx) (e : Entry) (t v : Int) (w : Work) : Work × Verdict :=
  let w := occur i e v true w
  if e.desc.repeats ≠ 0 ∧ e.desc.repeats ≤ e.occ + 1 then (w, .ended e .complete)
  else admitFrom i v (consumeLate e (e.occ + 1) (e.desc.approach.advance t e.desc.interval) v) w

/-- The number of members DROP_LATE consumes: those behind `v`, within the repeat count (R58). -/
def droppedCount (e : Entry) (t v : Int) : Nat :=
  let n := behindCount e.desc.approach e.desc.interval t v
  if e.desc.repeats = 0 then n else min n (e.desc.repeats - e.occ)

/-- A late target under DROP_LATE (R58). -/
def admitDropLate (i : EntryIx) (e : Entry) (t v : Int) (w : Work) : Work × Verdict :=
  let r := consumeLate e e.occ t v
  let ended := match r with
    | .armed .. => false
    | .ended .. => true
  let count := min (droppedCount e t v) Config.maxDropped
  let w := w.map (post (.lateDropped (handleAt w.st i) e.desc.tag e.occ count ended) [e.owner])
  admitFrom i v r w

/-- Whether a target lies behind a value in the approach direction (R54). -/
def Approach.late (ap : Approach) (t v : Int) : Bool :=
  match ap with
  | .forward => decide (t < v)
  | .reverse => decide (v < t)
  | .either => false

/-- Admission of an entry with target `t` against the axis value `v`, by the conditions of R53: out of range, inserted
without a test when the axis is frozen or the owner is not ATTACHED (R60), reached (R56), late (R57, R58) or ahead. -/
def admitTarget (i : EntryIx) (e : Entry) (t v : Int) (frozen owned : Bool) (w : Work) : Work × Verdict :=
  if !inRange t then (w, .ended e .rangeExit)
  else if frozen || !owned then (w, .armed e t)
  else if t = v then admitReached i e v w
  else if e.desc.approach.late t v then
    match e.desc.late with
    | .fireLate => admitFireLate i e t v w
    | .dropLate => admitDropLate i e t v w
  else (w, .armed e t)

/-- The axis values an event of the SCU sees: during a step of an axis, the value after the step on that axis, and the
values the AXU holds on the others (R53, R117, log 13). -/
abbrev View := Option (AxisId × Int)

/-- The value of an axis in a view. -/
def viewValue (view : View) (s : State) (a : AxisId) : Int :=
  match view with
  | some (b, v) => if b = a then v else s.axes[a].value
  | none => s.axes[a].value

/-- Admission with the value, the frozen test and the owner test of the moment (R53). -/
def admitNow (view : View) (i : EntryIx) (e : Entry) (t : Int) (w : Work) : Work × Verdict :=
  admitTarget i e t (viewValue view w.st e.desc.axis) (axisFrozen w.st e.desc.axis) (attached w.st e.owner) w

/-! ## The end of an entry (R72 to R76) -/

/-- An entry retires: FREE, and RETIRED under notify EACH or LAST (R72, R73). -/
def retire (i : EntryIx) (e : Entry) (cause : EndCause) (s : State) : State :=
  let h := handleAt s i
  let s := freeEntry i s
  if e.desc.notify = .none then s else post (.retired h e.desc.tag cause e.occ) [e.owner] s

/-- The fate of an ended entry that holds no owed mark to use: rows one, two and four of R74 for MARK_EACH, R72 for the
others. -/
def endPlain (i : EntryIx) (e : Entry) (cause : EndCause) (s : State) : State :=
  if e.desc.reference ≠ .markEach then retire i e cause s
  else if e.finalBurst then retire i e .inputStopped s
  else if e.desc.markCount ≠ 0 ∧ e.marksLeft = 0 then retire i e .marksDone s
  else placeWaiting i e s

/-- The remaining mark count after a resolution: one less for MARK_EACH with a mark count (R28, R93). -/
def Entry.useMark (e : Entry) : Nat :=
  if e.desc.reference = .markEach ∧ e.desc.markCount ≠ 0 then e.marksLeft - 1 else e.marksLeft

/-- An entry resolved by a mark: its occurrence index is 0 and a mark is used (R76, R93). -/
def Entry.resolve (e : Entry) : Entry := { e with occ := 0, marksLeft := e.useMark }

/-- The target a capture record gives an entry: the captured value of its own axis plus its offset (R76, R93). -/
def Entry.targetFrom (e : Entry) (c : Capture) : Int := c.values[e.desc.axis] + e.desc.place

/-- UNRESOLVED goes to the owner, naming the mark (R94). -/
def postUnresolved (i : EntryIx) (e : Entry) (c : Capture) (s : State) : State :=
  post (.unresolved (handleAt s i) e.desc.tag c.input c.seq e.desc.axis c.validities[e.desc.axis]) [e.owner] s

/-- The verdict on an entry that holds no owed mark is carried out. -/
def settlePlain (i : EntryIx) (r : Verdict) (s : State) : State :=
  match r with
  | .armed e t => placeArmed i e t s
  | .ended e cause => endPlain i e cause s

/-- The resolution of an owed mark at the end of a burst; the owed mark is dropped (R76). -/
def useOwed (view : View) (i : EntryIx) (e : Entry) (c : Capture) (w : Work) : Work :=
  let e := { e with owed := none }
  if c.validities[e.desc.axis] = .valid then
    let (w, r) := admitNow view i e.resolve (e.targetFrom c) w
    w.map (settlePlain i r)
  else w.map (fun s => postUnresolved i e c (placeWaiting i e s))

/-- Whether an ended entry goes on with its owed mark: the third row of R74. -/
def Entry.owedToUse (e : Entry) : Option Capture :=
  if e.desc.reference = .markEach ∧ !e.finalBurst ∧ ¬(e.desc.markCount ≠ 0 ∧ e.marksLeft = 0) then e.owed else none

/-- The verdict on an entry is carried out: it is placed in its due list, or its end is handled (R72, R74). -/
def settle (view : View) (i : EntryIx) (r : Verdict) (w : Work) : Work :=
  match r with
  | .armed e t => w.map (placeArmed i e t)
  | .ended e cause =>
    match e.owedToUse with
    | some c => useOwed view i e c w
    | none => w.map (endPlain i e cause)

/-- An entry gets a target: it goes to admission, and the outcome is carried out (R53). -/
def giveTarget (view : View) (i : EntryIx) (e : Entry) (t : Int) (w : Work) : Work :=
  let (w, r) := admitNow view i e t w
  settle view i r w

/-! ## Crossing (R62 to R65) -/

/-- Whether a step in a direction meets entries of this approach (R62). -/
def Approach.admits (ap : Approach) (d : Direction) : Bool :=
  match ap, d with
  | .either, _ | .forward, .forward | .reverse, .reverse => true
  | .forward, .reverse | .reverse, .forward => false

/-- Whether the entry at an index is crossed by a step onto `v` in direction `d` (R62). -/
def crossed (s : State) (d : Direction) (v : Int) (i : EntryIx) : Bool :=
  match s.table[i].entry with
  | some e => e.state == .armed && e.target == some v && e.desc.approach.admits d
  | none => false

/-- One entry of the crossed set is taken: passed by if it has left ARMED, passed over if its owner is not ATTACHED, and
else it has an occurrence (R63, R65). -/
def crossEntry (a : AxisId) (v : Int) (w : Work) (i : EntryIx) : Work :=
  match w.st.table[i].entry with
  | some e =>
    if e.state = .armed ∧ attached w.st e.owner then
      settle (some (a, v)) i (afterOccurrence e v) (occur i e v false w)
    else w
  | none => w

/-! ## ARM (R36 to R44) -/

/-- Check 7: an immediate ABSOLUTE ARM under DROP_LATE on an unfrozen axis that would drop every occurrence (R42). -/
def lateRefused (s : State) (d : TriggerDesc) : Bool :=
  let v := s.axes[d.axis].value
  let n := behindCount d.approach d.interval d.place v
  d.reference == .absolute && d.late == .dropLate && d.approach != .either && !axisFrozen s d.axis
    && (decide (d.repeats ≠ 0 ∧ d.repeats ≤ n) || !inRange (d.approach.advance d.place (n * d.interval)))

/-- Checks 2 to 6 of an ARM, in order (R39): the refusal, or the entry to allocate. -/
def armChecks (p : Port) (d : TriggerDesc) (s : State) : Except Status EntryIx :=
  if s.axes[d.axis].state = .disabled then .error .axisState
  else if d.reference ≠ .absolute ∧ s.marks[d.mark].state = .idle then .error .markState
  else if !ownsMask s p d.mask then .error .notOwner
  else if Config.quota ≤ liveCount s p then .error .quotaFull
  else
    match lowestFree s with
    | none => .error .tableFull
    | some i => .ok i

/-- The record of a newly allocated entry (R28, R43, R75). -/
def newEntry (p : Port) (d : TriggerDesc) (st : LiveState) : Entry :=
  { desc := d, owner := p, state := st, target := none, occ := 0, marksLeft := d.markCount, owed := none,
    finalBurst := false }

/-- The payload of an accepted ARM: index, generation, state, operation index (R44, R108). -/
def armPayload (h : Handle) (state opIndex : Nat) : List Byte := h.bytes ++ leBytes 1 state ++ leBytes 1 opIndex

/-- An immediate ARM is routed: to admission if ABSOLUTE, to the waiting set otherwise (R43). -/
def routeArm (p : Port) (i : EntryIx) (d : TriggerDesc) (s : State) : State :=
  if d.reference = .absolute then
    (giveTarget none i (newEntry p d .armed) d.place (.begin s)).done
  else placeWaiting i (newEntry p d .waiting) s

/-- ARM, immediate or staged (R39, R43, R44, R107, R108). -/
def armAct (p : Port) (pl : List Byte) (s : State) : State × Answer :=
  let g := s.groups[p]
  let staging := g.state == .staging
  if staging && decide (Config.groupCapacity ≤ g.ops.length) then (s, .refuse .groupFull)
  else
    match parseTrigger pl with
    | none => (s, .refuse .badField)
    | some d =>
      match armChecks p d s with
      | .error st => (s, .refuse st)
      | .ok i =>
        let h := handleAt s i
        if staging then
          (stageOp p (.arm i false) (writeEntry i (newEntry p d .staged) s),
            .ok (armPayload h LiveState.staged.code g.ops.length))
        else if lateRefused s d then (s, .refuse .late)
        else
          let s := routeArm p i d s
          (s, .ok (armPayload h (entryStateCode s.table[i].entry) immediateIndex))

/-! ## CANCEL, RECORD_READ, TABLE_STATUS -/

/-- The judgement of a handle presented by a port (R33). -/
def judgeHandle (s : State) (p : Port) (h : Handle) : Except Status Entry :=
  match s.table[h.index].entry with
  | none => .error .stale
  | some e =>
    if e.owner ≠ p then .error .notOwner
    else if s.table[h.index].gen ≠ h.gen then .error .stale
    else .ok e

/-- CANCEL, immediate or staged (R46, R47, R107, R109). -/
def cancelAct (p : Port) (pl : List Byte) (s : State) : State × Answer :=
  let g := s.groups[p]
  let staging := g.state == .staging
  if staging && decide (Config.groupCapacity ≤ g.ops.length) then (s, .refuse .groupFull)
  else
    let h := parseHandle pl
    match judgeHandle s p h with
    | .error st => (s, .refuse st)
    | .ok e =>
      if e.state = .staged then (s, .refuse .groupState)
      else if staging then
        (stageOp p (.cancel h) s,
          .ok (leBytes 1 g.ops.length ++ leBytes 1 e.state.code ++ leBytes 2 0))
      else
        (freeEntry h.index s, .ok (leBytes 1 immediateIndex ++ leBytes 1 e.state.code ++ leBytes 2 e.occ))

/-- RECORD_READ returns the entry as it stands when the command is taken, and changes nothing (R33, R48). Against a step of its
axis it shows the entry before the occurrence when it is taken first, where the last row of R78's table says after (log 24). -/
def recordReadAct (p : Port) (pl : List Byte) (s : State) : State × Answer :=
  let h := parseHandle pl
  match judgeHandle s p h with
  | .error st => (s, .refuse st)
  | .ok e => (s, .ok (e.bytes h))

/-- The TABLE_STATUS payload (R49). -/
def tableStatusBytes (s : State) (p : Port) : List Byte :=
  leBytes 2 (freeCount s) ++ leBytes 1 (countIn s p .staged) ++ leBytes 1 (countIn s p .waiting)
    ++ leBytes 1 (countIn s p .armed) ++ leBytes 1 (Config.quota - liveCount s p)

/-! ## Meanings -/

def execArm (p : Port) (pl : List Byte) (s : State) : Host.Outcome State Fault Refusal :=
  .next (takeFrame p .arm pl (armAct p pl) s)

def execCancel (p : Port) (pl : List Byte) (s : State) : Host.Outcome State Fault Refusal :=
  .next (takeFrame p .cancel pl (cancelAct p pl) s)

def execRecordRead (p : Port) (pl : List Byte) (s : State) : Host.Outcome State Fault Refusal :=
  .next (takeFrame p .recordRead pl (recordReadAct p pl) s)

/-- TABLE_STATUS returns the counts and changes nothing (R49). -/
def execTableStatus (p : Port) (pl : List Byte) (s : State) : Host.Outcome State Fault Refusal :=
  .next (takeFrame p .tableStatus pl (fun s => (s, .ok (tableStatusBytes s p))) s)

end Sys2Proof.Machine
end

