-- ==== Sys2Proof/Machine/Group.lean ====
section
/-! DEFINITION. Staged groups (spec/05_staged_groups.md): boundaries, the apply, expiry and discard, the group commands;
and the SCU's step (R63), which applies groups and then fires the crossed entries. -/

namespace Sys2Proof.Machine

/-! ## Leaving STAGING or PENDING -/

/-- A group goes to NONE with no operation, no boundary and expiry remaining 0, and leaves the pending-group list (R118,
R119, R121); its expiry period stays (log 15). -/
def closeGroup (p : Port) (s : State) : State :=
  let s := s.setGroup p { s.groups[p] with state := .none, ops := [], boundary := none, remaining := 0 }
  { s with pendingGroups := s.pendingGroups.filter (· != p) }

/-- The entry that a staged ARM reserved. -/
def GroupOp.reserved : GroupOp → Option EntryIx
  | .arm i _ => some i
  | .cancel _ | .drive .. => none

/-- A group is discarded: its STAGED entries are freed and no staged operation takes effect (R119, R121). -/
def discardGroup (p : Port) (s : State) : State :=
  closeGroup p ((s.groups[p].ops.filterMap GroupOp.reserved).foldl (fun s i => freeEntry i s) s)

/-- A group is discarded with GROUP_DISCARDED to its port (R119, R122). -/
def discardNoticed (p : Port) (cause : DiscardCause) (s : State) : State :=
  let g := s.groups[p]
  post (.groupDiscarded cause g.ops.length g.boundary) [p] (discardGroup p s)

/-! ## The apply (R116 to R118) -/

/-- A stop request of the input that covers the references of a port to it is on its way to the SCU (R100, R101). -/
def stopComing (s : State) (m : MarkId) (p : Port) : Bool :=
  s.mkuToScu.any (fun h => h == .stop m p || h == .holderStop m)

/-- An apply skips an unmarked ARM of port `p` relative to this input: the input is IDLE (R116), and no stop request is coming
that would withdraw the ARM once WAITING (fourth row of R120, log 26). -/
def inputStopped (s : State) (m : MarkId) (p : Port) : Bool := s.marks[m].state == .idle && !stopComing s m p

/-- One operation of a group of port `p`: the work after it, and whether it was applied (R116). -/
def applyOp (view : View) (p : Port) (w : Work) : GroupOp → Work × Bool
  | .arm i stopped =>
    match w.st.table[i].entry with
    | none => (w, false)
    | some e =>
      if e.desc.reference = .absolute then (giveTarget view i e e.desc.place w, true)
      else if stopped || inputStopped w.st e.desc.mark p then (w.map (freeEntry i), false)
      else (w.map (placeWaiting i e), true)
  | .cancel h =>
    match judgeHandle w.st p h with
    | .error _ => (w, false)
    | .ok e => if e.state = .staged then (w, false) else (w.map (freeEntry h.index), true)
  | .drive mask act width => (w.send (actionsFor p mask act width), true)

/-- An apply in progress: the work, the index of the next operation, and what GROUP_APPLIED counts (R118). -/
structure ApplyRun where
  work : Work
  next : Nat
  applied : Nat
  skipped : Nat
  first : Option Nat

/-- The next operation is taken and counted. -/
def ApplyRun.take (view : View) (p : Port) (r : ApplyRun) (op : GroupOp) : ApplyRun :=
  let (w, ok) := applyOp view p r.work op
  if ok then { r with work := w, next := r.next + 1, applied := r.applied + 1 }
  else { r with work := w, next := r.next + 1, skipped := r.skipped + 1, first := r.first <|> some r.next }

/-- A group applies: its operations in staging order, then the group closes and GROUP_APPLIED is posted (R116, R118). -/
def applyGroup (view : View) (p : Port) (at_ : AppliedAt) (w : Work) : Work :=
  let r := w.st.groups[p].ops.foldl (ApplyRun.take view p) { work := w, next := 0, applied := 0, skipped := 0, first := none }
  r.work.map (fun s => post (.groupApplied at_ r.applied r.skipped r.first) [p] (closeGroup p s))

/-- The pending groups that an event reaches apply in list order; a group whose port is not ATTACHED is passed over
(R115). -/
def applyReached (view : View) (at_ : AppliedAt) (reaches : Boundary → Bool) (w : Work) : Work :=
  w.st.pendingGroups.foldl (fun w p =>
    let g := w.st.groups[p]
    if g.state = .pending ∧ g.boundary.any reaches ∧ attached w.st p then applyGroup view p at_ w else w) w

/-! ## The SCU takes a step (R63) -/

/-- A step that is not frozen: the groups whose boundary it reaches apply, and then the crossed entries occur in due-list
order (R63). -/
def scuStepWork (a : AxisId) (m : StepMsg) (s : State) : Work :=
  let view : View := some (a, m.value)
  let w := applyReached view (.atPosition a m.value) (fun b => b == .atPosition a m.value m.dir) (.begin s)
  let set := w.st.due[a].filter (crossed w.st m.dir m.value)
  set.foldl (crossEntry a m.value) w

/-- The SCU takes the oldest step in transit of an axis; a frozen step has no effect on any entry or group (R63, R64). -/
def takeScuStep (a : AxisId) (s : State) : State :=
  match s.toScu[a] with
  | [] => s
  | m :: rest =>
    let s := s.setToScu a rest
    if m.frozen then s else (scuStepWork a m s).done

/-! ## Group commands -/

/-- GROUP_BEGIN (R106). -/
def groupBeginAct (p : Port) (s : State) : State × Answer :=
  let g := s.groups[p]
  if g.state ≠ .none then (s, .refuse .groupState)
  else (s.setGroup p { g with state := .staging, ops := [], boundary := none, remaining := 0 }, .ok [])

/-- Check 3 of GROUP_END: the input is not IDLE, the axis is not DISABLED (R112). -/
def boundaryRefusal (s : State) : Boundary → Option Status
  | .atMark m => if s.marks[m].state = .idle then some .markState else none
  | .atPosition a _ _ => if s.axes[a].state = .disabled then some .axisState else none

/-- Whether an AT_POSITION boundary is already reached when GROUP_END is taken (R113). -/
def boundaryReached (s : State) : Boundary → Bool
  | .atMark _ => false
  | .atPosition a v dir =>
    !axisFrozen s a &&
      (match dir with
       | .forward => decide (v ≤ s.axes[a].value)
       | .reverse => decide (s.axes[a].value ≤ v))

/-- A group goes PENDING at the tail of the pending-group list (R113, R114). -/
def pendGroup (p : Port) (b : Boundary) (period : Nat) (s : State) : State :=
  let s := s.setGroup p { s.groups[p] with state := .pending, boundary := some b, period := period,
                                           remaining := period * Config.ticksPerMs }
  { s with pendingGroups := s.pendingGroups ++ [p] }

/-- Where an AT_POSITION group that applies within its GROUP_END applied: the axis and its value (R118). -/
def positionNow (s : State) : Boundary → AppliedAt
  | .atMark _ => .now
  | .atPosition a _ _ => .atPosition a s.axes[a].value

/-- GROUP_END (R112, R113). A field that the boundary does not use is judged in check 2, after the group state (log 23). -/
def groupEndAct (p : Port) (pl : List Byte) (s : State) : State × Answer :=
  let g := s.groups[p]
  let answer (t : State) : State × Answer := (t, .ok (leBytes 1 t.groups[p].state.code ++ leBytes 1 g.ops.length))
  if g.state ≠ .staging then (s, .refuse .groupState)
  else
    match parseGroupEnd pl with
    | none => (s, .refuse .badField)
    | some .now => answer (applyGroup none p .now (.begin s)).done
    | some (.at b) =>
      match boundaryRefusal s b with
      | some st => (s, .refuse st)
      | none =>
        if boundaryReached s b then answer (applyGroup none p (positionNow s b) (.begin s)).done
        else answer (pendGroup p b (groupEndPeriod pl) s)

/-- GROUP_DISCARD (R121). -/
def groupDiscardAct (p : Port) (s : State) : State × Answer :=
  let g := s.groups[p]
  if g.state = .none then (s, .refuse .groupState)
  else (discardGroup p s, .ok (leBytes 1 g.ops.length))

/-! ## Expiry and teardown -/

/-- A pending group's expiry has run out and waits to be taken (log 4). -/
def groupDue (s : State) (p : Port) : Bool :=
  let g := s.groups[p]
  g.state == .pending && g.period != 0 && g.remaining == 0

/-- A pending group expires (R119). -/
def expireGroup (p : Port) (s : State) : State := if groupDue s p then discardNoticed p .expired s else s

/-- The indexes of the entries a port owns. -/
def ownedEntries (s : State) (p : Port) : List EntryIx :=
  (List.finRange 256).filter (fun i => (s.table[i].entry.map (·.owner)) == some p)

/-- The SCU's part of a teardown: the group is discarded without notice and returns to its reset values, and every entry
the port owns is freed (R50, R105, R123). -/
def removePort (p : Port) (s : State) : State :=
  let s := (discardGroup p s).setGroup p .reset
  (ownedEntries s p).foldl (fun s i => freeEntry i s) s

/-! ## Meanings -/

def execGroupBegin (p : Port) (pl : List Byte) (s : State) : Host.Outcome State Fault Refusal :=
  .next (takeFrame p .groupBegin pl (groupBeginAct p) s)

def execGroupEnd (p : Port) (pl : List Byte) (s : State) : Host.Outcome State Fault Refusal :=
  .next (takeFrame p .groupEnd pl (groupEndAct p pl) s)

def execGroupDiscard (p : Port) (pl : List Byte) (s : State) : Host.Outcome State Fault Refusal :=
  .next (takeFrame p .groupDiscard pl (groupDiscardAct p) s)

/-- GROUP_STATUS returns the issuer's group and changes nothing (R124). -/
def execGroupStatus (p : Port) (pl : List Byte) (s : State) : Host.Outcome State Fault Refusal :=
  .next (takeFrame p .groupStatus pl (fun s => (s, .ok s.groups[p].bytes)) s)

def execScuStep (a : AxisId) (s : State) : Host.Outcome State Fault Refusal := .next (takeScuStep a s)

def execGroupExpiry (p : Port) (s : State) : Host.Outcome State Fault Refusal := .next (expireGroup p s)

def execScuTeardown (p : Port) (s : State) : Host.Outcome State Fault Refusal :=
  .next (teardownPart p .scu (removePort p) s)

end Sys2Proof.Machine
end

