-- ==== Sys2Proof/Machine/Mark.lean ====
section
/-! DEFINITION. Registration marks (spec/04_registration_marks.md): the Mark Unit's inputs, capture, windowing,
substitution and loss, the mark commands and the MKU part of a teardown; and what the Schedule Unit does with a mark and
with a stop request. -/

namespace Sys2Proof.Machine

/-! ## Changes of state of an input -/

/-- An input enters a state other than by the acceptance of a mark: the pending capture is discarded and the deferred miss
cleared (R80). -/
def MarkRec.enter (r : MarkRec) (st : MarkState) : MarkRec :=
  { r with state := st, capture := none, deferred := false }

/-- The sequence number of the last mark; with no last mark it reads 0 (log 21). -/
def MarkRec.lastSeq (r : MarkRec) : BitVec 16 := (r.last.map (·.seq)).getD 0

/-- MARK_LOST goes to the input's subscribers, with the value of the reference axis at the event (R104). -/
def postLost (m : MarkId) (cause : LostCause) (s : State) : State :=
  let r := s.marks[m]
  post (.markLost m cause r.lastSeq s.axes[r.refAxis].value) [] s

/-- An input loses its marks: MARK_LOST, the state given, miss count 0 (R89, R97, R98). -/
def loseMarks (m : MarkId) (cause : LostCause) (st : MarkState) (s : State) : State :=
  let s := postLost m cause s
  s.setMark m { s.marks[m].enter st with misses := 0 }

/-- The MKU hands something to the SCU, after what it handed before (R90). -/
def tellScu (h : MkuHandoff) (s : State) : State := { s with mkuToScu := s.mkuToScu ++ [h] }

/-! ## Counting and recording a mark (R90) -/

/-- A mark is counted, recorded and handed on, after its last mark and miss count have been set (R90). `ref` is the value
of the new last mark. -/
def countMark (m : MarkId) (c : Capture) (kind : CaptureKind) (ref : Int) (s : State) : State :=
  let r := s.marks[m]
  let seq := r.seq + 1
  let c := { c with kind := kind, seq := seq }
  let s := s.setMark m { r with seq := seq, last := some { ref := ref, seq := seq },
                                history := (c :: r.history).take Config.historyCapacity }
  let s := post (.markCaptured m kind seq ref r.misses) [] s
  tellScu (.mark c) s

/-- A capture is accepted as a REAL mark: TRACKING, miss count 0, the deferred miss dropped (R85 to R87). -/
def acceptCapture (m : MarkId) (c : Capture) (s : State) : State :=
  let r := s.marks[m]
  countMark m c .real c.values[r.refAxis]
    (s.setMark m { r with state := .tracking, misses := 0, deferred := false })

/-! ## Misses (R87 to R89) -/

/-- The distance from the last mark's value to `x`, in the input's direction (R86). -/
def Direction.distance (d : Direction) (fromRef x : Int) : Int :=
  match d with
  | .forward => x - fromRef
  | .reverse => fromRef - x

/-- The value `n` counts beyond `x` in a direction. -/
def Direction.beyond (d : Direction) (x : Int) (n : Nat) : Int :=
  match d with
  | .forward => x + n
  | .reverse => x - n

/-- The late limit of an input whose last mark has this value (R87). -/
def MarkRec.lateLimit (r : MarkRec) (l : Int) : Int := r.direction.beyond l (r.pitch + r.tolerance)

/-- A substituted mark, one pitch after the last (R88). -/
def substituteMark (m : MarkId) (l : Int) (s : State) : State :=
  let r := s.marks[m]
  let ref := r.direction.beyond l r.pitch
  let c : Capture := { input := m, kind := .substituted, seq := 0, stamp := s.uptime,
                       values := upd (snapshotValues s) r.refAxis ref, validities := snapshotValidities s }
  countMark m c .substituted ref (s.setMark m { r with misses := r.misses + 1, deferred := false })

/-- A miss is declared: made good below the miss limit, else the marks are lost (R88, R89). -/
def declareMiss (m : MarkId) (s : State) : State :=
  let r := s.marks[m]
  match r.last with
  | some l => if r.misses < r.missLimit then substituteMark m l.ref s else loseMarks m .missed .seeking s
  | none => loseMarks m .missed .seeking s

/-- A deferred miss after its capture is rejected or discarded: declared if the axis stands at the late limit or beyond it
in the input's direction, else dropped (R87). -/
def resolveDeferred (m : MarkId) (s : State) : State :=
  let r := s.marks[m]
  if r.deferred then
    let s := s.setMark m { r with deferred := false }
    match r.last with
    | some l =>
      if 0 ≤ r.direction.distance (r.lateLimit l.ref) s.axes[r.refAxis].value then declareMiss m s else s
    | none => s
  else s

/-! ## Judging a capture (R85, R86) -/

/-- A capture whose debounce has ended is judged as the input's state requires (R85, R86). The pending place is empty by
then. -/
def judgeCapture (m : MarkId) (c : Capture) (s : State) : State :=
  let r := s.marks[m]
  match r.state with
  | .seeking => acceptCapture m c s
  | .tracking =>
    let ref := c.values[r.refAxis]
    match r.last with
    | some l =>
      if r.direction.distance l.ref ref < (r.pitch : Int) - r.tolerance then
        resolveDeferred m (post (.markRejected m ref r.lastSeq) [] s)
      else acceptCapture m c s
    | none => acceptCapture m c s
  | .idle | .suspended => s

/-! ## Edges (R83, R84) -/

/-- Whether a change to this level is of the configured kind (R83). -/
def Edge.selects (e : Edge) (level : Bool) : Bool :=
  match e with
  | .rise => level
  | .fall => !level
  | .both => true

/-- The capture record of an edge, kind and sequence number not yet set (R83). -/
def captureNow (m : MarkId) (s : State) : Capture :=
  { input := m, kind := .real, seq := 0, stamp := s.uptime, values := snapshotValues s,
    validities := snapshotValidities s }

/-- A change of level at an input that is SEEKING or TRACKING (R83, R84). -/
def edgeSeen (m : MarkId) (level : Bool) (s : State) : State :=
  let r := s.marks[m]
  if r.edge.selects level then
    if r.debounce = 0 then judgeCapture m (captureNow m s) (s.setMark m { r with capture := none })
    else s.setMark m { r with capture := some { record := captureNow m s, remaining := r.debounce } }
  else if r.capture.isSome then resolveDeferred m (s.setMark m { r with capture := none })
  else s

/-- The level of a mark pin becomes this (R79, R83). -/
def markChange (m : MarkId) (level : Bool) (s : State) : State :=
  let s := { s with pins := { s.pins with mark := upd s.pins.mark m level } }
  if s.inReset then s
  else
    let r := s.marks[m]
    if level = r.level then s
    else
      let s := s.setMark m { r with level := level }
      match r.state with
      | .idle | .suspended => s
      | .seeking | .tracking => edgeSeen m level s

/-- The debounce of a pending capture has run out and its end waits to be taken (log 4). -/
def debounceDue (s : State) (m : MarkId) : Bool := s.marks[m].capture.any (fun c => c.remaining == 0)

/-- The debounce of a pending capture ends and the capture is judged (R84). -/
def endDebounce (m : MarkId) (s : State) : State :=
  match s.marks[m].capture with
  | some c =>
    if c.remaining = 0 then judgeCapture m c.record (s.setMark m { s.marks[m] with capture := none }) else s
  | none => s

/-! ## What the MKU takes from the AXU -/

/-- A step of the reference axis at a TRACKING input: reaching the late limit is a miss, declared at once or deferred to a
pending capture (R87). -/
def trackStep (a : AxisId) (msg : StepMsg) (s : State) (m : MarkId) : State :=
  let r := s.marks[m]
  match r.state, r.last with
  | .tracking, some l =>
    if r.refAxis = a ∧ r.direction = msg.dir ∧ msg.value = r.lateLimit l.ref then
      if r.capture.isSome then s.setMark m { r with deferred := true } else declareMiss m s
    else s
  | .tracking, none | .idle, _ | .seeking, _ | .suspended, _ => s

/-- The MKU takes the oldest event in transit of an axis, if it is a step (R87). It takes the inputs in ascending number, which
orders their notices and their hand-offs (log 22). -/
def takeMkuStep (a : AxisId) (s : State) : State :=
  match s.toMku[a] with
  | .step msg :: rest =>
    let s := s.setToMku a rest
    if msg.frozen then s else (List.finRange 4).foldl (trackStep a msg) s
  | _ => s

/-- A freeze at one input (R98). -/
def freezeInput (a : AxisId) (s : State) (m : MarkId) : State :=
  let r := s.marks[m]
  if r.refAxis = a ∧ (r.state = .seeking ∨ r.state = .tracking) then loseMarks m .axisFault .suspended s else s

/-- The MKU takes the oldest event in transit of an axis, if it is a freeze (R98). It takes the inputs in ascending number, which
orders their notices (log 22). -/
def takeFreeze (a : AxisId) (s : State) : State :=
  match s.toMku[a] with
  | .freeze :: rest => (List.finRange 4).foldl (freezeInput a) (s.setToMku a rest)
  | _ => s

/-- A thaw at one input (R98). -/
def thawInput (a : AxisId) (s : State) (m : MarkId) : State :=
  let r := s.marks[m]
  if r.refAxis = a ∧ r.state = .suspended then s.setMark m (r.enter .seeking) else s

/-- The MKU takes the oldest event in transit of an axis, if it is a thaw (R98). -/
def takeThaw (a : AxisId) (s : State) : State :=
  match s.toMku[a] with
  | .thaw :: rest => (List.finRange 4).foldl (thawInput a) (s.setToMku a rest)
  | _ => s

/-- A re-base at one input (R97). -/
def rebaseInput (a : AxisId) (s : State) (m : MarkId) : State :=
  let r := s.marks[m]
  if r.refAxis = a ∧ (r.state = .seeking ∨ r.state = .tracking) then loseMarks m .rebase .seeking s else s

/-- The MKU takes the oldest event in transit of an axis, if it is a re-base (R97). It takes the inputs in ascending number,
which orders their notices (log 22); the AXIS_REBASED of the re-base is posted after them (R15, log 25). -/
def takeRebase (a : AxisId) (s : State) : State :=
  match s.toMku[a] with
  | .rebase .. :: rest => releaseNotices a ((List.finRange 4).foldl (rebaseInput a) (s.setToMku a rest))
  | _ => s

/-! ## Commands -/

/-- MARK_CONFIG (R81). -/
def markConfigAct (pl : List Byte) (s : State) : State × Answer :=
  match parseMarkConfig pl with
  | none => (s, .refuse .badField)
  | some c =>
    let r := s.marks[c.m]
    if r.state ≠ .idle then (s, .refuse .markState)
    else
      (s.setMark c.m { r with refAxis := c.refAxis, edge := c.edge, direction := c.direction, pitch := c.pitch,
                              tolerance := c.tolerance, missLimit := c.missLimit, debounce := c.debounce }, .ok [])

/-- MARK_START (R82). -/
def markStartAct (p : Port) (pl : List Byte) (s : State) : State × Answer :=
  match fin4 (field pl 0 1) with
  | none => (s, .refuse .badField)
  | some m =>
    let r := s.marks[m]
    if r.state ≠ .idle then (s, .refuse .markState)
    else if s.axes[r.refAxis].state = .disabled then (s, .refuse .axisState)
    else
      let r := r.enter (if axisFrozen s r.refAxis then .suspended else .seeking)
      (s.setMark m { r with holder := some p, history := [], seq := 0, misses := 0, last := none }, .ok [])

/-- The stop of an input at the MKU: MARK_LOST STOPPED, IDLE with no holder, miss count 0 (R100, R101). -/
def stopInput (m : MarkId) (s : State) : State :=
  let s := loseMarks m .stopped .idle s
  s.setMark m { s.marks[m] with holder := none }

/-- Check 4 of MARK_STOP: another port has an entry on the input, or a pending group AT_MARK on it (R99). -/
def inputForeign (s : State) (m : MarkId) (p : Port) : Bool :=
  (entriesOf s).any (fun e => e.owner != p && e.marksOn m)
    || (List.finRange 4).any (fun q => q != p && s.groups[q].state == .pending
        && s.groups[q].boundary == some (.atMark m))

/-- MARK_STOP (R99, R100). -/
def markStopAct (p : Port) (pl : List Byte) (s : State) : State × Answer :=
  match fin4 (field pl 0 1) with
  | none => (s, .refuse .badField)
  | some m =>
    if s.marks[m].state = .idle then (s, .refuse .markState)
    else if s.marks[m].holder ≠ some p then (s, .refuse .notOwner)
    else if inputForeign s m p then (s, .refuse .inUse)
    else (tellScu (.stop m p) (stopInput m s), .ok [])

/-- MARK_READ returns a record of the history and changes nothing (R102). -/
def markReadAct (pl : List Byte) (s : State) : State × Answer :=
  match fin4 (field pl 0 1) with
  | none => (s, .refuse .badField)
  | some m =>
    match s.marks[m].history[field pl 1 1]? with
    | none => (s, .refuse .badField)
    | some c => (s, .ok c.bytes)

/-- MARK_STATUS returns the input's record and changes nothing (R103). -/
def markStatusAct (pl : List Byte) (s : State) : State × Answer :=
  match fin4 (field pl 0 1) with
  | none => (s, .refuse .badField)
  | some m => (s, .ok s.marks[m].bytes)

/-- The MKU's part of a teardown at one input (R101). -/
def releaseInput (p : Port) (s : State) (m : MarkId) : State :=
  if s.marks[m].holder = some p then tellScu (.holderStop m) (stopInput m s) else s

/-- The MKU's part of a teardown: every input the port holds is stopped, in ascending number (R101). -/
def releaseInputs (p : Port) (s : State) : State := (List.finRange 4).foldl (releaseInput p) s

/-! ## A mark at the SCU (R92 to R96) -/

/-- One entry of the owed-mark set takes the mark, unless its current burst is its last (R95). -/
def giveOwed (c : Capture) (s : State) (i : EntryIx) : State :=
  match s.table[i].entry with
  | none => s
  | some e =>
    if e.finalBurst ∨ (e.desc.markCount ≠ 0 ∧ e.marksLeft = 0) then s
    else
      let s := writeEntry i { e with owed := some c } s
      match e.owed with
      | none => s
      | some old => post (.markOverrun (handleAt s i) e.desc.tag c.input old.seq c.seq) [e.owner] s

/-- Whether the entry at an index is an ARMED MARK_EACH entry on an input (R92). -/
def owesOn (s : State) (m : MarkId) (i : EntryIx) : Bool :=
  match s.table[i].entry with
  | some e => e.state == .armed && e.desc.reference == .markEach && e.desc.mark == m
  | none => false

/-- Whether the entry at an index is WAITING on an input (R92). -/
def waitsOn (s : State) (m : MarkId) (i : EntryIx) : Bool :=
  match s.table[i].entry with
  | some e => e.state == .waiting && e.marksOn m
  | none => false

/-- One entry of the resolution walk: resolved if its own axis is VALID in the record, else UNRESOLVED (R93, R94). -/
def resolveEntry (c : Capture) (w : Work) (i : EntryIx) : Work :=
  match w.st.table[i].entry with
  | none => w
  | some e =>
    if e.state ≠ .waiting then w
    else if c.validities[e.desc.axis] = .valid then giveTarget none i e.resolve (e.targetFrom c) w
    else w.map (postUnresolved i e c)

/-- The SCU takes a mark: AT_MARK groups apply, owed marks are given, and the waiting entries resolve (R92). The groups and
entries are those the SCU holds now, one that came after the MKU accepted the mark among them (R90, log 28). -/
def takeMark (c : Capture) (s : State) : State :=
  let w := applyReached none (.atMark c.input c.seq) (fun b => b == .atMark c.input) (.begin s)
  let owing := w.st.due.toList.flatten.filter (owesOn w.st c.input)
  let w := w.map (fun s => owing.foldl (giveOwed c) s)
  let walk := w.st.waiting.filter (waitsOn w.st c.input)
  (walk.foldl (resolveEntry c) w).done

/-- The SCU takes the oldest hand-off of the MKU, if it is a mark (R90, R92). -/
def takeMarkHandoff (s : State) : State :=
  match s.mkuToScu with
  | .mark c :: rest => takeMark c { s with mkuToScu := rest }
  | _ => s

/-! ## Stop requests at the SCU (R100, R101, R111, R122) -/

/-- A WAITING entry is withdrawn (R100, R101). -/
def withdraw (m : MarkId) (cause : WithdrawCause) (s : State) (i : EntryIx) : State :=
  match s.table[i].entry with
  | none => s
  | some e =>
    let h := handleAt s i
    post (.withdrawn h e.desc.tag m cause) [e.owner] (freeEntry i s)

/-- What a stop request does to one table place: an ARMED MARK_EACH entry on the input, of a covered port, drops its owed
mark and has its final burst flag set (R75, R100, R101). -/
def Slot.stopBurst (covers : Port → Bool) (m : MarkId) (t : Slot) : Slot :=
  match t.entry with
  | some e =>
    if e.state = .armed ∧ e.desc.reference = .markEach ∧ e.desc.mark = m ∧ covers e.owner then
      { t with entry := some { e with owed := none, finalBurst := true } }
    else t
  | none => t

/-- The input-stopped marker is set on a staged ARM whose entry is relative to the input (R111). -/
def GroupOp.markStopped (s : State) (m : MarkId) : GroupOp → GroupOp
  | .arm i stopped => .arm i (stopped || (s.table[i].entry.any (fun e => e.marksOn m)))
  | .cancel h => .cancel h
  | .drive mask act width => .drive mask act width

/-- A pending group with a boundary AT_MARK on the input is discarded (R122). -/
def discardAtMark (covers : Port → Bool) (m : MarkId) (s : State) (p : Port) : State :=
  if covers p ∧ s.groups[p].state = .pending ∧ s.groups[p].boundary = some (.atMark m) then
    discardNoticed p .markStopped s
  else s

/-- A stop request at the SCU, in the order of the rows of R100 and R101, for the ports it covers. -/
def stopAtScu (covers : Port → Bool) (m : MarkId) (cause : WithdrawCause) (s : State) : State :=
  let leaving := s.waiting.filter (fun i => waitsOn s m i && (s.table[i].entry.any (fun e => covers e.owner)))
  let s := leaving.foldl (withdraw m cause) s
  let s := { s with table := s.table.map (Slot.stopBurst covers m) }
  let s := { s with groups := .ofFn fun p =>
               if covers p then { s.groups[p] with ops := s.groups[p].ops.map (GroupOp.markStopped s m) }
               else s.groups[p] }
  s.pendingGroups.foldl (discardAtMark covers m) s

/-- The SCU takes the oldest hand-off of the MKU, if it is a MARK_STOP's stop request (R100). -/
def takeStopRequest (s : State) : State :=
  match s.mkuToScu with
  | .stop m issuer :: rest => stopAtScu (· == issuer) m .stopped { s with mkuToScu := rest }
  | _ => s

/-- The SCU takes the oldest hand-off of the MKU, if it is a holder-teardown stop request (R101). -/
def takeHolderStop (s : State) : State :=
  match s.mkuToScu with
  | .holderStop m :: rest => stopAtScu (fun _ => true) m .holderGone { s with mkuToScu := rest }
  | _ => s

/-! ## Meanings -/

def execMarkConfig (p : Port) (pl : List Byte) (s : State) : Host.Outcome State Fault Refusal :=
  .next (takeFrame p .markConfig pl (markConfigAct pl) s)

def execMarkStart (p : Port) (pl : List Byte) (s : State) : Host.Outcome State Fault Refusal :=
  .next (takeFrame p .markStart pl (markStartAct p pl) s)

def execMarkStop (p : Port) (pl : List Byte) (s : State) : Host.Outcome State Fault Refusal :=
  .next (takeFrame p .markStop pl (markStopAct p pl) s)

def execMarkRead (p : Port) (pl : List Byte) (s : State) : Host.Outcome State Fault Refusal :=
  .next (takeFrame p .markRead pl (markReadAct pl) s)

def execMarkStatus (p : Port) (pl : List Byte) (s : State) : Host.Outcome State Fault Refusal :=
  .next (takeFrame p .markStatus pl (markStatusAct pl) s)

def execMarkEdge (m : MarkId) (level : Bool) (s : State) : Host.Outcome State Fault Refusal :=
  .next (markChange m level s)

def execDebounceEnd (m : MarkId) (s : State) : Host.Outcome State Fault Refusal := .next (endDebounce m s)

def execMkuStep (a : AxisId) (s : State) : Host.Outcome State Fault Refusal := .next (takeMkuStep a s)

def execFreezeEvent (a : AxisId) (s : State) : Host.Outcome State Fault Refusal := .next (takeFreeze a s)

def execThawEvent (a : AxisId) (s : State) : Host.Outcome State Fault Refusal := .next (takeThaw a s)

def execRebaseEvent (a : AxisId) (s : State) : Host.Outcome State Fault Refusal := .next (takeRebase a s)

def execMarkHandoff (s : State) : Host.Outcome State Fault Refusal := .next (takeMarkHandoff s)

def execStopRequest (s : State) : Host.Outcome State Fault Refusal := .next (takeStopRequest s)

def execHolderStopRequest (s : State) : Host.Outcome State Fault Refusal := .next (takeHolderStop s)

def execMkuTeardown (p : Port) (s : State) : Host.Outcome State Fault Refusal :=
  .next (teardownPart p .mku (releaseInputs p) s)

end Sys2Proof.Machine
end

