-- ==== Sys2Proof/Machine/PortInterface.lean ====
section
/-! DEFINITION. The Port Interface (spec/07_master_ports_and_leases.md, spec/08_notices_and_the_attention_lines.md):
transactions and frames without an owning block, ports and leases, the end of a teardown, notices, subscriptions and peer
notices. -/

namespace Sys2Proof.Machine

/-! ## Transactions -/

/-- The response frame that a port would send now (R142). -/
def responseFrame (s : State) (p : Port) : List Byte := s.ports[p].buffer.frame (portFlags s p)

/-- Chip select falls: the response frame is formed, once the notices in transit stand in the queues (R44, R142, log 5).
A transaction that begins while reset is asserted will be ignored (R142). -/
def fallSelect (p : Port) (s : State) : State :=
  if s.inReset then s.setPort p { s.ports[p] with link := .abandoned }
  else
    match s.ports[p].link with
    | .high =>
      let s := takePostings s
      s.setPort p { s.ports[p] with link := .sending (responseFrame s p) [] 0 }
    | .sending _ _ _ | .abandoned => s

/-- A malformed transaction (R143); bytes that are not malformed are no such transaction (log 2). -/
def takeMalformed (p : Port) (bytes : List Byte) (s : State) : State :=
  match bytes with
  | [] => s
  | b :: _ => if malformed bytes then atRise p (rejectFrame p b) s else s

/-- A well-formed frame with a code the part does not define (R145); a defined code is no such frame (log 2). -/
def takeUnknown (p : Port) (code : Byte) (pl : List Byte) (s : State) : State :=
  if (commandOfCode code).isSome then s
  else
    atRise p (fun s =>
      if Config.maxPayload < pl.length then rejectFrame p code s
      else respond p code (.refuse .unknownCode) (renewLease p s)) s

/-- The NOP frame renews the lease and leaves the buffer; code 0x00 with another LEN is answered BAD_LENGTH (R144). -/
def takeNop (p : Port) (pl : List Byte) (s : State) : State :=
  atRise p (fun s =>
    if Config.maxPayload < pl.length then rejectFrame p Command.nop.code s
    else
      let s := renewLease p s
      if pl.length ≠ Command.nop.length then respond p Command.nop.code (.refuse .badLength) s else s) s

/-! ## Ports and leases -/

/-- The IDENT payload (R154). -/
def identBytes (p : Port) : List Byte :=
  leBytes 2 Config.vendorCode ++ leBytes 2 Config.partCode ++ [Config.revision] ++ leBytes 1 p.val

/-- An ATTACH that passes its checks, by the port state (R148). -/
def attachPort (p : Port) (period : Nat) (s : State) : State :=
  let r := s.ports[p]
  let r' := { r with state := .attached, period := period, remaining := period * Config.ticksPerMs }
  if r.state = .attached then s.setPort p r'
  else s.setPort p { r' with markSubs := 0, axisSubs := 0, peerEnable := false, overrun := false }

/-- ATTACH (R148). -/
def attachAct (p : Port) (pl : List Byte) (s : State) : State × Answer :=
  match boundedNat 10 60000 (field pl 0 2) with
  | none => (s, .refuse .badField)
  | some period => (attachPort p period s, .ok (leBytes 1 p.val ++ leBytes 2 period))

/-- STATUS reports the port and then clears its overrun flag (R153). -/
def statusAct (p : Port) (s : State) : State × Answer :=
  (s.setPort p { s.ports[p] with overrun := false }, .ok (statusBytes s p))

/-- A lease has run out and its expiry waits to be taken (log 4). -/
def leaseDue (s : State) (p : Port) : Bool := attached s p && s.ports[p].remaining == 0

/-- A lease expires: the port's teardown starts with end state EXPIRED (R149). -/
def expireLease (p : Port) (s : State) : State := if leaseDue s p then startTeardown p .expired s else s

/-- The port state that a teardown end state names (R152). -/
def endPortState : Option EndState → PortState
  | some .detached | none => .detached
  | some .expired => .expired

/-- The PIF takes a block's report that its part is done; with the last part the port takes its end state (R152). -/
def takePartDone (p : Port) (b : Block) (s : State) : State :=
  let r := s.ports[p]
  if r.reported.has b then
    let left := r.outstanding.put b false
    let r := { r with reported := r.reported.put b false, outstanding := left }
    if left = .empty then s.setPort p { r with state := endPortState r.endState, endState := none }
    else s.setPort p r
  else s

/-! ## Notices -/

/-- NOTICE_READ removes the oldest notices of the queue into the response (R161). -/
def noticeReadAct (p : Port) (pl : List Byte) (s : State) : State × Answer :=
  match boundedNat 1 3 (field pl 0 1) with
  | none => (s, .refuse .badField)
  | some n =>
    let q := s.ports[p].queue
    let out := q.take n
    (s.setPort p { s.ports[p] with queue := q.drop n }, .ok (leBytes 1 out.length ++ out.flatMap Notice.bytes))

/-- SUBSCRIBE replaces the issuer's subscriptions (R160). -/
def subscribeAct (p : Port) (pl : List Byte) (s : State) : State × Answer :=
  match parseSubscribe pl with
  | none => (s, .refuse .badField)
  | some (marks, axes, peer) =>
    (s.setPort p { s.ports[p] with markSubs := marks, axisSubs := axes, peerEnable := peer },
      .ok (leBytes 1 marks.toNat ++ leBytes 1 axes.toNat ++ leBytes 1 (bit peer)))

/-- POST_PEER queues a PEER notice at its target, in the same event (R163, R164). -/
def postPeerAct (p : Port) (pl : List Byte) (s : State) : State × Answer :=
  match fin4 (field pl 0 1) with
  | none => (s, .refuse .badField)
  | some t =>
    let r := s.ports[t]
    if r.state ≠ .attached ∨ r.peerEnable = false then (s, .refuse .peerUnavailable)
    else if Config.queueCapacity ≤ r.queue.length then (s, .refuse .peerFull)
    else
      let n : Notice := { stamp := s.uptime, body := .peer p (BitVec.ofNat 16 (field pl 1 2)) }
      (s.setPort t (r.receive n), .ok [])

/-! ## Meanings -/

def execChipSelectFall (p : Port) (s : State) : Host.Outcome State Fault Refusal := .next (fallSelect p s)

/-- A transaction of no whole byte is ignored; chip select is high again (R142). -/
def execEmptyTransaction (p : Port) (s : State) : Host.Outcome State Fault Refusal := .next (raiseSelect p s)

def execMalformedFrame (p : Port) (bytes : List Byte) (s : State) : Host.Outcome State Fault Refusal :=
  .next (takeMalformed p bytes s)

def execUnknownCode (p : Port) (code : Byte) (pl : List Byte) (s : State) : Host.Outcome State Fault Refusal :=
  .next (takeUnknown p code pl s)

def execNop (p : Port) (pl : List Byte) (s : State) : Host.Outcome State Fault Refusal := .next (takeNop p pl s)

/-- IDENT returns the codes of the part and the port number (R154). -/
def execIdent (p : Port) (pl : List Byte) (s : State) : Host.Outcome State Fault Refusal :=
  .next (takeFrame p .ident pl (fun s => (s, .ok (identBytes p))) s)

def execAttach (p : Port) (pl : List Byte) (s : State) : Host.Outcome State Fault Refusal :=
  .next (takeFrame p .attach pl (attachAct p pl) s)

/-- DETACH starts the port's teardown with end state DETACHED (R150). -/
def execDetach (p : Port) (pl : List Byte) (s : State) : Host.Outcome State Fault Refusal :=
  .next (takeFrame p .detach pl (fun s => (startTeardown p .detached s, .ok [])) s)

def execStatus (p : Port) (pl : List Byte) (s : State) : Host.Outcome State Fault Refusal :=
  .next (takeFrame p .status pl (statusAct p) s)

def execNoticeRead (p : Port) (pl : List Byte) (s : State) : Host.Outcome State Fault Refusal :=
  .next (takeFrame p .noticeRead pl (noticeReadAct p pl) s)

def execSubscribe (p : Port) (pl : List Byte) (s : State) : Host.Outcome State Fault Refusal :=
  .next (takeFrame p .subscribe pl (subscribeAct p pl) s)

def execPostPeer (p : Port) (pl : List Byte) (s : State) : Host.Outcome State Fault Refusal :=
  .next (takeFrame p .postPeer pl (postPeerAct p pl) s)

def execLeaseExpiry (p : Port) (s : State) : Host.Outcome State Fault Refusal := .next (expireLease p s)

def execTeardownPartDone (p : Port) (b : Block) (s : State) : Host.Outcome State Fault Refusal :=
  .next (takePartDone p b s)

def execNoticePosting (s : State) : Host.Outcome State Fault Refusal := .next (takePosting s)

end Sys2Proof.Machine
end

