-- ==== Sys2Proof/Machine/Timebase.lean ====
section
/-! DEFINITION. Device reset and the base tick (R1 and the rules of each block that count base ticks: R10, R84, R119,
R135, R149). -/

namespace Sys2Proof.Machine

/-! ## The base tick -/

/-- What fell due at an earlier tick and was not yet taken is taken now, block by block: leases, the prescaler, debounces,
group expiries, pulses (log 4). -/
def takeDue (s : State) : State :=
  let s := (List.finRange 4).foldl (fun s p => expireLease p s) s
  let s := expirePrescaler s
  let s := (List.finRange 4).foldl (fun s m => endDebounce m s) s
  let s := (List.finRange 4).foldl (fun s p => expireGroup p s) s
  (List.finRange 12).foldl (fun s c => expirePulse c s) s

/-- A lease counts down while its port is ATTACHED (R149). -/
def PortRec.tick (r : PortRec) : PortRec :=
  if r.state = .attached then { r with remaining := r.remaining - 1 } else r

/-- A debounce counts down while its capture is pending (R84). -/
def MarkRec.tick (r : MarkRec) : MarkRec :=
  { r with capture := r.capture.map (fun c => { c with remaining := c.remaining - 1 }) }

/-- A group's expiry counts down while it is PENDING (R119). -/
def GroupRec.tick (g : GroupRec) : GroupRec :=
  if g.state = .pending then { g with remaining := g.remaining - 1 } else g

/-- A pulse counts down while the channel is PULSING (R135). -/
def ChanRec.tick (r : ChanRec) : ChanRec :=
  if r.state = .pulsing then { r with remaining := r.remaining - 1 } else r

/-- Every counter of base ticks advances by one (R1, R10, R84, R119, R135, R149). -/
def advance (s : State) : State :=
  { s with
    uptime := s.uptime + 1
    time := if s.axes[timeAxis].state = .disabled then s.time else { s.time with phase := s.time.phase + 1 }
    ports := s.ports.map PortRec.tick
    marks := s.marks.map MarkRec.tick
    groups := s.groups.map GroupRec.tick
    chans := s.chans.map ChanRec.tick }

/-- One base tick, from the release of reset on (R1): what is due and every notice in transit is taken first, so that a
notice carries the stamp of its posting (R158, logs 4 and 5); then the counters advance. -/
def baseTick (s : State) : State := if s.inReset then s else advance (takePostings (takeDue s))

/-! ## Device reset -/

/-- The chip select of a port through device reset: a transaction in progress is abandoned (R142). -/
def Link.abandon : Link → Link
  | .high => .high
  | .sending _ _ _ | .abandoned => .abandoned

/-- Device reset: every block takes its reset values; the pins, the edges to come and the commands waiting are not the part's (R1 and the
reset columns of every chapter). -/
def resetDevice (s : State) : State :=
  { State.resetWith s.pins (.ofFn fun p => s.ports[p].link.abandon) with
    pending := s.pending, serial := s.serial, inReset := true }

/-- The release of reset: the levels then at the pins become the first samples (R1, R2, R18, R23, R79). -/
def releaseReset (s : State) : State :=
  if s.inReset then
    { s with
      inReset := false
      epochLevel := s.pins.epoch
      encs := .ofFn fun x =>
        { s.encs[x] with refA := s.pins.encA[x], refB := s.pins.encB[x], levelZ := s.pins.encZ[x] }
      marks := .ofFn fun m => { s.marks[m] with level := s.pins.mark[m] } }
  else s

/-! ## Meanings -/

def execDeviceReset (s : State) : Host.Outcome State Fault Refusal := .next (resetDevice s)

def execBaseTick (s : State) : Host.Outcome State Fault Refusal := .next (baseTick s)

def execReleaseOfReset (s : State) : Host.Outcome State Fault Refusal := .next (releaseReset s)

end Sys2Proof.Machine
end

