-- ==== Sys2Proof/Machine/Dispatch.lean ====
section
/-! DEFINITION. The meaning of every command: one arm for each constructor of Instr. -/

namespace Sys2Proof.Machine

def exec (i : Instr) (s : State) : Host.Outcome State Fault Refusal :=
  match i with
  | .deviceReset => Sys2Proof.Machine.execDeviceReset s
  | .baseTick => Sys2Proof.Machine.execBaseTick s
  | .chipSelectFall p => Sys2Proof.Machine.execChipSelectFall p s
  | .emptyTransaction p => Sys2Proof.Machine.execEmptyTransaction p s
  | .malformedFrame p bytes => Sys2Proof.Machine.execMalformedFrame p bytes s
  | .unknownCode p code pl => Sys2Proof.Machine.execUnknownCode p code pl s
  | .nop p pl => Sys2Proof.Machine.execNop p pl s
  | .ident p pl => Sys2Proof.Machine.execIdent p pl s
  | .attach p pl => Sys2Proof.Machine.execAttach p pl s
  | .detach p pl => Sys2Proof.Machine.execDetach p pl s
  | .status p pl => Sys2Proof.Machine.execStatus p pl s
  | .axisConfig p pl => Sys2Proof.Machine.execAxisConfig p pl s
  | .axisEnable p pl => Sys2Proof.Machine.execAxisEnable p pl s
  | .axisDisable p pl => Sys2Proof.Machine.execAxisDisable p pl s
  | .axisSet p pl => Sys2Proof.Machine.execAxisSet p pl s
  | .axisHome p pl => Sys2Proof.Machine.execAxisHome p pl s
  | .axisRead p pl => Sys2Proof.Machine.execAxisRead p pl s
  | .timePreset p pl => Sys2Proof.Machine.execTimePreset p pl s
  | .timePresetClear p pl => Sys2Proof.Machine.execTimePresetClear p pl s
  | .arm p pl => Sys2Proof.Machine.execArm p pl s
  | .cancel p pl => Sys2Proof.Machine.execCancel p pl s
  | .recordRead p pl => Sys2Proof.Machine.execRecordRead p pl s
  | .tableStatus p pl => Sys2Proof.Machine.execTableStatus p pl s
  | .groupBegin p pl => Sys2Proof.Machine.execGroupBegin p pl s
  | .groupEnd p pl => Sys2Proof.Machine.execGroupEnd p pl s
  | .groupDiscard p pl => Sys2Proof.Machine.execGroupDiscard p pl s
  | .groupStatus p pl => Sys2Proof.Machine.execGroupStatus p pl s
  | .markConfig p pl => Sys2Proof.Machine.execMarkConfig p pl s
  | .markStart p pl => Sys2Proof.Machine.execMarkStart p pl s
  | .markStop p pl => Sys2Proof.Machine.execMarkStop p pl s
  | .markRead p pl => Sys2Proof.Machine.execMarkRead p pl s
  | .markStatus p pl => Sys2Proof.Machine.execMarkStatus p pl s
  | .channelClaim p pl => Sys2Proof.Machine.execChannelClaim p pl s
  | .channelRelease p pl => Sys2Proof.Machine.execChannelRelease p pl s
  | .channelDrive p pl => Sys2Proof.Machine.execChannelDrive p pl s
  | .channelStatus p pl => Sys2Proof.Machine.execChannelStatus p pl s
  | .noticeRead p pl => Sys2Proof.Machine.execNoticeRead p pl s
  | .subscribe p pl => Sys2Proof.Machine.execSubscribe p pl s
  | .postPeer p pl => Sys2Proof.Machine.execPostPeer p pl s
  | .leaseExpiry p => Sys2Proof.Machine.execLeaseExpiry p s
  | .axuTeardown p => Sys2Proof.Machine.execAxuTeardown p s
  | .scuTeardown p => Sys2Proof.Machine.execScuTeardown p s
  | .mkuTeardown p => Sys2Proof.Machine.execMkuTeardown p s
  | .otuTeardown p => Sys2Proof.Machine.execOtuTeardown p s
  | .teardownPartDone p b => Sys2Proof.Machine.execTeardownPartDone p b s
  | .encoderTransition x a b => Sys2Proof.Machine.execEncoderTransition x a b s
  | .prescalerExpiry => Sys2Proof.Machine.execPrescalerExpiry s
  | .indexEdge x level => Sys2Proof.Machine.execIndexEdge x level s
  | .epochEdge level => Sys2Proof.Machine.execEpochEdge level s
  | .freezeEvent a => Sys2Proof.Machine.execFreezeEvent a s
  | .thawEvent a => Sys2Proof.Machine.execThawEvent a s
  | .rebaseEvent a => Sys2Proof.Machine.execRebaseEvent a s
  | .scuStep a => Sys2Proof.Machine.execScuStep a s
  | .mkuStep a => Sys2Proof.Machine.execMkuStep a s
  | .markEdge m level => Sys2Proof.Machine.execMarkEdge m level s
  | .debounceEnd m => Sys2Proof.Machine.execDebounceEnd m s
  | .markHandoff => Sys2Proof.Machine.execMarkHandoff s
  | .stopRequest => Sys2Proof.Machine.execStopRequest s
  | .holderStopRequest => Sys2Proof.Machine.execHolderStopRequest s
  | .groupExpiry p => Sys2Proof.Machine.execGroupExpiry p s
  | .action => Sys2Proof.Machine.execAction s
  | .pulseExpiry c => Sys2Proof.Machine.execPulseExpiry c s
  | .noticePosting => Sys2Proof.Machine.execNoticePosting s
  | .releaseOfReset => Sys2Proof.Machine.execReleaseOfReset s

end Sys2Proof.Machine
end

