-- ==== Sys2Proof/WellFormed.lean ====
section
/-! DEFINITION. When the operands of a command agree with the row that names it. -/

namespace Sys2Proof

/-- The payload of a frame has at most 58 bytes (R143). -/
def payloadFits (payload : List Byte) : Bool :=
  decide (payload.length ≤ Config.maxPayload)

/-- A command whose operands are ones its row can have: a frame's payload fits, the bytes of a malformed transaction are
one or more and malformed (R143), and the code of an unknown command is not defined (R145). -/
def Instr.wellFormed : Instr → Bool
  | .malformedFrame _ bytes => !bytes.isEmpty && malformed bytes
  | .unknownCode _ code payload => (commandOfCode code).isNone && payloadFits payload
  | .nop _ payload  | .ident _ payload  | .attach _ payload  | .detach _ payload  | .status _ payload  | .axisConfig _ payload  | .axisEnable _ payload  | .axisDisable _ payload  | .axisSet _ payload  | .axisHome _ payload  | .axisRead _ payload  | .timePreset _ payload  | .timePresetClear _ payload  | .arm _ payload  | .cancel _ payload  | .recordRead _ payload  | .tableStatus _ payload  | .groupBegin _ payload  | .groupEnd _ payload  | .groupDiscard _ payload  | .groupStatus _ payload  | .markConfig _ payload  | .markStart _ payload  | .markStop _ payload  | .markRead _ payload  | .markStatus _ payload  | .channelClaim _ payload  | .channelRelease _ payload  | .channelDrive _ payload  | .channelStatus _ payload  | .noticeRead _ payload  | .subscribe _ payload  | .postPeer _ payload => payloadFits payload
  | .deviceReset | .baseTick | .chipSelectFall _ | .emptyTransaction _ | .leaseExpiry _ | .axuTeardown _
  | .scuTeardown _ | .mkuTeardown _ | .otuTeardown _ | .teardownPartDone _ _ | .encoderTransition _ _ _
  | .prescalerExpiry | .indexEdge _ _ | .epochEdge _ | .freezeEvent _ | .thawEvent _ | .rebaseEvent _ | .scuStep _
  | .mkuStep _ | .markEdge _ _ | .debounceEnd _ | .markHandoff | .stopRequest | .holderStopRequest | .groupExpiry _
  | .action | .pulseExpiry _ | .noticePosting | .releaseOfReset => true

end Sys2Proof
end

