-- ==== Sys2Proof/Decode.lean ====
section
/-! DEFINITION. Reading commands from bits. spec/opcode_table.json gives no row any bits, so no word of the table spells
a command. The frames on a port's link do spell commands (R143, R145, R166): `decodeFrame` reads the bytes of one
transaction, total on any bytes, and `encodeFrame` writes the bytes of a frame command. -/

namespace Sys2Proof

/-- The command that a word spells by the table's bits: the table gives none (log 9). -/
def decodeTableWord (_nbits _w : Nat) : Option Instr := none

/-- The command that the whole bytes received in one transaction stand for at the rise of chip select (R142, R143,
R145). -/
def decodeFrame (p : Port) (bytes : List Byte) : Instr :=
  if bytes.isEmpty then .emptyTransaction p
  else if malformed bytes then .malformedFrame p bytes
  else
    let code := (bytes.take 1).headD 0
    let payload := (bytes.drop 2).take (frameLen bytes)
    match commandOfCode code with
    | some c => c.instr p payload
    | none => .unknownCode p code payload

/-- The port and the bytes of the transaction that carries a command, for the commands that are transactions. -/
def encodeFrame : Instr → Option (Port × List Byte)
  | .emptyTransaction p => some (p, [])
  | .malformedFrame p bytes => some (p, bytes)
  | .unknownCode p code payload => some (p, frameBytes code payload)
  | .nop p payload => some (p, frameBytes (Command.code .nop) payload)
  | .ident p payload => some (p, frameBytes (Command.code .ident) payload)
  | .attach p payload => some (p, frameBytes (Command.code .attach) payload)
  | .detach p payload => some (p, frameBytes (Command.code .detach) payload)
  | .status p payload => some (p, frameBytes (Command.code .status) payload)
  | .axisConfig p payload => some (p, frameBytes (Command.code .axisConfig) payload)
  | .axisEnable p payload => some (p, frameBytes (Command.code .axisEnable) payload)
  | .axisDisable p payload => some (p, frameBytes (Command.code .axisDisable) payload)
  | .axisSet p payload => some (p, frameBytes (Command.code .axisSet) payload)
  | .axisHome p payload => some (p, frameBytes (Command.code .axisHome) payload)
  | .axisRead p payload => some (p, frameBytes (Command.code .axisRead) payload)
  | .timePreset p payload => some (p, frameBytes (Command.code .timePreset) payload)
  | .timePresetClear p payload => some (p, frameBytes (Command.code .timePresetClear) payload)
  | .arm p payload => some (p, frameBytes (Command.code .arm) payload)
  | .cancel p payload => some (p, frameBytes (Command.code .cancel) payload)
  | .recordRead p payload => some (p, frameBytes (Command.code .recordRead) payload)
  | .tableStatus p payload => some (p, frameBytes (Command.code .tableStatus) payload)
  | .groupBegin p payload => some (p, frameBytes (Command.code .groupBegin) payload)
  | .groupEnd p payload => some (p, frameBytes (Command.code .groupEnd) payload)
  | .groupDiscard p payload => some (p, frameBytes (Command.code .groupDiscard) payload)
  | .groupStatus p payload => some (p, frameBytes (Command.code .groupStatus) payload)
  | .markConfig p payload => some (p, frameBytes (Command.code .markConfig) payload)
  | .markStart p payload => some (p, frameBytes (Command.code .markStart) payload)
  | .markStop p payload => some (p, frameBytes (Command.code .markStop) payload)
  | .markRead p payload => some (p, frameBytes (Command.code .markRead) payload)
  | .markStatus p payload => some (p, frameBytes (Command.code .markStatus) payload)
  | .channelClaim p payload => some (p, frameBytes (Command.code .channelClaim) payload)
  | .channelRelease p payload => some (p, frameBytes (Command.code .channelRelease) payload)
  | .channelDrive p payload => some (p, frameBytes (Command.code .channelDrive) payload)
  | .channelStatus p payload => some (p, frameBytes (Command.code .channelStatus) payload)
  | .noticeRead p payload => some (p, frameBytes (Command.code .noticeRead) payload)
  | .subscribe p payload => some (p, frameBytes (Command.code .subscribe) payload)
  | .postPeer p payload => some (p, frameBytes (Command.code .postPeer) payload)
  | .deviceReset | .baseTick | .chipSelectFall _ | .leaseExpiry _ | .axuTeardown _ | .scuTeardown _ | .mkuTeardown _
  | .otuTeardown _ | .teardownPartDone _ _ | .encoderTransition _ _ _ | .prescalerExpiry | .indexEdge _ _
  | .epochEdge _ | .freezeEvent _ | .thawEvent _ | .rebaseEvent _ | .scuStep _ | .mkuStep _ | .markEdge _ _
  | .debounceEnd _ | .markHandoff | .stopRequest | .holderStopRequest | .groupExpiry _ | .action | .pulseExpiry _
  | .noticePosting | .releaseOfReset => none

end Sys2Proof
end

