-- ==== Sys2Proof/Machine/Serial.lean ====
section
/-! DEFINITION. The serial pins of the ports (R142): the shifting of bits in and out, and the commands that the falls and rises
of chip select put in the queue (log 18). -/

namespace Sys2Proof.Machine

/-- The level a port presents on data-out, and none while it presents no response (log 18). -/
def dataOut (s : State) (p : Port) : Option Bool :=
  match s.ports[p].link with
  | .sending frame _ presented => some (sentBit frame presented)
  | .high | .abandoned => none

/-- The bits of the present transaction. -/
def Link.received : Link → List Bool
  | .sending _ bits _ => bits
  | .high | .abandoned => []

/-- A rising clock edge: while a transaction runs, the level at data-in is shifted in. -/
def Link.clockRise (dataIn : Bool) : Link → Link
  | .sending frame bits presented => .sending frame (bits ++ [dataIn]) presented
  | .high => .high
  | .abandoned => .abandoned

/-- A falling clock edge: the bit after the last one shifted is presented, and with none shifted yet the first stays. -/
def Link.clockFall : Link → Link
  | .sending frame bits _ => .sending frame bits bits.length
  | .high => .high
  | .abandoned => .abandoned

/-- The command that the rise of chip select stands for: what the whole bytes received spell; the transaction that began before
the release of device reset is ignored. -/
def risenCommand (p : Port) (link : Link) : Option Instr :=
  match link with
  | .high => none
  | .sending _ _ _ | .abandoned => some (decodeFrame p (wholeBytes link.received))

/-- One edge on the serial pins. -/
def takeEdge (e : SerialEdge) (s : State) : State :=
  match e with
  | .selectFall p => { s with pending := s.pending ++ [.chipSelectFall p] }
  | .clockRise p dataIn => s.setPort p { s.ports[p] with link := s.ports[p].link.clockRise dataIn }
  | .clockFall p => s.setPort p { s.ports[p] with link := s.ports[p].link.clockFall }
  | .selectRise p => { s with pending := s.pending ++ (risenCommand p s.ports[p].link).toList }

end Sys2Proof.Machine
end

