-- ==== Sys2Proof/Machine/Step.lean ====
section
/-! DEFINITION. One step of the part: the command at the front of the queue is taken. -/

namespace Sys2Proof.Machine

/-- The command at the front of the queue is run on the state with the queue's rest; with no command waiting the next edge on
the serial pins is taken (log 18), and with none to come the part idles (log 1). -/
def step (s : State) : Host.Outcome State Fault Refusal :=
  match s.pending with
  | [] =>
    match s.serial with
    | [] => .next s
    | e :: rest => .next (takeEdge e { s with serial := rest })
  | c :: rest => exec c { s with pending := rest }

/-- The state with the command that a word spells put at the front of the queue; the table gives no row any bits, so no
word spells one (log 9). -/
def State.withFetchWord (s : State) (nbits w : Nat) : State :=
  match decodeTableWord nbits w with
  | some c => { s with pending := c :: s.pending }
  | none => s

end Sys2Proof.Machine
end

