-- ==== Sys2Proof/Safety.lean ====
section
/-! DEFINITION. The laws of the part that its manual states over all its states, and the words the statements use: what a
port's record becomes when a frame is answered, and which fields an event of one block may change. -/

namespace Sys2Proof.Machine

/-! ## Frames -/

/-- A transaction that ends now on a port is judged and taken: reset is not asserted, and its chip select did not fall before
the release of reset (R142). -/
abbrev Taken (s : State) (p : Port) : Prop := s.inReset = false ∧ s.ports[p].link ≠ .abandoned

/-- A frame that the port state admits for every command: taken, and the port is ATTACHED (R145). -/
abbrev Admitted (s : State) (p : Port) : Prop := Taken s p ∧ s.ports[p].state = .attached

/-- The record of a port after a well-formed frame that leaves it otherwise as it was: chip select high, the lease renewed
while ATTACHED (R149). -/
def PortRec.renewed (r : PortRec) : PortRec :=
  { r with link := .high,
           remaining := if r.state = .attached then r.period * Config.ticksPerMs else r.remaining }

/-- The ports after port `p` has answered a well-formed frame and no port record changed otherwise (R144, R149). -/
def answered (s : State) (p : Port) (resp : Response) : Vector PortRec 4 :=
  upd s.ports p { s.ports[p].renewed with buffer := resp }

/-- The state in which the owning block acts on a frame of port `p`: the lease has been renewed (R145). -/
def leaseRenewed (s : State) (p : Port) : State := { s with ports := upd s.ports p s.ports[p].renewed }

/-- The response of a command that answers OK with this payload. -/
def okResponse (c : Command) (payload : List Byte) : Response := ⟨.ok, c.code, payload⟩

/-- The response of a refused command: no payload (R167). -/
def refusal (c : Command) (st : Status) : Response := ⟨st, c.code, []⟩

/-- The part after a refused command: the port has answered and nothing else has changed (R145). -/
def refused (s : State) (p : Port) (c : Command) (st : Status) : State :=
  { s with ports := answered s p (refusal c st) }

/-- A number as one payload byte. -/
def byte (n : Nat) : Byte := BitVec.ofNat 8 n

/-- These commands are run one after another. -/
def Runs : List Instr → State → State → Prop
  | [], s, t => t = s
  | c :: cs, s, t => ∃ u, exec c s = .next u ∧ Runs cs u t

/-- The state once the AXU has handed on a notice of an axis, addressed to `ports` and to the ports holding an entry there where
R24 adds them: it is posted, or it joins the notices that wait behind a re-base the MKU has not taken, and R24's holders and
AXIS_FAULT's value are then those of its posting (R15, R24, log 25). -/
def State.notified (t : State) (a : AxisId) (body : NoticeBody) (ports holders : List Port) : State :=
  if t.heldNotices[a] = [] then { t with posted := t.posted ++ [⟨body, ports ++ holders⟩] }
  else { t with heldNotices := upd t.heldNotices a (t.heldNotices[a] ++ [⟨body, ports⟩]) }

/-- The forward quadrature sequence of the pair (A, B) (R5). -/
def quadNext : Bool × Bool → Bool × Bool
  | (false, false) => (true, false)
  | (true, false) => (true, true)
  | (true, true) => (false, true)
  | (false, true) => (false, false)

/-! ## What an event of one block may change -/

/-- An event of the SCU changes at most the SCU's state, and hands on actions and notices. -/
def ScuOnly (s t : State) : Prop :=
  t = { s with table := t.table, due := t.due, waiting := t.waiting, groups := t.groups,
               pendingGroups := t.pendingGroups, toOtu := t.toOtu, posted := t.posted }

/-- An event of the AXU changes at most the AXU's state, and hands on steps, events and notices. -/
def AxuOnly (s t : State) : Prop :=
  t = { s with axes := t.axes, encs := t.encs, time := t.time, preset := t.preset, epochLevel := t.epochLevel,
               toScu := t.toScu, toMku := t.toMku, heldNotices := t.heldNotices, posted := t.posted }

/-- An event of the MKU changes at most the mark inputs, and hands on marks, stop requests and notices. -/
def MkuOnly (s t : State) : Prop :=
  t = { s with marks := t.marks, mkuToScu := t.mkuToScu, posted := t.posted }

/-! ## Laws of the AXU -/

/-- A value lies in the range, and a fault cause is kept exactly while the axis is FAULTED (R2). -/
abbrev AxisRec.ok (r : AxisRec) : Prop := inRange r.value = true ∧ (r.cause = none ↔ r.state ≠ .faulted)

/-- The homing fields lie in their ranges (R2). -/
abbrev EncRec.ok (r : EncRec) : Prop :=
  inRange r.homeValue = true ∧ r.searchLimit ≤ Config.countMax ∧ r.searchTravel ≤ r.searchLimit

/-- The axis records keep to the ranges of R2: values, causes and homing fields as above, recover on home only in HOMING, A3
never in HOMING with its phase within its prescaler and 0 while DISABLED (R10), and a preset value in the range (R21). R2 has the
phase below the prescaler; it equals it while an expiry is due, which is the model's choice (log 4). -/
abbrev AxesOk (s : State) : Prop :=
  (∀ a : AxisId, s.axes[a].ok) ∧ (∀ x : EncId, s.encs[x].ok)
    ∧ (∀ x : EncId, s.encs[x].recover = true → s.axes[encAxis x].state = .homing)
    ∧ s.axes[timeAxis].state ≠ .homing ∧ (1 ≤ s.time.prescaler ∧ s.time.prescaler ≤ 1000)
    ∧ s.time.phase ≤ s.time.prescaler ∧ (s.axes[timeAxis].state = .disabled → s.time.phase = 0)
    ∧ (∀ q ∈ s.preset, inRange q.value = true)

/-- Nothing refers to a DISABLED axis (R14). -/
abbrev DisabledOk (s : State) : Prop := ∀ a : AxisId, s.axes[a].state = .disabled → axisReferenced s a = false

/-- An AXIS_REBASED waits exactly for each re-base in transit to the MKU, and nothing waits but behind one (R15, log 25). -/
abbrev HeldOk (s : State) : Prop :=
  ∀ a : AxisId, (∀ q ∈ s.heldNotices[a].head?, q.isRebased = true)
    ∧ s.heldNotices[a].countP Posting.isRebased = s.toMku[a].countP (fun e => match e with
        | .rebase .. => true
        | .step _ | .freeze | .thaw => false)

/-! ## Laws of the PIF -/

/-- A port record keeps to its ranges: at most 32 notices; outside ATTACHED no notice and no lease running; a period of 0 or
10 to 60,000 ms, and 10 or more while ATTACHED; parts outstanding and an end state exactly while RELEASING, each part
outstanding either requested of its block or reported by it (R147, R151, R152, R156). -/
abbrev PortRec.ok (r : PortRec) : Prop :=
  r.queue.length ≤ 32 ∧ (r.state ≠ .attached → r.queue = [] ∧ r.remaining = 0)
    ∧ (r.period = 0 ∨ (10 ≤ r.period ∧ r.period ≤ 60000)) ∧ (r.state = .attached → r.period ≠ 0)
    ∧ r.remaining ≤ r.period * 1000
    ∧ (r.state = .releasing ↔ r.outstanding ≠ .empty) ∧ (r.state = .releasing ↔ r.endState ≠ none)
    ∧ (r.outstanding.scu = (r.requested.scu != r.reported.scu) ∧ (r.requested.scu && r.reported.scu) = false)
    ∧ (r.outstanding.otu = (r.requested.otu != r.reported.otu) ∧ (r.requested.otu && r.reported.otu) = false)
    ∧ (r.outstanding.mku = (r.requested.mku != r.reported.mku) ∧ (r.requested.mku && r.reported.mku) = false)
    ∧ (r.outstanding.axu = (r.requested.axu != r.reported.axu) ∧ (r.requested.axu && r.reported.axu) = false)

/-- Every port record keeps to its ranges. -/
abbrev PortsOk (s : State) : Prop := ∀ p : Port, s.ports[p].ok

/-- A response payload has at most 58 bytes, and none unless the status is OK (R144, R167). -/
abbrev ResponsesOk (s : State) : Prop :=
  ∀ p : Port, s.ports[p].buffer.payload.length ≤ 58
    ∧ (s.ports[p].buffer.status ≠ .ok → s.ports[p].buffer.payload = [])

/-- A port may still hold things of a block: it is ATTACHED, or it is RELEASING and the block has not yet taken its
teardown request (R152). -/
abbrev MayHold (s : State) (p : Port) (b : Block) : Prop :=
  s.ports[p].state = .attached ∨ (s.ports[p].state = .releasing ∧ s.ports[p].requested.has b = true)

/-- Only a port that may still hold things holds any: entries and a group at the SCU, channels at the OTU, mark inputs at the
MKU, the preset at the AXU (R152); and while its owner is ATTACHED, an entry names only channels its owner owns (R41). -/
abbrev HoldingsOk (s : State) : Prop :=
  (∀ i : EntryIx, ∀ e ∈ s.table[i].entry, MayHold s e.owner .scu)
    ∧ (∀ i : EntryIx, ∀ e ∈ s.table[i].entry,
        s.ports[e.owner].state = .attached → ownsMask s e.owner e.desc.mask = true)
    ∧ (∀ p : Port, s.groups[p].state ≠ .none → MayHold s p .scu)
    ∧ (∀ c : ChanId, ∀ p ∈ s.chans[c].owner, MayHold s p .otu)
    ∧ (∀ m : MarkId, ∀ p ∈ s.marks[m].holder, MayHold s p .mku)
    ∧ (∀ q ∈ s.preset, MayHold s q.setter .axu)

/-! ## Laws of the OTU -/

/-- A channel has an owner exactly while it is not UNOWNED, and pulse time remains only in PULSING (R126, R127). -/
abbrev ChannelsOk (s : State) : Prop :=
  ∀ c : ChanId, (s.chans[c].owner = none ↔ s.chans[c].state = .unowned)
    ∧ (s.chans[c].remaining ≠ 0 → s.chans[c].state = .pulsing)

/-! ## Laws of the MKU -/

/-- A mark input's record keeps to its ranges: at most 8 records in the history; a holder exactly while it is not IDLE; a
pending capture only in SEEKING and TRACKING, and a deferred miss only beside one; a last mark in TRACKING; a miss count
within the miss limit, which is at most 15, and 0 in IDLE; a pitch of 1 to 2^31 − 1, a tolerance below it and a debounce of at
most 255 (R79, R80). -/
abbrev MarkRec.ok (r : MarkRec) : Prop :=
  r.history.length ≤ 8 ∧ (r.holder = none ↔ r.state = .idle)
    ∧ (r.capture ≠ none → r.state = .seeking ∨ r.state = .tracking) ∧ (r.deferred = true → r.capture ≠ none)
    ∧ (r.state = .tracking → r.last ≠ none) ∧ r.misses ≤ r.missLimit ∧ r.missLimit ≤ 15
    ∧ (r.state = .idle → r.misses = 0) ∧ 1 ≤ r.pitch ∧ r.pitch ≤ Config.countMax ∧ r.tolerance < r.pitch ∧ r.debounce ≤ 255

/-- Every mark input's record keeps to its ranges. -/
abbrev MarksOk (s : State) : Prop := ∀ m : MarkId, s.marks[m].ok

/-! ## Laws of the SCU -/

/-- A group holds at most 16 operations, holds operations only in STAGING and PENDING, and a boundary exactly in PENDING; its
expiry period is at most 65535 and its expiry remaining within it, 1000 base ticks to the unit; the pending-group list holds the groups in PENDING, each once (R105, R114). -/
abbrev GroupsOk (s : State) : Prop :=
  (∀ p : Port, s.groups[p].ops.length ≤ 16 ∧ (s.groups[p].state = .none → s.groups[p].ops = [])
      ∧ (s.groups[p].boundary ≠ none ↔ s.groups[p].state = .pending)
      ∧ s.groups[p].period ≤ 65535 ∧ s.groups[p].remaining ≤ s.groups[p].period * 1000)
    ∧ (∀ p : Port, p ∈ s.pendingGroups ↔ s.groups[p].state = .pending) ∧ s.pendingGroups.Nodup

/-- Whether the entry at an index is ARMED on an axis. -/
def armedOn (s : State) (i : EntryIx) (a : AxisId) : Bool :=
  s.table[i].entry.any (fun e => e.state == .armed && e.desc.axis == a)

/-- Whether the entry at an index is WAITING. -/
def isWaiting (s : State) (i : EntryIx) : Bool := s.table[i].entry.any (fun e => e.state == .waiting)

/-- Whether the entry at an index is STAGED and owned by a port. -/
def stagedFor (s : State) (i : EntryIx) (p : Port) : Bool :=
  s.table[i].entry.any (fun e => e.state == .staged && e.owner == p)

/-- An entry is ARMED exactly when it stands in the due list of its own axis, it is WAITING exactly when it stands in the
waiting set, no list holds it twice, it has a current target exactly while ARMED, and each due list is in ascending target
order (R28, R29, R31, R51). -/
abbrev ScheduleOk (s : State) : Prop :=
  (∀ (i : EntryIx) (a : AxisId), i ∈ s.due[a] ↔ armedOn s i a = true)
    ∧ (∀ i : EntryIx, i ∈ s.waiting ↔ isWaiting s i = true)
    ∧ (∀ a : AxisId, s.due[a].Nodup) ∧ s.waiting.Nodup
    ∧ (∀ i : EntryIx, ∀ e ∈ s.table[i].entry, e.target.isSome = true ↔ e.state = .armed)
    ∧ (∀ a : AxisId, s.due[a].Pairwise (fun i j => targetAt s i ≤ targetAt s j))

/-- No port owns more than 96 non-FREE entries (R34). -/
abbrev QuotaOk (s : State) : Prop := ∀ p : Port, liveCount s p ≤ 96

/-- The repeat count allows an occurrence with index `k` (R69). -/
abbrev TriggerDesc.allows (d : TriggerDesc) (k : Nat) : Prop := d.repeats = 0 ∨ k < d.repeats

/-- An entry keeps to its ranges: an interval of at least 1 unless it occurs once, which an EITHER entry does (R37, R38); an
occurrence index below a finite repeat count, and below 65536 (R69, R71); no more marks left than its mark count, and an owed
mark and a final burst only with MARK_EACH (R28, R75); and a current target in the range (R61, R69). -/
abbrev Entry.ok (e : Entry) : Prop :=
  e.desc.repeats < 65536 ∧ (e.desc.repeats ≠ 1 → 1 ≤ e.desc.interval) ∧ (e.desc.approach = .either → e.desc.repeats = 1)
    ∧ e.occ < 65536 ∧ e.desc.allows e.occ ∧ e.marksLeft ≤ e.desc.markCount
    ∧ (e.desc.reference ≠ .markEach → e.owed = none ∧ e.finalBurst = false) ∧ ∀ t ∈ e.target, inRange t = true

/-- Every entry keeps to its ranges. -/
abbrev EntriesOk (s : State) : Prop := ∀ i : EntryIx, ∀ e ∈ s.table[i].entry, e.ok

/-- The entries that a group's staged ARMs reserve. -/
def reservedBy (s : State) (p : Port) : List EntryIx := s.groups[p].ops.filterMap GroupOp.reserved

/-- An entry is STAGED exactly when its owner's group lists it, and a group lists it once (R105). -/
abbrev StagedOk (s : State) : Prop :=
  ∀ p : Port, (reservedBy s p).Nodup ∧ ∀ i : EntryIx, i ∈ reservedBy s p ↔ stagedFor s i p = true

/-! ## The words of the AXU's and the MKU's statements -/

/-- Something refers to an axis (R13). -/
def Referenced (s : State) (a : AxisId) : Prop :=
  (∃ i : EntryIx, ∃ e ∈ s.table[i].entry, e.desc.axis = a)
    ∨ (∃ m : MarkId, s.marks[m].state ≠ .idle ∧ s.marks[m].refAxis = a)
    ∨ ∃ q : Port, s.groups[q].state = .pending ∧ ∃ v d, s.groups[q].boundary = some (.atPosition a v d)

/-- Something refers to an axis on behalf of a port other than `p` (R13). -/
def ForeignReferenced (s : State) (a : AxisId) (p : Port) : Prop :=
  (∃ i : EntryIx, ∃ e ∈ s.table[i].entry, e.desc.axis = a ∧ e.owner ≠ p)
    ∨ (∃ m : MarkId, s.marks[m].state ≠ .idle ∧ s.marks[m].refAxis = a ∧ s.marks[m].holder ≠ some p)
    ∨ ∃ q : Port, q ≠ p ∧ s.groups[q].state = .pending ∧ ∃ v d, s.groups[q].boundary = some (.atPosition a v d)

/-- What an event does at one mark input: its new record, the notices it posts and what it hands to the SCU. -/
structure MarkEffect where
  record : MarkRec
  posted : List Posting
  handed : List MkuHandoff

/-- The state after an effect at one input. -/
def MarkEffect.on (x : MarkEffect) (m : MarkId) (s : State) : State :=
  { s with marks := upd s.marks m x.record, posted := s.posted ++ x.posted, mkuToScu := s.mkuToScu ++ x.handed }

/-- A mark with this reference value becomes the last mark and is counted, recorded and handed on, the miss count being
`misses` (R85, R86, R88, R90). -/
def MarkRec.counted (r : MarkRec) (m : MarkId) (c : Capture) (kind : CaptureKind) (ref : Int) (misses : Nat) : MarkEffect :=
  let c := { c with kind := kind, seq := r.seq + 1 }
  { record := { r with
      state := .tracking, misses := misses, deferred := false, capture := none, seq := r.seq + 1
      last := some ⟨ref, r.seq + 1⟩, history := (c :: r.history).take 8 }
    posted := [⟨.markCaptured m kind (r.seq + 1) ref misses, []⟩]
    handed := [.mark c] }

/-- A miss is declared at an input whose last mark is `l`: a substituted mark one pitch on while the miss count is below the
limit, else the loss of the marks (R88, R89). That the other axes and the value of the loss are those of this moment is the
model's choice (log 14). -/
def MarkRec.missed (r : MarkRec) (m : MarkId) (l : LastMark) (s : State) : MarkEffect :=
  let ref := match r.direction with
    | .forward => l.ref + r.pitch
    | .reverse => l.ref - r.pitch
  if r.misses < r.missLimit then
    r.counted m
      { input := m, kind := .substituted, seq := 0, stamp := s.uptime, values := upd (s.axes.map (·.value)) r.refAxis ref
        validities := s.axes.map (fun x => validityOf x.state) } .substituted ref (r.misses + 1)
  else
    { record := { r with state := .seeking, capture := none, deferred := false, misses := 0 }
      posted := [⟨.markLost m .missed l.seq s.axes[r.refAxis].value, []⟩]
      handed := [] }

/-- The late limit of an input whose last mark is `l` (R87). -/
def MarkRec.limit (r : MarkRec) (l : LastMark) : Int :=
  match r.direction with
  | .forward => l.ref + r.pitch + r.tolerance
  | .reverse => l.ref - r.pitch - r.tolerance

/-- What becomes of a deferred miss whose capture was rejected or discarded: declared when the axis stands at the late limit or
beyond it in the input's direction, else dropped (R87). -/
def MarkRec.deferredMiss (r : MarkRec) (m : MarkId) (l : LastMark) (s : State) : MarkEffect :=
  let v := s.axes[r.refAxis].value
  if r.deferred = true ∧ (r.direction = .forward ∧ r.limit l ≤ v ∨ r.direction = .reverse ∧ v ≤ r.limit l) then
    { r with deferred := false }.missed m l s
  else { record := { r with deferred := false }, posted := [], handed := [] }

/-- The judgement in TRACKING of a capture that is no longer pending (R86, R87). -/
def MarkRec.judged (r : MarkRec) (m : MarkId) (l : LastMark) (c : Capture) (s : State) : MarkEffect :=
  let ref := c.values[r.refAxis]
  let d := match r.direction with
    | .forward => ref - l.ref
    | .reverse => l.ref - ref
  if d < (r.pitch : Int) - r.tolerance then
    let x := r.deferredMiss m l s
    { x with posted := ⟨.markRejected m ref l.seq, []⟩ :: x.posted }
  else r.counted m c .real ref 0

/-- A step of axis `a` at one input (R87): at the late limit a TRACKING input has a miss, declared at once or deferred to its
pending capture. -/
def MarkRec.stepped (r : MarkRec) (m : MarkId) (a : AxisId) (msg : StepMsg) (s : State) : MarkEffect :=
  match r.last with
  | some l =>
    if r.state = .tracking ∧ r.refAxis = a ∧ r.direction = msg.dir ∧ msg.frozen = false ∧ msg.value = r.limit l then
      if r.capture = none then r.missed m l s else { record := { r with deferred := true }, posted := [], handed := [] }
    else { record := r, posted := [], handed := [] }
  | none => { record := r, posted := [], handed := [] }

/-! ## The words of the SCU's statements

Relations written from the rules of spec/02_the_trigger_table.md, spec/03_due_lists_and_firing.md, spec/04 (R92 to R95) and
spec/05 (R115 to R118), one case for each case of a rule. They name none of the meanings' own operations on entries, lists and
groups. An event of the SCU is described by the actions it sends, in order, and the state it leaves. -/

/-- The occurrence index of a series reads modulo 65536 for a continuous entry (R59, R69, R71). -/
def TriggerDesc.index (d : TriggerDesc) (k : Nat) : Nat := if d.repeats = 0 then k % 65536 else k

/-- The member with index `j` of the series of targets from `t` (R57, R69). -/
def TriggerDesc.member (d : TriggerDesc) (t : Int) (j : Nat) : Int :=
  match d.approach with
  | .forward | .either => t + j * d.interval
  | .reverse => t - j * d.interval

/-- A target lies behind a value in the approach direction (R42, R54); an EITHER target never does (R55). -/
abbrev TriggerDesc.behind (d : TriggerDesc) (t v : Int) : Prop :=
  (d.approach = .forward ∧ t < v) ∨ (d.approach = .reverse ∧ v < t)

/-- The occurrence that the entry holds is driven, by its skip pattern (R66). -/
abbrev Entry.drives (e : Entry) : Prop := e.desc.fireN = 0 ∨ e.occ % (e.desc.fireN + e.desc.skipN) < e.desc.fireN

/-- One action for each channel of a mask, in ascending number (R67, R116). -/
def channelActions (p : Port) (mask : BitVec 12) (act : Action) (width : Nat) : List OutAction :=
  ((List.finRange 12).filter (fun c => mask.getLsbD c.val)).map (fun c => ⟨p, c, act, width⟩)

/-- The actions of an occurrence (R66, R67). -/
def Entry.sends (e : Entry) : List OutAction :=
  if e.drives then channelActions e.owner e.desc.mask e.desc.action e.desc.width else []

/-- The notice of an occurrence at the axis value `v` (R66, R68). -/
def Entry.tells (e : Entry) (h : Handle) (v : Int) (late : Bool) : List Posting :=
  if e.drives ∧ e.desc.notify = .each then [⟨.fired h e.desc.tag e.occ v late, [e.owner]⟩] else []

/-- After an occurrence at `t` the entry goes on at its advanced target, or ends (R69, R70). -/
inductive GoesOn (e : Entry) (t : Int) : Verdict → Prop
  | next : e.desc.allows (e.occ + 1) → inRange (e.desc.member t 1) = true →
      GoesOn e t (.armed { e with occ := e.desc.index (e.occ + 1) } (e.desc.member t 1))
  | rangeExit : e.desc.allows (e.occ + 1) → inRange (e.desc.member t 1) = false → GoesOn e t (.ended e .rangeExit)
  | complete : ¬e.desc.allows (e.occ + 1) → GoesOn e t (.ended e .complete)

/-- The consumption of `n` late members from the member `t` with index `k` (R59). -/
inductive Consumes (e : Entry) (k : Nat) (t v : Int) (n : Nat) : Verdict → Prop
  | onward : (∀ j < n, e.desc.behind (e.desc.member t j) v) → ¬e.desc.behind (e.desc.member t n) v →
      e.desc.allows (k + n) → inRange (e.desc.member t n) = true →
      Consumes e k t v n (.armed { e with occ := e.desc.index (k + n) } (e.desc.member t n))
  | allLate : (∀ j < n, e.desc.behind (e.desc.member t j) v) → k + n = e.desc.repeats → e.desc.repeats ≠ 0 →
      Consumes e k t v n (.ended { e with occ := e.desc.repeats - 1 } .allLate)
  | rangeExit : (∀ j < n, e.desc.behind (e.desc.member t j) v) → ¬e.desc.behind (e.desc.member t n) v →
      e.desc.allows (k + n) → inRange (e.desc.member t n) = false →
      Consumes e k t v n (.ended { e with occ := e.desc.index (k + n - 1) } .rangeExit)

/-- A target that is not behind `v` is reached, and the entry occurs on time, or it lies ahead (R54 to R56, R59). -/
inductive Lands (h : Handle) (v : Int) : Verdict → List OutAction → List Posting → Verdict → Prop
  | reached (e : Entry) (r : Verdict) : GoesOn e v r → Lands h v (.armed e v) e.sends (e.tells h v false) r
  | ahead (e : Entry) (t : Int) : t ≠ v → Lands h v (.armed e t) [] [] (.armed e t)
  | ended (e : Entry) (cause : EndCause) : Lands h v (.ended e cause) [] [] (.ended e cause)

/-- Whether a verdict ends the entry. -/
def Verdict.ends : Verdict → Bool
  | .armed .. => false
  | .ended .. => true

/-- The admission of an entry with the target `t` at the axis value `v` (R53 to R61): what it sends, what it posts and what
becomes of the entry. That a catch-up which is the last occurrence ends with COMPLETE is the model's choice (log 16). -/
inductive Admits (h : Handle) (e : Entry) (t v : Int) (frozen owned : Bool) :
    List OutAction → List Posting → Verdict → Prop
  | outOfRange : inRange t = false → Admits h e t v frozen owned [] [] (.ended e .rangeExit)
  | untested : inRange t = true → frozen = true ∨ owned = false → Admits h e t v frozen owned [] [] (.armed e t)
  | onTime {acts posts r} : inRange t = true → frozen = false → owned = true → ¬e.desc.behind t v →
      Lands h v (.armed e t) acts posts r → Admits h e t v frozen owned acts posts r
  | lastCatchUp : inRange t = true → frozen = false → owned = true → e.desc.behind t v → e.desc.late = .fireLate →
      ¬e.desc.allows (e.occ + 1) → Admits h e t v frozen owned e.sends (e.tells h v true) (.ended e .complete)
  | catchUp {n r acts posts r'} : inRange t = true → frozen = false → owned = true → e.desc.behind t v →
      e.desc.late = .fireLate → e.desc.allows (e.occ + 1) → Consumes e (e.occ + 1) (e.desc.member t 1) v n r →
      Lands h v r acts posts r' →
      Admits h e t v frozen owned (e.sends ++ acts) (e.tells h v true ++ posts) r'
  | dropLate {n r acts posts r'} : inRange t = true → frozen = false → owned = true → e.desc.behind t v →
      e.desc.late = .dropLate → Consumes e e.occ t v n r → Lands h v r acts posts r' →
      Admits h e t v frozen owned acts
        (⟨.lateDropped h e.desc.tag e.occ (min n 4294967295) r.ends, [e.owner]⟩ :: posts) r'

/-- An immediate ARM whose every occurrence would be consumed as late (R42). -/
def ArmLate (s : State) (d : TriggerDesc) : Prop :=
  d.reference = .absolute ∧ d.late = .dropLate ∧ axisFrozen s d.axis = false
    ∧ ∃ n, (∀ j < n, d.behind (d.member d.place j) s.axes[d.axis].value)
      ∧ ((d.repeats ≠ 0 ∧ n = d.repeats)
        ∨ (¬d.behind (d.member d.place n) s.axes[d.axis].value ∧ inRange (d.member d.place n) = false))

/-- The entry stands in no due list and not in the waiting set; the others keep their places (R31, R52). -/
def offLists (i : EntryIx) (s : State) : State :=
  { s with due := s.due.map (fun l => l.filter (· ≠ i)), waiting := s.waiting.filter (· ≠ i) }

/-- The entry is FREE, its generation advanced (R32, R47, R72). -/
def freed (i : EntryIx) (s : State) : State :=
  { offLists i s with table := upd s.table i ⟨s.table[i].gen + 1, none⟩ }

/-- The entry is WAITING at the tail of the waiting set, with no current target (R31, R74, R116). -/
def madeWaiting (i : EntryIx) (e : Entry) (s : State) : State :=
  { offLists i s with
    table := upd s.table i ⟨s.table[i].gen, some { e with state := .waiting, target := none }⟩
    waiting := s.waiting.filter (· ≠ i) ++ [i] }

/-- The entry is ARMED at `t`, in the due list of its axis after every entry whose target is not greater and before every
entry whose target is (R52). -/
def MadeArmed (i : EntryIx) (e : Entry) (t : Int) (s u : State) : Prop :=
  ∃ before after, s.due[e.desc.axis].filter (· ≠ i) = before ++ after
    ∧ (∀ j ∈ before, targetAt s j ≤ t) ∧ (∀ j ∈ after, t < targetAt s j)
    ∧ u = { offLists i s with
        table := upd s.table i ⟨s.table[i].gen, some { e with state := .armed, target := some t }⟩
        due := upd (offLists i s).due e.desc.axis (before ++ i :: after) }

/-- The entry retires: FREE, with RETIRED under notify EACH or LAST (R72, R73). -/
def retired (i : EntryIx) (e : Entry) (cause : EndCause) (s : State) : State :=
  { freed i s with
    posted := s.posted ++ if e.desc.notify = .none then []
      else [⟨.retired ⟨i, s.table[i].gen⟩ e.desc.tag cause e.occ, [e.owner]⟩] }

/-- The marks of a MARK_EACH entry are used up (R74, R95). -/
abbrev Entry.spent (e : Entry) : Prop := e.desc.markCount ≠ 0 ∧ e.marksLeft = 0

/-- What becomes of an entry that has no owed mark to use: armed, or its end by R72 and the rows of R74. -/
inductive Closes (i : EntryIx) : Verdict → State → State → Prop
  | armed {e t s u} : MadeArmed i e t s u → Closes i (.armed e t) s u
  | retires {e cause s} : e.desc.reference ≠ .markEach → Closes i (.ended e cause) s (retired i e cause s)
  | inputStopped {e cause s} : e.desc.reference = .markEach → e.finalBurst = true →
      Closes i (.ended e cause) s (retired i e .inputStopped s)
  | marksDone {e cause s} : e.desc.reference = .markEach → e.finalBurst = false → e.spent →
      Closes i (.ended e cause) s (retired i e .marksDone s)
  | waits {e cause s} : e.desc.reference = .markEach → e.finalBurst = false → ¬e.spent → e.owed = none →
      Closes i (.ended e cause) s (madeWaiting i e s)

/-- The record of an entry that a mark resolves: occurrence index 0, and one mark used if its mark count is not 0 (R76,
R93). -/
def Entry.resolved (e : Entry) : Entry :=
  { e with occ := 0, marksLeft := if e.desc.reference = .markEach ∧ e.desc.markCount ≠ 0 then e.marksLeft - 1 else e.marksLeft }

/-- UNRESOLVED for an entry whose axis is not VALID in a capture record (R76, R94). -/
def unresolvedNotice (i : EntryIx) (e : Entry) (c : Capture) (s : State) : Posting :=
  ⟨.unresolved ⟨i, s.table[i].gen⟩ e.desc.tag c.input c.seq e.desc.axis c.validities[e.desc.axis], [e.owner]⟩

/-- What becomes of an entry in an event in which axis `a` has the value `val a` (R72, R74, R76): an owed mark is used when a
burst that is not the last ends. -/
inductive Settles (val : AxisId → Int) (i : EntryIx) : Verdict → State → List OutAction → State → Prop
  | closes {r s u} : Closes i r s u → Settles val i r s [] u
  | owed {e cause c s acts posts r u} : e.desc.reference = .markEach → e.finalBurst = false → ¬e.spent → e.owed = some c →
      c.validities[e.desc.axis] = .valid →
      Admits ⟨i, s.table[i].gen⟩ { e with owed := none }.resolved (c.values[e.desc.axis] + e.desc.place) (val e.desc.axis)
        (axisFrozen s e.desc.axis) (attached s e.owner) acts posts r →
      Closes i r { s with posted := s.posted ++ posts } u → Settles val i (.ended e cause) s acts u
  | owedUnresolved {e cause c s} : e.desc.reference = .markEach → e.finalBurst = false → ¬e.spent → e.owed = some c →
      c.validities[e.desc.axis] ≠ .valid →
      Settles val i (.ended e cause) s []
        { madeWaiting i { e with owed := none } s with posted := s.posted ++ [unresolvedNotice i e c s] }

/-- An entry is given the target `t` and goes to admission (R53). -/
def GivenTarget (val : AxisId → Int) (i : EntryIx) (e : Entry) (t : Int) (s : State) (acts : List OutAction) (u : State) :
    Prop :=
  ∃ acts₁ posts r acts₂,
    Admits ⟨i, s.table[i].gen⟩ e t (val e.desc.axis) (axisFrozen s e.desc.axis) (attached s e.owner) acts₁ posts r
      ∧ Settles val i r { s with posted := s.posted ++ posts } acts₂ u ∧ acts = acts₁ ++ acts₂

/-- A step onto `v` in direction `d` crosses this entry (R62). -/
abbrev Entry.crossedBy (e : Entry) (d : Direction) (v : Int) : Prop :=
  e.state = .armed ∧ e.target = some v
    ∧ (e.desc.approach = .either ∨ (e.desc.approach = .forward ∧ d = .forward) ∨ (e.desc.approach = .reverse ∧ d = .reverse))

/-- The entries of a crossed set are taken one after another at the value `v` (R63, R65, R66). -/
inductive Crosses (val : AxisId → Int) (v : Int) : List EntryIx → State → List OutAction → State → Prop
  | nil {s} : Crosses val v [] s [] s
  | passed {i l s acts u} : (∀ e ∈ s.table[i].entry, e.state ≠ .armed ∨ s.ports[e.owner].state ≠ .attached) →
      Crosses val v l s acts u → Crosses val v (i :: l) s acts u
  | occurs {i l s e r acts₁ t acts₂ u} : s.table[i].entry = some e → e.state = .armed →
      s.ports[e.owner].state = .attached → GoesOn e v r →
      Settles val i r { s with posted := s.posted ++ e.tells ⟨i, s.table[i].gen⟩ v false } acts₁ t →
      Crosses val v l t acts₂ u → Crosses val v (i :: l) s (e.sends ++ acts₁ ++ acts₂) u

/-- A stop request of the input that covers the references of port `p` to it is on its way to the SCU (R100, R101). -/
def StopComing (s : State) (m : MarkId) (p : Port) : Prop := ∃ h ∈ s.mkuToScu, h = .stop m p ∨ h = .holderStop m

/-- The staged operations of a group of port `p` are taken in order, the first with index `k`; the last list holds the indexes
of those skipped (R116). An unmarked ARM on an IDLE input waits while a stop request is coming that will withdraw it (fourth row
of R120); that this row goes before R116 there is the model's choice (log 26). A staged ARM with no entry does not arise (R105,
GroupLawsKept). -/
inductive OpsTaken (val : AxisId → Int) (p : Port) :
    Nat → List GroupOp → State → List OutAction → List Nat → State → Prop
  | nil {k s} : OpsTaken val p k [] s [] [] s
  | armAbsolute {k i b ops s e acts₁ t acts₂ skipped u} : s.table[i].entry = some e → e.desc.reference = .absolute →
      GivenTarget val i e e.desc.place s acts₁ t → OpsTaken val p (k + 1) ops t acts₂ skipped u →
      OpsTaken val p k (.arm i b :: ops) s (acts₁ ++ acts₂) skipped u
  | armWaits {k i ops s e acts skipped u} : s.table[i].entry = some e → e.desc.reference ≠ .absolute →
      s.marks[e.desc.mark].state ≠ .idle ∨ StopComing s e.desc.mark p →
      OpsTaken val p (k + 1) ops (madeWaiting i e s) acts skipped u →
      OpsTaken val p k (.arm i false :: ops) s acts skipped u
  | armSkipped {k i b ops s e acts skipped u} : s.table[i].entry = some e → e.desc.reference ≠ .absolute →
      b = true ∨ (s.marks[e.desc.mark].state = .idle ∧ ¬StopComing s e.desc.mark p) →
      OpsTaken val p (k + 1) ops (freed i s) acts skipped u →
      OpsTaken val p k (.arm i b :: ops) s acts (k :: skipped) u
  | armGone {k i b ops s acts skipped u} : s.table[i].entry = none → OpsTaken val p (k + 1) ops s acts skipped u →
      OpsTaken val p k (.arm i b :: ops) s acts (k :: skipped) u
  | cancel {k h ops s e acts skipped u} : s.table[h.index].entry = some e → e.owner = p → s.table[h.index].gen = h.gen →
      e.state ≠ .staged → OpsTaken val p (k + 1) ops (freed h.index s) acts skipped u →
      OpsTaken val p k (.cancel h :: ops) s acts skipped u
  | cancelSkipped {k h ops s acts skipped u} :
      (∀ e ∈ s.table[h.index].entry, e.owner ≠ p ∨ s.table[h.index].gen ≠ h.gen ∨ e.state = .staged) →
      OpsTaken val p (k + 1) ops s acts skipped u → OpsTaken val p k (.cancel h :: ops) s acts (k :: skipped) u
  | drive {k mask act width ops s acts skipped u} : OpsTaken val p (k + 1) ops s acts skipped u →
      OpsTaken val p k (.drive mask act width :: ops) s (channelActions p mask act width ++ acts) skipped u

/-- The end of an apply: the group goes to NONE and leaves the pending-group list, and GROUP_APPLIED goes to its port (R118).
That the expiry period stays is the model's choice (log 15). -/
def groupApplied (p : Port) (at_ : AppliedAt) (count : Nat) (skipped : List Nat) (s : State) : State :=
  { s with
    groups := upd s.groups p { s.groups[p] with state := .none, ops := [], boundary := none, remaining := 0 }
    pendingGroups := s.pendingGroups.filter (· ≠ p)
    posted := s.posted ++ [⟨.groupApplied at_ (count - skipped.length) skipped.length skipped.head?, [p]⟩] }

/-- A group applies in one event: its operations, then its end (R116 to R118). -/
def GroupApplies (val : AxisId → Int) (p : Port) (at_ : AppliedAt) (s : State) (acts : List OutAction) (u : State) : Prop :=
  ∃ skipped t, OpsTaken val p 0 s.groups[p].ops s acts skipped t
    ∧ u = groupApplied p at_ s.groups[p].ops.length skipped t

/-- The pending groups that an event at the boundary `b` reaches apply in list order; one whose port is not ATTACHED is
passed over (R63, R92, R115). -/
inductive Reaches (val : AxisId → Int) (at_ : AppliedAt) (b : Boundary) :
    List Port → State → List OutAction → State → Prop
  | nil {s} : Reaches val at_ b [] s [] s
  | passed {p l s acts u} :
      ¬(s.groups[p].state = .pending ∧ s.groups[p].boundary = some b ∧ s.ports[p].state = .attached) →
      Reaches val at_ b l s acts u → Reaches val at_ b (p :: l) s acts u
  | applies {p l s acts₁ t acts₂ u} : s.groups[p].state = .pending → s.groups[p].boundary = some b →
      s.ports[p].state = .attached → GroupApplies val p at_ s acts₁ t → Reaches val at_ b l t acts₂ u →
      Reaches val at_ b (p :: l) s (acts₁ ++ acts₂) u

/-- The entries of an owed-mark set take the mark one after another (R95). -/
inductive Owes (c : Capture) : List EntryIx → State → State → Prop
  | nil {s} : Owes c [] s s
  | passed {i l s u} : (∀ e ∈ s.table[i].entry, e.finalBurst = true ∨ e.spent) → Owes c l s u → Owes c (i :: l) s u
  | takes {i l s e u} : s.table[i].entry = some e → e.finalBurst = false → ¬e.spent → e.owed = none →
      Owes c l { s with table := upd s.table i ⟨s.table[i].gen, some { e with owed := some c }⟩ } u → Owes c (i :: l) s u
  | replaces {i l s e old u} : s.table[i].entry = some e → e.finalBurst = false → ¬e.spent → e.owed = some old →
      Owes c l { s with
        table := upd s.table i ⟨s.table[i].gen, some { e with owed := some c }⟩
        posted := s.posted ++ [⟨.markOverrun ⟨i, s.table[i].gen⟩ e.desc.tag c.input old.seq c.seq, [e.owner]⟩] } u →
      Owes c (i :: l) s u

/-- The entries of a resolution walk are taken one after another (R93, R94). -/
inductive Resolves (val : AxisId → Int) (c : Capture) : List EntryIx → State → List OutAction → State → Prop
  | nil {s} : Resolves val c [] s [] s
  | passed {i l s acts u} : (∀ e ∈ s.table[i].entry, e.state ≠ .waiting) → Resolves val c l s acts u →
      Resolves val c (i :: l) s acts u
  | resolved {i l s e acts₁ t acts₂ u} : s.table[i].entry = some e → e.state = .waiting →
      c.validities[e.desc.axis] = .valid →
      GivenTarget val i e.resolved (c.values[e.desc.axis] + e.desc.place) s acts₁ t → Resolves val c l t acts₂ u →
      Resolves val c (i :: l) s (acts₁ ++ acts₂) u
  | unresolved {i l s e acts u} : s.table[i].entry = some e → e.state = .waiting → c.validities[e.desc.axis] ≠ .valid →
      Resolves val c l { s with posted := s.posted ++ [unresolvedNotice i e c s] } acts u →
      Resolves val c (i :: l) s acts u

/-- The actions of one event reach the OTU together (R132). -/
def sent (s : State) (acts : List OutAction) : State := { s with toOtu := s.toOtu ++ if acts = [] then [] else [acts] }

end Sys2Proof.Machine
end

