-- ==== Sys2Proof/Certificates/Slice0/Obligations.lean ====
section
/-! DEFINITION. The statements for the provers. Each command's statement gives the whole next state, so it says the command's
result, its frame and that the command completes. -/

open Sys2Proof Sys2Proof.Machine

/-! ## The machine -/

/-- A step takes the command at the front of the queue and runs it on the state with the queue's rest. With no command waiting
and no edge on the serial pins to come the part idles, which is the model's choice (logs 1, 18). -/
def Obligations.StepRunsFrontCommand : Prop :=
  (∀ (c : Instr) (rest : List Instr) (s : State), s.pending = c :: rest →
      step s = exec c { s with pending := rest })
    ∧ ∀ s : State, s.pending = [] → s.serial = [] → step s = .next s

/-- Every command completes in every state and leaves the commands waiting and the edges to come as they are; only the two reset events change
whether reset is asserted; and the uptime stamp rises by one, modulo 2^32, at every base tick after the release of reset, and
no other command but device reset changes it (R1). -/
def Obligations.EveryCommandCompletes : Prop :=
  (∀ (c : Instr) (s : State), ∃ t, exec c s = .next t ∧ t.pending = s.pending ∧ t.serial = s.serial
     ∧ (c ≠ .deviceReset → c ≠ .releaseOfReset → t.inReset = s.inReset))
  ∧ ((∀ s t : State, s.inReset = false → exec .baseTick s = .next t → t.uptime = s.uptime + 1)
       ∧ ∀ (c : Instr) (s t : State), c ≠ .baseTick → c ≠ .deviceReset → exec c s = .next t → t.uptime = s.uptime)

/-- Device reset gives every field the value of the reset columns (R1, R2, R21, R26, R79, R105, R126, R144, R147, R156), and
the release of reset takes the levels at the pins as first samples. A transaction in progress is abandoned (R142). That nothing
is in transit after reset is the model's choice (log 3), and so is that reset stays asserted until its release, that the pins, the
commands waiting and the edges to come are kept, that the samples are taken at the assertion too, and that an edge of an input
pin moves the level at the pin and nothing else until the release samples it (log 7). -/
def Obligations.DeviceReset : Prop :=
  (∀ s : State, ∃ t, exec .deviceReset s = .next t
    ∧ t.inReset = true ∧ t.pending = s.pending ∧ t.serial = s.serial ∧ t.pins = s.pins ∧ t.uptime = 0
    ∧ (∀ a : AxisId, t.axes[a] = { state := .disabled, value := 0, cause := none })
    ∧ (∀ x : EncId, t.encs[x] = {
        decode := .quadX4, invert := false, policy := .hold, refA := s.pins.encA[x], refB := s.pins.encB[x],
        levelZ := s.pins.encZ[x], homeValue := 0, searchLimit := 0, searchTravel := 0, recover := false })
    ∧ t.time = { prescaler := 1, phase := 0 } ∧ t.preset = none ∧ t.epochLevel = s.pins.epoch
    ∧ (∀ m : MarkId, t.marks[m] = {
        state := .idle, holder := none, refAxis := 0, edge := .rise, direction := .forward, pitch := 1, tolerance := 0, missLimit := 0, debounce := 0, last := none, misses := 0, seq := 0, history := [],
        capture := none, deferred := false, level := s.pins.mark[m] })
    ∧ (∀ i : EntryIx, t.table[i] = { gen := 0, entry := none })
    ∧ (∀ a : AxisId, t.due[a] = [] ∧ t.toScu[a] = [] ∧ t.toMku[a] = []) ∧ t.waiting = []
    ∧ (∀ p : Port, t.groups[p] = { state := .none, ops := [], boundary := none, period := 0, remaining := 0 })
    ∧ t.pendingGroups = [] ∧ t.mkuToScu = [] ∧ t.toOtu = [] ∧ t.posted = [] ∧ (∀ a : AxisId, t.heldNotices[a] = [])
    ∧ (∀ c : ChanId, t.chans[c] = ⟨none, .activeHigh, false, .unowned, 0⟩ ∧ t.chans[c].pin = false)
    ∧ (∀ p : Port, t.ports[p].state = .detached ∧ t.ports[p].period = 0 ∧ t.ports[p].remaining = 0
        ∧ t.ports[p].endState = none ∧ t.ports[p].outstanding = ⟨false, false, false, false⟩
        ∧ t.ports[p].buffer = ⟨.noCommand, 0x00, []⟩ ∧ t.ports[p].queue = [] ∧ t.ports[p].markSubs = 0
        ∧ t.ports[p].axisSubs = 0 ∧ t.ports[p].peerEnable = false ∧ t.ports[p].overrun = false
        ∧ t.ports[p].requested = ⟨false, false, false, false⟩ ∧ t.ports[p].reported = ⟨false, false, false, false⟩
        ∧ (s.ports[p].link = .high → t.ports[p].link = .high) ∧ (s.ports[p].link ≠ .high → t.ports[p].link = .abandoned)
        ∧ attnAsserted t p = false))
  ∧ (∀ s : State, s.inReset = true →
    (∀ (x : EncId) (a b : Bool), exec (.encoderTransition x a b) s = .next { s with
      pins := { s.pins with encA := upd s.pins.encA x a, encB := upd s.pins.encB x b } })
    ∧ (∀ (x : EncId) (level : Bool), exec (.indexEdge x level) s = .next { s with
      pins := { s.pins with encZ := upd s.pins.encZ x level } })
    ∧ (∀ level : Bool, exec (.epochEdge level) s = .next { s with pins := { s.pins with epoch := level } })
    ∧ ∀ (m : MarkId) (level : Bool), exec (.markEdge m level) s = .next { s with
      pins := { s.pins with mark := upd s.pins.mark m level } })
  ∧ ∀ s : State, s.inReset = true → ∃ t, exec .releaseOfReset s = .next t
    ∧ t = { s with inReset := false, epochLevel := s.pins.epoch, encs := t.encs, marks := t.marks }
    ∧ (∀ x : EncId, t.encs[x]
        = { s.encs[x] with refA := s.pins.encA[x], refB := s.pins.encB[x], levelZ := s.pins.encZ[x] })
    ∧ ∀ m : MarkId, t.marks[m] = { s.marks[m] with level := s.pins.mark[m] }

/-- A base tick while nothing is due and no notice is in transit advances the counters of R1, R10, R84, R119, R135 and R149,
and nothing else; while reset is asserted it does nothing (log 7). Any other tick first does what the expiry rows do that are due, in the
order leases, prescaler, debounces, groups, pulses, and then takes the notices in transit, which is the model's choice (logs 4,
5). -/
def Obligations.BaseTickCounts : Prop :=
  let counted := fun s t : State =>
    t = { s with uptime := s.uptime + 1, time := t.time, ports := t.ports, marks := t.marks, groups := t.groups,
                 chans := t.chans }
    ∧ t.time.prescaler = s.time.prescaler
    ∧ t.time.phase = (if s.axes[timeAxis].state = .disabled then s.time.phase else s.time.phase + 1)
    ∧ (∀ p : Port, t.ports[p] = { s.ports[p] with
        remaining := if s.ports[p].state = .attached then s.ports[p].remaining - 1 else s.ports[p].remaining })
    ∧ (∀ m : MarkId, t.marks[m]
        = { s.marks[m] with capture := s.marks[m].capture.map (fun c => { c with remaining := c.remaining - 1 }) })
    ∧ (∀ p : Port, t.groups[p] = { s.groups[p] with
        remaining := if s.groups[p].state = .pending then s.groups[p].remaining - 1 else s.groups[p].remaining })
    ∧ ∀ c : ChanId, t.chans[c] = { s.chans[c] with
        remaining := if s.chans[c].state = .pulsing then s.chans[c].remaining - 1 else s.chans[c].remaining }
  let expiries := (List.finRange 4).map Instr.leaseExpiry ++ [.prescalerExpiry] ++ (List.finRange 4).map Instr.debounceEnd
    ++ (List.finRange 4).map Instr.groupExpiry ++ (List.finRange 12).map Instr.pulseExpiry
  (∀ s : State, s.inReset = false → s.posted = []
    → (∀ p : Port, s.ports[p].state = .attached → s.ports[p].remaining ≠ 0)
    → (s.axes[timeAxis].state ≠ .disabled → s.time.phase < s.time.prescaler)
    → (∀ m : MarkId, ∀ c ∈ s.marks[m].capture, c.remaining ≠ 0)
    → (∀ p : Port, s.groups[p].state = .pending → s.groups[p].period ≠ 0 → s.groups[p].remaining ≠ 0)
    → (∀ c : ChanId, s.chans[c].state = .pulsing → s.chans[c].remaining ≠ 0)
    → ∃ t, exec .baseTick s = .next t ∧ counted s t)
  ∧ (∀ s : State, s.inReset = false → ∃ u v t, Runs expiries s u
      ∧ Runs (List.replicate u.posted.length .noticePosting) u v ∧ exec .baseTick s = .next t ∧ counted v t)
  ∧ ∀ s : State, s.inReset = true → exec .baseTick s = .next s

/-! ## Transactions and frames -/

/-- At the fall of chip select the response frame is formed: status, echo, PORTFLAGS, length, payload and check (R142, R155).
That the notices in transit are taken first, so that PORTFLAGS shows them (R44, R155), is the model's choice (log 5), and so is
that a fall of a chip select that is low already changes nothing (log 8). A fall while reset is asserted begins a transaction
that will be ignored, and a transaction of no whole byte changes nothing. While a transaction runs, a rising clock edge shifts one bit in and the falling edge after it presents the next bit of
the frame, and of 0xFF after the frame, most significant bit first; at the rise of chip select the whole bytes received are the
transaction, and a part of a byte is discarded (R142). That the edges wait in a list, are taken while no command waits, and put
their commands in the queue is the model's choice (log 18). -/
def Obligations.ChipSelect : Prop :=
  (∀ (p : Port) (s : State), s.inReset = false → s.ports[p].link = .high →
    ∃ t, Runs (List.replicate s.posted.length .noticePosting) s t ∧
    let r := t.ports[p]
    let flags := r.state.code + (if r.queue = [] then 0 else 4) + (if r.overrun then 8 else 0)
      + 16 * t.groups[p].state.code + (if ∃ a : AxisId, t.axes[a].state = .faulted then 64 else 0)
    let head := [r.buffer.status.code, r.buffer.echo, byte flags, byte r.buffer.payload.length] ++ r.buffer.payload
    exec (.chipSelectFall p) s = .next { t with
      ports := upd t.ports p { r with
        link := .sending (head ++ leBytes 2 ((head.map BitVec.toNat).sum % 65536)) [] 0 } })
  ∧ (∀ (p : Port) (s : State), s.inReset = false → s.ports[p].link ≠ .high → exec (.chipSelectFall p) s = .next s)
  ∧ (∀ (p : Port) (s : State), s.inReset = true →
    exec (.chipSelectFall p) s = .next { s with ports := upd s.ports p { s.ports[p] with link := .abandoned } })
  ∧ (∀ (p : Port) (s : State),
    exec (.emptyTransaction p) s = .next { s with ports := upd s.ports p { s.ports[p] with link := .high } })
  ∧ (∀ (p : Port) (b : Bool) (rest : List SerialEdge) (s : State), s.pending = [] →
    let link := s.ports[p].link
    let shifted := fun l => { s with serial := rest, ports := upd s.ports p { s.ports[p] with link := l } }
    let queued := fun cs => { s with serial := rest, pending := cs }
    (s.serial = .selectFall p :: rest → step s = .next (queued [.chipSelectFall p]))
    ∧ (s.serial = .clockRise p b :: rest →
        (∀ frame bits n, link = .sending frame bits n → step s = .next (shifted (.sending frame (bits ++ [b]) n)))
        ∧ (link = .high ∨ link = .abandoned → step s = .next { s with serial := rest }))
    ∧ (s.serial = .clockFall p :: rest →
        (∀ frame bits n, link = .sending frame bits n → step s = .next (shifted (.sending frame bits bits.length)))
        ∧ (link = .high ∨ link = .abandoned → step s = .next { s with serial := rest }))
    ∧ (s.serial = .selectRise p :: rest →
        (∀ (frame bytes : List Byte) (tail : List Bool) (n : Nat), tail.length < 8 →
          link = .sending frame (bytes.flatMap (fun x => [x.getLsbD 7, x.getLsbD 6, x.getLsbD 5, x.getLsbD 4, x.getLsbD 3,
            x.getLsbD 2, x.getLsbD 1, x.getLsbD 0]) ++ tail) n →
          step s = .next (queued [decodeFrame p bytes]))
        ∧ (link = .abandoned → step s = .next (queued [.emptyTransaction p]))
        ∧ (link = .high → step s = .next (queued []))))
  ∧ ∀ (p : Port) (s : State) (frame : List Byte) (bits : List Bool) (n : Nat), s.ports[p].link = .sending frame bits n →
    dataOut s p = some ((frame.getD (n / 8) 0xFF).getLsbD (7 - n % 8))

/-- A transaction is malformed under the five conditions of R143, and then the response buffer takes FRAME_ERROR with the
first byte as the echo; the lease, the port state, the notice queue and every other block stay as they were. -/
def Obligations.MalformedFrame : Prop :=
  (∀ (b : Byte) (rest : List Byte),
    let bytes := b :: rest
    let len := (bytes.getD 1 0).toNat
    malformed bytes = true ↔
      (bytes.length < len + 4 ∨ bytes.length = 1) ∨ 58 < len ∨ 64 < bytes.length
        ∨ (∃ c ∈ bytes.drop (len + 4), c ≠ 0xFF)
        ∨ (bytes.getD (len + 2) 0).toNat + 256 * (bytes.getD (len + 3) 0).toNat
            ≠ ((bytes.take (len + 2)).map BitVec.toNat).sum % 65536)
  ∧ ∀ (p : Port) (b : Byte) (rest : List Byte) (s : State), Taken s p → malformed (b :: rest) = true →
    exec (.malformedFrame p (b :: rest)) s = .next { s with
      ports := upd s.ports p { s.ports[p] with link := .high, buffer := ⟨.frameError, b, []⟩ } }

/-- The NOP frame renews the lease and leaves the buffer; a code that is not defined is answered UNKNOWN_CODE, and a LEN
that differs from the command's is answered BAD_LENGTH (R144, R145). The port state admits or refuses each command as the
table of R145 gives. A frame, well formed or malformed, of a transaction that began before the release of reset, or that ends
while reset is asserted, is ignored (R142). -/
def Obligations.FrameChecks : Prop :=
  (∀ (p : Port) (s : State), ¬Taken s p →
    let ignored := fun i : Instr => exec i s = .next { s with ports := upd s.ports p { s.ports[p] with link := .high } }
    (∀ (c : Command) (pl : List Byte), ignored (c.instr p pl))
    ∧ (∀ (code : Byte) (pl : List Byte), (∀ c : Command, c.code ≠ code) → ignored (.unknownCode p code pl))
    ∧ ∀ (b : Byte) (rest : List Byte), malformed (b :: rest) = true → ignored (.malformedFrame p (b :: rest)))
  ∧ ((∀ (p : Port) (s : State), Taken s p →
     exec (.nop p []) s = .next { s with ports := upd s.ports p s.ports[p].renewed })
   ∧ (∀ (p : Port) (code : Byte) (pl : List Byte) (s : State), Taken s p → (∀ c : Command, c.code ≠ code) →
     pl.length ≤ 58 →
     exec (.unknownCode p code pl) s = .next { s with ports := answered s p ⟨.unknownCode, code, []⟩ })
   ∧ ∀ (p : Port) (c : Command) (pl : List Byte) (s : State), Taken s p → pl.length ≤ 58 → pl.length ≠ c.length →
     exec (c.instr p pl) s = .next (refused s p c .badLength))
  ∧ (∀ (p : Port) (c : Command) (pl : List Byte) (s : State), Taken s p → pl.length = c.length →
       (c ≠ .nop ∧ c ≠ .ident ∧ c ≠ .status) →
       (s.ports[p].state = .releasing → exec (c.instr p pl) s = .next (refused s p c .busy))
         ∧ (c ≠ .attach → s.ports[p].state = .detached → exec (c.instr p pl) s = .next (refused s p c .notAttached))
         ∧ (c ≠ .attach → s.ports[p].state = .expired → exec (c.instr p pl) s = .next (refused s p c .expired)))

/-- A command that is answered with a status other than OK has changed nothing but its port's lease and response buffer,
and its response has no payload (R145, R167). -/
def Obligations.RefusalChangesNothing : Prop :=
  ∀ (p : Port) (c : Command) (pl : List Byte) (s t : State), Taken s p → pl.length ≤ 58 →
    ¬ (c = .nop ∧ pl = []) → exec (c.instr p pl) s = .next t → t.ports[p].buffer.status ≠ .ok →
    t = refused s p c t.ports[p].buffer.status

/-! ## Reading -/

/-- IDENT is answered in every port state with the codes of the part and the port number, and changes nothing (R154). -/
def Obligations.Ident : Prop :=
  ∀ (p : Port) (s : State), Taken s p →
    exec (.ident p []) s = .next { s with
      ports := answered s p (okResponse .ident [0x41, 0x0C, 0x12, 0x04, 0x01, byte p.val]) }

/-- AXIS_READ, TABLE_STATUS, GROUP_STATUS and CHANNEL_STATUS answer with the records they name and change nothing (R20, R49,
R124, R138).
That the fields of an absent boundary read 0 is the model's choice (log 10). -/
def Obligations.ReadCommands : Prop :=
  ∀ (p : Port) (s : State), Admitted s p →
    exec (.axisRead p []) s = .next { s with ports := answered s p (okResponse .axisRead
        ([s.axes[0].state, s.axes[1].state, s.axes[2].state, s.axes[3].state].map (fun st => byte st.code)
          ++ leInt48 s.axes[0].value ++ leInt48 s.axes[1].value ++ leInt48 s.axes[2].value ++ leInt48 s.axes[3].value
          ++ leBytes 4 s.uptime.toNat)) }
    ∧ exec (.tableStatus p []) s = .next { s with ports := answered s p (okResponse .tableStatus
        (leBytes 2 (freeCount s) ++ [byte (countIn s p .staged), byte (countIn s p .waiting), byte (countIn s p .armed),
          byte (96 - liveCount s p)])) }
    ∧ exec (.groupStatus p []) s = .next { s with ports := answered s p (okResponse .groupStatus
        ([byte s.groups[p].state.code, byte s.groups[p].ops.length, byte (s.groups[p].ops.countP GroupOp.isArm)]
          ++ boundaryBytes s.groups[p].boundary
          ++ leBytes 2 (if s.groups[p].state = .pending then (s.groups[p].remaining + 999) / 1000 else 0))) }
    ∧ exec (.channelStatus p []) s = .next { s with ports := answered s p (okResponse .channelStatus
        (s.chans.toList.flatMap (fun r =>
          [byte (portCode r.owner), byte (r.state.code + 4 * r.polarity.code + (if r.safe then 8 else 0)
            + (if r.pin then 16 else 0))] ++ leBytes 2 r.remaining))) }

/-- RECORD_READ and CANCEL judge their handle by R33. RECORD_READ returns the entry record and changes nothing (R48); CANCEL
frees a WAITING or ARMED entry, with no notice and no action (R46, R47). That RECORD_READ taken before a step shows the entry
before it is the model's reading where R78 has it otherwise (log 24).
That the fields of an absent owed mark read 0 is the model's choice (log 10). -/
def Obligations.HandleCommands : Prop :=
  ([Approach.forward, .reverse, .either].map (·.code) = [0, 1, 2] ∧ [Reference.absolute, .markOnce, .markEach].map (·.code) = [0, 1, 2]
    ∧ [Action.pulse, .set, .clear, .toggle].map (·.code) = [0, 1, 2, 3] ∧ [LatePolicy.fireLate, .dropLate].map (·.code) = [0, 1]
    ∧ [Notify.none, .each, .last].map (·.code) = [0, 1, 2] ∧ [LiveState.staged, .waiting, .armed].map (·.code) = [1, 2, 3]
    ∧ [Validity.valid, .suspect, .absent].map (·.code) = [0, 1, 2])
  ∧ (∀ (p : Port) (i : EntryIx) (g : Byte) (s : State), Admitted s p →
     let c := Instr.recordRead p [byte i.val, g]
     (s.table[i].entry = none → exec c s = .next (refused s p .recordRead .stale))
     ∧ (∀ e, s.table[i].entry = some e → e.owner ≠ p → exec c s = .next (refused s p .recordRead .notOwner))
     ∧ (∀ e, s.table[i].entry = some e → e.owner = p → s.table[i].gen ≠ g →
         exec c s = .next (refused s p .recordRead .stale))
     ∧ ∀ e, s.table[i].entry = some e → e.owner = p → s.table[i].gen = g →
         let d := e.desc
         let description := leBytes 2 d.tag.toNat
           ++ [byte d.axis.val, byte d.approach.code, byte d.reference.code, byte d.mark.val, byte d.markCount]
           ++ leInt48 d.place ++ [byte d.action.code] ++ leBytes 2 d.mask.toNat ++ leBytes 2 d.width ++ leBytes 2 d.repeats
           ++ leBytes 4 d.interval ++ [byte (d.fireN + 16 * d.skipN), byte (d.late.code + 16 * d.notify.code)]
         let flags := (if e.target = none then 0 else 1) + (if e.owed = none then 0 else 2) + (if e.finalBurst then 4 else 0)
         let owed := match e.owed with
           | none => List.replicate 13 0
           | some c => leBytes 2 c.seq.toNat ++ leBytes 4 c.stamp.toNat ++ leInt48 c.values[d.axis]
               ++ [byte c.validities[d.axis].code]
         exec c s = .next { s with ports := answered s p (okResponse .recordRead
           ([byte i.val, g, byte e.state.code] ++ description ++ [byte flags] ++ leInt48 (e.target.getD 0) ++ leBytes 2 e.occ
             ++ [byte e.marksLeft] ++ owed)) })
  ∧ (∀ (p : Port) (i : EntryIx) (g : Byte) (s : State), Admitted s p → s.groups[p].state ≠ .staging →
       let c := Instr.cancel p [byte i.val, g]
       (s.table[i].entry = none → exec c s = .next (refused s p .cancel .stale))
       ∧ ∀ e, s.table[i].entry = some e →
         (e.owner ≠ p → exec c s = .next (refused s p .cancel .notOwner))
         ∧ (e.owner = p → s.table[i].gen ≠ g → exec c s = .next (refused s p .cancel .stale))
         ∧ (e.owner = p → s.table[i].gen = g → e.state = .staged →
             exec c s = .next (refused s p .cancel .groupState))
         ∧ (e.owner = p → s.table[i].gen = g → e.state ≠ .staged → exec c s = .next { s with
             table := upd s.table i ⟨g + 1, none⟩
             due := s.due.map (fun l => l.filter (· ≠ i))
             waiting := s.waiting.filter (· ≠ i)
             ports := answered s p (okResponse .cancel ([0xFF, byte e.state.code] ++ leBytes 2 e.occ)) }))

/-- MARK_READ returns the capture record at an age of the history, and MARK_STATUS the input's record; both change nothing
(R102, R103). -/
def Obligations.MarkReads : Prop :=
  (∀ (p : Port) (m age : Byte) (s : State), Admitted s p → 3 < m.toNat →
    exec (.markRead p [m, age]) s = .next (refused s p .markRead .badField)
      ∧ exec (.markStatus p [m]) s = .next (refused s p .markStatus .badField))
  ∧ (∀ (p : Port) (m : MarkId) (age : Byte) (s : State), Admitted s p → s.marks[m].history.length ≤ age.toNat →
    exec (.markRead p [byte m.val, age]) s = .next (refused s p .markRead .badField))
  ∧ (∀ (p : Port) (m : MarkId) (age : Byte) (c : Capture) (s : State), Admitted s p →
    s.marks[m].history[age.toNat]? = some c →
    exec (.markRead p [byte m.val, age]) s = .next { s with ports := answered s p (okResponse .markRead
      ([byte c.input.val, byte c.kind.code] ++ leBytes 2 c.seq.toNat ++ leBytes 4 c.stamp.toNat
        ++ leInt48 c.values[0] ++ leInt48 c.values[1] ++ leInt48 c.values[2] ++ leInt48 c.values[3]
        ++ [byte c.validities[0].code, byte c.validities[1].code, byte c.validities[2].code,
            byte c.validities[3].code])) })
  ∧ ∀ (p : Port) (m : MarkId) (s : State), Admitted s p →
    let r := s.marks[m]
    exec (.markStatus p [byte m.val]) s = .next { s with ports := answered s p (okResponse .markStatus
      ([byte r.state.code, byte (portCode r.holder)] ++ leBytes 2 r.seq.toNat
        ++ [byte r.misses, byte r.history.length, byte (if r.last.isSome then 1 else 0)]
        ++ leInt48 ((r.last.map (·.ref)).getD 0)
        ++ [byte r.refAxis.val, byte r.edge.code, byte r.direction.code] ++ leBytes 4 r.pitch ++ leBytes 4 r.tolerance
        ++ [byte r.missLimit, byte r.debounce])) }

/-- STATUS reports the port, its lease just renewed, in every port state, and then clears the overrun flag and nothing else
(R153). -/
def Obligations.StatusCommand : Prop :=
  ∀ (p : Port) (s : State), Taken s p →
    let r := s.ports[p]
    exec (.status p []) s = .next { s with ports := upd s.ports p { r.renewed with
      overrun := false
      buffer := okResponse .status
        ([byte p.val, byte r.state.code] ++ leBytes 2 r.period
          ++ leBytes 2 (if r.state = .attached then r.period else 0)
          ++ [byte r.queue.length, byte (if r.overrun then 1 else 0), byte s.groups[p].state.code]
          ++ leBytes 2 (ownedMask s p) ++ [byte (liveCount s p), byte (heldMask s p)]) } }

/-! ## Ports, leases and teardown -/

/-- ATTACH by the port state, its lease period checked (R148). -/
def Obligations.Attach : Prop :=
  (∀ (p : Port) (period : Nat) (s : State), Taken s p → 10 ≤ period → period ≤ 60000 →
    let resp := okResponse .attach (byte p.val :: leBytes 2 period)
    (s.ports[p].state = .detached ∨ s.ports[p].state = .expired →
      exec (.attach p (leBytes 2 period)) s = .next { s with ports := upd s.ports p { s.ports[p] with
        link := .high, state := .attached, period := period, remaining := period * 1000, markSubs := 0, axisSubs := 0,
        peerEnable := false, overrun := false, buffer := resp } })
    ∧ (s.ports[p].state = .attached →
      exec (.attach p (leBytes 2 period)) s = .next { s with ports := upd s.ports p { s.ports[p] with
        link := .high, period := period, remaining := period * 1000, buffer := resp } }))
  ∧ ∀ (p : Port) (period : Nat) (s : State), Taken s p → s.ports[p].state ≠ .releasing → period < 65536 →
    (period < 10 ∨ 60000 < period) →
    exec (.attach p (leBytes 2 period)) s = .next (refused s p .attach .badField)

/-- DETACH and the expiry of a lease start the port's teardown (R149, R150, R151), and the attention line of the port is then
deasserted (R151, R165). -/
def Obligations.TeardownStart : Prop :=
  (∀ (p : Port) (s t : State), Admitted s p ∧ exec (.detach p []) s = .next t
      ∨ s.ports[p].state = .attached ∧ s.ports[p].remaining = 0 ∧ exec (.leaseExpiry p) s = .next t →
    attnAsserted t p = false)
  ∧ (∀ (p : Port) (s : State), Admitted s p →
    exec (.detach p []) s = .next { s with ports := upd s.ports p { s.ports[p] with
      state := .releasing, endState := some .detached, remaining := 0, queue := [], markSubs := 0, axisSubs := 0,
      peerEnable := false, overrun := false, outstanding := ⟨true, true, true, true⟩,
      requested := ⟨true, true, true, true⟩, reported := ⟨false, false, false, false⟩, link := .high,
      buffer := okResponse .detach [] } })
  ∧ ∀ (p : Port) (s : State), s.ports[p].state = .attached → s.ports[p].remaining = 0 →
    exec (.leaseExpiry p) s = .next { s with ports := upd s.ports p { s.ports[p] with
      state := .releasing, endState := some .expired, remaining := 0, queue := [], markSubs := 0, axisSubs := 0,
      peerEnable := false, overrun := false, outstanding := ⟨true, true, true, true⟩,
      requested := ⟨true, true, true, true⟩, reported := ⟨false, false, false, false⟩ } }

/-- The AXU part of a teardown empties the preset slot if the port is its setter, with no notice, and reports the part done
(R25). -/
def Obligations.AxuTeardown : Prop :=
  ∀ (p : Port) (s : State), s.ports[p].requested.axu = true →
    exec (.axuTeardown p) s = .next { s with
      preset := s.preset.filter (fun q => decide (q.setter ≠ p))
      ports := upd s.ports p { s.ports[p] with requested := { s.ports[p].requested with axu := false }
                                               reported := { s.ports[p].reported with axu := true } } }

/-- The MKU part of a teardown stops every input the port holds, in ascending number, each with MARK_LOST STOPPED and a
holder-teardown stop request (R101).
That they are stopped in one event is the model's choice (log 20), and so is that an input with no last mark reports the
sequence number 0 (log 21). -/
def Obligations.MkuTeardown : Prop :=
  ∀ (p : Port) (s : State), s.ports[p].requested.mku = true →
    let held := (List.finRange 4).filter (fun m => decide (s.marks[m].holder = some p))
    ∃ t, exec (.mkuTeardown p) s = .next t
    ∧ t = { s with
        marks := t.marks
        mkuToScu := s.mkuToScu ++ held.map .holderStop
        posted := s.posted ++ held.map (fun m =>
          ⟨.markLost m .stopped s.marks[m].lastSeq s.axes[s.marks[m].refAxis].value, []⟩)
        ports := upd s.ports p { s.ports[p] with requested := { s.ports[p].requested with mku := false }
                                                 reported := { s.ports[p].reported with mku := true } } }
    ∧ ∀ m : MarkId, t.marks[m] =
        if s.marks[m].holder = some p then
          { s.marks[m] with state := .idle, holder := none, capture := none, deferred := false, misses := 0 }
        else s.marks[m]

/-- The SCU part of a teardown discards the port's group and frees every entry the port owns, with no notice and no action;
the entries and groups of the other ports stay (R50, R105, R123). The OTU part releases every channel the port owns and no
other (R140). -/
def Obligations.ScuAndOtuTeardown : Prop :=
  (∀ (p : Port) (s : State), StagedOk s → s.ports[p].requested.scu = true →
     let mine := fun i : EntryIx => s.table[i].entry.any (fun e => e.owner == p)
     ∃ t, exec (.scuTeardown p) s = .next t
     ∧ t = { s with
         table := t.table, due := t.due, groups := t.groups
         waiting := s.waiting.filter (fun i => !mine i)
         pendingGroups := s.pendingGroups.filter (· ≠ p)
         ports := upd s.ports p { s.ports[p] with requested := { s.ports[p].requested with scu := false }
                                                  reported := { s.ports[p].reported with scu := true } } }
     ∧ (∀ a : AxisId, t.due[a] = s.due[a].filter (fun i => !mine i))
     ∧ (∀ i : EntryIx, t.table[i] = if mine i then ⟨s.table[i].gen + 1, none⟩ else s.table[i])
     ∧ ∀ q : Port, t.groups[q] = if q = p then ⟨.none, [], none, 0, 0⟩ else s.groups[q])
  ∧ (∀ (p : Port) (s : State), s.ports[p].requested.otu = true → ∃ t, exec (.otuTeardown p) s = .next t
       ∧ t = { s with chans := t.chans, ports := upd s.ports p { s.ports[p] with
                        requested := { s.ports[p].requested with otu := false }
                        reported := { s.ports[p].reported with otu := true } } }
       ∧ ∀ c : ChanId,
         (s.chans[c].owner = some p →
           t.chans[c] = { s.chans[c] with owner := none, state := .unowned, remaining := 0 } ∧ t.chans[c].pin = s.chans[c].safe)
         ∧ (s.chans[c].owner ≠ some p → t.chans[c] = s.chans[c]))

/-- The PIF takes a report: the block leaves the parts outstanding, and the report that empties the set puts the port in its
end state (R152). -/
def Obligations.TeardownPartDone : Prop :=
  ∀ (p : Port) (b : Block) (s : State), s.ports[p].reported.has b = true →
    let r := s.ports[p]
    let left := r.outstanding.put b false
    (left ≠ ⟨false, false, false, false⟩ →
      exec (.teardownPartDone p b) s = .next { s with
        ports := upd s.ports p { r with reported := r.reported.put b false, outstanding := left } })
    ∧ (left = ⟨false, false, false, false⟩ → r.endState = some .detached →
      exec (.teardownPartDone p b) s = .next { s with
        ports := upd s.ports p { r with reported := r.reported.put b false, outstanding := left, state := .detached,
                                        endState := none } })
    ∧ (left = ⟨false, false, false, false⟩ → r.endState = some .expired →
      exec (.teardownPartDone p b) s = .next { s with
        ports := upd s.ports p { r with reported := r.reported.put b false, outstanding := left, state := .expired,
                                        endState := none } })

/-! ## The Axis Unit -/

/-- AXIS_CONFIG replaces the configuration of a DISABLED axis and loads the decoder reference from the pins; it is refused
BAD_FIELD for a number or a code outside its values and for a field that does not apply to the axis and is not 0, and
AXIS_STATE on an axis that is not DISABLED (R11). AXIS_DISABLE, its checks in order and its effect: no event, no notice, the
search and the fault ended (R13, R14). That the search travel becomes 0 also on an axis with no search in progress is the model's
choice (log 27). -/
def Obligations.AxisConfigAndDisable : Prop :=
  ((∀ (p : Port) (a n i q : Byte) (k : Nat) (s : State), Admitted s p → k < 65536 →
     (3 < a.toNat
       ∨ (a.toNat < 3 ∧ (3 < n.toNat ∨ 1 < i.toNat ∨ 1 < q.toNat ∨ k ≠ 0))
       ∨ (a = 3 ∧ (n ≠ 0 ∨ i ≠ 0 ∨ q ≠ 0 ∨ k = 0 ∨ 1000 < k))) →
     exec (.axisConfig p ([a, n, i, q] ++ leBytes 2 k)) s = .next (refused s p .axisConfig .badField))
   ∧ (∀ (p : Port) (x : EncId) (n q : Byte) (inv : Bool) (d : Decode) (pol : FaultPolicy) (s : State), Admitted s p →
     Decode.ofCode n.toNat = some d → FaultPolicy.ofCode q.toNat = some pol →
     let c := Instr.axisConfig p [byte x.val, n, byte (if inv then 1 else 0), q, 0, 0]
     (s.axes[encAxis x].state = .disabled → exec c s = .next { s with
       encs := upd s.encs x { s.encs[x] with
         decode := d, invert := inv, policy := pol, refA := s.pins.encA[x], refB := s.pins.encB[x] }
       ports := answered s p (okResponse .axisConfig []) })
     ∧ (s.axes[encAxis x].state ≠ .disabled → exec c s = .next (refused s p .axisConfig .axisState)))
   ∧ ∀ (p : Port) (n : Nat) (s : State), Admitted s p →
     let c := Instr.axisConfig p ([3, 0, 0, 0] ++ leBytes 2 n)
     (1 ≤ n → n ≤ 1000 → s.axes[timeAxis].state = .disabled → exec c s = .next { s with
       time := { s.time with prescaler := n }, ports := answered s p (okResponse .axisConfig []) })
     ∧ (1 ≤ n → n ≤ 1000 → s.axes[timeAxis].state ≠ .disabled →
         exec c s = .next (refused s p .axisConfig .axisState)))
  ∧ ((∀ (p : Port) (n : Byte) (s : State), Admitted s p → 3 < n.toNat →
       exec (.axisDisable p [n]) s = .next (refused s p .axisDisable .badField))
     ∧ (∀ (p : Port) (a : AxisId) (s : State), Admitted s p →
       (s.axes[a].state = .disabled →
         exec (.axisDisable p [byte a.val]) s = .next (refused s p .axisDisable .axisState))
       ∧ (s.axes[a].state ≠ .disabled → Referenced s a →
         exec (.axisDisable p [byte a.val]) s = .next (refused s p .axisDisable .inUse)))
     ∧ (∀ (p : Port) (x : EncId) (s : State), Admitted s p → s.axes[encAxis x].state ≠ .disabled →
       ¬Referenced s (encAxis x) →
       exec (.axisDisable p [byte x.val]) s = .next { s with
         axes := upd s.axes (encAxis x) ⟨.disabled, s.axes[encAxis x].value, none⟩
         encs := upd s.encs x { s.encs[x] with searchTravel := 0, recover := false }
         ports := answered s p (okResponse .axisDisable []) })
     ∧ ∀ (p : Port) (s : State), Admitted s p → s.axes[timeAxis].state ≠ .disabled → ¬Referenced s timeAxis →
       exec (.axisDisable p [3]) s = .next { s with
         axes := upd s.axes timeAxis ⟨.disabled, s.axes[timeAxis].value, none⟩
         time := { s.time with phase := 0 }
         ports := answered s p (okResponse .axisDisable []) })

/-- AXIS_ENABLE puts a DISABLED axis in RUNNING with its value kept and posts nothing (R12). -/
def Obligations.AxisEnable : Prop :=
  (∀ (p : Port) (n : Byte) (s : State), Admitted s p → 3 < n.toNat →
    exec (.axisEnable p [n]) s = .next (refused s p .axisEnable .badField))
  ∧ (∀ (p : Port) (a : AxisId) (s : State), Admitted s p → s.axes[a].state ≠ .disabled →
    exec (.axisEnable p [byte a.val]) s = .next (refused s p .axisEnable .axisState))
  ∧ (∀ (p : Port) (x : EncId) (s : State), Admitted s p → s.axes[encAxis x].state = .disabled →
    exec (.axisEnable p [byte x.val]) s = .next { s with
      axes := upd s.axes (encAxis x) ⟨.running, s.axes[encAxis x].value, none⟩
      encs := upd s.encs x { s.encs[x] with refA := s.pins.encA[x], refB := s.pins.encB[x] }
      ports := answered s p (okResponse .axisEnable []) })
  ∧ ∀ (p : Port) (s : State), Admitted s p → s.axes[timeAxis].state = .disabled →
    exec (.axisEnable p [3]) s = .next { s with
      axes := upd s.axes timeAxis ⟨.running, s.axes[timeAxis].value, none⟩
      time := { s.time with phase := 0 }
      ports := answered s p (okResponse .axisEnable []) }

/-- AXIS_SET by the axis state, and its refusals: BAD_FIELD for an axis number above 3 or a value of −2^47, then IN_USE for a
reference of another port (R13, R15, R16). That AXIS_REBASED, and AXIS_RECOVERED behind it, wait until the MKU has taken the
re-base is the model's reading of R15 (log 25); FreezeThawRebase says when they are posted. -/
def Obligations.AxisSet : Prop :=
  (∀ (p : Port) (n : Byte) (v : Int) (s : State), Admitted s p → 3 < n.toNat →
    exec (.axisSet p (n :: leInt48 v)) s = .next (refused s p .axisSet .badField))
  ∧ (∀ (p : Port) (a : AxisId) (v : Int) (s : State), Admitted s p → inRange v = true → ForeignReferenced s a p →
    exec (.axisSet p (byte a.val :: leInt48 v)) s = .next (refused s p .axisSet .inUse))
  ∧ (∀ (p : Port) (a : AxisId) (s : State), Admitted s p →
    exec (.axisSet p (byte a.val :: leInt48 (-140737488355328))) s = .next (refused s p .axisSet .badField))
  ∧ ∀ (p : Port) (a : AxisId) (v : Int) (s : State), Admitted s p → inRange v = true → ¬ForeignReferenced s a p →
    let c := Instr.axisSet p (byte a.val :: leInt48 v)
    let r := s.axes[a]
    let ports := answered s p (okResponse .axisSet [])
    let time := if a = timeAxis then { s.time with phase := 0 } else s.time
    let rebased : Posting := ⟨.axisRebased a .set r.value v, []⟩
    let held := fun l : List Posting => upd s.heldNotices a (s.heldNotices[a] ++ l)
    let recovered : Posting := ⟨.axisRecovered a .set v, []⟩
    let rebase := AxuEvent.rebase .set r.value v
    (r.state = .disabled → exec c s = .next { s with axes := upd s.axes a { r with value := v }, ports := ports })
    ∧ (r.state = .running → exec c s = .next { s with
        axes := upd s.axes a { r with value := v }, time := time, toMku := upd s.toMku a (s.toMku[a] ++ [rebase])
        heldNotices := held [rebased], ports := ports })
    ∧ (r.state = .faulted → policyOf s a = .hold → exec c s = .next { s with
        axes := upd s.axes a ⟨.running, v, none⟩, time := time
        toMku := upd s.toMku a (s.toMku[a] ++ [rebase, .thaw])
        heldNotices := held [rebased, recovered], ports := ports })
    ∧ (r.state = .faulted → policyOf s a = .continued → exec c s = .next { s with
        axes := upd s.axes a ⟨.running, v, none⟩, time := time, toMku := upd s.toMku a (s.toMku[a] ++ [rebase])
        heldNotices := held [rebased, recovered], ports := ports })
    ∧ ∀ x : EncId, a = encAxis x → r.state = .homing → exec c s = .next { s with
        axes := upd s.axes a ⟨.running, v, none⟩
        encs := upd s.encs x { s.encs[x] with searchTravel := 0, recover := false }
        toMku := upd s.toMku a (s.toMku[a] ++ [rebase, .thaw])
        heldNotices := held (rebased :: if s.encs[x].recover then [recovered] else []), ports := ports }

/-- AXIS_HOME by the axis state, and its refusals: BAD_FIELD for an axis number above 2, a home value of −2^47 or a search limit
outside its range, then AXIS_STATE (R17). -/
def Obligations.AxisHome : Prop :=
  (∀ (p : Port) (n : Byte) (home : Int) (limit : Nat) (s : State), Admitted s p → 2 < n.toNat →
    exec (.axisHome p (n :: (leInt48 home ++ leBytes 4 limit))) s = .next (refused s p .axisHome .badField))
  ∧ (∀ (p : Port) (x : EncId) (limit : Nat) (s : State), Admitted s p →
    exec (.axisHome p (byte x.val :: (leInt48 (-140737488355328) ++ leBytes 4 limit))) s
      = .next (refused s p .axisHome .badField))
  ∧ (∀ (p : Port) (x : EncId) (home : Int) (limit : Nat) (s : State), Admitted s p → limit < 4294967296 →
    (limit = 0 ∨ 2147483647 < limit) →
    exec (.axisHome p (byte x.val :: (leInt48 home ++ leBytes 4 limit))) s
      = .next (refused s p .axisHome .badField))
  ∧ ∀ (p : Port) (x : EncId) (home : Int) (limit : Nat) (s : State), Admitted s p → inRange home = true → 1 ≤ limit →
    limit ≤ 2147483647 →
    let c := Instr.axisHome p (byte x.val :: (leInt48 home ++ leBytes 4 limit))
    let a := encAxis x
    let r := s.axes[a]
    let started := fun (recover : Bool) => { s with
      axes := upd s.axes a ⟨.homing, r.value, none⟩
      encs := upd s.encs x { s.encs[x] with
        homeValue := home, searchLimit := limit, searchTravel := 0, recover := recover }
      ports := answered s p (okResponse .axisHome []) }
    let freeze := upd s.toMku a (s.toMku[a] ++ [.freeze])
    (r.state = .disabled → exec c s = .next (refused s p .axisHome .axisState))
    ∧ (r.state = .running → exec c s = .next { started false with toMku := freeze })
    ∧ (r.state = .faulted → s.encs[x].policy = .hold → exec c s = .next (started true))
    ∧ (r.state = .faulted → s.encs[x].policy = .continued → exec c s = .next { started true with toMku := freeze })
    ∧ (r.state = .homing → exec c s = .next (started s.encs[x].recover))

/-- TIME_PRESET fills the slot for the issuer, with its checks in order (R13, R21). A rising edge of EPOCH is judged by the table
of R23; every other change of its level is only followed. That the notices wait behind a re-base the MKU has not taken is the
model's reading of R15 (log 25). -/
def Obligations.TimePresetAndEpoch : Prop :=
  ((∀ (p : Port) (s : State), Admitted s p →
     exec (.timePreset p (leInt48 (-140737488355328))) s = .next (refused s p .timePreset .badField))
   ∧ ∀ (p : Port) (v : Int) (s : State), Admitted s p → inRange v = true →
     let c := Instr.timePreset p (leInt48 v)
     ((∃ q ∈ s.preset, q.setter ≠ p) → exec c s = .next (refused s p .timePreset .owned))
     ∧ ((∀ q ∈ s.preset, q.setter = p) → ForeignReferenced s timeAxis p →
         exec c s = .next (refused s p .timePreset .inUse))
     ∧ ((∀ q ∈ s.preset, q.setter = p) → ¬ForeignReferenced s timeAxis p → exec c s = .next { s with
         preset := some ⟨v, p⟩, ports := answered s p (okResponse .timePreset []) }))
  ∧ ((∀ (level : Bool) (s : State), s.inReset = false → (level = false ∨ s.epochLevel = true) →
       exec (.epochEdge level) s = .next { s with pins := { s.pins with epoch := level }, epochLevel := level })
     ∧ ∀ s : State, s.inReset = false → s.epochLevel = false →
       let u : State := { s with pins := { s.pins with epoch := true }, epochLevel := true }
       let r := s.axes[timeAxis]
       let seen := fun (t : State) (res : EpochResult) (l : List Port) => t.notified timeAxis (.epochSeen res r.value) l []
       (r.state ≠ .running → exec (.epochEdge true) s = .next (seen u .notRunning (s.preset.map (·.setter)).toList))
       ∧ (r.state = .running → s.preset = none → exec (.epochEdge true) s = .next (seen u .noPreset []))
       ∧ ∀ q, r.state = .running → s.preset = some q →
         (ForeignReferenced s timeAxis q.setter →
           exec (.epochEdge true) s = .next (seen { u with preset := none } .inUse [q.setter]))
         ∧ (¬ForeignReferenced s timeAxis q.setter → exec (.epochEdge true) s = .next { u with
           preset := none, axes := upd s.axes timeAxis { r with value := q.value }, time := { s.time with phase := 0 }
           toMku := upd s.toMku timeAxis (s.toMku[timeAxis] ++ [.rebase .epoch r.value q.value])
           heldNotices := upd s.heldNotices timeAxis (s.heldNotices[timeAxis] ++
             [⟨.axisRebased timeAxis .epoch r.value q.value, []⟩, ⟨.epochSeen .applied q.value, [q.setter]⟩]) }))

/-- TIME_PRESET_CLEAR empties the slot for its setter, answers OK when it is empty already, and is refused NOT_OWNER from
another port (R22). -/
def Obligations.TimePresetClear : Prop :=
  ∀ (p : Port) (s : State), Admitted s p →
    ((∀ q ∈ s.preset, q.setter = p) → exec (.timePresetClear p []) s = .next { s with
      preset := none, ports := answered s p (okResponse .timePresetClear []) })
    ∧ ((∃ q ∈ s.preset, q.setter ≠ p) →
      exec (.timePresetClear p []) s = .next (refused s p .timePresetClear .notOwner))

/-- A rising edge of Z ends a homing search; every other change of Z is only followed (R18). That AXIS_REBASED, and
AXIS_RECOVERED behind it, wait until the MKU has taken the re-base is the model's reading of R15 (log 25). -/
def Obligations.IndexEdge : Prop :=
  (∀ (x : EncId) (level : Bool) (s : State), s.inReset = false →
    (level = false ∨ s.encs[x].levelZ = true ∨ s.axes[encAxis x].state ≠ .homing) →
    exec (.indexEdge x level) s = .next { s with
      pins := { s.pins with encZ := upd s.pins.encZ x level }, encs := upd s.encs x { s.encs[x] with levelZ := level } })
  ∧ ∀ (x : EncId) (s : State), s.inReset = false → s.encs[x].levelZ = false → s.axes[encAxis x].state = .homing →
    let a := encAxis x
    let old := s.axes[a].value
    let home := s.encs[x].homeValue
    exec (.indexEdge x true) s = .next { s with
      pins := { s.pins with encZ := upd s.pins.encZ x true }
      axes := upd s.axes a ⟨.running, home, none⟩
      encs := upd s.encs x { s.encs[x] with levelZ := true, searchTravel := 0, recover := false }
      toMku := upd s.toMku a (s.toMku[a] ++ [.rebase .home old home, .thaw])
      heldNotices := upd s.heldNotices a (s.heldNotices[a] ++ ⟨.axisRebased a .home old home, []⟩ ::
        if s.encs[x].recover then [⟨.axisRecovered a .home home, []⟩] else []) }

/-- The count that a change of (A, B) makes in each decode mode, and its direction (R5, R6); a change of both levels in a
quadrature mode makes none (R7). A change that makes a count within the range moves the axis by one and hands the step to the
SCU and the MKU; in HOMING it adds to the search travel and may end the search (R8, R19). A change that makes no count, and
every change of a DISABLED axis, only moves the decoder reference. That AXIS_FAULT waits behind a re-base the MKU has not taken
is the model's reading of R15 (log 25). -/
def Obligations.EncoderCounting : Prop :=
  (∀ (r : EncRec) (a b : Bool),
     let fwd := if r.invert then Direction.reverse else Direction.forward
     let rev := if r.invert then Direction.forward else Direction.reverse
     let one := (a = r.refA ∧ b ≠ r.refB) ∨ (a ≠ r.refA ∧ b = r.refB)
     let count := if isQuadError r a b then none else decodeCount r a b
     (r.decode = .quadX4 → one → quadNext (r.refA, r.refB) = (a, b) → count = some fwd)
     ∧ (r.decode = .quadX4 → one → quadNext (a, b) = (r.refA, r.refB) → count = some rev)
     ∧ (r.decode = .quadX2 → a ≠ r.refA → b = r.refB → count = some (if a = b then rev else fwd))
     ∧ (r.decode = .quadX2 → a = r.refA → count = none)
     ∧ (r.decode = .quadX1 → a ≠ r.refA → b = r.refB → count = if b then none else some (if a then fwd else rev))
     ∧ (r.decode = .quadX1 → a = r.refA → count = none)
     ∧ (r.decode = .stepDir → count = if a = true ∧ r.refA = false then some (if b then rev else fwd) else none)
     ∧ (r.decode ≠ .stepDir → a ≠ r.refA → b ≠ r.refB → isQuadError r a b = true ∧ count = none))
  ∧ (∀ (x : EncId) (a b : Bool) (s : State), s.inReset = false → isQuadError s.encs[x] a b = false →
       let ax := encAxis x
       let r := s.axes[ax]
       let e : EncRec := { s.encs[x] with refA := a, refB := b }
       let c := Instr.encoderTransition x a b
       let pins := { s.pins with encA := upd s.pins.encA x a, encB := upd s.pins.encB x b }
       (decodeCount s.encs[x] a b = none ∨ r.state = .disabled →
         exec c s = .next { s with pins := pins, encs := upd s.encs x e })
       ∧ ∀ d, decodeCount s.encs[x] a b = some d → r.state ≠ .disabled →
         let v := match d with
           | .forward => r.value + 1
           | .reverse => r.value - 1
         inRange v = true →
         let frozen := decide (r.state = .homing ∨ (r.state = .faulted ∧ e.policy = .hold))
         let step : StepMsg := ⟨d, v, frozen⟩
         let u : State := { s with
           pins := pins
           axes := upd s.axes ax { r with value := v }
           encs := upd s.encs x e
           toScu := upd s.toScu ax (s.toScu[ax] ++ [step])
           toMku := upd s.toMku ax (s.toMku[ax] ++ [.step step]) }
         (r.state ≠ .homing → exec c s = .next u)
         ∧ (r.state = .homing → e.searchTravel + 1 ≤ e.searchLimit → exec c s = .next { u with
             encs := upd s.encs x { e with searchTravel := e.searchTravel + 1 } })
         ∧ (r.state = .homing → e.searchLimit < e.searchTravel + 1 → exec c s = .next (({ u with
             axes := upd s.axes ax ⟨.faulted, v, some .homeFailed⟩
             encs := upd s.encs x { e with searchTravel := 0, recover := false }
             toMku := upd s.toMku ax (s.toMku[ax] ++ [.step step]
               ++ (if e.policy = .continued then [.thaw] else [])) } : State).notified
             ax (.axisFault ax .homeFailed false v) [] (entryHolders s ax))))

/-- A quadrature error by the axis state and the fault policy (R7), and a count refused at the limit of the range (R9). That the
search travel keeps its value when a count is refused in HOMING is the model's choice (log 15); that AXIS_FAULT waits behind a
re-base the MKU has not taken is its reading of R15 (log 25). -/
def Obligations.AxisFaults : Prop :=
  ∀ (x : EncId) (a b : Bool) (s : State), s.inReset = false →
    let ax := encAxis x
    let r := s.axes[ax]
    let e : EncRec := { s.encs[x] with refA := a, refB := b }
    let c := Instr.encoderTransition x a b
    let u : State := { s with
      pins := { s.pins with encA := upd s.pins.encA x a, encB := upd s.pins.encB x b }, encs := upd s.encs x e }
    let faults := fun (t : State) (cause : FaultCause) (continued : Bool) =>
      exec c s = .next (t.notified ax (.axisFault ax cause continued r.value) [] (entryHolders s ax))
    let freeze := upd s.toMku ax (s.toMku[ax] ++ [.freeze])
    let thaw := upd s.toMku ax (s.toMku[ax] ++ [.thaw])
    let atLimit := upd s.axes ax ⟨.faulted, r.value, some .overrange⟩
    (isQuadError s.encs[x] a b = true →
      (r.state = .disabled ∨ r.state = .faulted → exec c s = .next u)
      ∧ (r.state = .running → e.policy = .hold →
          faults { u with axes := upd s.axes ax ⟨.faulted, r.value, some .quadError⟩, toMku := freeze } .quadError false)
      ∧ (r.state = .running ∨ r.state = .homing → e.policy = .continued → faults u .quadError true)
      ∧ (r.state = .homing → e.policy = .hold →
          faults { u with encs := upd s.encs x { e with recover := true } } .quadError false))
    ∧ ∀ d, isQuadError s.encs[x] a b = false → decodeCount s.encs[x] a b = some d →
      (d = .forward ∧ r.value = 140737488355327 ∨ d = .reverse ∧ r.value = -140737488355327) →
      (r.state = .running → e.policy = .hold → faults { u with axes := atLimit, toMku := freeze } .overrange false)
      ∧ (r.state = .running → e.policy = .continued → faults { u with axes := atLimit } .overrange false)
      ∧ (r.state = .homing → faults { u with
          axes := atLimit, encs := upd s.encs x { e with recover := false }
          toMku := if e.policy = .continued then thaw else s.toMku } .overrange false)
      ∧ (r.state = .faulted → r.cause ≠ some .overrange → faults { u with axes := atLimit } .overrange false)
      ∧ (r.state = .faulted → r.cause = some .overrange → exec c s = .next u)

/-- The prescaler of A3 expires: the phase returns to 0 and A3 makes one forward count, a step within the range and an
overrange at its end (R9, R10). That AXIS_FAULT waits behind a re-base the MKU has not taken is the model's reading of R15
(log 25). -/
def Obligations.PrescalerExpiry : Prop :=
  ∀ s : State, s.time.prescaler ≤ s.time.phase →
    let r := s.axes[timeAxis]
    let c := Instr.prescalerExpiry
    let u : State := { s with time := { s.time with phase := 0 } }
    let v := r.value + 1
    (∀ frozen, (r.state = .running ∧ frozen = false ∨ r.state = .faulted ∧ frozen = true) → inRange v = true →
      exec c s = .next { u with
        axes := upd s.axes timeAxis { r with value := v }
        toScu := upd s.toScu timeAxis (s.toScu[timeAxis] ++ [⟨.forward, v, frozen⟩])
        toMku := upd s.toMku timeAxis (s.toMku[timeAxis] ++ [.step ⟨.forward, v, frozen⟩]) })
    ∧ (r.state = .running → r.value = 140737488355327 → exec c s = .next (({ u with
        axes := upd s.axes timeAxis ⟨.faulted, r.value, some .overrange⟩
        toMku := upd s.toMku timeAxis (s.toMku[timeAxis] ++ [.freeze]) } : State).notified
        timeAxis (.axisFault timeAxis .overrange false r.value) [] (entryHolders s timeAxis)))
    ∧ (r.state = .faulted → r.cause = some .overrange → r.value = 140737488355327 → exec c s = .next u)
    ∧ (r.state = .disabled → exec c s = .next s)

/-! ## The Mark Unit -/

/-- A freeze suspends the inputs that are SEEKING or TRACKING on the axis, a re-base sends them back to SEEKING, each with
MARK_LOST, and a thaw sends the SUSPENDED ones to SEEKING with no notice (R97, R98). After the MARK_LOST of a re-base its
AXIS_REBASED is posted, with the notices behind it (R15), an AXIS_FAULT among them with the axis value of that moment (R24);
that they have waited for the MKU is the model's reading of R15 (log 25). The value in MARK_LOST is the one the AXU holds when
the MKU takes the freeze or the re-base, which is the model's choice (log 14). An axis is frozen in HOMING, and in FAULTED under the policy HOLD, which A3 always has (R2, R3); its value is VALID in
RUNNING, SUSPECT in HOMING and FAULTED and ABSENT in DISABLED, and a snapshot holds the value and the validity of each axis (R3,
R20).
That the inputs of one event are taken in ascending number is the model's choice (log 22), and so is that an input with no last
mark reports the sequence number 0 (log 21). -/
def Obligations.FreezeThawRebase : Prop :=
  (∀ (a : AxisId) (s : State),
    (axisFrozen s a = true ↔ s.axes[a].state = .homing ∨ (s.axes[a].state = .faulted ∧ policyOf s a = .hold))
    ∧ policyOf s timeAxis = .hold ∧ (∀ x : EncId, policyOf s (encAxis x) = s.encs[x].policy)
    ∧ (snapshotValues s)[a] = s.axes[a].value ∧ (snapshotValidities s)[a] = validityOf s.axes[a].state
    ∧ validityOf .running = .valid ∧ validityOf .homing = .suspect ∧ validityOf .faulted = .suspect
    ∧ validityOf .disabled = .absent)
  ∧ ∀ (a : AxisId) (rest : List AxuEvent) (s : State),
    let active := fun m : MarkId =>
      decide (s.marks[m].refAxis = a ∧ (s.marks[m].state = .seeking ∨ s.marks[m].state = .tracking))
    let lost := fun (cause : LostCause) => ((List.finRange 4).filter active).map (fun m =>
      (⟨.markLost m cause s.marks[m].lastSeq s.axes[a].value, []⟩ : Posting))
    let loses := fun (c : Instr) (cause : LostCause) (st : MarkState) (released kept : List Posting) => ∃ t, exec c s = .next t
      ∧ t = { s with
          marks := t.marks, toMku := upd s.toMku a rest, heldNotices := upd s.heldNotices a kept
          posted := s.posted ++ lost cause ++ released }
      ∧ ∀ m : MarkId, t.marks[m] =
        if active m then { s.marks[m] with state := st, capture := none, deferred := false, misses := 0 } else s.marks[m]
    let rebased := fun q : Posting => ∃ b cause old new, q.body = .axisRebased b cause old new
    (s.toMku[a] = .freeze :: rest → loses (.freezeEvent a) .axisFault .suspended [] s.heldNotices[a])
    ∧ (∀ cause old new, s.toMku[a] = .rebase cause old new :: rest →
        (s.heldNotices[a] = [] → loses (.rebaseEvent a) .rebase .seeking [] [])
        ∧ ∀ (first : Posting) (behind later : List Posting), s.heldNotices[a] = first :: behind ++ later →
          (∀ q ∈ behind, ¬rebased q) → (∀ q ∈ later.head?, rebased q) →
          loses (.rebaseEvent a) .rebase .seeking ((first :: behind).map (fun q => match q.body with
            | .axisFault b cause continued _ =>
              ⟨.axisFault b cause continued s.axes[b].value, q.addressed ++ entryHolders s b⟩
            | .axisRebased b .. => ⟨q.body, q.addressed ++ entryHolders s b⟩
            | _ => q)) later)
    ∧ (s.toMku[a] = .thaw :: rest → ∃ t, exec (.thawEvent a) s = .next t
      ∧ t = { s with marks := t.marks, toMku := upd s.toMku a rest }
      ∧ ∀ m : MarkId, t.marks[m] =
        if s.marks[m].refAxis = a ∧ s.marks[m].state = .suspended then
          { s.marks[m] with state := .seeking, capture := none, deferred := false }
        else s.marks[m])

/-- MARK_CONFIG replaces the seven configuration fields of an IDLE input; it is refused MARK_STATE on an input that is not
IDLE, and BAD_FIELD for each field out of its range (R81). -/
def Obligations.MarkConfig : Prop :=
  ∀ (p : Port) (m a : Byte) (edge dir : Byte) (pitch tolerance : Nat) (limit debounce : Byte) (s : State),
    Admitted s p → pitch < 4294967296 → tolerance < 4294967296 →
    let c := Instr.markConfig p ([m, a, edge, dir] ++ leBytes 4 pitch ++ leBytes 4 tolerance ++ [limit, debounce])
    (3 < m.toNat ∨ 3 < a.toNat ∨ 2 < edge.toNat ∨ 1 < dir.toNat ∨ (a = 3 ∧ dir = 1) ∨ pitch = 0 ∨ 2147483647 < pitch
        ∨ pitch ≤ tolerance ∨ 15 < limit.toNat →
      exec c s = .next (refused s p .markConfig .badField))
    ∧ ∀ (mi : MarkId) (ai : AxisId) (ek : Edge) (dk : Direction), m = byte mi.val → a = byte ai.val →
      edge = byte ek.code → dir = byte dk.code → ¬(ai = 3 ∧ dk = .reverse) → 1 ≤ pitch → pitch ≤ 2147483647 →
      tolerance < pitch → limit.toNat ≤ 15 →
      (s.marks[mi].state ≠ .idle → exec c s = .next (refused s p .markConfig .markState))
      ∧ (s.marks[mi].state = .idle → exec c s = .next { s with
          marks := upd s.marks mi { s.marks[mi] with
            refAxis := ai, edge := ek, direction := dk, pitch := pitch, tolerance := tolerance
            missLimit := limit.toNat, debounce := debounce.toNat }
          ports := answered s p (okResponse .markConfig []) })

/-- MARK_START makes the issuer the holder and starts the input in SEEKING, or in SUSPENDED on a frozen axis (R82).
MARK_STOP, its checks in order and the event at the MKU; the SCU's part is the stop request it hands on (R99, R100).
That an input with no last mark reports the sequence number 0 is the model's choice (log 21). -/
def Obligations.MarkStartAndStop : Prop :=
  ((∀ (p : Port) (n : Byte) (s : State), Admitted s p → 3 < n.toNat →
     exec (.markStart p [n]) s = .next (refused s p .markStart .badField))
   ∧ ∀ (p : Port) (m : MarkId) (s : State), Admitted s p →
     let r := s.marks[m]
     let c := Instr.markStart p [byte m.val]
     (r.state ≠ .idle → exec c s = .next (refused s p .markStart .markState))
     ∧ (r.state = .idle → s.axes[r.refAxis].state = .disabled → exec c s = .next (refused s p .markStart .axisState))
     ∧ (r.state = .idle → s.axes[r.refAxis].state ≠ .disabled → exec c s = .next { s with
         marks := upd s.marks m { r with
           state := if axisFrozen s r.refAxis then .suspended else .seeking
           holder := some p, history := [], seq := 0, misses := 0, last := none, capture := none, deferred := false }
         ports := answered s p (okResponse .markStart []) }))
  ∧ ((∀ (p : Port) (n : Byte) (s : State), Admitted s p → 3 < n.toNat →
       exec (.markStop p [n]) s = .next (refused s p .markStop .badField))
     ∧ ∀ (p : Port) (m : MarkId) (s : State), Admitted s p →
       let r := s.marks[m]
       let c := Instr.markStop p [byte m.val]
       let foreignEntry := ∃ i : EntryIx, ∃ e ∈ s.table[i].entry,
         e.owner ≠ p ∧ e.desc.reference ≠ .absolute ∧ e.desc.mark = m
       let foreignGroup := ∃ q : Port, q ≠ p ∧ s.groups[q].state = .pending ∧ s.groups[q].boundary = some (.atMark m)
       (r.state = .idle → exec c s = .next (refused s p .markStop .markState))
       ∧ (r.state ≠ .idle → r.holder ≠ some p → exec c s = .next (refused s p .markStop .notOwner))
       ∧ (r.state ≠ .idle → r.holder = some p → foreignEntry ∨ foreignGroup →
           exec c s = .next (refused s p .markStop .inUse))
       ∧ (r.state ≠ .idle → r.holder = some p → ¬foreignEntry → ¬foreignGroup → exec c s = .next { s with
           marks := upd s.marks m { r with state := .idle, holder := none, capture := none, deferred := false, misses := 0 }
           mkuToScu := s.mkuToScu ++ [.stop m p]
           posted := s.posted ++ [⟨.markLost m .stopped r.lastSeq s.axes[r.refAxis].value, []⟩]
           ports := answered s p (okResponse .markStop []) }))

/-- A capture judged in SEEKING is accepted as a REAL mark whatever its reference value, counted, recorded, noticed and
handed to the SCU (R85, R90). The statement covers the end of a debounce and the edge of an input with debounce 0. -/
def Obligations.MarkAccepted : Prop :=
  ∀ (m : MarkId) (s : State), s.marks[m].state = .seeking →
    let r := s.marks[m]
    let accept := fun (c : Capture) (r : MarkRec) (u : State) =>
      let c := { c with kind := .real, seq := r.seq + 1 }
      { u with
        marks := upd s.marks m { r with
          state := .tracking, misses := 0, deferred := false, capture := none, seq := r.seq + 1
          last := some ⟨c.values[r.refAxis], r.seq + 1⟩, history := (c :: r.history).take 8 }
        mkuToScu := s.mkuToScu ++ [.mark c]
        posted := s.posted ++ [⟨.markCaptured m .real (r.seq + 1) c.values[r.refAxis] 0, []⟩] }
    (∀ p, r.capture = some p → p.remaining = 0 → exec (.debounceEnd m) s = .next (accept p.record r s))
    ∧ ∀ level, s.inReset = false → level ≠ r.level → r.debounce = 0 →
      (r.edge = .both ∨ r.edge = .rise ∧ level = true ∨ r.edge = .fall ∧ level = false) →
      exec (.markEdge m level) s = .next (accept
        { input := m, kind := .real, seq := 0, stamp := s.uptime, values := s.axes.map (·.value)
          validities := s.axes.map (fun r => validityOf r.state) }
        { r with level := level } { s with pins := { s.pins with mark := upd s.pins.mark m level } })

/-- An edge that does not make a mark in SEEKING: ignored in IDLE and SUSPENDED; captured to wait out a debounce in SEEKING and
TRACKING, where a deferred miss passes to the new capture; the pending capture discarded by an edge of the other kind, which
judges a deferred miss; and judged at once in TRACKING with debounce 0 (R83, R84, R86, R87). -/
def Obligations.MarkEdges : Prop :=
  ∀ (m : MarkId) (level : Bool) (s : State), s.inReset = false → level ≠ s.marks[m].level →
    let r := s.marks[m]
    let pins := { s.pins with mark := upd s.pins.mark m level }
    let u := fun (r : MarkRec) => { s with pins := pins, marks := upd s.marks m { r with level := level } }
    let selected := r.edge = .both ∨ r.edge = .rise ∧ level = true ∨ r.edge = .fall ∧ level = false
    let c : Capture := ⟨m, .real, 0, s.uptime, s.axes.map (·.value), s.axes.map (fun r => validityOf r.state)⟩
    (r.state = .idle ∨ r.state = .suspended → exec (.markEdge m level) s = .next (u r))
    ∧ (r.state = .seeking ∨ r.state = .tracking → selected → r.debounce ≠ 0 →
      exec (.markEdge m level) s = .next (u { r with capture := some ⟨c, r.debounce⟩ }))
    ∧ (∀ l, r.state = .tracking → selected → r.debounce = 0 → r.last = some l →
      exec (.markEdge m level) s = .next (({ r with level := level, capture := none }.judged m l c s).on m { s with pins := pins }))
    ∧ (r.state = .seeking ∨ r.state = .tracking → ¬selected → r.capture = none ∨ r.deferred = false →
      exec (.markEdge m level) s = .next (u { r with capture := none }))
    ∧ ∀ l, r.state = .tracking → ¬selected → r.capture ≠ none → r.last = some l →
      exec (.markEdge m level) s
        = .next (({ r with level := level, capture := none }.deferredMiss m l s).on m { s with pins := pins })

/-- The window of a TRACKING input: a capture nearer than pitch less tolerance is rejected, any other is accepted, and a
deferred miss is then judged or dropped (R86, R87). A step of an axis, at every input: onto the late limit of a TRACKING input
it is a miss, deferred while a capture is pending, and otherwise made good by a substituted mark one pitch after the last
while the miss count is below the miss limit, and above that the loss of the marks (R87, R88, R89). That a substituted record
takes the other axes as the event finds them, and MARK_LOST the value of the reference axis, is the model's choice (log 14), and so is the ascending order of the inputs that
one step reaches (log 22). -/
def Obligations.MarkWindowAndMiss : Prop :=
  (∀ (m : MarkId) (l : LastMark) (p : PendingCapture) (s : State), s.marks[m].state = .tracking →
     s.marks[m].last = some l → s.marks[m].capture = some p → p.remaining = 0 →
     exec (.debounceEnd m) s = .next (({ s.marks[m] with capture := none }.judged m l p.record s).on m s))
  ∧ ∀ (a : AxisId) (msg : StepMsg) (rest : List AxuEvent) (s : State), s.toMku[a] = .step msg :: rest →
    let effect := fun m : MarkId => s.marks[m].stepped m a msg s
    ∃ t, exec (.mkuStep a) s = .next t
    ∧ t = { s with
        toMku := upd s.toMku a rest, marks := t.marks
        posted := s.posted ++ (List.finRange 4).flatMap (fun m => (effect m).posted)
        mkuToScu := s.mkuToScu ++ (List.finRange 4).flatMap (fun m => (effect m).handed) }
    ∧ ∀ m : MarkId, t.marks[m] = (effect m).record

/-! ## The Schedule Unit -/

/-- The first FREE entry, all checks of R39 before the late test passed (R39 to R41, R43). -/
def armPasses (p : Port) (d : TriggerDesc) (i : EntryIx) (s : State) : Prop :=
  s.axes[d.axis].state ≠ .disabled ∧ (d.reference ≠ .absolute → s.marks[d.mark].state ≠ .idle)
    ∧ (∀ c : ChanId, d.mask.getLsbD c.val = true → s.chans[c].owner = some p) ∧ liveCount s p < 96
    ∧ s.table[i].entry = none
    ∧ ∀ j : EntryIx, j < i → s.table[j].entry ≠ none

/-- An immediate mark-relative ARM joins the waiting set at its tail (R43). An immediate ABSOLUTE ARM that is not refused as
late goes to admission against the value of its axis, whatever its series, skip pattern and policies, and its response shows
the state admission left the entry in (R43, R44, R52 to R61, R66 to R73). That a late occurrence which is the last of its repeat
count ends the entry with COMPLETE is the model's choice (log 16). -/
def Obligations.ArmImmediate : Prop :=
  ∀ (p : Port) (pl : List Byte) (d : TriggerDesc) (i : EntryIx) (s : State), Admitted s p → ScheduleOk s → EntriesOk s →
    s.groups[p].state ≠ .staging → pl.length = 26 → parseTrigger pl = some d → armPasses p d i s →
    let entry := fun (st : LiveState) => (⟨d, p, st, none, 0, d.markCount, none, false⟩ : Entry)
    let resp := fun (st : Nat) => answered s p (okResponse .arm [byte i.val, s.table[i].gen, byte st, 0xFF])
    (d.reference ≠ .absolute → exec (.arm p pl) s = .next { s with
      table := upd s.table i ⟨s.table[i].gen, some (entry .waiting)⟩, waiting := s.waiting ++ [i], ports := resp 2 })
    ∧ (d.reference = .absolute → ¬ArmLate s d → ∃ acts t,
      GivenTarget (fun a => s.axes[a].value) i (entry .armed) d.place (leaseRenewed s p) acts t
      ∧ exec (.arm p pl) s = .next { sent t acts with ports := resp ((t.table[i].entry.map (·.state.code)).getD 0) })

/-- The checks of an ARM in their order (R39), the last the late test of an immediate ARM (R42). -/
def Obligations.ArmRefusals : Prop :=
  ∀ (p : Port) (pl : List Byte) (s : State), Admitted s p → pl.length = 26 →
    let c := Instr.arm p pl
    let full := s.groups[p].state = .staging ∧ 16 ≤ s.groups[p].ops.length
    (full → exec c s = .next (refused s p .arm .groupFull))
    ∧ (¬full → parseTrigger pl = none → exec c s = .next (refused s p .arm .badField))
    ∧ ∀ d, ¬full → parseTrigger pl = some d →
      let disabled := s.axes[d.axis].state = .disabled
      let idle := d.reference ≠ .absolute ∧ s.marks[d.mark].state = .idle
      let owns := ∀ c : ChanId, d.mask.getLsbD c.val = true → s.chans[c].owner = some p
      (disabled → exec c s = .next (refused s p .arm .axisState))
      ∧ (¬disabled → idle → exec c s = .next (refused s p .arm .markState))
      ∧ (¬disabled → ¬idle → ¬owns → exec c s = .next (refused s p .arm .notOwner))
      ∧ (¬disabled → ¬idle → owns → 96 ≤ liveCount s p → exec c s = .next (refused s p .arm .quotaFull))
      ∧ (¬disabled → ¬idle → owns → liveCount s p < 96 → (∀ i : EntryIx, s.table[i].entry ≠ none) →
          exec c s = .next (refused s p .arm .tableFull))
      ∧ (¬disabled → ¬idle → owns → liveCount s p < 96 → (∃ i : EntryIx, s.table[i].entry = none) →
          s.groups[p].state ≠ .staging → ArmLate s d → exec c s = .next (refused s p .arm .late))

/-- While the issuer's group is STAGING, ARM, CANCEL and CHANNEL_DRIVE are refused GROUP_FULL at 16 operations, then meet their
own checks, and else become its next operation and reserve at most the new entry (R33, R46, R107, R108, R109, R110, R137). The
checks of a staged ARM are those of ArmRefusals. -/
def Obligations.StagedCommands : Prop :=
  ∀ (p : Port) (s : State), Admitted s p → s.groups[p].state = .staging →
    let n := s.groups[p].ops.length
    let staged := fun (op : GroupOp) => upd s.groups p { s.groups[p] with ops := s.groups[p].ops ++ [op] }
    let drive := fun (mask : Nat) (act : Byte) (width : Nat) => Instr.channelDrive p (leBytes 2 mask ++ act :: leBytes 2 width)
    (16 ≤ n → ∀ arm cancel drive : List Byte, arm.length = 26 → cancel.length = 2 → drive.length = 5 →
      exec (.arm p arm) s = .next (refused s p .arm .groupFull)
      ∧ exec (.cancel p cancel) s = .next (refused s p .cancel .groupFull)
      ∧ exec (.channelDrive p drive) s = .next (refused s p .channelDrive .groupFull))
    ∧ (n < 16 →
      (∀ pl d i, pl.length = 26 → parseTrigger pl = some d → armPasses p d i s → exec (.arm p pl) s = .next { s with
        table := upd s.table i ⟨s.table[i].gen, some ⟨d, p, .staged, none, 0, d.markCount, none, false⟩⟩
        groups := staged (.arm i false)
        ports := answered s p (okResponse .arm [byte i.val, s.table[i].gen, 1, byte n]) })
      ∧ (∀ (i : EntryIx) (g : Byte),
        let c := Instr.cancel p [byte i.val, g]
        (s.table[i].entry = none → exec c s = .next (refused s p .cancel .stale))
        ∧ ∀ e, s.table[i].entry = some e →
          (e.owner ≠ p → exec c s = .next (refused s p .cancel .notOwner))
          ∧ (e.owner = p → s.table[i].gen ≠ g → exec c s = .next (refused s p .cancel .stale))
          ∧ (e.owner = p → s.table[i].gen = g → e.state = .staged → exec c s = .next (refused s p .cancel .groupState))
          ∧ (e.owner = p → s.table[i].gen = g → e.state ≠ .staged → exec c s = .next { s with
              groups := staged (.cancel ⟨i, g⟩)
              ports := answered s p (okResponse .cancel [byte n, byte e.state.code, 0, 0]) }))
      ∧ (∀ (mask : Nat) (act : Byte) (width : Nat), mask < 65536 → width < 65536 →
        (mask = 0 ∨ 4096 ≤ mask ∨ 3 < act.toNat ∨ (act = 0 ∧ width = 0) ∨ (act ≠ 0 ∧ width ≠ 0)) →
        exec (drive mask act width) s = .next (refused s p .channelDrive .badField))
      ∧ ∀ (mask : BitVec 12) (act : Action) (width : Nat), mask ≠ 0 → width < 65536 → (act = .pulse ↔ width ≠ 0) →
        let c := drive mask.toNat (byte act.code) width
        ((∃ c : ChanId, mask.getLsbD c.val = true ∧ s.chans[c].owner ≠ some p) →
          exec c s = .next (refused s p .channelDrive .notOwner))
        ∧ ((∀ c : ChanId, mask.getLsbD c.val = true → s.chans[c].owner = some p) → exec c s = .next { s with
            groups := staged (.drive mask act width)
            ports := answered s p (okResponse .channelDrive [byte n]) }))

/-- The SCU takes a step: a frozen one changes nothing; any other applies the pending groups whose boundary it reaches, in list
order, and then takes the entries it crosses in the order of the due list (R62 to R77, R115 to R118). Each crossed entry of an
ATTACHED owner has one occurrence, driven or skipped, and goes on, or ends, or closes its burst; the actions of the event go to
the OTU together. The view of the other axes is the model's choice (log 13), and so is that a late occurrence which is the last
ends the entry with COMPLETE (log 16), that a group which has applied keeps its expiry period (log 15), and that the fourth row of
R120 goes before R116 for an ARM on an input whose stop request is on its way (log 26). -/
def Obligations.ScuStep : Prop :=
  ∀ (a : AxisId) (m : StepMsg) (rest : List StepMsg) (s : State), s.toScu[a] = m :: rest →
    let u : State := { s with toScu := upd s.toScu a rest }
    (m.frozen = true → exec (.scuStep a) s = .next u)
    ∧ (m.frozen = false → ScheduleOk s → EntriesOk s →
      let val := fun b : AxisId => if b = a then m.value else s.axes[b].value
      ∃ acts₁ t acts₂ v,
        Reaches val (.atPosition a m.value) (.atPosition a m.value m.dir) s.pendingGroups u acts₁ t
        ∧ Crosses val m.value (t.due[a].filter (fun i => t.table[i].entry.any (fun e => decide (e.crossedBy m.dir m.value))))
            t acts₂ v
        ∧ exec (.scuStep a) s = .next (sent v (acts₁ ++ acts₂)))

/-- The skip pattern and the members of a series that lie behind a value (R42, R57, R59, R66): occurrence `k` is driven when
its index falls in the first `fire_n` of each `fire_n + skip_n`, and the count of members behind is the least `n` whose
member is not behind. -/
def Obligations.SeriesArithmetic : Prop :=
  (∀ (d : TriggerDesc) (k : Nat), d.driven k = true ↔ (d.fireN = 0 ∨ k % (d.fireN + d.skipN) < d.fireN))
    ∧ (∀ (i : Nat) (t v : Int), 0 < i →
      v ≤ t + (behindCount .forward i t v * i : Nat) ∧ ∀ n, n < behindCount .forward i t v → t + (n * i : Nat) < v)
    ∧ (∀ (i : Nat) (t v : Int), 0 < i →
      t - (behindCount .reverse i t v * i : Nat) ≤ v ∧ ∀ n, n < behindCount .reverse i t v → v < t - (n * i : Nat))

/-- The SCU takes a mark: the pending groups AT_MARK on the input apply in list order; then the ARMED MARK_EACH entries on the
input, in due-list order by axis A0 to A3, take the mark as owed or are passed by; then the WAITING entries on the input, in
waiting-set order, resolve to the captured value plus their offset and go to admission, or stay WAITING with UNRESOLVED (R92 to
R96, R115 to R118). The actions of the event go to the OTU together. That a late occurrence which is the last ends the entry with
COMPLETE is the model's choice (log 16), and so is that a group which has applied keeps its expiry period (log 15), and that the
fourth row of R120 goes before R116 for an ARM on an input whose stop request is on its way (log 26), and that a mark accepted
before an ARM or a GROUP_END reaches it when the SCU takes the mark after it (log 28). -/
def Obligations.MarkResolves : Prop :=
  ∀ (c : Capture) (rest : List MkuHandoff) (s : State), s.mkuToScu = .mark c :: rest → ScheduleOk s → EntriesOk s →
    let val := fun b : AxisId => s.axes[b].value
    let owing := fun (t : State) (i : EntryIx) => t.table[i].entry.any (fun e =>
      decide (e.state = .armed ∧ e.desc.reference = .markEach ∧ e.desc.mark = c.input))
    let waits := fun (t : State) (i : EntryIx) => t.table[i].entry.any (fun e =>
      decide (e.state = .waiting ∧ e.desc.reference ≠ .absolute ∧ e.desc.mark = c.input))
    ∃ acts₁ t₁ t₂ acts₂ t₃,
      Reaches val (.atMark c.input c.seq) (.atMark c.input) s.pendingGroups { s with mkuToScu := rest } acts₁ t₁
      ∧ Owes c ((t₁.due[0] ++ t₁.due[1] ++ t₁.due[2] ++ t₁.due[3]).filter (owing t₁)) t₁ t₂
      ∧ Resolves val c (t₂.waiting.filter (waits t₂)) t₂ acts₂ t₃
      ∧ exec .markHandoff s = .next (sent t₃ (acts₁ ++ acts₂))

/-- A stop request withdraws the WAITING entries on the input that it covers, ends the bursts of the ARMED MARK_EACH entries,
marks the staged ARMs, and discards the pending groups AT_MARK on the input, each with GROUP_DISCARDED cause MARK_STOPPED after
the withdrawals (R100, R101, R111, R122, R125). MARK_STOP's request covers its issuer, a holder-teardown request every port.
That a discarded group keeps its expiry period is the model's choice (log 15). -/
def Obligations.StopRequests : Prop :=
  ∀ (m : MarkId) (rest : List MkuHandoff) (s : State), ScheduleOk s → GroupsOk s → StagedOk s →
    let on := fun e : Entry => decide (e.desc.reference ≠ .absolute ∧ e.desc.mark = m)
    let effect := fun (c : Instr) (covers : Port → Bool) (cause : WithdrawCause) =>
      let gone := fun i : EntryIx => s.table[i].entry.any (fun e => e.state == .waiting && on e && covers e.owner)
      let leaving := s.waiting.filter gone
      let discards := s.pendingGroups.filter (fun p => covers p && s.groups[p].boundary == some (.atMark m))
      ∃ t, exec c s = .next t
      ∧ t = { s with
          mkuToScu := rest, table := t.table, groups := t.groups
          pendingGroups := s.pendingGroups.filter (fun p => !discards.contains p)
          waiting := s.waiting.filter (fun i => !gone i)
          posted := s.posted
            ++ leaving.flatMap (fun i => s.table[i].entry.toList.map (fun e =>
                ⟨.withdrawn ⟨i, s.table[i].gen⟩ e.desc.tag m cause, [e.owner]⟩))
            ++ discards.map (fun p =>
                ⟨.groupDiscarded .markStopped s.groups[p].ops.length (some (.atMark m)), [p]⟩) }
      ∧ (∀ i : EntryIx, (i ∈ leaving ∨ ∃ p ∈ discards, i ∈ reservedBy s p) → t.table[i] = ⟨s.table[i].gen + 1, none⟩)
      ∧ (∀ i : EntryIx, i ∉ leaving → (∀ p ∈ discards, i ∉ reservedBy s p) →
        t.table[i] = ⟨s.table[i].gen, s.table[i].entry.map (fun e =>
          if e.state = .armed ∧ e.desc.reference = .markEach ∧ e.desc.mark = m ∧ covers e.owner = true then
            { e with owed := none, finalBurst := true } else e)⟩)
      ∧ ∀ p : Port,
        (p ∈ discards → t.groups[p] = { s.groups[p] with state := .none, ops := [], boundary := none, remaining := 0 })
        ∧ (covers p = false → t.groups[p] = s.groups[p])
        ∧ (covers p = true → p ∉ discards → t.groups[p] = { s.groups[p] with ops := t.groups[p].ops }
          ∧ t.groups[p].ops.length = s.groups[p].ops.length
          ∧ ∀ (k : Nat) (op : GroupOp), s.groups[p].ops[k]? = some op →
            (∀ i stopped, op = .arm i stopped → ∀ e, s.table[i].entry = some e → e.state = .staged →
              t.groups[p].ops[k]? = some (.arm i (stopped || on e)))
            ∧ ((∀ i stopped, op ≠ .arm i stopped) → t.groups[p].ops[k]? = some op))
    (∀ issuer, s.mkuToScu = .stop m issuer :: rest → effect .stopRequest (fun q => decide (q = issuer)) .stopped)
    ∧ (s.mkuToScu = .holderStop m :: rest → effect .holderStopRequest (fun _ => true) .holderGone)

/-! ## Groups -/

/-- GROUP_BEGIN opens an empty group in NONE and is refused GROUP_STATE otherwise; GROUP_DISCARD frees what the group
reserved, with no notice, and is refused GROUP_STATE in NONE (R106, R121). A pending group whose expiry has run out is
discarded the same way, with GROUP_DISCARDED to its port (R119). That a closed group keeps its expiry period is the model's choice
(log 15). -/
def Obligations.GroupLifetime : Prop :=
  (∀ (p : Port) (s : State), Admitted s p →
    (s.groups[p].state = .none → exec (.groupBegin p []) s = .next { s with
      groups := upd s.groups p { s.groups[p] with state := .staging, ops := [], boundary := none, remaining := 0 }
      ports := answered s p (okResponse .groupBegin []) })
    ∧ (s.groups[p].state ≠ .none → exec (.groupBegin p []) s = .next (refused s p .groupBegin .groupState))
    ∧ (s.groups[p].state = .none → exec (.groupDiscard p []) s = .next (refused s p .groupDiscard .groupState)))
  ∧ ∀ (p : Port) (s : State), StagedOk s →
    let g := s.groups[p]
    let closed := fun (u t : State) =>
      t = { u with
        table := t.table, due := t.due
        waiting := s.waiting.filter (fun i => !(reservedBy s p).contains i)
        groups := upd s.groups p { g with state := .none, ops := [], boundary := none, remaining := 0 }
        pendingGroups := s.pendingGroups.filter (· ≠ p) }
      ∧ (∀ a : AxisId, t.due[a] = s.due[a].filter (fun i => !(reservedBy s p).contains i))
      ∧ ∀ i : EntryIx, t.table[i] = if i ∈ reservedBy s p then ⟨s.table[i].gen + 1, none⟩ else s.table[i]
    (Admitted s p → g.state ≠ .none → ∃ t, exec (.groupDiscard p []) s = .next t
      ∧ closed { s with ports := answered s p (okResponse .groupDiscard [byte g.ops.length]) } t)
    ∧ (g.state = .pending → g.period ≠ 0 → g.remaining = 0 → ∃ t, exec (.groupExpiry p) s = .next t
      ∧ closed { s with posted := s.posted ++ [⟨.groupDiscarded .expired g.ops.length g.boundary, [p]⟩] } t)

/-- GROUP_END: its checks in order, the group that goes PENDING at the tail of the list, and the group that applies at once: its
operations in staging order, each applied or skipped, and GROUP_APPLIED (R112, R113, R116 to R118). That a field the boundary
does not use is judged in check 2, after the group state, follows R112 (log 23); that a group applied at once keeps its old
expiry period is the model's choice (log 15), and so is that a late occurrence which is the last ends the entry with COMPLETE (log
16), and that the fourth row of R120 goes before R116 for an ARM on an input whose stop request is on its way (log 26). -/
def Obligations.GroupEnd : Prop :=
  ∀ (p : Port) (s : State), Admitted s p →
    let g := s.groups[p]
    (g.state ≠ .staging → ∀ pl, pl.length = 11 →
      exec (.groupEnd p pl) s = .next (refused s p .groupEnd .groupState))
    ∧ (g.state = .staging → ∀ period : Nat, period < 65536 →
      let tail := leBytes 2 period
      let cmd := fun (b x d : Byte) (v : Int) => Instr.groupEnd p ([b, x, d] ++ leInt48 v ++ tail)
      let atMark := fun m : MarkId => cmd 1 (byte m.val) 0 0
      let atPos := fun (a : AxisId) (d : Direction) (v : Int) => cmd 2 (byte a.val) (byte d.code) v
      let resp := fun st : Nat => answered s p (okResponse .groupEnd [byte st, byte g.ops.length])
      let pend := fun b : Boundary => { s with
        groups := upd s.groups p { g with
          state := .pending, boundary := some b, period := period, remaining := period * 1000 }
        pendingGroups := s.pendingGroups ++ [p], ports := resp 2 }
      let applies := fun (c : Instr) (at_ : AppliedAt) => ∃ acts t,
        GroupApplies (fun a => s.axes[a].value) p at_ (leaseRenewed s p) acts t
        ∧ exec c s = .next { sent t acts with ports := resp 0 }
      let reached := fun (a : AxisId) (d : Direction) (v : Int) => axisFrozen s a = false
        ∧ (d = .forward ∧ v ≤ s.axes[a].value ∨ d = .reverse ∧ s.axes[a].value ≤ v)
      (∀ (b x d : Byte) (v : Int), -140737488355328 ≤ v → v < 140737488355328 →
        (2 < b.toNat ∨ (b = 0 ∧ (x ≠ 0 ∨ d ≠ 0 ∨ v ≠ 0)) ∨ (b = 1 ∧ (3 < x.toNat ∨ d ≠ 0 ∨ v ≠ 0))
          ∨ (b = 2 ∧ (3 < x.toNat ∨ 1 < d.toNat ∨ (x = 3 ∧ d = 1) ∨ v = -140737488355328))) →
        exec (cmd b x d v) s = .next (refused s p .groupEnd .badField))
      ∧ (∀ m : MarkId, s.marks[m].state = .idle → exec (atMark m) s = .next (refused s p .groupEnd .markState))
      ∧ (∀ m : MarkId, s.marks[m].state ≠ .idle → exec (atMark m) s = .next (pend (.atMark m)))
      ∧ (∀ a d v, inRange v = true → ¬(a = 3 ∧ d = .reverse) →
          (s.axes[a].state = .disabled → exec (atPos a d v) s = .next (refused s p .groupEnd .axisState))
          ∧ (s.axes[a].state ≠ .disabled → ¬reached a d v → exec (atPos a d v) s = .next (pend (.atPosition a v d)))
          ∧ (s.axes[a].state ≠ .disabled → reached a d v → ScheduleOk s → EntriesOk s →
              applies (atPos a d v) (.atPosition a s.axes[a].value)))
      ∧ (ScheduleOk s → EntriesOk s → applies (cmd 0 0 0 0) .now))

/-! ## The Output Unit -/

/-- CHANNEL_CLAIM grants an UNOWNED channel in REST and re-claims the issuer's own, ending any pulse; another port's channel
is refused OWNED (R128, R129). CHANNEL_RELEASE, its checks in order and its effect (R130, R131). -/
def Obligations.ChannelOwnership : Prop :=
  ((∀ (p : Port) (c pol safe : Byte) (s : State), Admitted s p → (11 < c.toNat ∨ 1 < pol.toNat ∨ 1 < safe.toNat) →
     exec (.channelClaim p [c, pol, safe]) s = .next (refused s p .channelClaim .badField))
   ∧ ∀ (p : Port) (c : ChanId) (pol : Polarity) (safe : Bool) (s : State), Admitted s p →
     let cmd := Instr.channelClaim p [byte c.val, byte pol.code, byte (if safe then 1 else 0)]
     (∀ q, s.chans[c].owner = some q → q ≠ p → exec cmd s = .next (refused s p .channelClaim .owned))
     ∧ (s.chans[c].owner = none ∨ s.chans[c].owner = some p → exec cmd s = .next { s with
         chans := upd s.chans c ⟨some p, pol, safe, .rest, 0⟩, ports := answered s p (okResponse .channelClaim []) }))
  ∧ ((∀ (p : Port) (n : Byte) (s : State), Admitted s p → 11 < n.toNat →
       exec (.channelRelease p [n]) s = .next (refused s p .channelRelease .badField))
     ∧ ∀ (p : Port) (c : ChanId) (s : State), Admitted s p →
       let cmd := Instr.channelRelease p [byte c.val]
       let named := (∃ i : EntryIx, ∃ e ∈ s.table[i].entry, e.owner = p ∧ e.desc.mask.getLsbD c.val = true)
         ∨ ∃ mask act width, .drive mask act width ∈ s.groups[p].ops ∧ mask.getLsbD c.val = true
       (s.chans[c].owner ≠ some p → exec cmd s = .next (refused s p .channelRelease .notOwner))
       ∧ (s.chans[c].owner = some p → named → exec cmd s = .next (refused s p .channelRelease .inUse))
       ∧ (s.chans[c].owner = some p → ¬named → exec cmd s = .next { s with
           chans := upd s.chans c ⟨none, s.chans[c].polarity, s.chans[c].safe, .unowned, 0⟩
           ports := answered s p (okResponse .channelRelease []) }))

/-- The OTU takes one action by the table of R133, a PULSE on a PULSING channel being a retrigger (R134), and discards the
action of a port that does not own the channel (R132). A pulse whose time has run out expires: the channel enters REST and
nothing is posted (R135). The pin is at the safe level in UNOWNED, at the inactive level in REST and at the active level in ACTIVE
and PULSING (R127). -/
def Obligations.ChannelActionsAndPulseEnd : Prop :=
  (∀ r : ChanRec,
    (r.state = .unowned → r.pin = r.safe)
    ∧ (r.polarity = .activeHigh → (r.state = .rest → r.pin = false) ∧ (r.state = .active ∨ r.state = .pulsing → r.pin = true))
    ∧ (r.polarity = .activeLow → (r.state = .rest → r.pin = true) ∧ (r.state = .active ∨ r.state = .pulsing → r.pin = false)))
  ∧ (∀ (p : Port) (c : ChanId) (act : Action) (w : Nat) (rest : List (List OutAction)) (s : State),
     s.toOtu = [⟨p, c, act, w⟩] :: rest →
     let r := s.chans[c]
     let becomes := fun (st : ChanState) (left : Nat) => exec .action s = .next { s with
       toOtu := rest, chans := upd s.chans c { r with state := st, remaining := left } }
     (r.owner ≠ some p → exec .action s = .next { s with toOtu := rest })
     ∧ (r.owner = some p →
       (act = .pulse → becomes .pulsing w)
       ∧ (act = .set → becomes .active 0)
       ∧ (act = .clear → becomes .rest 0)
       ∧ (act = .toggle → r.state = .rest → becomes .active 0)
       ∧ (act = .toggle → r.state = .active ∨ r.state = .pulsing → becomes .rest 0)))
  ∧ (∀ (c : ChanId) (s : State), s.chans[c].state = .pulsing → s.chans[c].remaining = 0 →
       exec (.pulseExpiry c) s = .next { s with chans := upd s.chans c { s.chans[c] with state := .rest } })

/-- Every action of a batch or of an immediate CHANNEL_DRIVE is taken in order, each on the state the one before it left; a
drive is refused BAD_FIELD by check 1, and whole when one of its channels is not the issuer's; else it acts on the channels of
its mask and on no other (R132, R133, R136, R137). -/
def Obligations.ChannelDrive : Prop :=
  (∀ (x : OutAction) (more : List OutAction) (rest : List (List OutAction)) (s : State), s.toOtu = (x :: more) :: rest →
    ∃ t, exec .action { s with toOtu := [x] :: more :: rest } = .next t ∧ exec .action s = exec .action t)
  ∧ ∀ (p : Port) (s : State), Admitted s p → s.groups[p].state ≠ .staging →
    let drive := fun (mask : Nat) (act : Byte) (width : Nat) => Instr.channelDrive p (leBytes 2 mask ++ act :: leBytes 2 width)
    (∀ (mask : Nat) (act : Byte) (width : Nat), mask < 65536 → width < 65536 →
      (mask = 0 ∨ 4096 ≤ mask ∨ 3 < act.toNat ∨ (act = 0 ∧ width = 0) ∨ (act ≠ 0 ∧ width ≠ 0)) →
      exec (drive mask act width) s = .next (refused s p .channelDrive .badField))
    ∧ ∀ (mask : BitVec 12) (act : Action) (width : Nat), mask ≠ 0 → width < 65536 → (act = .pulse ↔ width ≠ 0) →
      let cmd := drive mask.toNat (byte act.code) width
      ((∃ c : ChanId, mask.getLsbD c.val = true ∧ s.chans[c].owner ≠ some p) →
        exec cmd s = .next (refused s p .channelDrive .notOwner))
      ∧ ((∀ c : ChanId, mask.getLsbD c.val = true → s.chans[c].owner = some p) → ∃ t, exec cmd s = .next t
        ∧ t = { s with chans := t.chans, ports := answered s p (okResponse .channelDrive [0xFF]) }
        ∧ ∀ c : ChanId,
          let r := s.chans[c]
          let becomes := fun (st : ChanState) (left : Nat) => t.chans[c] = { r with state := st, remaining := left }
          (mask.getLsbD c.val = false → t.chans[c] = r)
          ∧ (mask.getLsbD c.val = true →
            (act = .pulse → becomes .pulsing width)
            ∧ (act = .set → becomes .active 0)
            ∧ (act = .clear → becomes .rest 0)
            ∧ (act = .toggle → r.state = .rest → becomes .active 0)
            ∧ (act = .toggle → r.state = .active ∨ r.state = .pulsing → becomes .rest 0)))

/-! ## Notices -/

/-- NOTICE_READ removes the oldest notices, at most n, and returns them oldest first; a count outside 1 to 3 is refused
(R161). The attention line stays asserted exactly while notices are left (R161, R165). SUBSCRIBE replaces the three
subscriptions of the issuer, and is refused when a set names a number above 3 or the flag is neither 0 nor 1 (R160). A notice is
18 bytes: its kind, its stamp and its body as the layout gives them, every other byte 0 (R159, R167). That the boundary fields a
GROUP_DISCARDED does not use read 0 is the model's choice (log 10). -/
def Obligations.NoticeReadAndSubscribe : Prop :=
  (let spells := fun (body : NoticeBody) (kind : Byte) (fields : List Byte) =>
     ∀ stamp : BitVec 32, (⟨stamp, body⟩ : Notice).bytes = kind :: (leBytes 4 stamp.toNat ++ fields)
   let zeros := fun n : Nat => List.replicate n (0 : Byte)
   let flag := fun b : Bool => if b then (1 : Byte) else 0
   (∀ (h : Handle) (tag : BitVec 16),
     let head := [byte h.index.val, h.gen] ++ leBytes 2 tag.toNat
     (∀ occ v late, spells (.fired h tag occ v late) 0x01 (head ++ leBytes 2 occ ++ leInt48 v ++ [flag late]))
     ∧ (∀ cause occ, spells (.retired h tag cause occ) 0x02 (head ++ byte cause.code :: leBytes 2 occ ++ zeros 6))
     ∧ (∀ first count ended,
         spells (.lateDropped h tag first count ended) 0x03 (head ++ leBytes 2 first ++ leBytes 4 count ++ flag ended :: zeros 2))
     ∧ (∀ m cause, spells (.withdrawn h tag m cause) 0x04 (head ++ [byte m.val, byte cause.code] ++ zeros 7))
     ∧ (∀ m old new, spells (.markOverrun h tag m old new) 0x05
         (head ++ byte m.val :: leBytes 2 old.toNat ++ leBytes 2 new.toNat ++ zeros 4))
     ∧ ∀ m seq a v, spells (.unresolved h tag m seq a v) 0x06
         (head ++ byte m.val :: leBytes 2 seq.toNat ++ [byte a.val, byte v.code] ++ zeros 4))
   ∧ (∀ (m : MarkId) (seq : BitVec 16) (v : Int),
     (∀ kind misses, spells (.markCaptured m kind seq v misses) 0x10
       ([byte m.val, byte kind.code] ++ leBytes 2 seq.toNat ++ leInt48 v ++ byte misses :: zeros 2))
     ∧ spells (.markRejected m v seq) 0x11 (byte m.val :: leInt48 v ++ leBytes 2 seq.toNat ++ zeros 4)
     ∧ ∀ cause, spells (.markLost m cause seq v) 0x12
         ([byte m.val, byte cause.code] ++ leBytes 2 seq.toNat ++ leInt48 v ++ zeros 3))
   ∧ (∀ (applied skipped : Nat) (first : Option Nat),
     let counts := [byte applied, byte skipped, byte (first.getD 0xFF)]
     spells (.groupApplied .now applied skipped first) 0x20 (0 :: counts ++ zeros 9)
     ∧ (∀ m seq, spells (.groupApplied (.atMark m seq) applied skipped first) 0x20
         (1 :: counts ++ byte m.val :: leBytes 2 seq.toNat ++ zeros 6))
     ∧ ∀ a v, spells (.groupApplied (.atPosition a v) applied skipped first) 0x20 (2 :: counts ++ byte a.val :: leInt48 v ++ zeros 2))
   ∧ (∀ (cause : DiscardCause) (count : Nat),
     (∀ m, spells (.groupDiscarded cause count (some (.atMark m))) 0x21
       ([byte cause.code, byte count, 1, byte m.val] ++ zeros 9))
     ∧ (∀ a v d, spells (.groupDiscarded cause count (some (.atPosition a v d))) 0x21
       ([byte cause.code, byte count, 2, byte a.val, byte d.code] ++ leInt48 v ++ zeros 2))
     ∧ spells (.groupDiscarded cause count none) 0x21 ([byte cause.code, byte count] ++ zeros 11))
   ∧ (∀ (a : AxisId) (v : Int),
     (∀ cause continued, spells (.axisFault a cause continued v) 0x30
       ([byte a.val, byte cause.code, flag continued] ++ leInt48 v ++ zeros 4))
     ∧ (∀ way, spells (.axisRecovered a way v) 0x31 ([byte a.val, byte way.code] ++ leInt48 v ++ zeros 5))
     ∧ (∀ cause old, spells (.axisRebased a cause old v) 0x32 (byte (a.val + 16 * cause.code) :: leInt48 old ++ leInt48 v))
     ∧ ∀ result, spells (.epochSeen result v) 0x33 (byte result.code :: leInt48 v ++ zeros 6))
   ∧ (∀ (sender : Port) (word : BitVec 16), spells (.peer sender word) 0x40 (byte sender.val :: leBytes 2 word.toNat ++ zeros 10))
   ∧ [EndCause.complete, .rangeExit, .allLate, .marksDone, .inputStopped].map (·.code) = [0, 1, 2, 3, 4]
   ∧ [WithdrawCause.stopped, .holderGone].map (·.code) = [0, 1]
   ∧ [LostCause.missed, .rebase, .axisFault, .stopped].map (·.code) = [0, 1, 2, 3]
   ∧ [DiscardCause.expired, .markStopped].map (·.code) = [0, 1]
   ∧ [FaultCause.quadError, .overrange, .homeFailed].map (·.code) = [0, 1, 2]
   ∧ [Recovery.set, .home].map (·.code) = [0, 1] ∧ [RebaseCause.set, .home, .epoch].map (·.code) = [0, 1, 2]
   ∧ [EpochResult.applied, .noPreset, .notRunning, .inUse].map (·.code) = [0, 1, 2, 3]
   ∧ [CaptureKind.real, .substituted].map (·.code) = [0, 1] ∧ [Validity.valid, .suspect, .absent].map (·.code) = [0, 1, 2]
   ∧ [Direction.forward, .reverse].map (·.code) = [0, 1])
  ∧ (∀ (s : State) (p : Port), attnAsserted s p = true ↔ s.ports[p].state = .attached ∧ s.ports[p].queue ≠ [])
  ∧ (∀ (p : Port) (n : Byte) (s t : State), Admitted s p → 1 ≤ n.toNat → n.toNat ≤ 3 →
      exec (.noticeRead p [n]) s = .next t → (attnAsserted t p = true ↔ n.toNat < s.ports[p].queue.length))
  ∧ (∀ (p : Port) (n : Byte) (s : State), Admitted s p →
     let q := s.ports[p].queue
     ((n.toNat < 1 ∨ 3 < n.toNat) → exec (.noticeRead p [n]) s = .next (refused s p .noticeRead .badField))
     ∧ (1 ≤ n.toNat → n.toNat ≤ 3 → exec (.noticeRead p [n]) s = .next { s with
         ports := upd s.ports p { s.ports[p].renewed with
           queue := q.drop n.toNat
           buffer := okResponse .noticeRead
             (byte (min n.toNat q.length) :: (q.take n.toNat).flatMap Notice.bytes) } }))
  ∧ (∀ (p : Port) (marks axes peer : Byte) (s : State), Admitted s p →
       (15 < marks.toNat ∨ 15 < axes.toNat ∨ 1 < peer.toNat →
         exec (.subscribe p [marks, axes, peer]) s = .next (refused s p .subscribe .badField))
       ∧ (marks.toNat ≤ 15 → axes.toNat ≤ 15 → peer.toNat ≤ 1 → exec (.subscribe p [marks, axes, peer]) s = .next { s with
           ports := upd s.ports p { s.ports[p].renewed with
             markSubs := BitVec.ofNat 4 marks.toNat, axisSubs := BitVec.ofNat 4 axes.toNat, peerEnable := decide (peer = 1)
             buffer := okResponse .subscribe [marks, axes, peer] } }))

/-- POST_PEER queues one PEER notice at its target in the same event, or is refused by its checks in order (R163, R164). -/
def Obligations.PostPeer : Prop :=
  (∀ (p : Port) (n lo hi : Byte) (s : State), Admitted s p → 3 < n.toNat →
    exec (.postPeer p [n, lo, hi]) s = .next (refused s p .postPeer .badField))
  ∧ ∀ (p target : Port) (word : BitVec 16) (s : State), Admitted s p →
    let c := Instr.postPeer p (byte target.val :: leBytes 2 word.toNat)
    let r := s.ports[target]
    (r.state ≠ .attached ∨ r.peerEnable = false → exec c s = .next (refused s p .postPeer .peerUnavailable))
    ∧ (r.state = .attached → r.peerEnable = true → 32 ≤ r.queue.length →
        exec c s = .next (refused s p .postPeer .peerFull))
    ∧ (r.state = .attached → r.peerEnable = true → r.queue.length < 32 → ∃ t, exec c s = .next t
      ∧ t = { s with ports := t.ports }
      ∧ (∀ q : Port, q ≠ target → t.ports[q] = (answered s p (okResponse .postPeer []))[q])
      ∧ t.ports[target] = { (answered s p (okResponse .postPeer []))[target] with
          queue := r.queue ++ [⟨s.uptime, .peer p word⟩] }
      ∧ attnAsserted t target = true)

/-- The subscriptions that ask for a notice: the mark set for the notices of an input, the axis set for those of an axis and,
under A3, of EPOCH, and none for the notices addressed to one port (R159); and the ports that hold an entry on an axis (R24). The PIF takes a posted notice: every recipient that
is ATTACHED with fewer than 32 notices queues a copy with the uptime stamp, a full queue sets the overrun flag and stays, and
the copy of a port that is not ATTACHED is discarded (R157, R162). -/
def Obligations.NoticePosting : Prop :=
  (∀ r : PortRec,
    (∀ m kind seq ref misses, r.subscribes (.markCaptured m kind seq ref misses) = r.markSubs.getLsbD m.val)
    ∧ (∀ m ref seq, r.subscribes (.markRejected m ref seq) = r.markSubs.getLsbD m.val)
    ∧ (∀ m cause seq v, r.subscribes (.markLost m cause seq v) = r.markSubs.getLsbD m.val)
    ∧ (∀ a cause k v, r.subscribes (.axisFault a cause k v) = r.axisSubs.getLsbD a.val)
    ∧ (∀ a way v, r.subscribes (.axisRecovered a way v) = r.axisSubs.getLsbD a.val)
    ∧ (∀ a cause old new, r.subscribes (.axisRebased a cause old new) = r.axisSubs.getLsbD a.val)
    ∧ (∀ res v, r.subscribes (.epochSeen res v) = r.axisSubs.getLsbD 3)
    ∧ (∀ h tag occ v late, r.subscribes (.fired h tag occ v late) = false)
    ∧ (∀ h tag cause occ, r.subscribes (.retired h tag cause occ) = false)
    ∧ (∀ h tag first count ended, r.subscribes (.lateDropped h tag first count ended) = false)
    ∧ (∀ h tag m cause, r.subscribes (.withdrawn h tag m cause) = false)
    ∧ (∀ h tag m old new, r.subscribes (.markOverrun h tag m old new) = false)
    ∧ (∀ h tag m seq a v, r.subscribes (.unresolved h tag m seq a v) = false)
    ∧ (∀ at_ applied skipped first, r.subscribes (.groupApplied at_ applied skipped first) = false)
    ∧ (∀ cause count b, r.subscribes (.groupDiscarded cause count b) = false)
    ∧ ∀ sender word, r.subscribes (.peer sender word) = false)
  ∧ (∀ (s : State) (a : AxisId) (p : Port),
      p ∈ entryHolders s a ↔ ∃ i : EntryIx, ∃ e ∈ s.table[i].entry, e.owner = p ∧ e.desc.axis = a)
  ∧ ∀ (q : Posting) (rest : List Posting) (s : State), s.posted = q :: rest →
    ∃ t, exec .noticePosting s = .next t ∧ t = { s with posted := rest, ports := t.ports }
    ∧ ∀ p : Port,
      let r := s.ports[p]
      let recipient := p ∈ q.addressed ∨ r.subscribes q.body = true
      (¬recipient → t.ports[p] = r)
      ∧ (recipient → r.state ≠ .attached → t.ports[p] = r)
      ∧ (recipient → r.state = .attached → r.queue.length < 32 →
          t.ports[p] = { r with queue := r.queue ++ [⟨s.uptime, q.body⟩] } ∧ attnAsserted t p = true)
      ∧ (recipient → r.state = .attached → 32 ≤ r.queue.length → t.ports[p] = { r with overrun := true })

/-! ## Encodings -/

/-- Reading the bytes of a frame command gives the command back, and so it does with read-out bytes of 0xFF after the frame
(R142, R143, R166). -/
def Obligations.DecodeEncode : Prop :=
  (∀ (i : Instr) (p : Port) (bytes : List Byte), i.wellFormed = true → encodeFrame i = some (p, bytes) →
    decodeFrame p bytes = i)
  ∧ ∀ (c : Command) (p : Port) (pl : List Byte) (n : Nat), pl.length ≤ 58 → pl.length + 4 + n ≤ 64 →
    decodeFrame p (frameBytes c.code pl ++ List.replicate n 0xFF) = c.instr p pl

/-- A trigger description that passes the field checks spells back the 26 bytes it was read from, so that no bit of an ARM is
dropped, and it keeps the ranges and combinations of R37 and R38; and one that keeps them is read back from its bytes, so that
the field checks refuse nothing else (R36, R37, R38). -/
def Obligations.TriggerDescription : Prop :=
  let ranges := fun d : TriggerDesc =>
    inRange d.place = true ∧ d.mask ≠ 0 ∧ (d.action = .pulse ↔ d.width ≠ 0)
    ∧ (d.repeats ≠ 1 → 1 ≤ d.interval ∧ d.interval ≤ 2147483647) ∧ (d.repeats = 1 → d.interval = 0)
    ∧ (d.axis = 3 → d.approach = .forward) ∧ (d.approach = .either → d.repeats = 1)
    ∧ (d.reference = .absolute → d.mark = 0 ∧ d.markCount = 0) ∧ (d.reference = .markOnce → d.markCount = 0)
    ∧ (d.fireN = 0 → d.skipN = 0)
    ∧ d.markCount < 256 ∧ d.width < 65536 ∧ d.repeats < 65536 ∧ d.fireN < 16 ∧ d.skipN < 16
  (∀ (pl : List Byte) (d : TriggerDesc), pl.length = 26 → parseTrigger pl = some d → d.bytes = pl ∧ ranges d)
  ∧ ∀ d : TriggerDesc, ranges d → parseTrigger d.bytes = some d

/-! ## Invariants -/

/-- A property that every step of the part keeps. -/
def Kept (inv : State → Prop) : Prop := ∀ s t : State, inv s → step s = .next t → inv t

/-- The laws below hold right after reset. -/
def Obligations.LawsHoldAtReset : Prop :=
  AxesOk State.reset ∧ DisabledOk State.reset ∧ HeldOk State.reset ∧ PortsOk State.reset ∧ ResponsesOk State.reset ∧ HoldingsOk State.reset
    ∧ ChannelsOk State.reset ∧ MarksOk State.reset ∧ GroupsOk State.reset ∧ ScheduleOk State.reset ∧ QuotaOk State.reset
    ∧ EntriesOk State.reset ∧ StagedOk State.reset

/-- Every step keeps the axis records in the ranges of R2, R10 and R21, and keeps the law of R14: nothing refers to a
DISABLED axis. That the prescaler phase may equal the prescaler, while its expiry is due, is the model's choice (log 4). And an
AXIS_REBASED waits exactly for each re-base on its way to the MKU, which is the model's reading of R15 (log 25). -/
def Obligations.AxisLawsKept : Prop :=
  Kept AxesOk ∧ Kept DisabledOk ∧ Kept HeldOk

/-- Every step keeps the port records in the ranges of R147, R152 and R156, and the response buffers within 58 bytes,
with no payload under a status other than OK (R144, R167). -/
def Obligations.PortLawsKept : Prop :=
  Kept PortsOk ∧ Kept ResponsesOk

/-- Every step keeps the laws of R41 and R152: only a port that may still hold things holds any, and the entries of an
ATTACHED port name only its own channels. -/
def Obligations.HoldingsKept : Prop := Kept (fun s => PortsOk s ∧ HoldingsOk s)

/-- Every step keeps the law of R126 and R127 between a channel's owner, state and pulse time, and the mark inputs in the
ranges of R79 and R80. -/
def Obligations.ChannelAndMarkLawsKept : Prop :=
  Kept ChannelsOk ∧ Kept MarksOk

/-- Every step keeps the groups, their expiry period and remaining within R105's ranges, and the pending-group list as R105 and R114 give them, and with them the law of R105
between the STAGED entries and the groups that list them. -/
def Obligations.GroupLawsKept : Prop :=
  Kept GroupsOk ∧ Kept (fun s => GroupsOk s ∧ StagedOk s)

/-- Every step keeps the laws of R28, R29, R31 and R51 between the entries, the due lists and the waiting set. -/
def Obligations.ScheduleKept : Prop := Kept ScheduleOk

/-- Every step keeps every port within its quota of 96 entries (R34), and every entry in its ranges: a finite repeat count above
its occurrence index, an interval where it repeats, an owed mark and a final burst only with MARK_EACH, and a current target
in the range (R28, R37, R38, R61, R69, R71, R75). -/
def Obligations.QuotaKept : Prop := Kept QuotaOk ∧ Kept EntriesOk
end

