-- ==== Sys2Proof/Laws/State.lean ====
section
/-! SUPPORT. Reading a row after one record of it was replaced, and each field of State after each update: no later proof
unfolds a record update. -/

namespace Sys2Proof

/-! ## Rows of records -/

theorem getElem_upd {α : Type} {n : Nat} (v : Vector α n) (i : Fin n) (x : α) (j : Nat) (h : j < n) :
    (upd v i x)[j] = if i.val = j then x else v[j] := by
  simp [upd, Vector.getElem_set]

@[simp] theorem getElem_upd_self {α : Type} {n : Nat} (v : Vector α n) (i : Fin n) (x : α) :
    (upd v i x)[i.val] = x := by
  simp [upd]

theorem getElem_upd_ne {α : Type} {n : Nat} (v : Vector α n) {i j : Fin n} (x : α) (h : i ≠ j) :
    (upd v i x)[j.val] = v[j.val] := by
  rw [getElem_upd, if_neg (fun e => h (Fin.ext e))]

@[simp] theorem upd_upd {α : Type} {n : Nat} (v : Vector α n) (i : Fin n) (x y : α) :
    upd (upd v i x) i y = upd v i y := by
  simp [upd]

@[simp] theorem upd_same {α : Type} {n : Nat} (v : Vector α n) (i : Fin n) : upd v i v[i.val] = v := by
  simp [upd]

theorem upd_comm {α : Type} {n : Nat} (v : Vector α n) {i j : Fin n} (x y : α) (h : i ≠ j) :
    upd (upd v i x) j y = upd (upd v j y) i x := by
  ext k hk
  rcases eq_or_ne i.val k with e | e <;> rcases eq_or_ne j.val k with e' | e' <;>
    simp_all [getElem_upd, Fin.ext_iff]

theorem forall_upd {α : Type} {n : Nat} {P : Fin n → α → Prop} (v : Vector α n) (i : Fin n) (x : α)
    (hx : P i x) (hv : ∀ j : Fin n, j ≠ i → P j v[j.val]) (j : Fin n) : P j (upd v i x)[j.val] := by
  rcases eq_or_ne j i with e | e
  · subst e; simpa using hx
  · rw [getElem_upd_ne _ _ (Ne.symm e)]; exact hv j e

end Sys2Proof

namespace Sys2Proof.Machine

/-! ## setAxis -/

@[simp] theorem State.setAxis_pending (s : State) (a : AxisId) (r : AxisRec) : (s.setAxis a r).pending = s.pending := rfl
@[simp] theorem State.setAxis_serial (s : State) (a : AxisId) (r : AxisRec) : (s.setAxis a r).serial = s.serial := rfl
@[simp] theorem State.setAxis_inReset (s : State) (a : AxisId) (r : AxisRec) : (s.setAxis a r).inReset = s.inReset := rfl
@[simp] theorem State.setAxis_pins (s : State) (a : AxisId) (r : AxisRec) : (s.setAxis a r).pins = s.pins := rfl
@[simp] theorem State.setAxis_uptime (s : State) (a : AxisId) (r : AxisRec) : (s.setAxis a r).uptime = s.uptime := rfl
@[simp] theorem State.setAxis_axes (s : State) (a : AxisId) (r : AxisRec) : (s.setAxis a r).axes = upd s.axes a r := rfl
@[simp] theorem State.setAxis_encs (s : State) (a : AxisId) (r : AxisRec) : (s.setAxis a r).encs = s.encs := rfl
@[simp] theorem State.setAxis_time (s : State) (a : AxisId) (r : AxisRec) : (s.setAxis a r).time = s.time := rfl
@[simp] theorem State.setAxis_preset (s : State) (a : AxisId) (r : AxisRec) : (s.setAxis a r).preset = s.preset := rfl
@[simp] theorem State.setAxis_epochLevel (s : State) (a : AxisId) (r : AxisRec) : (s.setAxis a r).epochLevel = s.epochLevel := rfl
@[simp] theorem State.setAxis_marks (s : State) (a : AxisId) (r : AxisRec) : (s.setAxis a r).marks = s.marks := rfl
@[simp] theorem State.setAxis_table (s : State) (a : AxisId) (r : AxisRec) : (s.setAxis a r).table = s.table := rfl
@[simp] theorem State.setAxis_due (s : State) (a : AxisId) (r : AxisRec) : (s.setAxis a r).due = s.due := rfl
@[simp] theorem State.setAxis_waiting (s : State) (a : AxisId) (r : AxisRec) : (s.setAxis a r).waiting = s.waiting := rfl
@[simp] theorem State.setAxis_groups (s : State) (a : AxisId) (r : AxisRec) : (s.setAxis a r).groups = s.groups := rfl
@[simp] theorem State.setAxis_pendingGroups (s : State) (a : AxisId) (r : AxisRec) : (s.setAxis a r).pendingGroups = s.pendingGroups := rfl
@[simp] theorem State.setAxis_chans (s : State) (a : AxisId) (r : AxisRec) : (s.setAxis a r).chans = s.chans := rfl
@[simp] theorem State.setAxis_ports (s : State) (a : AxisId) (r : AxisRec) : (s.setAxis a r).ports = s.ports := rfl
@[simp] theorem State.setAxis_toScu (s : State) (a : AxisId) (r : AxisRec) : (s.setAxis a r).toScu = s.toScu := rfl
@[simp] theorem State.setAxis_toMku (s : State) (a : AxisId) (r : AxisRec) : (s.setAxis a r).toMku = s.toMku := rfl
@[simp] theorem State.setAxis_heldNotices (s : State) (a : AxisId) (r : AxisRec) : (s.setAxis a r).heldNotices = s.heldNotices := rfl
@[simp] theorem State.setAxis_mkuToScu (s : State) (a : AxisId) (r : AxisRec) : (s.setAxis a r).mkuToScu = s.mkuToScu := rfl
@[simp] theorem State.setAxis_toOtu (s : State) (a : AxisId) (r : AxisRec) : (s.setAxis a r).toOtu = s.toOtu := rfl
@[simp] theorem State.setAxis_posted (s : State) (a : AxisId) (r : AxisRec) : (s.setAxis a r).posted = s.posted := rfl

/-! ## setEnc -/

@[simp] theorem State.setEnc_pending (s : State) (x : EncId) (r : EncRec) : (s.setEnc x r).pending = s.pending := rfl
@[simp] theorem State.setEnc_serial (s : State) (x : EncId) (r : EncRec) : (s.setEnc x r).serial = s.serial := rfl
@[simp] theorem State.setEnc_inReset (s : State) (x : EncId) (r : EncRec) : (s.setEnc x r).inReset = s.inReset := rfl
@[simp] theorem State.setEnc_pins (s : State) (x : EncId) (r : EncRec) : (s.setEnc x r).pins = s.pins := rfl
@[simp] theorem State.setEnc_uptime (s : State) (x : EncId) (r : EncRec) : (s.setEnc x r).uptime = s.uptime := rfl
@[simp] theorem State.setEnc_axes (s : State) (x : EncId) (r : EncRec) : (s.setEnc x r).axes = s.axes := rfl
@[simp] theorem State.setEnc_encs (s : State) (x : EncId) (r : EncRec) : (s.setEnc x r).encs = upd s.encs x r := rfl
@[simp] theorem State.setEnc_time (s : State) (x : EncId) (r : EncRec) : (s.setEnc x r).time = s.time := rfl
@[simp] theorem State.setEnc_preset (s : State) (x : EncId) (r : EncRec) : (s.setEnc x r).preset = s.preset := rfl
@[simp] theorem State.setEnc_epochLevel (s : State) (x : EncId) (r : EncRec) : (s.setEnc x r).epochLevel = s.epochLevel := rfl
@[simp] theorem State.setEnc_marks (s : State) (x : EncId) (r : EncRec) : (s.setEnc x r).marks = s.marks := rfl
@[simp] theorem State.setEnc_table (s : State) (x : EncId) (r : EncRec) : (s.setEnc x r).table = s.table := rfl
@[simp] theorem State.setEnc_due (s : State) (x : EncId) (r : EncRec) : (s.setEnc x r).due = s.due := rfl
@[simp] theorem State.setEnc_waiting (s : State) (x : EncId) (r : EncRec) : (s.setEnc x r).waiting = s.waiting := rfl
@[simp] theorem State.setEnc_groups (s : State) (x : EncId) (r : EncRec) : (s.setEnc x r).groups = s.groups := rfl
@[simp] theorem State.setEnc_pendingGroups (s : State) (x : EncId) (r : EncRec) : (s.setEnc x r).pendingGroups = s.pendingGroups := rfl
@[simp] theorem State.setEnc_chans (s : State) (x : EncId) (r : EncRec) : (s.setEnc x r).chans = s.chans := rfl
@[simp] theorem State.setEnc_ports (s : State) (x : EncId) (r : EncRec) : (s.setEnc x r).ports = s.ports := rfl
@[simp] theorem State.setEnc_toScu (s : State) (x : EncId) (r : EncRec) : (s.setEnc x r).toScu = s.toScu := rfl
@[simp] theorem State.setEnc_toMku (s : State) (x : EncId) (r : EncRec) : (s.setEnc x r).toMku = s.toMku := rfl
@[simp] theorem State.setEnc_heldNotices (s : State) (x : EncId) (r : EncRec) : (s.setEnc x r).heldNotices = s.heldNotices := rfl
@[simp] theorem State.setEnc_mkuToScu (s : State) (x : EncId) (r : EncRec) : (s.setEnc x r).mkuToScu = s.mkuToScu := rfl
@[simp] theorem State.setEnc_toOtu (s : State) (x : EncId) (r : EncRec) : (s.setEnc x r).toOtu = s.toOtu := rfl
@[simp] theorem State.setEnc_posted (s : State) (x : EncId) (r : EncRec) : (s.setEnc x r).posted = s.posted := rfl

/-! ## setMark -/

@[simp] theorem State.setMark_pending (s : State) (m : MarkId) (r : MarkRec) : (s.setMark m r).pending = s.pending := rfl
@[simp] theorem State.setMark_serial (s : State) (m : MarkId) (r : MarkRec) : (s.setMark m r).serial = s.serial := rfl
@[simp] theorem State.setMark_inReset (s : State) (m : MarkId) (r : MarkRec) : (s.setMark m r).inReset = s.inReset := rfl
@[simp] theorem State.setMark_pins (s : State) (m : MarkId) (r : MarkRec) : (s.setMark m r).pins = s.pins := rfl
@[simp] theorem State.setMark_uptime (s : State) (m : MarkId) (r : MarkRec) : (s.setMark m r).uptime = s.uptime := rfl
@[simp] theorem State.setMark_axes (s : State) (m : MarkId) (r : MarkRec) : (s.setMark m r).axes = s.axes := rfl
@[simp] theorem State.setMark_encs (s : State) (m : MarkId) (r : MarkRec) : (s.setMark m r).encs = s.encs := rfl
@[simp] theorem State.setMark_time (s : State) (m : MarkId) (r : MarkRec) : (s.setMark m r).time = s.time := rfl
@[simp] theorem State.setMark_preset (s : State) (m : MarkId) (r : MarkRec) : (s.setMark m r).preset = s.preset := rfl
@[simp] theorem State.setMark_epochLevel (s : State) (m : MarkId) (r : MarkRec) : (s.setMark m r).epochLevel = s.epochLevel := rfl
@[simp] theorem State.setMark_marks (s : State) (m : MarkId) (r : MarkRec) : (s.setMark m r).marks = upd s.marks m r := rfl
@[simp] theorem State.setMark_table (s : State) (m : MarkId) (r : MarkRec) : (s.setMark m r).table = s.table := rfl
@[simp] theorem State.setMark_due (s : State) (m : MarkId) (r : MarkRec) : (s.setMark m r).due = s.due := rfl
@[simp] theorem State.setMark_waiting (s : State) (m : MarkId) (r : MarkRec) : (s.setMark m r).waiting = s.waiting := rfl
@[simp] theorem State.setMark_groups (s : State) (m : MarkId) (r : MarkRec) : (s.setMark m r).groups = s.groups := rfl
@[simp] theorem State.setMark_pendingGroups (s : State) (m : MarkId) (r : MarkRec) : (s.setMark m r).pendingGroups = s.pendingGroups := rfl
@[simp] theorem State.setMark_chans (s : State) (m : MarkId) (r : MarkRec) : (s.setMark m r).chans = s.chans := rfl
@[simp] theorem State.setMark_ports (s : State) (m : MarkId) (r : MarkRec) : (s.setMark m r).ports = s.ports := rfl
@[simp] theorem State.setMark_toScu (s : State) (m : MarkId) (r : MarkRec) : (s.setMark m r).toScu = s.toScu := rfl
@[simp] theorem State.setMark_toMku (s : State) (m : MarkId) (r : MarkRec) : (s.setMark m r).toMku = s.toMku := rfl
@[simp] theorem State.setMark_heldNotices (s : State) (m : MarkId) (r : MarkRec) : (s.setMark m r).heldNotices = s.heldNotices := rfl
@[simp] theorem State.setMark_mkuToScu (s : State) (m : MarkId) (r : MarkRec) : (s.setMark m r).mkuToScu = s.mkuToScu := rfl
@[simp] theorem State.setMark_toOtu (s : State) (m : MarkId) (r : MarkRec) : (s.setMark m r).toOtu = s.toOtu := rfl
@[simp] theorem State.setMark_posted (s : State) (m : MarkId) (r : MarkRec) : (s.setMark m r).posted = s.posted := rfl

/-! ## setSlot -/

@[simp] theorem State.setSlot_pending (s : State) (i : EntryIx) (r : Slot) : (s.setSlot i r).pending = s.pending := rfl
@[simp] theorem State.setSlot_serial (s : State) (i : EntryIx) (r : Slot) : (s.setSlot i r).serial = s.serial := rfl
@[simp] theorem State.setSlot_inReset (s : State) (i : EntryIx) (r : Slot) : (s.setSlot i r).inReset = s.inReset := rfl
@[simp] theorem State.setSlot_pins (s : State) (i : EntryIx) (r : Slot) : (s.setSlot i r).pins = s.pins := rfl
@[simp] theorem State.setSlot_uptime (s : State) (i : EntryIx) (r : Slot) : (s.setSlot i r).uptime = s.uptime := rfl
@[simp] theorem State.setSlot_axes (s : State) (i : EntryIx) (r : Slot) : (s.setSlot i r).axes = s.axes := rfl
@[simp] theorem State.setSlot_encs (s : State) (i : EntryIx) (r : Slot) : (s.setSlot i r).encs = s.encs := rfl
@[simp] theorem State.setSlot_time (s : State) (i : EntryIx) (r : Slot) : (s.setSlot i r).time = s.time := rfl
@[simp] theorem State.setSlot_preset (s : State) (i : EntryIx) (r : Slot) : (s.setSlot i r).preset = s.preset := rfl
@[simp] theorem State.setSlot_epochLevel (s : State) (i : EntryIx) (r : Slot) : (s.setSlot i r).epochLevel = s.epochLevel := rfl
@[simp] theorem State.setSlot_marks (s : State) (i : EntryIx) (r : Slot) : (s.setSlot i r).marks = s.marks := rfl
@[simp] theorem State.setSlot_table (s : State) (i : EntryIx) (r : Slot) : (s.setSlot i r).table = upd s.table i r := rfl
@[simp] theorem State.setSlot_due (s : State) (i : EntryIx) (r : Slot) : (s.setSlot i r).due = s.due := rfl
@[simp] theorem State.setSlot_waiting (s : State) (i : EntryIx) (r : Slot) : (s.setSlot i r).waiting = s.waiting := rfl
@[simp] theorem State.setSlot_groups (s : State) (i : EntryIx) (r : Slot) : (s.setSlot i r).groups = s.groups := rfl
@[simp] theorem State.setSlot_pendingGroups (s : State) (i : EntryIx) (r : Slot) : (s.setSlot i r).pendingGroups = s.pendingGroups := rfl
@[simp] theorem State.setSlot_chans (s : State) (i : EntryIx) (r : Slot) : (s.setSlot i r).chans = s.chans := rfl
@[simp] theorem State.setSlot_ports (s : State) (i : EntryIx) (r : Slot) : (s.setSlot i r).ports = s.ports := rfl
@[simp] theorem State.setSlot_toScu (s : State) (i : EntryIx) (r : Slot) : (s.setSlot i r).toScu = s.toScu := rfl
@[simp] theorem State.setSlot_toMku (s : State) (i : EntryIx) (r : Slot) : (s.setSlot i r).toMku = s.toMku := rfl
@[simp] theorem State.setSlot_heldNotices (s : State) (i : EntryIx) (r : Slot) : (s.setSlot i r).heldNotices = s.heldNotices := rfl
@[simp] theorem State.setSlot_mkuToScu (s : State) (i : EntryIx) (r : Slot) : (s.setSlot i r).mkuToScu = s.mkuToScu := rfl
@[simp] theorem State.setSlot_toOtu (s : State) (i : EntryIx) (r : Slot) : (s.setSlot i r).toOtu = s.toOtu := rfl
@[simp] theorem State.setSlot_posted (s : State) (i : EntryIx) (r : Slot) : (s.setSlot i r).posted = s.posted := rfl

/-! ## setDue -/

@[simp] theorem State.setDue_pending (s : State) (a : AxisId) (r : List EntryIx) : (s.setDue a r).pending = s.pending := rfl
@[simp] theorem State.setDue_serial (s : State) (a : AxisId) (r : List EntryIx) : (s.setDue a r).serial = s.serial := rfl
@[simp] theorem State.setDue_inReset (s : State) (a : AxisId) (r : List EntryIx) : (s.setDue a r).inReset = s.inReset := rfl
@[simp] theorem State.setDue_pins (s : State) (a : AxisId) (r : List EntryIx) : (s.setDue a r).pins = s.pins := rfl
@[simp] theorem State.setDue_uptime (s : State) (a : AxisId) (r : List EntryIx) : (s.setDue a r).uptime = s.uptime := rfl
@[simp] theorem State.setDue_axes (s : State) (a : AxisId) (r : List EntryIx) : (s.setDue a r).axes = s.axes := rfl
@[simp] theorem State.setDue_encs (s : State) (a : AxisId) (r : List EntryIx) : (s.setDue a r).encs = s.encs := rfl
@[simp] theorem State.setDue_time (s : State) (a : AxisId) (r : List EntryIx) : (s.setDue a r).time = s.time := rfl
@[simp] theorem State.setDue_preset (s : State) (a : AxisId) (r : List EntryIx) : (s.setDue a r).preset = s.preset := rfl
@[simp] theorem State.setDue_epochLevel (s : State) (a : AxisId) (r : List EntryIx) : (s.setDue a r).epochLevel = s.epochLevel := rfl
@[simp] theorem State.setDue_marks (s : State) (a : AxisId) (r : List EntryIx) : (s.setDue a r).marks = s.marks := rfl
@[simp] theorem State.setDue_table (s : State) (a : AxisId) (r : List EntryIx) : (s.setDue a r).table = s.table := rfl
@[simp] theorem State.setDue_due (s : State) (a : AxisId) (r : List EntryIx) : (s.setDue a r).due = upd s.due a r := rfl
@[simp] theorem State.setDue_waiting (s : State) (a : AxisId) (r : List EntryIx) : (s.setDue a r).waiting = s.waiting := rfl
@[simp] theorem State.setDue_groups (s : State) (a : AxisId) (r : List EntryIx) : (s.setDue a r).groups = s.groups := rfl
@[simp] theorem State.setDue_pendingGroups (s : State) (a : AxisId) (r : List EntryIx) : (s.setDue a r).pendingGroups = s.pendingGroups := rfl
@[simp] theorem State.setDue_chans (s : State) (a : AxisId) (r : List EntryIx) : (s.setDue a r).chans = s.chans := rfl
@[simp] theorem State.setDue_ports (s : State) (a : AxisId) (r : List EntryIx) : (s.setDue a r).ports = s.ports := rfl
@[simp] theorem State.setDue_toScu (s : State) (a : AxisId) (r : List EntryIx) : (s.setDue a r).toScu = s.toScu := rfl
@[simp] theorem State.setDue_toMku (s : State) (a : AxisId) (r : List EntryIx) : (s.setDue a r).toMku = s.toMku := rfl
@[simp] theorem State.setDue_heldNotices (s : State) (a : AxisId) (r : List EntryIx) : (s.setDue a r).heldNotices = s.heldNotices := rfl
@[simp] theorem State.setDue_mkuToScu (s : State) (a : AxisId) (r : List EntryIx) : (s.setDue a r).mkuToScu = s.mkuToScu := rfl
@[simp] theorem State.setDue_toOtu (s : State) (a : AxisId) (r : List EntryIx) : (s.setDue a r).toOtu = s.toOtu := rfl
@[simp] theorem State.setDue_posted (s : State) (a : AxisId) (r : List EntryIx) : (s.setDue a r).posted = s.posted := rfl

/-! ## setGroup -/

@[simp] theorem State.setGroup_pending (s : State) (p : Port) (r : GroupRec) : (s.setGroup p r).pending = s.pending := rfl
@[simp] theorem State.setGroup_serial (s : State) (p : Port) (r : GroupRec) : (s.setGroup p r).serial = s.serial := rfl
@[simp] theorem State.setGroup_inReset (s : State) (p : Port) (r : GroupRec) : (s.setGroup p r).inReset = s.inReset := rfl
@[simp] theorem State.setGroup_pins (s : State) (p : Port) (r : GroupRec) : (s.setGroup p r).pins = s.pins := rfl
@[simp] theorem State.setGroup_uptime (s : State) (p : Port) (r : GroupRec) : (s.setGroup p r).uptime = s.uptime := rfl
@[simp] theorem State.setGroup_axes (s : State) (p : Port) (r : GroupRec) : (s.setGroup p r).axes = s.axes := rfl
@[simp] theorem State.setGroup_encs (s : State) (p : Port) (r : GroupRec) : (s.setGroup p r).encs = s.encs := rfl
@[simp] theorem State.setGroup_time (s : State) (p : Port) (r : GroupRec) : (s.setGroup p r).time = s.time := rfl
@[simp] theorem State.setGroup_preset (s : State) (p : Port) (r : GroupRec) : (s.setGroup p r).preset = s.preset := rfl
@[simp] theorem State.setGroup_epochLevel (s : State) (p : Port) (r : GroupRec) : (s.setGroup p r).epochLevel = s.epochLevel := rfl
@[simp] theorem State.setGroup_marks (s : State) (p : Port) (r : GroupRec) : (s.setGroup p r).marks = s.marks := rfl
@[simp] theorem State.setGroup_table (s : State) (p : Port) (r : GroupRec) : (s.setGroup p r).table = s.table := rfl
@[simp] theorem State.setGroup_due (s : State) (p : Port) (r : GroupRec) : (s.setGroup p r).due = s.due := rfl
@[simp] theorem State.setGroup_waiting (s : State) (p : Port) (r : GroupRec) : (s.setGroup p r).waiting = s.waiting := rfl
@[simp] theorem State.setGroup_groups (s : State) (p : Port) (r : GroupRec) : (s.setGroup p r).groups = upd s.groups p r := rfl
@[simp] theorem State.setGroup_pendingGroups (s : State) (p : Port) (r : GroupRec) : (s.setGroup p r).pendingGroups = s.pendingGroups := rfl
@[simp] theorem State.setGroup_chans (s : State) (p : Port) (r : GroupRec) : (s.setGroup p r).chans = s.chans := rfl
@[simp] theorem State.setGroup_ports (s : State) (p : Port) (r : GroupRec) : (s.setGroup p r).ports = s.ports := rfl
@[simp] theorem State.setGroup_toScu (s : State) (p : Port) (r : GroupRec) : (s.setGroup p r).toScu = s.toScu := rfl
@[simp] theorem State.setGroup_toMku (s : State) (p : Port) (r : GroupRec) : (s.setGroup p r).toMku = s.toMku := rfl
@[simp] theorem State.setGroup_heldNotices (s : State) (p : Port) (r : GroupRec) : (s.setGroup p r).heldNotices = s.heldNotices := rfl
@[simp] theorem State.setGroup_mkuToScu (s : State) (p : Port) (r : GroupRec) : (s.setGroup p r).mkuToScu = s.mkuToScu := rfl
@[simp] theorem State.setGroup_toOtu (s : State) (p : Port) (r : GroupRec) : (s.setGroup p r).toOtu = s.toOtu := rfl
@[simp] theorem State.setGroup_posted (s : State) (p : Port) (r : GroupRec) : (s.setGroup p r).posted = s.posted := rfl

/-! ## setChan -/

@[simp] theorem State.setChan_pending (s : State) (c : ChanId) (r : ChanRec) : (s.setChan c r).pending = s.pending := rfl
@[simp] theorem State.setChan_serial (s : State) (c : ChanId) (r : ChanRec) : (s.setChan c r).serial = s.serial := rfl
@[simp] theorem State.setChan_inReset (s : State) (c : ChanId) (r : ChanRec) : (s.setChan c r).inReset = s.inReset := rfl
@[simp] theorem State.setChan_pins (s : State) (c : ChanId) (r : ChanRec) : (s.setChan c r).pins = s.pins := rfl
@[simp] theorem State.setChan_uptime (s : State) (c : ChanId) (r : ChanRec) : (s.setChan c r).uptime = s.uptime := rfl
@[simp] theorem State.setChan_axes (s : State) (c : ChanId) (r : ChanRec) : (s.setChan c r).axes = s.axes := rfl
@[simp] theorem State.setChan_encs (s : State) (c : ChanId) (r : ChanRec) : (s.setChan c r).encs = s.encs := rfl
@[simp] theorem State.setChan_time (s : State) (c : ChanId) (r : ChanRec) : (s.setChan c r).time = s.time := rfl
@[simp] theorem State.setChan_preset (s : State) (c : ChanId) (r : ChanRec) : (s.setChan c r).preset = s.preset := rfl
@[simp] theorem State.setChan_epochLevel (s : State) (c : ChanId) (r : ChanRec) : (s.setChan c r).epochLevel = s.epochLevel := rfl
@[simp] theorem State.setChan_marks (s : State) (c : ChanId) (r : ChanRec) : (s.setChan c r).marks = s.marks := rfl
@[simp] theorem State.setChan_table (s : State) (c : ChanId) (r : ChanRec) : (s.setChan c r).table = s.table := rfl
@[simp] theorem State.setChan_due (s : State) (c : ChanId) (r : ChanRec) : (s.setChan c r).due = s.due := rfl
@[simp] theorem State.setChan_waiting (s : State) (c : ChanId) (r : ChanRec) : (s.setChan c r).waiting = s.waiting := rfl
@[simp] theorem State.setChan_groups (s : State) (c : ChanId) (r : ChanRec) : (s.setChan c r).groups = s.groups := rfl
@[simp] theorem State.setChan_pendingGroups (s : State) (c : ChanId) (r : ChanRec) : (s.setChan c r).pendingGroups = s.pendingGroups := rfl
@[simp] theorem State.setChan_chans (s : State) (c : ChanId) (r : ChanRec) : (s.setChan c r).chans = upd s.chans c r := rfl
@[simp] theorem State.setChan_ports (s : State) (c : ChanId) (r : ChanRec) : (s.setChan c r).ports = s.ports := rfl
@[simp] theorem State.setChan_toScu (s : State) (c : ChanId) (r : ChanRec) : (s.setChan c r).toScu = s.toScu := rfl
@[simp] theorem State.setChan_toMku (s : State) (c : ChanId) (r : ChanRec) : (s.setChan c r).toMku = s.toMku := rfl
@[simp] theorem State.setChan_heldNotices (s : State) (c : ChanId) (r : ChanRec) : (s.setChan c r).heldNotices = s.heldNotices := rfl
@[simp] theorem State.setChan_mkuToScu (s : State) (c : ChanId) (r : ChanRec) : (s.setChan c r).mkuToScu = s.mkuToScu := rfl
@[simp] theorem State.setChan_toOtu (s : State) (c : ChanId) (r : ChanRec) : (s.setChan c r).toOtu = s.toOtu := rfl
@[simp] theorem State.setChan_posted (s : State) (c : ChanId) (r : ChanRec) : (s.setChan c r).posted = s.posted := rfl

/-! ## setPort -/

@[simp] theorem State.setPort_pending (s : State) (p : Port) (r : PortRec) : (s.setPort p r).pending = s.pending := rfl
@[simp] theorem State.setPort_serial (s : State) (p : Port) (r : PortRec) : (s.setPort p r).serial = s.serial := rfl
@[simp] theorem State.setPort_inReset (s : State) (p : Port) (r : PortRec) : (s.setPort p r).inReset = s.inReset := rfl
@[simp] theorem State.setPort_pins (s : State) (p : Port) (r : PortRec) : (s.setPort p r).pins = s.pins := rfl
@[simp] theorem State.setPort_uptime (s : State) (p : Port) (r : PortRec) : (s.setPort p r).uptime = s.uptime := rfl
@[simp] theorem State.setPort_axes (s : State) (p : Port) (r : PortRec) : (s.setPort p r).axes = s.axes := rfl
@[simp] theorem State.setPort_encs (s : State) (p : Port) (r : PortRec) : (s.setPort p r).encs = s.encs := rfl
@[simp] theorem State.setPort_time (s : State) (p : Port) (r : PortRec) : (s.setPort p r).time = s.time := rfl
@[simp] theorem State.setPort_preset (s : State) (p : Port) (r : PortRec) : (s.setPort p r).preset = s.preset := rfl
@[simp] theorem State.setPort_epochLevel (s : State) (p : Port) (r : PortRec) : (s.setPort p r).epochLevel = s.epochLevel := rfl
@[simp] theorem State.setPort_marks (s : State) (p : Port) (r : PortRec) : (s.setPort p r).marks = s.marks := rfl
@[simp] theorem State.setPort_table (s : State) (p : Port) (r : PortRec) : (s.setPort p r).table = s.table := rfl
@[simp] theorem State.setPort_due (s : State) (p : Port) (r : PortRec) : (s.setPort p r).due = s.due := rfl
@[simp] theorem State.setPort_waiting (s : State) (p : Port) (r : PortRec) : (s.setPort p r).waiting = s.waiting := rfl
@[simp] theorem State.setPort_groups (s : State) (p : Port) (r : PortRec) : (s.setPort p r).groups = s.groups := rfl
@[simp] theorem State.setPort_pendingGroups (s : State) (p : Port) (r : PortRec) : (s.setPort p r).pendingGroups = s.pendingGroups := rfl
@[simp] theorem State.setPort_chans (s : State) (p : Port) (r : PortRec) : (s.setPort p r).chans = s.chans := rfl
@[simp] theorem State.setPort_ports (s : State) (p : Port) (r : PortRec) : (s.setPort p r).ports = upd s.ports p r := rfl
@[simp] theorem State.setPort_toScu (s : State) (p : Port) (r : PortRec) : (s.setPort p r).toScu = s.toScu := rfl
@[simp] theorem State.setPort_toMku (s : State) (p : Port) (r : PortRec) : (s.setPort p r).toMku = s.toMku := rfl
@[simp] theorem State.setPort_heldNotices (s : State) (p : Port) (r : PortRec) : (s.setPort p r).heldNotices = s.heldNotices := rfl
@[simp] theorem State.setPort_mkuToScu (s : State) (p : Port) (r : PortRec) : (s.setPort p r).mkuToScu = s.mkuToScu := rfl
@[simp] theorem State.setPort_toOtu (s : State) (p : Port) (r : PortRec) : (s.setPort p r).toOtu = s.toOtu := rfl
@[simp] theorem State.setPort_posted (s : State) (p : Port) (r : PortRec) : (s.setPort p r).posted = s.posted := rfl

/-! ## setToScu -/

@[simp] theorem State.setToScu_pending (s : State) (a : AxisId) (r : List StepMsg) : (s.setToScu a r).pending = s.pending := rfl
@[simp] theorem State.setToScu_serial (s : State) (a : AxisId) (r : List StepMsg) : (s.setToScu a r).serial = s.serial := rfl
@[simp] theorem State.setToScu_inReset (s : State) (a : AxisId) (r : List StepMsg) : (s.setToScu a r).inReset = s.inReset := rfl
@[simp] theorem State.setToScu_pins (s : State) (a : AxisId) (r : List StepMsg) : (s.setToScu a r).pins = s.pins := rfl
@[simp] theorem State.setToScu_uptime (s : State) (a : AxisId) (r : List StepMsg) : (s.setToScu a r).uptime = s.uptime := rfl
@[simp] theorem State.setToScu_axes (s : State) (a : AxisId) (r : List StepMsg) : (s.setToScu a r).axes = s.axes := rfl
@[simp] theorem State.setToScu_encs (s : State) (a : AxisId) (r : List StepMsg) : (s.setToScu a r).encs = s.encs := rfl
@[simp] theorem State.setToScu_time (s : State) (a : AxisId) (r : List StepMsg) : (s.setToScu a r).time = s.time := rfl
@[simp] theorem State.setToScu_preset (s : State) (a : AxisId) (r : List StepMsg) : (s.setToScu a r).preset = s.preset := rfl
@[simp] theorem State.setToScu_epochLevel (s : State) (a : AxisId) (r : List StepMsg) : (s.setToScu a r).epochLevel = s.epochLevel := rfl
@[simp] theorem State.setToScu_marks (s : State) (a : AxisId) (r : List StepMsg) : (s.setToScu a r).marks = s.marks := rfl
@[simp] theorem State.setToScu_table (s : State) (a : AxisId) (r : List StepMsg) : (s.setToScu a r).table = s.table := rfl
@[simp] theorem State.setToScu_due (s : State) (a : AxisId) (r : List StepMsg) : (s.setToScu a r).due = s.due := rfl
@[simp] theorem State.setToScu_waiting (s : State) (a : AxisId) (r : List StepMsg) : (s.setToScu a r).waiting = s.waiting := rfl
@[simp] theorem State.setToScu_groups (s : State) (a : AxisId) (r : List StepMsg) : (s.setToScu a r).groups = s.groups := rfl
@[simp] theorem State.setToScu_pendingGroups (s : State) (a : AxisId) (r : List StepMsg) : (s.setToScu a r).pendingGroups = s.pendingGroups := rfl
@[simp] theorem State.setToScu_chans (s : State) (a : AxisId) (r : List StepMsg) : (s.setToScu a r).chans = s.chans := rfl
@[simp] theorem State.setToScu_ports (s : State) (a : AxisId) (r : List StepMsg) : (s.setToScu a r).ports = s.ports := rfl
@[simp] theorem State.setToScu_toScu (s : State) (a : AxisId) (r : List StepMsg) : (s.setToScu a r).toScu = upd s.toScu a r := rfl
@[simp] theorem State.setToScu_toMku (s : State) (a : AxisId) (r : List StepMsg) : (s.setToScu a r).toMku = s.toMku := rfl
@[simp] theorem State.setToScu_heldNotices (s : State) (a : AxisId) (r : List StepMsg) : (s.setToScu a r).heldNotices = s.heldNotices := rfl
@[simp] theorem State.setToScu_mkuToScu (s : State) (a : AxisId) (r : List StepMsg) : (s.setToScu a r).mkuToScu = s.mkuToScu := rfl
@[simp] theorem State.setToScu_toOtu (s : State) (a : AxisId) (r : List StepMsg) : (s.setToScu a r).toOtu = s.toOtu := rfl
@[simp] theorem State.setToScu_posted (s : State) (a : AxisId) (r : List StepMsg) : (s.setToScu a r).posted = s.posted := rfl

/-! ## setToMku -/

@[simp] theorem State.setToMku_pending (s : State) (a : AxisId) (r : List AxuEvent) : (s.setToMku a r).pending = s.pending := rfl
@[simp] theorem State.setToMku_serial (s : State) (a : AxisId) (r : List AxuEvent) : (s.setToMku a r).serial = s.serial := rfl
@[simp] theorem State.setToMku_inReset (s : State) (a : AxisId) (r : List AxuEvent) : (s.setToMku a r).inReset = s.inReset := rfl
@[simp] theorem State.setToMku_pins (s : State) (a : AxisId) (r : List AxuEvent) : (s.setToMku a r).pins = s.pins := rfl
@[simp] theorem State.setToMku_uptime (s : State) (a : AxisId) (r : List AxuEvent) : (s.setToMku a r).uptime = s.uptime := rfl
@[simp] theorem State.setToMku_axes (s : State) (a : AxisId) (r : List AxuEvent) : (s.setToMku a r).axes = s.axes := rfl
@[simp] theorem State.setToMku_encs (s : State) (a : AxisId) (r : List AxuEvent) : (s.setToMku a r).encs = s.encs := rfl
@[simp] theorem State.setToMku_time (s : State) (a : AxisId) (r : List AxuEvent) : (s.setToMku a r).time = s.time := rfl
@[simp] theorem State.setToMku_preset (s : State) (a : AxisId) (r : List AxuEvent) : (s.setToMku a r).preset = s.preset := rfl
@[simp] theorem State.setToMku_epochLevel (s : State) (a : AxisId) (r : List AxuEvent) : (s.setToMku a r).epochLevel = s.epochLevel := rfl
@[simp] theorem State.setToMku_marks (s : State) (a : AxisId) (r : List AxuEvent) : (s.setToMku a r).marks = s.marks := rfl
@[simp] theorem State.setToMku_table (s : State) (a : AxisId) (r : List AxuEvent) : (s.setToMku a r).table = s.table := rfl
@[simp] theorem State.setToMku_due (s : State) (a : AxisId) (r : List AxuEvent) : (s.setToMku a r).due = s.due := rfl
@[simp] theorem State.setToMku_waiting (s : State) (a : AxisId) (r : List AxuEvent) : (s.setToMku a r).waiting = s.waiting := rfl
@[simp] theorem State.setToMku_groups (s : State) (a : AxisId) (r : List AxuEvent) : (s.setToMku a r).groups = s.groups := rfl
@[simp] theorem State.setToMku_pendingGroups (s : State) (a : AxisId) (r : List AxuEvent) : (s.setToMku a r).pendingGroups = s.pendingGroups := rfl
@[simp] theorem State.setToMku_chans (s : State) (a : AxisId) (r : List AxuEvent) : (s.setToMku a r).chans = s.chans := rfl
@[simp] theorem State.setToMku_ports (s : State) (a : AxisId) (r : List AxuEvent) : (s.setToMku a r).ports = s.ports := rfl
@[simp] theorem State.setToMku_toScu (s : State) (a : AxisId) (r : List AxuEvent) : (s.setToMku a r).toScu = s.toScu := rfl
@[simp] theorem State.setToMku_toMku (s : State) (a : AxisId) (r : List AxuEvent) : (s.setToMku a r).toMku = upd s.toMku a r := rfl
@[simp] theorem State.setToMku_heldNotices (s : State) (a : AxisId) (r : List AxuEvent) : (s.setToMku a r).heldNotices = s.heldNotices := rfl
@[simp] theorem State.setToMku_mkuToScu (s : State) (a : AxisId) (r : List AxuEvent) : (s.setToMku a r).mkuToScu = s.mkuToScu := rfl
@[simp] theorem State.setToMku_toOtu (s : State) (a : AxisId) (r : List AxuEvent) : (s.setToMku a r).toOtu = s.toOtu := rfl
@[simp] theorem State.setToMku_posted (s : State) (a : AxisId) (r : List AxuEvent) : (s.setToMku a r).posted = s.posted := rfl

/-! ## setHeld -/

@[simp] theorem State.setHeld_pending (s : State) (a : AxisId) (r : List Posting) : (s.setHeld a r).pending = s.pending := rfl
@[simp] theorem State.setHeld_serial (s : State) (a : AxisId) (r : List Posting) : (s.setHeld a r).serial = s.serial := rfl
@[simp] theorem State.setHeld_inReset (s : State) (a : AxisId) (r : List Posting) : (s.setHeld a r).inReset = s.inReset := rfl
@[simp] theorem State.setHeld_pins (s : State) (a : AxisId) (r : List Posting) : (s.setHeld a r).pins = s.pins := rfl
@[simp] theorem State.setHeld_uptime (s : State) (a : AxisId) (r : List Posting) : (s.setHeld a r).uptime = s.uptime := rfl
@[simp] theorem State.setHeld_axes (s : State) (a : AxisId) (r : List Posting) : (s.setHeld a r).axes = s.axes := rfl
@[simp] theorem State.setHeld_encs (s : State) (a : AxisId) (r : List Posting) : (s.setHeld a r).encs = s.encs := rfl
@[simp] theorem State.setHeld_time (s : State) (a : AxisId) (r : List Posting) : (s.setHeld a r).time = s.time := rfl
@[simp] theorem State.setHeld_preset (s : State) (a : AxisId) (r : List Posting) : (s.setHeld a r).preset = s.preset := rfl
@[simp] theorem State.setHeld_epochLevel (s : State) (a : AxisId) (r : List Posting) : (s.setHeld a r).epochLevel = s.epochLevel := rfl
@[simp] theorem State.setHeld_marks (s : State) (a : AxisId) (r : List Posting) : (s.setHeld a r).marks = s.marks := rfl
@[simp] theorem State.setHeld_table (s : State) (a : AxisId) (r : List Posting) : (s.setHeld a r).table = s.table := rfl
@[simp] theorem State.setHeld_due (s : State) (a : AxisId) (r : List Posting) : (s.setHeld a r).due = s.due := rfl
@[simp] theorem State.setHeld_waiting (s : State) (a : AxisId) (r : List Posting) : (s.setHeld a r).waiting = s.waiting := rfl
@[simp] theorem State.setHeld_groups (s : State) (a : AxisId) (r : List Posting) : (s.setHeld a r).groups = s.groups := rfl
@[simp] theorem State.setHeld_pendingGroups (s : State) (a : AxisId) (r : List Posting) : (s.setHeld a r).pendingGroups = s.pendingGroups := rfl
@[simp] theorem State.setHeld_chans (s : State) (a : AxisId) (r : List Posting) : (s.setHeld a r).chans = s.chans := rfl
@[simp] theorem State.setHeld_ports (s : State) (a : AxisId) (r : List Posting) : (s.setHeld a r).ports = s.ports := rfl
@[simp] theorem State.setHeld_toScu (s : State) (a : AxisId) (r : List Posting) : (s.setHeld a r).toScu = s.toScu := rfl
@[simp] theorem State.setHeld_toMku (s : State) (a : AxisId) (r : List Posting) : (s.setHeld a r).toMku = s.toMku := rfl
@[simp] theorem State.setHeld_heldNotices (s : State) (a : AxisId) (r : List Posting) : (s.setHeld a r).heldNotices = upd s.heldNotices a r := rfl
@[simp] theorem State.setHeld_mkuToScu (s : State) (a : AxisId) (r : List Posting) : (s.setHeld a r).mkuToScu = s.mkuToScu := rfl
@[simp] theorem State.setHeld_toOtu (s : State) (a : AxisId) (r : List Posting) : (s.setHeld a r).toOtu = s.toOtu := rfl
@[simp] theorem State.setHeld_posted (s : State) (a : AxisId) (r : List Posting) : (s.setHeld a r).posted = s.posted := rfl

/-! ## post -/

@[simp] theorem post_pending (b : NoticeBody) (l : List Port) (s : State) : (post b l s).pending = s.pending := rfl
@[simp] theorem post_serial (b : NoticeBody) (l : List Port) (s : State) : (post b l s).serial = s.serial := rfl
@[simp] theorem post_inReset (b : NoticeBody) (l : List Port) (s : State) : (post b l s).inReset = s.inReset := rfl
@[simp] theorem post_pins (b : NoticeBody) (l : List Port) (s : State) : (post b l s).pins = s.pins := rfl
@[simp] theorem post_uptime (b : NoticeBody) (l : List Port) (s : State) : (post b l s).uptime = s.uptime := rfl
@[simp] theorem post_axes (b : NoticeBody) (l : List Port) (s : State) : (post b l s).axes = s.axes := rfl
@[simp] theorem post_encs (b : NoticeBody) (l : List Port) (s : State) : (post b l s).encs = s.encs := rfl
@[simp] theorem post_time (b : NoticeBody) (l : List Port) (s : State) : (post b l s).time = s.time := rfl
@[simp] theorem post_preset (b : NoticeBody) (l : List Port) (s : State) : (post b l s).preset = s.preset := rfl
@[simp] theorem post_epochLevel (b : NoticeBody) (l : List Port) (s : State) : (post b l s).epochLevel = s.epochLevel := rfl
@[simp] theorem post_marks (b : NoticeBody) (l : List Port) (s : State) : (post b l s).marks = s.marks := rfl
@[simp] theorem post_table (b : NoticeBody) (l : List Port) (s : State) : (post b l s).table = s.table := rfl
@[simp] theorem post_due (b : NoticeBody) (l : List Port) (s : State) : (post b l s).due = s.due := rfl
@[simp] theorem post_waiting (b : NoticeBody) (l : List Port) (s : State) : (post b l s).waiting = s.waiting := rfl
@[simp] theorem post_groups (b : NoticeBody) (l : List Port) (s : State) : (post b l s).groups = s.groups := rfl
@[simp] theorem post_pendingGroups (b : NoticeBody) (l : List Port) (s : State) : (post b l s).pendingGroups = s.pendingGroups := rfl
@[simp] theorem post_chans (b : NoticeBody) (l : List Port) (s : State) : (post b l s).chans = s.chans := rfl
@[simp] theorem post_ports (b : NoticeBody) (l : List Port) (s : State) : (post b l s).ports = s.ports := rfl
@[simp] theorem post_toScu (b : NoticeBody) (l : List Port) (s : State) : (post b l s).toScu = s.toScu := rfl
@[simp] theorem post_toMku (b : NoticeBody) (l : List Port) (s : State) : (post b l s).toMku = s.toMku := rfl
@[simp] theorem post_heldNotices (b : NoticeBody) (l : List Port) (s : State) : (post b l s).heldNotices = s.heldNotices := rfl
@[simp] theorem post_mkuToScu (b : NoticeBody) (l : List Port) (s : State) : (post b l s).mkuToScu = s.mkuToScu := rfl
@[simp] theorem post_toOtu (b : NoticeBody) (l : List Port) (s : State) : (post b l s).toOtu = s.toOtu := rfl
@[simp] theorem post_posted (b : NoticeBody) (l : List Port) (s : State) : (post b l s).posted = s.posted ++ [{ body := b, addressed := l }] := rfl

end Sys2Proof.Machine
end

