-- ==== Sys2Proof/Laws/Blocks.lean ====
section
/-! SUPPORT. Which fields the shared operations of each block may change: `AxuOnly`, `MkuOnly` and `ScuOnly` are kept by
each operation, by sequences of them and by folds over them. A later proof cites these and never unfolds the operation for
its frame. -/

namespace Sys2Proof.Machine

/-- What every pass of a fold keeps, the fold keeps. -/
theorem foldl_rel {α β : Type} {R : α → α → Prop} (refl : ∀ a, R a a) (trans : ∀ a b c, R a b → R b c → R a c)
    {f : α → β → α} (h : ∀ a b, R a (f a b)) (l : List β) (a : α) : R a (l.foldl f a) := by
  induction l generalizing a with
  | nil => exact refl a
  | cons b l ih => exact trans _ _ _ (h a b) (ih (f a b))

/-! ## AXU -/

theorem AxuOnly.refl (s : State) : AxuOnly s s := rfl

theorem AxuOnly.trans {s t u : State} (h : AxuOnly s t) (k : AxuOnly t u) : AxuOnly s u := by
  cases s; cases t; cases u
  simp only [AxuOnly, State.mk.injEq] at *
  simp_all

theorem setAxis_axuOnly (s : State) (a : AxisId) (r : AxisRec) : AxuOnly s (s.setAxis a r) := rfl
theorem setEnc_axuOnly (s : State) (x : EncId) (r : EncRec) : AxuOnly s (s.setEnc x r) := rfl
theorem post_axuOnly (s : State) (b : NoticeBody) (l : List Port) : AxuOnly s (post b l s) := rfl
theorem tellMku_axuOnly (s : State) (a : AxisId) (e : AxuEvent) : AxuOnly s (tellMku a e s) := rfl
theorem handStep_axuOnly (s : State) (a : AxisId) (m : StepMsg) : AxuOnly s (handStep a m s) := rfl
theorem postFault_axuOnly (s : State) (a : AxisId) (c : FaultCause) (k : Bool) : AxuOnly s (postFault a c k s) := rfl
theorem enterFaulted_axuOnly (s : State) (a : AxisId) (c : FaultCause) : AxuOnly s (enterFaulted a c s) := rfl
theorem enterRunning_axuOnly (s : State) (a : AxisId) : AxuOnly s (enterRunning a s) := rfl
theorem loadReference_axuOnly (s : State) (x : EncId) : AxuOnly s (loadReference x s) := rfl

theorem rebase_axuOnly (s : State) (a : AxisId) (c : RebaseCause) (v : Int) : AxuOnly s (rebase a c v s) := by
  unfold rebase; dsimp only; split <;> rfl

theorem searchStep_axuOnly (s : State) (x : EncId) : AxuOnly s (searchStep x s) := by
  unfold searchStep; dsimp only; split
  · split <;> rfl
  · rfl

theorem applyCount_axuOnly (s : State) (a : AxisId) (d : Direction) : AxuOnly s (applyCount a d s) := by
  unfold applyCount; dsimp only; split
  · split
    · refine AxuOnly.trans ?_ (searchStep_axuOnly _ _)
      rfl
    · rfl
  · rfl

theorem refuseCount_axuOnly (s : State) (a : AxisId) : AxuOnly s (refuseCount a s) := by
  unfold refuseCount; split
  · rfl
  · dsimp only; split <;> rfl
  · dsimp only; split <;> split <;> rfl
  · split <;> rfl

theorem count_axuOnly (s : State) (a : AxisId) (d : Direction) : AxuOnly s (count a d s) := by
  unfold count; split
  · rfl
  · split
    · exact applyCount_axuOnly ..
    · exact refuseCount_axuOnly ..

theorem quadError_axuOnly (s : State) (x : EncId) : AxuOnly s (quadError x s) := by
  unfold quadError; dsimp only; split <;> rfl

theorem expirePrescaler_axuOnly (s : State) : AxuOnly s (expirePrescaler s) := by
  unfold expirePrescaler; split
  · refine AxuOnly.trans ?_ (count_axuOnly _ _ _)
    rfl
  · rfl

theorem endSearch_axuOnly (s : State) (x : EncId) (r : Recovery) : AxuOnly s (endSearch x r s) := by
  unfold endSearch; dsimp only; split <;> rfl

theorem setAxisValue_axuOnly (s : State) (a : AxisId) (v : Int) : AxuOnly s (setAxisValue a v s) := by
  unfold setAxisValue; split
  · rfl
  · exact rebase_axuOnly ..
  · dsimp only; split <;> exact (rebase_axuOnly s a .set v).trans rfl
  · split
    · exact (rebase_axuOnly s a .set v).trans (endSearch_axuOnly _ _ _)
    · exact (rebase_axuOnly s a .set v).trans rfl

theorem startSearch_axuOnly (s : State) (x : EncId) (h : Int) (l : Nat) : AxuOnly s (startSearch x h l s) := by
  unfold startSearch; dsimp only; split <;> rfl

theorem epochRise_axuOnly (s : State) : AxuOnly s (epochRise s) := by
  unfold epochRise; split
  · rfl
  · split
    · rfl
    · split
      · rfl
      · rename_i q _ _
        exact (rebase_axuOnly s timeAxis .epoch q.value).trans rfl

/-! ## MKU -/

theorem MkuOnly.refl (s : State) : MkuOnly s s := rfl

theorem MkuOnly.trans {s t u : State} (h : MkuOnly s t) (k : MkuOnly t u) : MkuOnly s u := by
  cases s; cases t; cases u
  simp only [MkuOnly, State.mk.injEq] at *
  simp_all

theorem foldl_mkuOnly {β : Type} {f : State → β → State} (h : ∀ s b, MkuOnly s (f s b)) (l : List β) (s : State) :
    MkuOnly s (l.foldl f s) := foldl_rel MkuOnly.refl (fun _ _ _ => MkuOnly.trans) h l s

theorem setMark_mkuOnly (s : State) (m : MarkId) (r : MarkRec) : MkuOnly s (s.setMark m r) := rfl
theorem loseMarks_mkuOnly (s : State) (m : MarkId) (c : LostCause) (st : MarkState) : MkuOnly s (loseMarks m c st s) := rfl
theorem countMark_mkuOnly (s : State) (m : MarkId) (c : Capture) (k : CaptureKind) (v : Int) :
    MkuOnly s (countMark m c k v s) := rfl
theorem acceptCapture_mkuOnly (s : State) (m : MarkId) (c : Capture) : MkuOnly s (acceptCapture m c s) := rfl
theorem substituteMark_mkuOnly (s : State) (m : MarkId) (v : Int) : MkuOnly s (substituteMark m v s) := rfl
theorem stopInput_mkuOnly (s : State) (m : MarkId) : MkuOnly s (stopInput m s) := rfl

theorem declareMiss_mkuOnly (s : State) (m : MarkId) : MkuOnly s (declareMiss m s) := by
  unfold declareMiss; dsimp only; split
  · split <;> rfl
  · rfl

theorem resolveDeferred_mkuOnly (s : State) (m : MarkId) : MkuOnly s (resolveDeferred m s) := by
  unfold resolveDeferred; dsimp only; split
  · split
    · split
      · refine MkuOnly.trans ?_ (declareMiss_mkuOnly _ _)
        rfl
      · rfl
    · rfl
  · rfl

theorem judgeCapture_mkuOnly (s : State) (m : MarkId) (c : Capture) : MkuOnly s (judgeCapture m c s) := by
  unfold judgeCapture; dsimp only; split
  · exact acceptCapture_mkuOnly ..
  · split
    · split
      · refine MkuOnly.trans ?_ (resolveDeferred_mkuOnly _ _)
        rfl
      · exact acceptCapture_mkuOnly ..
    · exact acceptCapture_mkuOnly ..
  · rfl
  · rfl

theorem edgeSeen_mkuOnly (s : State) (m : MarkId) (l : Bool) : MkuOnly s (edgeSeen m l s) := by
  unfold edgeSeen; dsimp only; split
  · split
    · refine MkuOnly.trans ?_ (judgeCapture_mkuOnly _ _ _)
      rfl
    · rfl
  · split
    · refine MkuOnly.trans ?_ (resolveDeferred_mkuOnly _ _)
      rfl
    · rfl

theorem endDebounce_mkuOnly (s : State) (m : MarkId) : MkuOnly s (endDebounce m s) := by
  unfold endDebounce; split
  · split
    · refine MkuOnly.trans ?_ (judgeCapture_mkuOnly _ _ _)
      rfl
    · rfl
  · rfl

theorem trackStep_mkuOnly (s : State) (a : AxisId) (msg : StepMsg) (m : MarkId) : MkuOnly s (trackStep a msg s m) := by
  unfold trackStep; dsimp only; split
  · split
    · split
      · rfl
      · exact declareMiss_mkuOnly ..
    · rfl
  all_goals rfl

theorem freezeInput_mkuOnly (s : State) (a : AxisId) (m : MarkId) : MkuOnly s (freezeInput a s m) := by
  unfold freezeInput; dsimp only; split <;> rfl

theorem thawInput_mkuOnly (s : State) (a : AxisId) (m : MarkId) : MkuOnly s (thawInput a s m) := by
  unfold thawInput; dsimp only; split <;> rfl

theorem rebaseInput_mkuOnly (s : State) (a : AxisId) (m : MarkId) : MkuOnly s (rebaseInput a s m) := by
  unfold rebaseInput; dsimp only; split <;> rfl

theorem releaseInputs_mkuOnly (s : State) (p : Port) : MkuOnly s (releaseInputs p s) :=
  foldl_mkuOnly (fun s m => by unfold releaseInput; split <;> rfl) _ s

/-! ## SCU -/

theorem ScuOnly.refl (s : State) : ScuOnly s s := rfl

theorem ScuOnly.trans {s t u : State} (h : ScuOnly s t) (k : ScuOnly t u) : ScuOnly s u := by
  cases s; cases t; cases u
  simp only [ScuOnly, State.mk.injEq] at *
  simp_all

theorem foldl_scuOnly {β : Type} {f : State → β → State} (h : ∀ s b, ScuOnly s (f s b)) (l : List β) (s : State) :
    ScuOnly s (l.foldl f s) := foldl_rel ScuOnly.refl (fun _ _ _ => ScuOnly.trans) h l s

theorem foldl_work_scuOnly {β : Type} {f : Work → β → Work} (h : ∀ w b, ScuOnly w.st (f w b).st) (l : List β) (w : Work) :
    ScuOnly w.st (l.foldl f w).st :=
  foldl_rel (R := fun w v => ScuOnly w.st v.st) (fun w => ScuOnly.refl w.st) (fun _ _ _ => ScuOnly.trans) h l w

theorem post_scuOnly (s : State) (b : NoticeBody) (l : List Port) : ScuOnly s (post b l s) := rfl
theorem setGroup_scuOnly (s : State) (p : Port) (r : GroupRec) : ScuOnly s (s.setGroup p r) := rfl
theorem writeEntry_scuOnly (s : State) (i : EntryIx) (e : Entry) : ScuOnly s (writeEntry i e s) := rfl
theorem freeEntry_scuOnly (s : State) (i : EntryIx) : ScuOnly s (freeEntry i s) := rfl
theorem placeArmed_scuOnly (s : State) (i : EntryIx) (e : Entry) (t : Int) : ScuOnly s (placeArmed i e t s) := rfl
theorem placeWaiting_scuOnly (s : State) (i : EntryIx) (e : Entry) : ScuOnly s (placeWaiting i e s) := rfl
theorem closeGroup_scuOnly (s : State) (p : Port) : ScuOnly s (closeGroup p s) := rfl
theorem stageOp_scuOnly (s : State) (p : Port) (op : GroupOp) : ScuOnly s (stageOp p op s) := rfl
theorem pendGroup_scuOnly (s : State) (p : Port) (b : Boundary) (n : Nat) : ScuOnly s (pendGroup p b n s) := rfl

theorem done_scuOnly (w : Work) : ScuOnly w.st w.done := by unfold Work.done; split <;> rfl

theorem retire_scuOnly (s : State) (i : EntryIx) (e : Entry) (c : EndCause) : ScuOnly s (retire i e c s) := by
  unfold retire; dsimp only; split <;> rfl

theorem endPlain_scuOnly (s : State) (i : EntryIx) (e : Entry) (c : EndCause) : ScuOnly s (endPlain i e c s) := by
  unfold endPlain; split
  · exact retire_scuOnly ..
  · split
    · exact retire_scuOnly ..
    · split
      · exact retire_scuOnly ..
      · rfl

theorem settlePlain_scuOnly (s : State) (i : EntryIx) (r : Verdict) : ScuOnly s (settlePlain i r s) := by
  unfold settlePlain; split
  · rfl
  · exact endPlain_scuOnly ..

theorem occur_scuOnly (w : Work) (i : EntryIx) (e : Entry) (v : Int) (l : Bool) : ScuOnly w.st (occur i e v l w).st := by
  unfold occur; split
  · dsimp only; split <;> rfl
  · rfl

theorem admitFrom_scuOnly (w : Work) (i : EntryIx) (v : Int) (r : Verdict) : ScuOnly w.st (admitFrom i v r w).1.st := by
  unfold admitFrom admitReached; split
  · split
    · exact occur_scuOnly ..
    · rfl
  · rfl

theorem admit_scuOnly (w : Work) (i : EntryIx) (e : Entry) (t v : Int) (f o : Bool) :
    ScuOnly w.st (admitTarget i e t v f o w).1.st := by
  unfold admitTarget; split
  · rfl
  · split
    · rfl
    · split
      · exact occur_scuOnly ..
      · split
        · split
          · unfold admitFireLate; dsimp only; split
            · exact occur_scuOnly ..
            · exact (occur_scuOnly w i e v true).trans (admitFrom_scuOnly _ _ _ _)
          · unfold admitDropLate; dsimp only
            refine ScuOnly.trans ?_ (admitFrom_scuOnly _ _ _ _)
            rfl
        · rfl

theorem settle_scuOnly (w : Work) (view : View) (i : EntryIx) (r : Verdict) : ScuOnly w.st (settle view i r w).st := by
  unfold settle; split
  · rfl
  · split
    · unfold useOwed; dsimp only; split
      · exact (admit_scuOnly ..).trans (settlePlain_scuOnly _ _ _)
      · rfl
    · exact endPlain_scuOnly ..

theorem giveTarget_scuOnly (w : Work) (view : View) (i : EntryIx) (e : Entry) (t : Int) :
    ScuOnly w.st (giveTarget view i e t w).st :=
  (admit_scuOnly ..).trans (settle_scuOnly _ _ _ _)

theorem crossEntry_scuOnly (w : Work) (a : AxisId) (v : Int) (i : EntryIx) : ScuOnly w.st (crossEntry a v w i).st := by
  unfold crossEntry; split
  · split
    · exact (occur_scuOnly ..).trans (settle_scuOnly _ _ _ _)
    · rfl
  · rfl

theorem discardGroup_scuOnly (s : State) (p : Port) : ScuOnly s (discardGroup p s) :=
  (foldl_scuOnly (fun s i => freeEntry_scuOnly s i) _ s).trans (closeGroup_scuOnly _ _)

theorem applyOp_scuOnly (w : Work) (view : View) (p : Port) (op : GroupOp) : ScuOnly w.st (applyOp view p w op).1.st := by
  unfold applyOp; split
  · split
    · rfl
    · split
      · exact giveTarget_scuOnly ..
      · split <;> rfl
  · split
    · rfl
    · split <;> rfl
  · rfl

theorem applyGroup_scuOnly (w : Work) (view : View) (p : Port) (at_ : AppliedAt) :
    ScuOnly w.st (applyGroup view p at_ w).st := by
  have h : ∀ (r : ApplyRun) (op : GroupOp), ScuOnly r.work.st (r.take view p op).work.st := fun r op => by
    unfold ApplyRun.take; dsimp only; split <;> exact applyOp_scuOnly ..
  have hf := foldl_rel (R := fun r q : ApplyRun => ScuOnly r.work.st q.work.st) (fun r => ScuOnly.refl r.work.st)
    (fun _ _ _ => ScuOnly.trans) h (w.st.groups[p]).ops ⟨w, 0, 0, 0, none⟩
  exact ScuOnly.trans hf rfl

theorem applyReached_scuOnly (w : Work) (view : View) (at_ : AppliedAt) (f : Boundary → Bool) :
    ScuOnly w.st (applyReached view at_ f w).st :=
  foldl_work_scuOnly (fun w p => by dsimp only; split; exact applyGroup_scuOnly ..; rfl) _ w

theorem scuStepWork_scuOnly (s : State) (a : AxisId) (m : StepMsg) : ScuOnly s (scuStepWork a m s).st :=
  (applyReached_scuOnly (.begin s) _ _ _).trans (foldl_work_scuOnly (fun w i => crossEntry_scuOnly w a m.value i) _ _)

theorem giveOwed_scuOnly (s : State) (c : Capture) (i : EntryIx) : ScuOnly s (giveOwed c s i) := by
  unfold giveOwed; split
  · rfl
  · split
    · rfl
    · dsimp only; split <;> rfl

theorem resolveEntry_scuOnly (w : Work) (c : Capture) (i : EntryIx) : ScuOnly w.st (resolveEntry c w i).st := by
  unfold resolveEntry; split
  · rfl
  · split
    · rfl
    · split
      · exact giveTarget_scuOnly ..
      · rfl

theorem takeMark_scuOnly (s : State) (c : Capture) : ScuOnly s (takeMark c s) :=
  (((applyReached_scuOnly (.begin s) _ _ _).trans (foldl_scuOnly (fun s i => giveOwed_scuOnly s c i) _ _)).trans
    (foldl_work_scuOnly (fun w i => resolveEntry_scuOnly w c i) _ ⟨_, _⟩)).trans (done_scuOnly _)

theorem stopAtScu_scuOnly (s : State) (f : Port → Bool) (m : MarkId) (c : WithdrawCause) :
    ScuOnly s (stopAtScu f m c s) := by
  have h1 : ∀ (s : State) (i : EntryIx), ScuOnly s (withdraw m c s i) := fun s i => by unfold withdraw; split <;> rfl
  have h2 : ∀ (s : State) (p : Port), ScuOnly s (discardAtMark f m s p) := fun s p => by
    unfold discardAtMark; split
    · exact (discardGroup_scuOnly s p).trans rfl
    · rfl
  unfold stopAtScu
  have h3 := foldl_scuOnly h1 (s.waiting.filter (fun i => waitsOn s m i && s.table[i].entry.any (fun e => f e.owner))) s
  dsimp only
  revert h3
  generalize List.foldl (withdraw m c) s
    (s.waiting.filter (fun i => waitsOn s m i && s.table[i].entry.any (fun e => f e.owner))) = u
  intro h3
  refine ScuOnly.trans h3 (ScuOnly.trans ?_ (foldl_scuOnly h2 _ _))
  rfl

theorem expireGroup_scuOnly (s : State) (p : Port) : ScuOnly s (expireGroup p s) := by
  unfold expireGroup; split
  · exact (discardGroup_scuOnly s p).trans rfl
  · rfl

theorem removePort_scuOnly (s : State) (p : Port) : ScuOnly s (removePort p s) :=
  ((discardGroup_scuOnly s p).trans (setGroup_scuOnly _ p .reset)).trans
    (foldl_scuOnly (fun s i => freeEntry_scuOnly s i) _ _)

end Sys2Proof.Machine
end

