-- ==== Sys2Proof/Laws/Schedule.lean ====
section
/-! SUPPORT. What the shared operations of the SCU and of the notices do, each said once: the place of R52, the moves of an
entry between its states, a list of entries freed, the closing of a group, and the delivery of a notice. -/

namespace Sys2Proof.Machine

/-! ## The place of R52 -/

theorem insertDue_eq (key : EntryIx → Int) (i : EntryIx) (t : Int) (l : List EntryIx) :
    ∃ before after, l = before ++ after ∧ insertDue key i t l = before ++ i :: after
      ∧ ∀ j ∈ before, key j ≤ t := by
  refine ⟨_, _, (List.takeWhile_append_dropWhile (p := fun j => decide (key j ≤ t)) (l := l)).symm, rfl, fun j hj => ?_⟩
  have := List.mem_takeWhile_imp hj
  simpa using this

@[simp] theorem mem_insertDue (key : EntryIx → Int) (i : EntryIx) (t : Int) (l : List EntryIx) (j : EntryIx) :
    j ∈ insertDue key i t l ↔ j = i ∨ j ∈ l := by
  obtain ⟨b, a, rfl, h, _⟩ := insertDue_eq key i t l
  rw [h]
  simp only [List.mem_append, List.mem_cons]
  tauto

theorem insertDue_nodup {key : EntryIx → Int} {i : EntryIx} {t : Int} {l : List EntryIx} (hl : l.Nodup) (hi : i ∉ l) :
    (insertDue key i t l).Nodup := by
  obtain ⟨b, a, rfl, h, _⟩ := insertDue_eq key i t l
  rw [h]
  rw [List.nodup_middle, List.nodup_cons]
  exact ⟨hi, hl⟩

/-- In a list in ascending order, every entry after the place has a greater key. -/
theorem insertDue_split {key : EntryIx → Int} (i : EntryIx) (t : Int) {l : List EntryIx}
    (hs : l.Pairwise (fun i j => key i ≤ key j)) :
    ∃ before after, l = before ++ after ∧ insertDue key i t l = before ++ i :: after
      ∧ (∀ j ∈ before, key j ≤ t) ∧ ∀ j ∈ after, t < key j := by
  induction l with
  | nil => exact ⟨[], [], rfl, rfl, by simp, by simp⟩
  | cons x l ih =>
    rw [List.pairwise_cons] at hs
    by_cases hx : key x ≤ t
    · obtain ⟨b, a, h1, h2, h3, h4⟩ := ih hs.2
      refine ⟨x :: b, a, by rw [h1]; rfl, ?_, ?_, h4⟩
      · rw [insertDue, List.takeWhile_cons_of_pos (by simpa using hx), List.dropWhile_cons_of_pos (by simpa using hx)]
        exact congrArg (x :: ·) h2
      · intro j hj
        rcases List.mem_cons.mp hj with rfl | hj
        · exact hx
        · exact h3 j hj
    · refine ⟨[], x :: l, rfl, ?_, by simp, ?_⟩
      · rw [insertDue, List.takeWhile_cons_of_neg (by simpa using hx), List.dropWhile_cons_of_neg (by simpa using hx)]
      · intro j hj
        rcases List.mem_cons.mp hj with rfl | hj
        · omega
        · have := hs.1 j hj
          omega

/-- The place of R52 keeps the order of R51. -/
theorem insertDue_pairwise {key : EntryIx → Int} {i : EntryIx} {t : Int} {l : List EntryIx} (hk : key i = t)
    (hs : l.Pairwise (fun i j => key i ≤ key j)) : (insertDue key i t l).Pairwise (fun i j => key i ≤ key j) := by
  obtain ⟨b, a, rfl, h, h1, h2⟩ := insertDue_split (key := key) i t hs
  rw [h, List.pairwise_append, List.pairwise_cons]
  rw [List.pairwise_append] at hs
  refine ⟨hs.1, ⟨fun j hj => ?_, hs.2.1⟩, fun j hj k hk' => ?_⟩
  · have := h2 j hj; omega
  · rcases List.mem_cons.mp hk' with rfl | hk'
    · have := h1 j hj; omega
    · exact hs.2.2 j hj k hk'

/-! ## Moving an entry -/

theorem unlist_eq (i : EntryIx) (s : State) :
    unlist i s = { s with due := s.due.map (fun l => l.filter (· ≠ i)), waiting := s.waiting.filter (· ≠ i) } := by
  unfold unlist
  congr 1
  · congr 1; funext l; congr 1; funext j; simp [bne, BEq.beq]
  · congr 1; funext j; simp [bne, BEq.beq]

theorem freeEntry_eq (i : EntryIx) (s : State) :
    freeEntry i s = { s with
      table := upd s.table i ⟨s.table[i].gen + 1, none⟩
      due := s.due.map (fun l => l.filter (· ≠ i)), waiting := s.waiting.filter (· ≠ i) } := by
  unfold freeEntry; rw [unlist_eq]; rfl

theorem placeArmed_eq (i : EntryIx) (e : Entry) (t : Int) (s : State) :
    placeArmed i e t s = { s with
      table := upd s.table i ⟨s.table[i].gen, some { e with state := .armed, target := some t }⟩
      due := upd (s.due.map (fun l => l.filter (· ≠ i))) e.desc.axis
        (insertDue (targetAt (writeEntry i { e with state := .armed, target := some t } s)) i t
          ((s.due[e.desc.axis]).filter (· ≠ i)))
      waiting := s.waiting.filter (· ≠ i) } := by
  unfold placeArmed; rw [unlist_eq]
  simp only [writeEntry, State.setSlot, State.setDue, Fin.getElem_fin, Vector.getElem_map]
  rfl

theorem placeWaiting_eq (i : EntryIx) (e : Entry) (s : State) :
    placeWaiting i e s = { s with
      table := upd s.table i ⟨s.table[i].gen, some { e with state := .waiting, target := none }⟩
      due := s.due.map (fun l => l.filter (· ≠ i)), waiting := s.waiting.filter (· ≠ i) ++ [i] } := by
  unfold placeWaiting; rw [unlist_eq]; rfl

/-- An entry that leaves no list: it stood in none (the law of the schedule for a FREE or STAGED entry). -/
theorem filter_ne_of_not_mem {i : EntryIx} {l : List EntryIx} (h : i ∉ l) : l.filter (· ≠ i) = l := by
  rw [List.filter_eq_self]
  intro j hj
  simp only [ne_eq, decide_not, Bool.not_eq_eq_eq_not, Bool.not_true, decide_eq_false_iff_not]
  rintro rfl
  exact h hj

/-! ## A list of entries freed -/

/-- Every entry of the list is freed, in any order the list has it; its generation rises once when the list has it once. -/
theorem foldl_freeEntry (l : List EntryIx) (hl : l.Nodup) (s : State) :
    ∃ t, l.foldl (fun s i => freeEntry i s) s = t
      ∧ t = { s with table := t.table, due := t.due, waiting := s.waiting.filter (fun i => !l.contains i) }
      ∧ (∀ a : AxisId, t.due[a] = s.due[a].filter (fun i => !l.contains i))
      ∧ ∀ i : EntryIx, t.table[i] = if i ∈ l then ⟨s.table[i].gen + 1, none⟩ else s.table[i] := by
  induction l generalizing s with
  | nil => exact ⟨s, rfl, by simp, by simp, by simp⟩
  | cons x l ih =>
    rw [List.nodup_cons] at hl
    obtain ⟨t, h1, h2, h3, h4⟩ := ih hl.2 (freeEntry x s)
    refine ⟨t, h1, ?_, fun a => ?_, fun i => ?_⟩
    · rw [h2, freeEntry_eq]
      simp only [State.mk.injEq, List.filter_filter, true_and, and_true]
      congr 1; funext i
      simp [Bool.and_comm]
    · rw [h3 a, freeEntry_eq]
      simp only [Fin.getElem_fin, Vector.getElem_map, List.filter_filter]
      congr 1; funext i
      simp [Bool.and_comm]
    · rw [h4 i, freeEntry_eq]
      simp only [Fin.getElem_fin, List.mem_cons]
      rcases eq_or_ne i x with rfl | hx
      · simp [hl.1]
      · rw [getElem_upd_ne _ _ hx.symm]
        simp [hx]

theorem closeGroup_eq (p : Port) (s : State) :
    closeGroup p s = { s with
      groups := upd s.groups p { s.groups[p] with state := .none, ops := [], boundary := none, remaining := 0 }
      pendingGroups := s.pendingGroups.filter (· ≠ p) } := by
  unfold closeGroup
  dsimp only [State.setGroup]
  congr 2; funext q; simp [bne, BEq.beq]

/-! ## Notices -/

/-- What a posted notice does at each port (R157). -/
theorem deliver_ports (q : Posting) (s : State) (p : Port) :
    (deliver q s).ports[p] =
      if p ∈ q.addressed ∨ s.ports[p].subscribes q.body = true then s.ports[p].receive ⟨s.uptime, q.body⟩ else s.ports[p] := by
  simp [deliver]

theorem deliver_eq (q : Posting) (s : State) : deliver q s = { s with ports := (deliver q s).ports } := rfl

/-- The notices in transit are all delivered, and nothing but the port records changes. -/
theorem takePostings_eq (s : State) : takePostings s = { s with posted := [], ports := (takePostings s).ports } := by
  unfold takePostings
  generalize hl : s.posted = l
  clear hl
  suffices h : ∀ (l : List Posting) (u : State),
      l.foldl (fun t q => deliver q t) u = { u with ports := (l.foldl (fun t q => deliver q t) u).ports } by
    exact h l { s with posted := [] }
  intro l
  induction l with
  | nil => exact fun u => rfl
  | cons q l ih => exact fun u => ih (deliver q u)

theorem receive_state (r : PortRec) (n : Notice) : (r.receive n).state = r.state := by
  unfold PortRec.receive; split
  · split <;> rfl
  · rfl

end Sys2Proof.Machine
end

