-- ==== Sys2Proof/Laws/Firing.lean ====
section
/-! SUPPORT. The SCU's operations meet the relations of Safety.lean: one lemma for each of admission, the end of an entry, the
crossed set, the operations of a group, the pending groups, the owed marks and the resolution walk, each with what it keeps. -/

namespace Sys2Proof.Machine

/-! ## Series -/

theorem TriggerDesc.member_zero (d : TriggerDesc) (t : Int) : d.member t 0 = t := by
  unfold TriggerDesc.member; split <;> simp

theorem advance_eq_member (d : TriggerDesc) (t : Int) (n : Nat) :
    d.approach.advance t (n * d.interval) = d.member t n := by
  unfold Approach.advance TriggerDesc.member; cases d.approach <;> simp

theorem advance_one (d : TriggerDesc) (t : Int) : d.approach.advance t d.interval = d.member t 1 := by
  have := advance_eq_member d t 1
  rwa [Nat.one_mul] at this

theorem late_iff_behind (d : TriggerDesc) (t v : Int) : d.approach.late t v = true ↔ d.behind t v := by
  unfold Approach.late TriggerDesc.behind; cases d.approach <;> simp

theorem le_ceilDiv {g i j : Nat} (hi : 1 ≤ i) (h : j < (g + i - 1) / i) : j * i < g := by
  have := (Nat.le_div_iff_mul_le (by omega : 0 < i)).1 h
  rw [Nat.succ_mul] at this
  omega

theorem ceilDiv_le {g i : Nat} (hi : 1 ≤ i) : g ≤ (g + i - 1) / i * i := by
  have h := Nat.div_add_mod (g + i - 1) i
  have h2 := Nat.mod_lt (g + i - 1) (by omega : 0 < i)
  rw [Nat.mul_comm] at h
  omega

/-- The members behind a value are the first `behindCount` of the series. -/
theorem behindCount_spec (d : TriggerDesc) (t v : Int) (hi : 1 ≤ d.interval) :
    (∀ j < behindCount d.approach d.interval t v, d.behind (d.member t j) v)
      ∧ ¬d.behind (d.member t (behindCount d.approach d.interval t v)) v := by
  have hz : d.interval ≠ 0 := by omega
  unfold behindCount TriggerDesc.member TriggerDesc.behind
  simp only [hz, if_false]
  cases hd : d.approach
  · simp only [true_and, reduceCtorEq, false_and, or_false]
    refine ⟨fun j hj => ?_, ?_⟩
    · have := le_ceilDiv hi hj
      have : ((j * d.interval : Nat) : Int) < ((v - t).toNat : Int) := by exact_mod_cast this
      push_cast at this
      omega
    · have := ceilDiv_le (g := (v - t).toNat) hi
      have : ((v - t).toNat : Int) ≤ (((v - t).toNat + d.interval - 1) / d.interval * d.interval : Nat) := by exact_mod_cast this
      push_cast at this ⊢
      omega
  · simp only [true_and, reduceCtorEq, false_and, false_or]
    refine ⟨fun j hj => ?_, ?_⟩
    · have := le_ceilDiv hi hj
      have : ((j * d.interval : Nat) : Int) < ((t - v).toNat : Int) := by exact_mod_cast this
      push_cast at this
      omega
    · have := ceilDiv_le (g := (t - v).toNat) hi
      have : ((t - v).toNat : Int) ≤ (((t - v).toNat + d.interval - 1) / d.interval * d.interval : Nat) := by exact_mod_cast this
      push_cast at this ⊢
      omega
  · simp only [reduceCtorEq, false_and, or_self, not_false_eq_true, and_true]
    intro j hj
    have := le_ceilDiv hi hj
    omega

/-! ## Occurrences -/

theorem driven_iff (e : Entry) : e.desc.driven e.occ = true ↔ e.drives := by
  unfold TriggerDesc.driven Entry.drives; simp

theorem occur_eq (i : EntryIx) (e : Entry) (v : Int) (late : Bool) (w : Work) :
    occur i e v late w = ⟨{ w.st with posted := w.st.posted ++ e.tells (handleAt w.st i) v late }, w.acts ++ e.sends⟩ := by
  unfold occur Entry.tells Entry.sends
  by_cases h : e.drives
  · rw [if_pos ((driven_iff e).2 h), if_pos h]
    by_cases hn : e.desc.notify = .each
    · simp only [hn, h, if_true, and_self]; rfl
    · simp only [hn, h, if_false, and_false, List.append_nil]; rfl
  · rw [if_neg (fun k => h ((driven_iff e).1 k)), if_neg h]
    simp [h]

theorem afterOccurrence_goesOn (e : Entry) (t : Int) (hr : e.desc.repeats < 65536) :
    GoesOn e t (afterOccurrence e t) := by
  unfold afterOccurrence
  by_cases h : e.desc.allows (e.occ + 1)
  · rw [if_pos h, advance_one]
    by_cases hb : inRange (e.desc.member t 1) = true
    · rw [if_pos hb]
      have : (e.occ + 1) % 65536 = e.desc.index (e.occ + 1) := by
        unfold TriggerDesc.index
        rcases h with h | h
        · rw [if_pos h]
        · rw [if_neg (by omega), Nat.mod_eq_of_lt (by omega)]
      rw [this]
      exact .next h hb
    · rw [if_neg hb]
      exact .rangeExit h (by simpa using hb)
  · rw [if_neg h]
    exact .complete h

theorem consumeLate_consumes (e : Entry) (k : Nat) (t v : Int) (hr : e.desc.repeats < 65536)
    (hi : e.desc.repeats ≠ 1 → 1 ≤ e.desc.interval) (hk : e.desc.allows k)
    (hb : e.desc.behind t v ∨ e.desc.repeats ≠ 1) :
    Consumes e k t v (if e.desc.repeats = 0 then behindCount e.desc.approach e.desc.interval t v
      else min (behindCount e.desc.approach e.desc.interval t v) (e.desc.repeats - k)) (consumeLate e k t v) := by
  unfold consumeLate
  set N := behindCount e.desc.approach e.desc.interval t v with hN
  have hall : e.desc.repeats ≠ 0 → e.desc.repeats ≤ k + N →
      (∀ j < N, e.desc.behind (e.desc.member t j) v) →
      Consumes e k t v (min N (e.desc.repeats - k)) (.ended { e with occ := e.desc.repeats - 1 } .allLate) := by
    intro h0 hle hbe
    rcases hk with hk | hk
    · exact absurd hk h0
    · have hm : min N (e.desc.repeats - k) = e.desc.repeats - k := by omega
      rw [hm]
      exact .allLate (fun j hj => hbe j (by omega)) (by omega) h0
  rcases Nat.eq_zero_or_pos e.desc.interval with hz | hp
  · have h1 : e.desc.repeats = 1 := by
      by_contra hne
      have := hi hne
      omega
    have hbt : e.desc.behind t v := by
      rcases hb with hb | hb
      · exact hb
      · exact absurd h1 hb
    have hN1 : N = 1 := by
      rw [hN]; unfold behindCount
      rcases hbt with ⟨ha, hl⟩ | ⟨ha, hl⟩
      · simp only [ha, hz, if_true]; rw [if_neg (by omega)]
      · simp only [ha, hz, if_true]; rw [if_neg (by omega)]
    dsimp only
    rw [if_pos (show e.desc.repeats ≠ 0 ∧ e.desc.repeats ≤ k + N by omega), if_neg (show ¬e.desc.repeats = 0 by omega)]
    refine hall (by omega) (by omega) (fun j hj => ?_)
    have : j = 0 := by omega
    rw [this, TriggerDesc.member_zero]
    exact hbt
  · obtain ⟨s1, s2⟩ := behindCount_spec e.desc t v hp
    rw [← hN] at s1 s2
    dsimp only
    by_cases hc : e.desc.repeats ≠ 0 ∧ e.desc.repeats ≤ k + N
    · rw [if_pos hc, if_neg hc.1]
      exact hall hc.1 hc.2 s1
    · rw [if_neg hc, advance_eq_member]
      have hal : e.desc.allows (k + N) := by
        unfold TriggerDesc.allows
        by_contra hh
        push Not at hh
        exact hc ⟨hh.1, hh.2⟩
      have hn : (if e.desc.repeats = 0 then N else min N (e.desc.repeats - k)) = N := by
        split
        · rfl
        · rcases hal with h | h <;> omega
      have hix : ∀ m, m ≤ k + N → m % 65536 = e.desc.index m := by
        intro m hm
        unfold TriggerDesc.index
        split
        · rfl
        · rcases hal with h | h
          · contradiction
          · exact Nat.mod_eq_of_lt (by omega)
      rw [hn]
      by_cases hin : inRange (e.desc.member t N) = true
      · rw [if_pos hin, hix _ (le_refl _)]
        exact .onward s1 s2 hal hin
      · rw [if_neg hin, hix _ (by omega)]
        exact .rangeExit s1 s2 hal (by simpa using hin)

/-! ## Admission -/

theorem admitFrom_lands (i : EntryIx) (v : Int) (r : Verdict) (w : Work)
    (hr : ∀ e t, r = .armed e t → e.desc.repeats < 65536) :
    ∃ acts posts r', admitFrom i v r w = (⟨{ w.st with posted := w.st.posted ++ posts }, w.acts ++ acts⟩, r')
      ∧ Lands (handleAt w.st i) v r acts posts r' := by
  unfold admitFrom
  cases r with
  | armed e t =>
    dsimp only
    by_cases h : t = v
    · subst h
      rw [if_pos rfl, admitReached, occur_eq]
      exact ⟨_, _, _, rfl, .reached e _ (afterOccurrence_goesOn e t (hr e t rfl))⟩
    · rw [if_neg h]
      exact ⟨[], [], _, by simp, .ahead e t h⟩
  | ended e c => exact ⟨[], [], _, by simp, .ended e c⟩

theorem Consumes.repeats {e : Entry} {k : Nat} {t v : Int} {n : Nat} {r : Verdict} (h : Consumes e k t v n r) :
    ∀ e' t', r = .armed e' t' → e'.desc = e.desc := by
  cases h <;> intro e' t' he <;> cases he
  rfl

/-- Admission does what R53 to R61 give. -/
theorem admitTarget_admits (i : EntryIx) (e : Entry) (t v : Int) (frozen owned : Bool) (w : Work) (he : e.ok) :
    ∃ acts posts r, admitTarget i e t v frozen owned w
        = (⟨{ w.st with posted := w.st.posted ++ posts }, w.acts ++ acts⟩, r)
      ∧ Admits (handleAt w.st i) e t v frozen owned acts posts r := by
  obtain ⟨hr, hi, -, -, hocc, -⟩ := he
  unfold admitTarget
  by_cases h0 : inRange t = true
  swap
  · rw [if_pos (by simpa using h0)]
    exact ⟨[], [], _, by simp, .outOfRange (by simpa using h0)⟩
  rw [if_neg (by simp [h0])]
  by_cases h1 : frozen = true ∨ owned = false
  · rw [if_pos (by rcases h1 with h | h <;> simp [h])]
    exact ⟨[], [], _, by simp, .untested h0 h1⟩
  have hf : frozen = false := by
    by_contra h; exact h1 (.inl (by simpa using h))
  have ho : owned = true := by
    by_contra h; exact h1 (.inr (by simpa using h))
  rw [if_neg (by simp [hf, ho])]
  by_cases hv : t = v
  · subst hv
    rw [if_pos rfl, admitReached, occur_eq]
    refine ⟨_, _, _, rfl, .onTime h0 hf ho ?_ (.reached e _ (afterOccurrence_goesOn e t hr))⟩
    rintro (⟨_, h⟩ | ⟨_, h⟩) <;> omega
  rw [if_neg hv]
  by_cases hb : e.desc.behind t v
  swap
  · rw [if_neg (fun h => hb ((late_iff_behind _ _ _).1 h))]
    exact ⟨[], [], _, by simp, .onTime h0 hf ho hb (.ahead e t hv)⟩
  rw [if_pos ((late_iff_behind _ _ _).2 hb)]
  cases hl : e.desc.late with
  | fireLate =>
    dsimp only
    unfold admitFireLate
    rw [occur_eq]
    by_cases ha : e.desc.allows (e.occ + 1)
    · have hn : ¬(e.desc.repeats ≠ 0 ∧ e.desc.repeats ≤ e.occ + 1) := by
        rintro ⟨h, h'⟩
        rcases ha with ha | ha
        · exact h ha
        · omega
      have hne : e.desc.repeats ≠ 1 := by
        rcases ha with ha | ha <;> omega
      have hc := consumeLate_consumes e (e.occ + 1) (e.desc.member t 1) v hr hi ha (.inr hne)
      dsimp only
      rw [if_neg hn, advance_one]
      obtain ⟨acts, posts, r', hq, hl'⟩ := admitFrom_lands i v (consumeLate e (e.occ + 1) (e.desc.member t 1) v)
        ⟨{ w.st with posted := w.st.posted ++ e.tells (handleAt w.st i) v true }, w.acts ++ e.sends⟩
        (fun e' t' h => by rw [hc.repeats e' t' h]; exact hr)
      rw [hq]
      refine ⟨_, _, _, ?_, .catchUp h0 hf ho hb hl ha hc hl'⟩
      simp [List.append_assoc]
    · have hn : e.desc.repeats ≠ 0 ∧ e.desc.repeats ≤ e.occ + 1 := by
        unfold TriggerDesc.allows at ha
        push Not at ha
        exact ha
      dsimp only
      rw [if_pos hn]
      exact ⟨_, _, _, rfl, .lastCatchUp h0 hf ho hb hl ha⟩
  | dropLate =>
    have hc := consumeLate_consumes e e.occ t v hr hi hocc (.inl hb)
    dsimp only
    unfold admitDropLate
    dsimp only
    obtain ⟨acts, posts, r', hq, hl'⟩ := admitFrom_lands i v (consumeLate e e.occ t v)
      (w.map (post (.lateDropped (handleAt w.st i) e.desc.tag e.occ (min (droppedCount e t v) Config.maxDropped)
        (match consumeLate e e.occ t v with
          | .armed .. => false
          | .ended .. => true)) [e.owner]))
      (fun e' t' h => by rw [hc.repeats e' t' h]; exact hr)
    refine ⟨acts, _, r', ?_, .dropLate h0 hf ho hb hl hc hl'⟩
    refine hq.trans ?_
    simp only [Work.map, post, List.append_assoc, List.singleton_append]
    rfl

/-! ## What the relations rest on and keep -/

/-- Each due list is in ascending target order (R51). -/
abbrev DueSorted (s : State) : Prop := ∀ a : AxisId, s.due[a].Pairwise (fun i j => targetAt s i ≤ targetAt s j)

/-- The laws that the walks of one event rest on: ordered due lists, and entries in their ranges. -/
abbrev FiringOk (s : State) : Prop := DueSorted s ∧ EntriesOk s

theorem FiringOk.of_laws {s : State} (h : ScheduleOk s) (k : EntriesOk s) : FiringOk s := ⟨h.2.2.2.2.2, k⟩

theorem FiringOk.congr {s t : State} (h : FiringOk s) (h1 : t.table = s.table) (h2 : t.due = s.due) : FiringOk t := by
  refine ⟨fun a => ?_, fun i => ?_⟩
  · have := h.1 a
    unfold targetAt
    rw [h1, h2]
    exact this
  · rw [h1]; exact h.2 i

theorem targetAt_congr {s t : State} {i : EntryIx} (h : t.table[i] = s.table[i]) : targetAt t i = targetAt s i := by
  unfold targetAt; rw [h]

theorem targetAt_upd_ne {s t : State} {i j : EntryIx} {x : Slot} (h : t.table = upd s.table i x) (hj : j ≠ i) :
    targetAt t j = targetAt s j :=
  targetAt_congr (by rw [h]; exact getElem_upd_ne _ _ hj.symm)

theorem filter_sorted {s t : State} {i : EntryIx} {x : Slot} (h : t.table = upd s.table i x) (hs : DueSorted s) (a : AxisId) :
    (s.due[a].filter (· ≠ i)).Pairwise (fun j k => targetAt t j ≤ targetAt t k) := by
  refine ((hs a).filter _).imp_of_mem ?_
  intro j k hj hk hjk
  have hj' := (List.mem_filter.1 hj).2
  have hk' := (List.mem_filter.1 hk).2
  rw [targetAt_upd_ne h (by simpa using hj'), targetAt_upd_ne h (by simpa using hk')]
  exact hjk

theorem entriesOk_upd {s t : State} {i : EntryIx} {x : Slot} (h : t.table = upd s.table i x) (hs : EntriesOk s)
    (hx : ∀ e ∈ x.entry, e.ok) : EntriesOk t := by
  intro j e he
  rw [h] at he
  rcases eq_or_ne i j with rfl | hij
  · rw [show (upd s.table i x)[i] = x from getElem_upd_self ..] at he
    exact hx e he
  · rw [show (upd s.table i x)[j] = s.table[j] from getElem_upd_ne _ _ hij] at he
    exact hs j e he

/-- An entry off its lists, with a record in its ranges, keeps the laws. -/
theorem FiringOk.off {s t : State} {i : EntryIx} {x : Slot} (h : FiringOk s) (h1 : t.table = upd s.table i x)
    (h2 : t.due = s.due.map (fun l => l.filter (· ≠ i))) (hx : ∀ e ∈ x.entry, e.ok) : FiringOk t := by
  refine ⟨fun a => ?_, entriesOk_upd h1 h.2 hx⟩
  have := filter_sorted (t := t) h1 h.1 a
  rw [h2]
  simpa using this

theorem freed_firingOk {s : State} (i : EntryIx) (h : FiringOk s) : FiringOk (freed i s) :=
  h.off rfl rfl (by simp)

theorem retired_firingOk {s : State} (i : EntryIx) (e : Entry) (c : EndCause) (h : FiringOk s) :
    FiringOk (retired i e c s) := h.off rfl rfl (by simp)

theorem madeWaiting_firingOk {s : State} (i : EntryIx) (e : Entry) (h : FiringOk s) (he : e.ok) :
    FiringOk (madeWaiting i e s) := by
  refine h.off rfl rfl ?_
  rintro e' ⟨⟩
  obtain ⟨h1, h2, h3, h4, h5, h6, h7, -⟩ := he
  exact ⟨h1, h2, h3, h4, h5, h6, h7, by rintro t ⟨⟩⟩

theorem MadeArmed.firingOk {s u : State} {i : EntryIx} {e : Entry} {t : Int} (m : MadeArmed i e t s u) (h : FiringOk s)
    (he : e.ok) (ht : inRange t = true) : FiringOk u := by
  obtain ⟨b, a, hd, hb, ha, rfl⟩ := m
  refine ⟨fun x => ?_, entriesOk_upd rfl h.2 ?_⟩
  · set u : State := { offLists i s with
        table := upd s.table i ⟨s.table[i].gen, some { e with state := .armed, target := some t }⟩
        due := upd (offLists i s).due e.desc.axis (b ++ i :: a) } with hu
    have htab : u.table = upd s.table i ⟨s.table[i].gen, some { e with state := .armed, target := some t }⟩ := rfl
    rcases eq_or_ne e.desc.axis x with rfl | hx
    · have hl := filter_sorted htab h.1 e.desc.axis
      rw [hd] at hl
      have hmem : ∀ j ∈ b ++ a, j ≠ i := by
        intro j hj
        rw [← hd] at hj
        simpa using (List.mem_filter.1 hj).2
      have hi : targetAt u i = t := by
        unfold targetAt
        rw [htab, show (upd s.table i _)[i] = _ from getElem_upd_self ..]
        rfl
      rw [show u.due[e.desc.axis] = b ++ i :: a from getElem_upd_self ..]
      rw [List.pairwise_append, List.pairwise_cons]
      rw [List.pairwise_append] at hl
      refine ⟨hl.1, ⟨fun j hj => ?_, hl.2.1⟩, fun j hj k hk => ?_⟩
      · have := ha j hj
        rw [hi, targetAt_upd_ne htab (hmem j (List.mem_append_right _ hj))]
        omega
      · have hj' := targetAt_upd_ne htab (hmem j (List.mem_append_left _ hj))
        rcases List.mem_cons.mp hk with rfl | hk
        · rw [hi, hj']; exact hb j hj
        · exact hl.2.2 j hj k hk
    · rw [show u.due[x] = s.due[x].filter (· ≠ i) by
        rw [hu]
        refine (getElem_upd_ne _ _ hx).trans ?_
        simp [offLists]]
      exact filter_sorted htab h.1 x
  · rintro e' ⟨⟩
    obtain ⟨h1, h2, h3, h4, h5, h6, h7, -⟩ := he
    exact ⟨h1, h2, h3, h4, h5, h6, h7, by rintro t' ⟨⟩; exact ht⟩

/-! ## The end of an entry -/

theorem freeEntry_eq_freed (i : EntryIx) (s : State) : freeEntry i s = freed i s := by rw [freeEntry_eq]; rfl

theorem placeWaiting_eq_madeWaiting (i : EntryIx) (e : Entry) (s : State) : placeWaiting i e s = madeWaiting i e s := by
  rw [placeWaiting_eq]; rfl

theorem retire_eq_retired (i : EntryIx) (e : Entry) (c : EndCause) (s : State) : retire i e c s = retired i e c s := by
  unfold retire retired
  dsimp only
  rw [freeEntry_eq_freed]
  split
  · simp [freed, offLists]
  · rfl

theorem insertDue_congr {key key' : EntryIx → Int} (i : EntryIx) (t : Int) {l : List EntryIx} (h : ∀ j ∈ l, key j = key' j) :
    insertDue key i t l = insertDue key' i t l := by
  unfold insertDue
  induction l with
  | nil => rfl
  | cons x l ih =>
    have hx := h x (by simp)
    have ih := ih (fun j hj => h j (by simp [hj]))
    simp only [List.takeWhile_cons, List.dropWhile_cons, hx]
    split
    · rw [List.cons_append, ih]; rfl
    · rfl

theorem placeArmed_madeArmed (i : EntryIx) (e : Entry) (t : Int) {s : State} (h : DueSorted s) :
    MadeArmed i e t s (placeArmed i e t s) := by
  obtain ⟨b, a, h1, h2, h3, h4⟩ := insertDue_split (key := targetAt s) i t
    (show (s.due[e.desc.axis].filter (· ≠ i)).Pairwise (fun i j => targetAt s i ≤ targetAt s j) from (h _).filter _)
  refine ⟨b, a, h1, h3, h4, ?_⟩
  rw [placeArmed_eq, insertDue_congr (key' := targetAt s) i t (fun j hj => ?_), h2]
  · rfl
  · exact targetAt_upd_ne rfl (by simpa using (List.mem_filter.1 hj).2)

theorem endPlain_closes (i : EntryIx) (e : Entry) (c : EndCause) (s : State)
    (ho : e.desc.reference = .markEach → e.finalBurst = false → ¬e.spent → e.owed = none) :
    Closes i (.ended e c) s (endPlain i e c s) := by
  unfold endPlain
  by_cases h1 : e.desc.reference ≠ .markEach
  · rw [if_pos h1, retire_eq_retired]; exact .retires h1
  · rw [if_neg h1]
    have h1 := of_not_not h1
    cases h2 : e.finalBurst
    · rw [if_neg (by simp)]
      by_cases h3 : e.spent
      · rw [if_pos h3, retire_eq_retired]; exact .marksDone h1 h2 h3
      · rw [if_neg h3, placeWaiting_eq_madeWaiting]; exact .waits h1 h2 h3 (ho h1 h2 h3)
    · rw [if_pos rfl, retire_eq_retired]; exact .inputStopped h1 h2

theorem settlePlain_closes (i : EntryIx) (r : Verdict) {s : State} (h : DueSorted s)
    (ho : ∀ e c, r = .ended e c → e.desc.reference = .markEach → e.finalBurst = false → ¬e.spent → e.owed = none) :
    Closes i r s (settlePlain i r s) := by
  cases r with
  | armed e t => exact .armed (placeArmed_madeArmed i e t h)
  | ended e c => exact endPlain_closes i e c s (ho e c rfl)

/-! ## The records that verdicts carry -/

/-- The record of a verdict. -/
def Verdict.entry : Verdict → Entry
  | .armed e _ => e
  | .ended e _ => e

/-- A verdict is fit to be carried out: its record keeps to its ranges, and so does its target. -/
def Verdict.ok : Verdict → Prop
  | .armed e t => e.ok ∧ inRange t = true
  | .ended e _ => e.ok

/-- Nothing but the occurrence index differs between two records. -/
abbrev SameButOcc (e e' : Entry) : Prop := e' = { e with occ := e'.occ }

theorem Entry.ok.withOcc {e : Entry} (h : e.ok) {k : Nat} (h1 : k < 65536) (h2 : e.desc.allows k) : { e with occ := k }.ok :=
  ⟨h.1, h.2.1, h.2.2.1, h1, h2, h.2.2.2.2.2.1, h.2.2.2.2.2.2.1, h.2.2.2.2.2.2.2⟩

theorem index_lt {d : TriggerDesc} (hd : d.repeats < 65536) {k : Nat} (hk : d.allows k) : d.index k < 65536 := by
  unfold TriggerDesc.index
  split
  · exact Nat.mod_lt _ (by decide)
  · rcases hk with h | h
    · contradiction
    · omega

theorem index_allows {d : TriggerDesc} {k : Nat} (hk : d.allows k) : d.allows (d.index k) := by
  unfold TriggerDesc.index TriggerDesc.allows at *
  split
  · exact .inl (by assumption)
  · exact hk

theorem GoesOn.keeps {e : Entry} {t : Int} {r : Verdict} (h : GoesOn e t r) (he : e.ok) :
    r.ok ∧ SameButOcc e r.entry := by
  cases h with
  | next ha hb => exact ⟨⟨he.withOcc (index_lt he.1 ha) (index_allows ha), hb⟩, rfl⟩
  | rangeExit => exact ⟨he, rfl⟩
  | complete => exact ⟨he, rfl⟩

theorem Consumes.keeps {e : Entry} {k : Nat} {t v : Int} {n : Nat} {r : Verdict} (h : Consumes e k t v n r) (he : e.ok) :
    r.ok ∧ SameButOcc e r.entry := by
  cases h with
  | onward _ _ ha hb => exact ⟨⟨he.withOcc (index_lt he.1 ha) (index_allows ha), hb⟩, rfl⟩
  | allLate _ _ h0 =>
    have := he.1
    exact ⟨he.withOcc (by omega) (.inr (by omega)), rfl⟩
  | rangeExit _ _ ha _ =>
    have hp : e.desc.allows (k + n - 1) := by rcases ha with h | h; exacts [.inl h, .inr (by omega)]
    exact ⟨he.withOcc (index_lt he.1 hp) (index_allows hp), rfl⟩

theorem Lands.keeps {h : Handle} {v : Int} {r r' : Verdict} {acts : List OutAction} {posts : List Posting}
    (l : Lands h v r acts posts r') (hr : r.ok) : r'.ok ∧ SameButOcc r.entry r'.entry := by
  cases l with
  | reached e r' g => exact g.keeps hr.1
  | ahead e t => exact ⟨hr, rfl⟩
  | ended e c => exact ⟨hr, rfl⟩

theorem SameButOcc.trans {e f g : Entry} (h : SameButOcc e f) (k : SameButOcc f g) : SameButOcc e g := by
  unfold SameButOcc at *; rw [k, h]

theorem Admits.keeps {h : Handle} {e : Entry} {t v : Int} {f o : Bool} {acts : List OutAction} {posts : List Posting}
    {r : Verdict} (a : Admits h e t v f o acts posts r) (he : e.ok) : r.ok ∧ SameButOcc e r.entry := by
  cases a with
  | outOfRange => exact ⟨he, rfl⟩
  | untested h0 => exact ⟨⟨he, h0⟩, rfl⟩
  | onTime h0 _ _ _ l => exact l.keeps (r := .armed e t) ⟨he, h0⟩
  | lastCatchUp => exact ⟨he, rfl⟩
  | catchUp _ _ _ _ _ _ c l =>
    obtain ⟨h1, h2⟩ := c.keeps he
    obtain ⟨h3, h4⟩ := l.keeps h1
    exact ⟨h3, h2.trans h4⟩
  | dropLate _ _ _ _ _ c l =>
    obtain ⟨h1, h2⟩ := c.keeps he
    obtain ⟨h3, h4⟩ := l.keeps h1
    exact ⟨h3, h2.trans h4⟩

theorem Closes.keeps {i : EntryIx} {r : Verdict} {s u : State} (c : Closes i r s u) (h : FiringOk s) (hr : r.ok) :
    FiringOk u := by
  cases c with
  | armed m => exact m.firingOk h hr.1 hr.2
  | retires => exact retired_firingOk _ _ _ h
  | inputStopped => exact retired_firingOk _ _ _ h
  | marksDone => exact retired_firingOk _ _ _ h
  | waits => exact madeWaiting_firingOk _ _ h hr

/-! ## Giving a target -/

theorem resolve_eq_resolved (e : Entry) : e.resolve = e.resolved := rfl

theorem resolved_ok {e : Entry} (h : e.ok) : e.resolved.ok := by
  obtain ⟨h1, h2, h3, h4, h5, h6, h7, h8⟩ := h
  refine ⟨h1, h2, h3, by show 0 < 65536; decide, ?_, ?_, h7, h8⟩
  · rcases h5 with h | h
    · exact .inl h
    · exact .inr (by show 0 < e.desc.repeats; omega)
  · show (if e.desc.reference = .markEach ∧ e.desc.markCount ≠ 0 then e.marksLeft - 1 else e.marksLeft) ≤ e.desc.markCount
    split <;> omega

theorem dropOwed_ok {e : Entry} (h : e.ok) : { e with owed := none }.ok := by
  obtain ⟨h1, h2, h3, h4, h5, h6, h7, h8⟩ := h
  exact ⟨h1, h2, h3, h4, h5, h6, fun k => ⟨rfl, (h7 k).2⟩, h8⟩

theorem Settles.keeps {val : AxisId → Int} {i : EntryIx} {r : Verdict} {s u : State} {acts : List OutAction}
    (c : Settles val i r s acts u) (h : FiringOk s) (hr : r.ok) : FiringOk u := by
  cases c with
  | closes c => exact c.keeps h hr
  | owed _ _ _ _ _ a c => exact c.keeps (h.congr rfl rfl) (a.keeps (resolved_ok (dropOwed_ok hr))).1
  | owedUnresolved => exact FiringOk.congr (madeWaiting_firingOk _ _ h (dropOwed_ok hr)) rfl rfl

theorem GivenTarget.keeps {val : AxisId → Int} {i : EntryIx} {e : Entry} {t : Int} {s u : State} {acts : List OutAction}
    (g : GivenTarget val i e t s acts u) (h : FiringOk s) (he : e.ok) : FiringOk u := by
  obtain ⟨_, _, _, _, a, c, _⟩ := g
  exact c.keeps (h.congr rfl rfl) (a.keeps he).1

/-- An event's view of the axes, as a function. -/
abbrev Sees (view : View) (s : State) (val : AxisId → Int) : Prop := ∀ a, viewValue view s a = val a

theorem Sees.congr {view : View} {s t : State} {val : AxisId → Int} (h : Sees view s val) (k : t.axes = s.axes) :
    Sees view t val := by
  intro a
  rw [← h a]
  unfold viewValue
  rw [k]

/-- The verdict on an entry is carried out as R72 to R76 give. -/
theorem settle_settles {view : View} {val : AxisId → Int} (i : EntryIx) (r : Verdict) (w : Work) (hv : Sees view w.st val)
    (h : FiringOk w.st) (hr : r.ok) :
    ∃ acts u, settle view i r w = ⟨u, w.acts ++ acts⟩ ∧ Settles val i r w.st acts u := by
  cases r with
  | armed e t =>
    exact ⟨[], placeArmed i e t w.st, by simp [settle, Work.map], .closes (.armed (placeArmed_madeArmed i e t h.1))⟩
  | ended e cause =>
    unfold settle
    dsimp only
    cases ho : e.owedToUse with
    | none =>
      refine ⟨[], endPlain i e cause w.st, by simp [Work.map], .closes (endPlain_closes i e cause w.st ?_)⟩
      intro h1 h2 h3
      unfold Entry.owedToUse at ho
      rwa [if_pos ⟨h1, by simp [h2], h3⟩] at ho
    | some c =>
      unfold Entry.owedToUse at ho
      split at ho
      case isFalse => simp at ho
      case isTrue hc =>
      obtain ⟨h1, h2, h3⟩ := hc
      have h2 : e.finalBurst = false := by simpa using h2
      dsimp only
      unfold useOwed
      dsimp only
      by_cases hval : c.validities[e.desc.axis] = .valid
      · have e1 : (if c.validities[({ e with owed := none } : Entry).desc.axis] = Validity.valid then
            (match admitNow view i { e with owed := none }.resolve ({ e with owed := none }.targetFrom c) w with
              | (w, r) => w.map (settlePlain i r))
            else w.map (fun s => postUnresolved i { e with owed := none } c (placeWaiting i { e with owed := none } s)))
            = (match admitNow view i { e with owed := none }.resolve ({ e with owed := none }.targetFrom c) w with
              | (w, r) => w.map (settlePlain i r)) := if_pos hval
        rw [e1]
        have hok := resolved_ok (dropOwed_ok hr)
        obtain ⟨acts, posts, r, hq, ha⟩ := admitTarget_admits i { e with owed := none }.resolve
          ({ e with owed := none }.targetFrom c) (viewValue view w.st e.desc.axis) (axisFrozen w.st e.desc.axis)
          (attached w.st e.owner) w hok
        have hq' : admitNow view i { e with owed := none }.resolve ({ e with owed := none }.targetFrom c) w
          = (⟨{ w.st with posted := w.st.posted ++ posts }, w.acts ++ acts⟩, r) := hq
        rw [hq']
        rw [hv] at ha
        have hk := (ha.keeps hok).2
        refine ⟨acts, _, rfl, .owed h1 h2 h3 ho hval ha
          (settlePlain_closes i r (h.congr rfl rfl).1 (fun e' c' hr' _ _ _ => ?_))⟩
        rw [hr'] at hk
        have := congrArg Entry.owed hk
        exact this
      · have e1 : (if c.validities[({ e with owed := none } : Entry).desc.axis] = Validity.valid then
            (match admitNow view i { e with owed := none }.resolve ({ e with owed := none }.targetFrom c) w with
              | (w, r) => w.map (settlePlain i r))
            else w.map (fun s => postUnresolved i { e with owed := none } c (placeWaiting i { e with owed := none } s)))
            = w.map (fun s => postUnresolved i { e with owed := none } c (placeWaiting i { e with owed := none } s)) :=
          if_neg hval
        rw [e1]
        refine ⟨[], postUnresolved i { e with owed := none } c (madeWaiting i { e with owed := none } w.st),
          by simp [Work.map, placeWaiting_eq_madeWaiting], ?_⟩
        have : postUnresolved i { e with owed := none } c (madeWaiting i { e with owed := none } w.st)
            = { madeWaiting i { e with owed := none } w.st with posted := w.st.posted ++ [unresolvedNotice i e c w.st] } := by
          unfold postUnresolved post unresolvedNotice handleAt
          rw [show (madeWaiting i { e with owed := none } w.st).table[i].gen = w.st.table[i].gen by simp [madeWaiting]]
          rfl
        rw [this]
        exact .owedUnresolved h1 h2 h3 ho hval

/-- An entry that gets a target goes to admission, and the outcome is carried out (R53). -/
theorem giveTarget_given {view : View} {val : AxisId → Int} (i : EntryIx) (e : Entry) (t : Int) (w : Work)
    (hv : Sees view w.st val) (h : FiringOk w.st) (he : e.ok) :
    ∃ acts u, giveTarget view i e t w = ⟨u, w.acts ++ acts⟩ ∧ GivenTarget val i e t w.st acts u := by
  obtain ⟨acts, posts, r, hq, ha⟩ := admitTarget_admits i e t (viewValue view w.st e.desc.axis)
    (axisFrozen w.st e.desc.axis) (attached w.st e.owner) w he
  rw [hv] at ha
  obtain ⟨acts₂, u, hs, hs'⟩ := settle_settles (view := view) (val := val) i r
    ⟨{ w.st with posted := w.st.posted ++ posts }, w.acts ++ acts⟩ (hv.congr rfl) (h.congr rfl rfl) (ha.keeps he).1
  refine ⟨acts ++ acts₂, u, ?_, acts, posts, r, acts₂, ha, hs', rfl⟩
  unfold giveTarget admitNow
  rw [hq]
  dsimp only
  rw [hs, List.append_assoc]

/-! ## Crossed sets -/

theorem ScuOnly.axes {s t : State} (h : ScuOnly s t) : t.axes = s.axes := by rw [h]

theorem attached_iff (s : State) (p : Port) : attached s p = true ↔ s.ports[p].state = .attached := by
  unfold attached; simp

theorem crossed_iff (s : State) (d : Direction) (v : Int) (i : EntryIx) :
    crossed s d v i = true ↔ ∃ e ∈ s.table[i].entry, e.crossedBy d v := by
  unfold crossed Entry.crossedBy Approach.admits
  cases s.table[i].entry with
  | none => simp
  | some e =>
    simp only [Option.mem_def, Option.some.injEq, exists_eq_left', Bool.and_eq_true, beq_iff_eq, and_assoc]
    cases e.desc.approach <;> cases d <;> simp

theorem Entry.ok.of_mem {s : State} (h : FiringOk s) {i : EntryIx} {e : Entry} (he : s.table[i].entry = some e) : e.ok :=
  h.2 i e he

/-- The entries of a crossed set are taken as R63, R65 and R66 give. -/
theorem foldl_crossEntry {a : AxisId} {v : Int} {val : AxisId → Int} (l : List EntryIx) (w : Work)
    (hv : Sees (some (a, v)) w.st val) (h : FiringOk w.st) :
    ∃ acts u, l.foldl (crossEntry a v) w = ⟨u, w.acts ++ acts⟩ ∧ Crosses val v l w.st acts u ∧ FiringOk u := by
  induction l generalizing w with
  | nil => exact ⟨[], w.st, by simp, .nil, h⟩
  | cons i l ih =>
    rw [List.foldl_cons]
    cases he : w.st.table[i].entry with
    | none =>
      have e1 : crossEntry a v w i = w := by unfold crossEntry; rw [he]
      rw [e1]
      obtain ⟨acts, u, h1, h2, h3⟩ := ih w hv h
      exact ⟨acts, u, h1, .passed (by rw [he]; simp) h2, h3⟩
    | some e =>
      by_cases hc : e.state = .armed ∧ attached w.st e.owner = true
      · have hok := Entry.ok.of_mem h he
        have hg := afterOccurrence_goesOn e v hok.1
        obtain ⟨acts₁, t, hs, hs'⟩ := settle_settles (view := some (a, v)) (val := val) i (afterOccurrence e v)
          (occur i e v false w) (by rw [occur_eq]; exact hv.congr rfl) (by rw [occur_eq]; exact h.congr rfl rfl)
          (hg.keeps hok).1
        have e1 : crossEntry a v w i = ⟨t, (occur i e v false w).acts ++ acts₁⟩ := by
          unfold crossEntry; rw [he]; dsimp only; rw [if_pos hc, hs]
        rw [occur_eq] at hs' e1
        have hk := hs'.keeps (h.congr rfl rfl) (hg.keeps hok).1
        obtain ⟨acts₂, u, h1, h2, h3⟩ := ih (crossEntry a v w i)
          (hv.congr (crossEntry_scuOnly w a v i).axes) (by rw [e1]; exact hk)
        rw [e1] at h1 h2
        refine ⟨e.sends ++ acts₁ ++ acts₂, u, ?_,
          .occurs he hc.1 ((attached_iff _ _).1 hc.2) hg hs' h2, h3⟩
        rw [e1, h1]
        simp [List.append_assoc]
      · have e1 : crossEntry a v w i = w := by
          unfold crossEntry; rw [he]; dsimp only; rw [if_neg hc]
        rw [e1]
        obtain ⟨acts, u, h1, h2, h3⟩ := ih w hv h
        refine ⟨acts, u, h1, .passed ?_ h2, h3⟩
        rw [he]
        rintro e' ⟨⟩
        by_contra hh
        push Not at hh
        exact hc ⟨hh.1, (attached_iff _ _).2 hh.2⟩

/-! ## Groups -/

/-- The two answers to a handle presented by a port (R33). -/
theorem judgeHandle_cases (s : State) (p : Port) (h : Handle) :
    (∃ e, s.table[h.index].entry = some e ∧ e.owner = p ∧ s.table[h.index].gen = h.gen ∧ judgeHandle s p h = .ok e)
      ∨ ∃ st, judgeHandle s p h = .error st ∧ ∀ e ∈ s.table[h.index].entry, e.owner ≠ p ∨ s.table[h.index].gen ≠ h.gen := by
  unfold judgeHandle
  cases he : s.table[h.index].entry with
  | none => exact .inr ⟨_, rfl, by simp⟩
  | some e =>
    dsimp only
    split
    · rename_i ho
      refine .inr ⟨_, rfl, ?_⟩
      rintro e' ⟨⟩
      exact .inl ho
    · rename_i ho
      split
      · rename_i hg
        refine .inr ⟨_, rfl, ?_⟩
        rintro e' ⟨⟩
        exact .inr hg
      · rename_i hg
        exact .inl ⟨e, rfl, not_not.1 ho, not_not.1 hg, rfl⟩

theorem stopComing_iff (s : State) (m : MarkId) (p : Port) : stopComing s m p = true ↔ StopComing s m p := by
  simp [stopComing, StopComing]

theorem inputStopped_iff (s : State) (m : MarkId) (p : Port) :
    inputStopped s m p = true ↔ s.marks[m].state = .idle ∧ ¬StopComing s m p := by
  simp [inputStopped, ← stopComing_iff]

/-- The operations of a group are taken as R116 gives, and counted. -/
theorem foldl_applyOp {view : View} {val : AxisId → Int} {p : Port} (ops : List GroupOp) (r : ApplyRun)
    (hv : Sees view r.work.st val) (h : FiringOk r.work.st) :
    ∃ acts sk u, OpsTaken val p r.next ops r.work.st acts sk u ∧ FiringOk u ∧ sk.length ≤ ops.length
      ∧ ops.foldl (ApplyRun.take view p) r
        = ⟨⟨u, r.work.acts ++ acts⟩, r.next + ops.length, r.applied + (ops.length - sk.length), r.skipped + sk.length,
            r.first <|> sk.head?⟩ := by
  induction ops generalizing r with
  | nil => exact ⟨[], [], r.work.st, .nil, h, by simp, by simp⟩
  | cons op ops ih =>
    rw [List.foldl_cons]
    -- an operation that is applied
    have applied : ∀ (acts₁ : List OutAction) (t : State), applyOp view p r.work op = (⟨t, r.work.acts ++ acts₁⟩, true) →
        FiringOk t →
        (∀ acts₂ sk u, OpsTaken val p (r.next + 1) ops t acts₂ sk u →
          OpsTaken val p r.next (op :: ops) r.work.st (acts₁ ++ acts₂) sk u) →
        ∃ acts sk u, OpsTaken val p r.next (op :: ops) r.work.st acts sk u ∧ FiringOk u ∧ sk.length ≤ (op :: ops).length
          ∧ ops.foldl (ApplyRun.take view p) (ApplyRun.take view p r op)
            = ⟨⟨u, r.work.acts ++ acts⟩, r.next + (op :: ops).length, r.applied + ((op :: ops).length - sk.length),
                r.skipped + sk.length, r.first <|> sk.head?⟩ := by
      intro acts₁ t hq ht hstep
      have ax := (applyOp_scuOnly r.work view p op).axes
      have e1 : ApplyRun.take view p r op
          = { r with work := ⟨t, r.work.acts ++ acts₁⟩, next := r.next + 1, applied := r.applied + 1 } := by
        unfold ApplyRun.take; rw [hq]; rfl
      rw [hq] at ax
      obtain ⟨acts₂, sk, u, h1, h2, h3, h4⟩ := ih (ApplyRun.take view p r op) (by rw [e1]; exact hv.congr ax)
        (by rw [e1]; exact ht)
      rw [e1] at h1 h4
      refine ⟨acts₁ ++ acts₂, sk, u, hstep _ _ _ h1, h2, by simp; omega, ?_⟩
      rw [e1, h4]
      simp only [List.length_cons, List.append_assoc, ApplyRun.mk.injEq, true_and]
      refine ⟨by omega, by omega, trivial⟩
    -- an operation that is skipped
    have skipped : ∀ (t : State), applyOp view p r.work op = (⟨t, r.work.acts⟩, false) → FiringOk t →
        (∀ acts sk u, OpsTaken val p (r.next + 1) ops t acts sk u →
          OpsTaken val p r.next (op :: ops) r.work.st acts (r.next :: sk) u) →
        ∃ acts sk u, OpsTaken val p r.next (op :: ops) r.work.st acts sk u ∧ FiringOk u ∧ sk.length ≤ (op :: ops).length
          ∧ ops.foldl (ApplyRun.take view p) (ApplyRun.take view p r op)
            = ⟨⟨u, r.work.acts ++ acts⟩, r.next + (op :: ops).length, r.applied + ((op :: ops).length - sk.length),
                r.skipped + sk.length, r.first <|> sk.head?⟩ := by
      intro t hq ht hstep
      have ax := (applyOp_scuOnly r.work view p op).axes
      have e1 : ApplyRun.take view p r op
          = { r with work := ⟨t, r.work.acts⟩, next := r.next + 1, skipped := r.skipped + 1,
                     first := r.first <|> some r.next } := by
        unfold ApplyRun.take; rw [hq]; rfl
      rw [hq] at ax
      obtain ⟨acts, sk, u, h1, h2, h3, h4⟩ := ih (ApplyRun.take view p r op) (by rw [e1]; exact hv.congr ax)
        (by rw [e1]; exact ht)
      rw [e1] at h1 h4
      refine ⟨acts, r.next :: sk, u, hstep _ _ _ h1, h2, by simp; omega, ?_⟩
      rw [e1, h4]
      simp only [List.length_cons, List.head?_cons, ApplyRun.mk.injEq, true_and]
      refine ⟨by omega, by omega, by omega, ?_⟩
      cases r.first <;> rfl
    cases op with
    | arm i b =>
      cases he : r.work.st.table[i].entry with
      | none =>
        exact skipped r.work.st (by unfold applyOp; simp only [he]) h (fun _ _ _ k => .armGone he k)
      | some e =>
        have hok := Entry.ok.of_mem h he
        by_cases ha : e.desc.reference = .absolute
        · obtain ⟨acts₁, t, hg, hg'⟩ := giveTarget_given (view := view) (val := val) i e e.desc.place r.work hv h hok
          exact applied acts₁ t (by unfold applyOp; simp only [he, if_pos ha, hg]) (hg'.keeps h hok)
            (fun _ _ _ k => .armAbsolute he ha hg' k)
        · by_cases hs : b = true ∨ (r.work.st.marks[e.desc.mark].state = .idle ∧ ¬StopComing r.work.st e.desc.mark p)
          · have hs' : (b || inputStopped r.work.st e.desc.mark p) = true := by
              rw [Bool.or_eq_true, inputStopped_iff]; exact hs
            refine skipped (freed i r.work.st) ?_ (freed_firingOk i h) (fun _ _ _ k => .armSkipped he ha hs k)
            unfold applyOp
            simp only [he, if_neg ha, hs', if_true, Work.map, freeEntry_eq_freed]
          · obtain ⟨hb, hi⟩ := not_or.1 hs
            obtain rfl : b = false := by simpa using hb
            refine applied [] (madeWaiting i e r.work.st) ?_ (madeWaiting_firingOk i e h hok)
              (fun _ _ _ k => .armWaits he ha (or_iff_not_imp_left.2 fun h => not_not.1 fun k => hi ⟨not_not.1 h, k⟩) k)
            have hs' : (false || inputStopped r.work.st e.desc.mark p) = false := by
              rw [Bool.false_or, Bool.eq_false_iff, Ne, inputStopped_iff]; exact hi
            unfold applyOp
            simp only [he, if_neg ha, hs', Work.map, placeWaiting_eq_madeWaiting, List.append_nil, Bool.false_eq_true, if_false]
    | cancel hd =>
      rcases judgeHandle_cases r.work.st p hd with ⟨e, he, ho, hg, hq⟩ | ⟨st, hq, hn⟩
      · by_cases hst : e.state = .staged
        · refine skipped r.work.st (by unfold applyOp; simp only [hq, if_pos hst]) h (fun _ _ _ k => .cancelSkipped ?_ k)
          rw [he]
          rintro e' ⟨⟩
          exact .inr (.inr hst)
        · refine applied [] (freed hd.index r.work.st) ?_ (freed_firingOk _ h) (fun _ _ _ k => .cancel he ho hg hst k)
          unfold applyOp
          simp only [hq, if_neg hst, Work.map, freeEntry_eq_freed, List.append_nil]
      · refine skipped r.work.st (by unfold applyOp; simp only [hq]) h (fun _ _ _ k => .cancelSkipped ?_ k)
        intro e he
        rcases hn e he with h | h
        · exact .inl h
        · exact .inr (.inl h)
    | drive mask act width =>
      exact applied (actionsFor p mask act width) r.work.st rfl h (fun _ _ _ k => .drive k)

/-- A group applies as R116 to R118 give. -/
theorem applyGroup_applies {view : View} {val : AxisId → Int} (p : Port) (at_ : AppliedAt) (w : Work)
    (hv : Sees view w.st val) (h : FiringOk w.st) :
    ∃ acts u, applyGroup view p at_ w = ⟨u, w.acts ++ acts⟩ ∧ GroupApplies val p at_ w.st acts u ∧ FiringOk u := by
  obtain ⟨acts, sk, u, h1, h2, h3, h4⟩ := foldl_applyOp (view := view) (val := val) (p := p) w.st.groups[p].ops
    { work := w, next := 0, applied := 0, skipped := 0, first := none } hv h
  refine ⟨acts, groupApplied p at_ w.st.groups[p].ops.length sk u, ?_, ⟨sk, u, h1, rfl⟩, h2.congr rfl rfl⟩
  unfold applyGroup
  dsimp only
  rw [h4]
  simp only [Work.map, closeGroup_eq, post, groupApplied, Nat.zero_add]
  rfl

/-- The pending groups that an event reaches apply as R115 gives. -/
theorem applyReached_reaches {view : View} {val : AxisId → Int} (at_ : AppliedAt) (b : Boundary) (w : Work)
    (hv : Sees view w.st val) (h : FiringOk w.st) :
    ∃ acts u, applyReached view at_ (fun c => c == b) w = ⟨u, w.acts ++ acts⟩
      ∧ Reaches val at_ b w.st.pendingGroups w.st acts u ∧ FiringOk u := by
  unfold applyReached
  generalize w.st.pendingGroups = l
  induction l generalizing w with
  | nil => exact ⟨[], w.st, by simp, .nil, h⟩
  | cons p l ih =>
    rw [List.foldl_cons]
    dsimp only
    have hiff : (w.st.groups[p].state = .pending ∧ (w.st.groups[p].boundary.any (fun c => c == b)) = true
          ∧ attached w.st p = true)
        ↔ (w.st.groups[p].state = .pending ∧ w.st.groups[p].boundary = some b ∧ w.st.ports[p].state = .attached) := by
      rw [attached_iff]
      cases w.st.groups[p].boundary <;> simp
    by_cases hc : w.st.groups[p].state = .pending ∧ w.st.groups[p].boundary = some b ∧ w.st.ports[p].state = .attached
    · rw [if_pos (hiff.2 hc)]
      obtain ⟨acts₁, t, g1, g2, g3⟩ := applyGroup_applies p at_ w hv h
      have ax := (applyGroup_scuOnly w view p at_).axes
      rw [g1] at ax ⊢
      obtain ⟨acts₂, u, k1, k2, k3⟩ := ih ⟨t, w.acts ++ acts₁⟩ (hv.congr ax) g3
      refine ⟨acts₁ ++ acts₂, u, ?_, .applies hc.1 hc.2.1 hc.2.2 g2 k2, k3⟩
      rw [k1, List.append_assoc]
    · rw [if_neg (fun k => hc (hiff.1 k))]
      obtain ⟨acts, u, k1, k2, k3⟩ := ih w hv h
      exact ⟨acts, u, k1, .passed hc k2, k3⟩

/-! ## Marks -/

theorem giveOwed_firingOk {s : State} (c : Capture) (i : EntryIx) (e : Entry) (x : State) (h : FiringOk s)
    (he : s.table[i].entry = some e) (hm : e.desc.reference = .markEach)
    (hx : x.table = upd s.table i ⟨s.table[i].gen, some { e with owed := some c }⟩) (hd : x.due = s.due) : FiringOk x := by
  have hok := Entry.ok.of_mem h he
  refine ⟨fun a => ?_, entriesOk_upd hx h.2 ?_⟩
  · rw [hd]
    refine (h.1 a).imp_of_mem ?_
    intro j k _ _ hjk
    have ht : ∀ j, targetAt x j = targetAt s j := by
      intro j
      rcases eq_or_ne j i with rfl | hj
      · unfold targetAt
        rw [hx, show (upd s.table j _)[j] = _ from getElem_upd_self .., he]
        rfl
      · exact targetAt_upd_ne hx hj
    rw [ht, ht]
    exact hjk
  · rintro e' ⟨⟩
    obtain ⟨h1, h2, h3, h4, h5, h6, h7, h8⟩ := hok
    exact ⟨h1, h2, h3, h4, h5, h6, fun k => absurd hm k, h8⟩

/-- The entries of an owed-mark set take the mark as R95 gives. -/
theorem foldl_giveOwed (c : Capture) (l : List EntryIx) (s : State) (h : FiringOk s)
    (hl : ∀ i ∈ l, ∀ e ∈ s.table[i].entry, e.desc.reference = .markEach) :
    Owes c l s (l.foldl (giveOwed c) s) ∧ FiringOk (l.foldl (giveOwed c) s) := by
  induction l generalizing s with
  | nil => exact ⟨.nil, h⟩
  | cons i l ih =>
    rw [List.foldl_cons]
    have hl' := fun j hj => hl j (List.mem_cons_of_mem _ hj)
    cases he : s.table[i].entry with
    | none =>
      have e1 : giveOwed c s i = s := by unfold giveOwed; rw [he]
      rw [e1]
      obtain ⟨h1, h2⟩ := ih s h hl'
      exact ⟨.passed (by rw [he]; simp) h1, h2⟩
    | some e =>
      have hm : e.desc.reference = .markEach := hl i (by simp) e he
      by_cases hc : e.finalBurst = true ∨ e.spent
      · have e1 : giveOwed c s i = s := by unfold giveOwed; rw [he]; exact if_pos hc
        rw [e1]
        obtain ⟨h1, h2⟩ := ih s h hl'
        refine ⟨.passed ?_ h1, h2⟩
        rw [he]
        rintro e' ⟨⟩
        exact hc
      · have hf : e.finalBurst = false := by
          by_contra k; exact hc (.inl (by simpa using k))
        have hs : ¬e.spent := fun k => hc (.inr k)
        have next : ∀ x : State, x.table = upd s.table i ⟨s.table[i].gen, some { e with owed := some c }⟩ →
            ∀ j ∈ l, ∀ e' ∈ x.table[j].entry, e'.desc.reference = .markEach := by
          intro x hx j hj e' he'
          rw [hx] at he'
          rcases eq_or_ne i j with rfl | hij
          · rw [show (upd s.table i _)[i] = _ from getElem_upd_self ..] at he'
            cases he'
            exact hm
          · rw [show (upd s.table i _)[j] = s.table[j] from getElem_upd_ne _ _ hij] at he'
            exact hl' j hj e' he'
        cases ho : e.owed with
        | none =>
          have e1 : giveOwed c s i
              = { s with table := upd s.table i ⟨s.table[i].gen, some { e with owed := some c }⟩ } := by
            unfold giveOwed; rw [he]; dsimp only; rw [if_neg hc, ho]; rfl
          rw [e1]
          obtain ⟨h1, h2⟩ := ih _ (giveOwed_firingOk c i e
            { s with table := upd s.table i ⟨s.table[i].gen, some { e with owed := some c }⟩ } h he hm rfl rfl)
            (next _ rfl)
          exact ⟨.takes he hf hs ho h1, h2⟩
        | some old =>
          have e1 : giveOwed c s i
              = { s with
                  table := upd s.table i ⟨s.table[i].gen, some { e with owed := some c }⟩
                  posted := s.posted
                    ++ [⟨.markOverrun ⟨i, s.table[i].gen⟩ e.desc.tag c.input old.seq c.seq, [e.owner]⟩] } := by
            unfold giveOwed; rw [he]; dsimp only; rw [if_neg hc, ho]
            simp [post, writeEntry, handleAt, State.setSlot]
          rw [e1]
          obtain ⟨h1, h2⟩ := ih _ (giveOwed_firingOk c i e
            { s with
                table := upd s.table i ⟨s.table[i].gen, some { e with owed := some c }⟩
                posted := s.posted
                  ++ [⟨.markOverrun ⟨i, s.table[i].gen⟩ e.desc.tag c.input old.seq c.seq, [e.owner]⟩] }
            h he hm rfl rfl) (next _ rfl)
          exact ⟨.replaces he hf hs ho h1, h2⟩

/-- The entries of a resolution walk are taken as R93 and R94 give. -/
theorem foldl_resolveEntry {val : AxisId → Int} (c : Capture) (l : List EntryIx) (w : Work)
    (hv : Sees none w.st val) (h : FiringOk w.st) :
    ∃ acts u, l.foldl (resolveEntry c) w = ⟨u, w.acts ++ acts⟩ ∧ Resolves val c l w.st acts u ∧ FiringOk u := by
  induction l generalizing w with
  | nil => exact ⟨[], w.st, by simp, .nil, h⟩
  | cons i l ih =>
    rw [List.foldl_cons]
    cases he : w.st.table[i].entry with
    | none =>
      have e1 : resolveEntry c w i = w := by unfold resolveEntry; rw [he]
      rw [e1]
      obtain ⟨acts, u, h1, h2, h3⟩ := ih w hv h
      exact ⟨acts, u, h1, .passed (by rw [he]; simp) h2, h3⟩
    | some e =>
      have hok := Entry.ok.of_mem h he
      by_cases hw : e.state = .waiting
      · by_cases hval : c.validities[e.desc.axis] = .valid
        · obtain ⟨acts₁, t, g1, g2⟩ := giveTarget_given (view := none) (val := val) i e.resolve (e.targetFrom c) w hv h
            (resolved_ok hok)
          have e1 : resolveEntry c w i = ⟨t, w.acts ++ acts₁⟩ := by
            unfold resolveEntry; rw [he]; dsimp only; rw [if_neg (not_not.2 hw), if_pos hval, g1]
          have ax := (resolveEntry_scuOnly w c i).axes
          rw [e1] at ax ⊢
          obtain ⟨acts₂, u, h1, h2, h3⟩ := ih ⟨t, w.acts ++ acts₁⟩ (hv.congr ax) (g2.keeps h (resolved_ok hok))
          exact ⟨acts₁ ++ acts₂, u, by rw [h1, List.append_assoc], .resolved he hw hval g2 h2, h3⟩
        · have e1 : resolveEntry c w i
              = ⟨{ w.st with posted := w.st.posted ++ [unresolvedNotice i e c w.st] }, w.acts⟩ := by
            unfold resolveEntry; rw [he]; dsimp only; rw [if_neg (not_not.2 hw), if_neg hval]; rfl
          rw [e1]
          obtain ⟨acts, u, h1, h2, h3⟩ := ih ⟨{ w.st with posted := w.st.posted ++ [unresolvedNotice i e c w.st] }, w.acts⟩
            (hv.congr rfl) (h.congr rfl rfl)
          exact ⟨acts, u, h1, .unresolved he hw hval h2, h3⟩
      · have e1 : resolveEntry c w i = w := by unfold resolveEntry; rw [he]; dsimp only; rw [if_pos hw]
        rw [e1]
        obtain ⟨acts, u, h1, h2, h3⟩ := ih w hv h
        refine ⟨acts, u, h1, .passed ?_ h2, h3⟩
        rw [he]
        rintro e' ⟨⟩
        exact hw

theorem done_eq_sent (w : Work) : w.done = sent w.st w.acts := by
  unfold Work.done sent
  cases w.acts <;> simp

end Sys2Proof.Machine
end

