-- ==== Sys2Proof/Laws/Answers.lean ====
section
/-! SUPPORT. What the questions that one block asks another answer, in the words of the rules: references to an axis (R13),
owned channels (R139), holders of entries (R24), and the late test of an ARM (R42). -/

namespace Sys2Proof.Machine

/-- The non-FREE entries are the records of the table. -/
theorem mem_entriesOf (s : State) (e : Entry) : e ∈ entriesOf s ↔ ∃ i : EntryIx, s.table[i].entry = some e := by
  unfold entriesOf
  simp only [List.mem_filterMap, Vector.mem_toList_iff, Vector.mem_iff_getElem]
  constructor
  · rintro ⟨x, ⟨i, hi, rfl⟩, h⟩
    exact ⟨⟨i, hi⟩, h⟩
  · rintro ⟨i, h⟩
    exact ⟨s.table[i], ⟨i.val, i.isLt, rfl⟩, h⟩

theorem pendingOn_iff (s : State) (a : AxisId) (q : Port) :
    (match s.groups[q].boundary with
      | some (.atPosition b _ _) => b == a
      | _ => false) = true ↔ ∃ v d, s.groups[q].boundary = some (.atPosition a v d) := by
  cases s.groups[q].boundary with
  | none => simp
  | some b => cases b <;> simp

theorem mem_axisReferences (s : State) (a : AxisId) (o : Option Port) : o ∈ axisReferences s a ↔
    (∃ i : EntryIx, ∃ e ∈ s.table[i].entry, e.desc.axis = a ∧ some e.owner = o)
      ∨ (∃ m : MarkId, s.marks[m].state ≠ .idle ∧ s.marks[m].refAxis = a ∧ s.marks[m].holder = o)
      ∨ ∃ q : Port, some q = o ∧ s.groups[q].state = .pending ∧ ∃ v d, s.groups[q].boundary = some (.atPosition a v d) := by
  unfold axisReferences
  rw [List.mem_append, List.mem_append, or_assoc]
  refine or_congr ?_ (or_congr ?_ ?_)
  · simp only [List.mem_map, List.mem_filter, mem_entriesOf, beq_iff_eq]
    constructor
    · rintro ⟨e, ⟨⟨i, h⟩, h2⟩, h3⟩
      exact ⟨i, e, h, h2, h3⟩
    · rintro ⟨i, e, h, h2, h3⟩
      exact ⟨e, ⟨⟨i, h⟩, h2⟩, h3⟩
  · simp only [List.mem_map, List.mem_filter, Vector.mem_toList_iff, Vector.mem_iff_getElem, Bool.and_eq_true, bne_iff_ne,
      beq_iff_eq]
    constructor
    · rintro ⟨r, ⟨⟨i, hi, rfl⟩, h2, h3⟩, h4⟩
      exact ⟨⟨i, hi⟩, h2, h3, h4⟩
    · rintro ⟨m, h2, h3, h4⟩
      exact ⟨s.marks[m], ⟨⟨m.val, m.isLt, rfl⟩, h2, h3⟩, h4⟩
  · simp only [List.mem_map, List.mem_filter, List.mem_finRange, true_and, Bool.and_eq_true, beq_iff_eq]
    constructor
    · rintro ⟨q, ⟨h1, h2⟩, h3⟩
      exact ⟨q, h3, h1, (pendingOn_iff s a q).1 h2⟩
    · rintro ⟨q, h3, h1, h2⟩
      exact ⟨q, ⟨h1, (pendingOn_iff s a q).2 h2⟩, h3⟩

/-- The all-ports reference test (R13). -/
theorem axisReferenced_iff (s : State) (a : AxisId) : axisReferenced s a = true ↔ Referenced s a := by
  unfold axisReferenced Referenced
  rw [Bool.not_eq_true', List.isEmpty_eq_false_iff_exists_mem]
  simp only [mem_axisReferences]
  constructor
  · rintro ⟨o, ⟨i, e, h, h2, _⟩ | ⟨m, h1, h2, _⟩ | ⟨q, _, h1, h2⟩⟩
    · exact .inl ⟨i, e, h, h2⟩
    · exact .inr (.inl ⟨m, h1, h2⟩)
    · exact .inr (.inr ⟨q, h1, h2⟩)
  · rintro (⟨i, e, h, h2⟩ | ⟨m, h1, h2⟩ | ⟨q, h1, h2⟩)
    · exact ⟨_, .inl ⟨i, e, h, h2, rfl⟩⟩
    · exact ⟨_, .inr (.inl ⟨m, h1, h2, rfl⟩)⟩
    · exact ⟨_, .inr (.inr ⟨q, rfl, h1, h2⟩)⟩

/-- The foreign reference test (R13). -/
theorem axisForeign_iff (s : State) (a : AxisId) (p : Port) : axisForeign s a p = true ↔ ForeignReferenced s a p := by
  unfold axisForeign ForeignReferenced
  simp only [List.any_eq_true, mem_axisReferences, bne_iff_ne]
  constructor
  · rintro ⟨o, ⟨i, e, h, h2, rfl⟩ | ⟨m, h1, h2, rfl⟩ | ⟨q, rfl, h1, h2⟩, hne⟩
    · exact .inl ⟨i, e, h, h2, fun k => hne (by rw [k])⟩
    · exact .inr (.inl ⟨m, h1, h2, hne⟩)
    · exact .inr (.inr ⟨q, fun k => hne (by rw [k]), h1, h2⟩)
  · rintro (⟨i, e, h, h2, h3⟩ | ⟨m, h1, h2, h3⟩ | ⟨q, h3, h1, h2⟩)
    · exact ⟨_, .inl ⟨i, e, h, h2, rfl⟩, fun k => h3 (Option.some.inj k)⟩
    · exact ⟨_, .inr (.inl ⟨m, h1, h2, rfl⟩), h3⟩
    · exact ⟨_, .inr (.inr ⟨q, rfl, h1, h2⟩), fun k => h3 (Option.some.inj k)⟩

theorem axisForeign_false_iff (s : State) (a : AxisId) (p : Port) :
    axisForeign s a p = false ↔ ¬ForeignReferenced s a p := by
  rw [← axisForeign_iff, Bool.not_eq_true]

theorem axisReferenced_false_iff (s : State) (a : AxisId) : axisReferenced s a = false ↔ ¬Referenced s a := by
  rw [← axisReferenced_iff, Bool.not_eq_true]

/-- Whether a port owns every channel of a mask (R41, R139). -/
theorem ownsMask_iff (s : State) (p : Port) (mask : BitVec 12) :
    ownsMask s p mask = true ↔ ∀ c : ChanId, mask.getLsbD c.val = true → s.chans[c].owner = some p := by
  unfold ownsMask maskChans
  simp only [List.all_eq_true, List.mem_filter, List.mem_finRange, true_and, beq_iff_eq]

/-- The ports that hold an entry on an axis (R24). -/
theorem mem_entryHolders (s : State) (a : AxisId) (p : Port) :
    p ∈ entryHolders s a ↔ ∃ i : EntryIx, ∃ e ∈ s.table[i].entry, e.owner = p ∧ e.desc.axis = a := by
  unfold entryHolders
  simp only [List.mem_filter, List.mem_finRange, true_and, List.any_eq_true, Bool.and_eq_true, beq_iff_eq, mem_entriesOf]
  constructor
  · rintro ⟨e, ⟨i, h⟩, h2⟩
    exact ⟨i, e, h, h2⟩
  · rintro ⟨i, e, h, h2⟩
    exact ⟨e, ⟨i, h⟩, h2⟩

/-- The late test of an immediate ARM (R42). -/
theorem lateRefused_iff (s : State) (d : TriggerDesc) (hi : d.repeats ≠ 1 → 1 ≤ d.interval) (hp : inRange d.place = true) :
    lateRefused s d = true ↔ ArmLate s d := by
  unfold lateRefused ArmLate
  simp only [Bool.and_eq_true, beq_iff_eq, bne_iff_ne, Bool.or_eq_true, decide_eq_true_eq, Bool.not_eq_true', and_assoc,
    advance_eq_member]
  refine and_congr_right fun _ => and_congr_right fun _ => ?_
  rw [and_left_comm]
  refine and_congr_right fun _ => ?_
  set v := s.axes[d.axis].value
  have hz : ∀ n, inRange (d.member d.place n) = false → n ≠ 0 := by
    rintro n h rfl
    rw [TriggerDesc.member_zero, hp] at h
    cases h
  constructor
  · rintro ⟨hne, h⟩
    rcases Nat.eq_zero_or_pos d.interval with h0 | h0
    · have h1 : d.repeats = 1 := by
        by_contra k
        have := hi k
        omega
      have hb : d.behind d.place v := by
        by_contra k
        have hbc : behindCount d.approach d.interval d.place v = 0 := by
          unfold behindCount
          unfold TriggerDesc.behind at k
          push Not at k
          cases ha : d.approach
          · have := k.1 ha
            simp only [h0, if_true]
            rw [if_pos (by omega)]
          · have := k.2 ha
            simp only [h0, if_true]
            rw [if_pos (by omega)]
          · exact absurd ha hne
        rw [hbc] at h
        rcases h with h | h
        · omega
        · exact hz 0 h rfl
      refine ⟨1, fun j hj => ?_, .inl ⟨by omega, by omega⟩⟩
      have : j = 0 := by omega
      rw [this, TriggerDesc.member_zero]
      exact hb
    · obtain ⟨s1, s2⟩ := behindCount_spec d d.place v h0
      rcases h with ⟨hr, hle⟩ | h
      · exact ⟨d.repeats, fun j hj => s1 j (by omega), .inl ⟨hr, rfl⟩⟩
      · exact ⟨_, s1, .inr ⟨s2, h⟩⟩
  · rintro ⟨n, hb, h⟩
    have hn : n ≠ 0 := by
      rcases h with ⟨h1, rfl⟩ | ⟨_, h⟩
      · exact h1
      · exact hz n h
    have hb0 := hb 0 (by omega)
    rw [TriggerDesc.member_zero] at hb0
    refine ⟨by rcases hb0 with ⟨h, _⟩ | ⟨h, _⟩ <;> rw [h] <;> decide, ?_⟩
    rcases Nat.eq_zero_or_pos d.interval with h0 | h0
    · have h1 : d.repeats = 1 := by
        by_contra k
        have := hi k
        omega
      left
      refine ⟨by omega, ?_⟩
      unfold behindCount
      rcases hb0 with ⟨ha, hl⟩ | ⟨ha, hl⟩
      · simp only [ha, h0, if_true]; rw [if_neg (by omega)]; omega
      · simp only [ha, h0, if_true]; rw [if_neg (by omega)]; omega
    · obtain ⟨s1, s2⟩ := behindCount_spec d d.place v h0
      set N := behindCount d.approach d.interval d.place v
      have hle : n ≤ N := by
        by_contra k
        exact s2 (hb N (by omega))
      rcases h with ⟨h1, rfl⟩ | ⟨h1, h2⟩
      · exact .inl ⟨h1, hle⟩
      · right
        have : n = N := by
          by_contra k
          exact h1 (s1 n (by omega))
        rw [← this]
        exact h2

end Sys2Proof.Machine
end

