-- ==== Sys2Proof/Laws/Bytes.lean ====
section
/-! SUPPORT. Little-endian fields written and read back (spec/09_frame_record_and_notice_layouts.md, Offsets). -/

namespace Sys2Proof

@[simp] theorem leBytes_length (k n : Nat) : (leBytes k n).length = k := by
  induction k generalizing n with
  | zero => rfl
  | succ k ih => simp [leBytes, ih]

theorem leValue_leBytes (k n : Nat) : leValue (leBytes k n) = n % 256 ^ k := by
  induction k generalizing n with
  | zero => simp [leBytes, leValue, Nat.mod_one]
  | succ k ih =>
    simp only [leBytes, leValue, ih, BitVec.toNat_ofNat]
    rw [show 256 ^ (k + 1) = 256 * 256 ^ k from pow_succ' 256 k, Nat.mod_mul]

theorem leValue_lt (bs : List Byte) : leValue bs < 256 ^ bs.length := by
  induction bs with
  | nil => simp [leValue]
  | cons b bs ih =>
    have hb : b.toNat < 256 := b.isLt
    simp only [leValue, List.length_cons, Nat.pow_succ]
    omega

theorem leBytes_leValue (bs : List Byte) : leBytes bs.length (leValue bs) = bs := by
  induction bs with
  | nil => rfl
  | cons b bs ih =>
    have hb : b.toNat < 256 := b.isLt
    simp only [leValue, List.length_cons, leBytes, List.cons.injEq]
    refine ⟨BitVec.eq_of_toNat_eq ?_, ?_⟩
    · simp; omega
    · rw [show (b.toNat + 256 * leValue bs) / 256 = leValue bs by omega, ih]

@[simp] theorem leInt48_length (x : Int) : (leInt48 x).length = 6 := leBytes_length _ _

/-- A signed 48-bit field is read back as it was written. -/
theorem signed48_leInt48 {x : Int} (h1 : -140737488355328 ≤ x) (h2 : x < 140737488355328) :
    signed48 (leValue (leInt48 x)) = x := by
  rw [leInt48, leValue_leBytes, signed48]
  split <;> omega

/-- A 48-bit field is written back as it was read. -/
theorem leInt48_signed48 {bs : List Byte} (h : bs.length = 6) : leInt48 (signed48 (leValue bs)) = bs := by
  have hlt := leValue_lt bs
  rw [h] at hlt
  have e : (signed48 (leValue bs) % 281474976710656).toNat = leValue bs := by
    rw [signed48]
    split <;> omega
  rw [leInt48, e, ← h, leBytes_leValue]

/-- The field that stands between two parts of a payload. -/
theorem field_mid (pre mid post : List Byte) {off size : Nat} (h1 : off = pre.length) (h2 : size = mid.length) :
    field (pre ++ mid ++ post) off size = leValue mid := by
  subst h1 h2
  simp [field]

theorem field_cons (b : Byte) (bs : List Byte) (off size : Nat) : field (b :: bs) (off + 1) size = field bs off size := by
  simp [field]

theorem field_zero {bs : List Byte} {size : Nat} (h : size = bs.length) : field bs 0 size = leValue bs := by
  subst h
  simp [field]

theorem field_append {bs cs : List Byte} {size : Nat} (h : size = bs.length) : field (bs ++ cs) 0 size = leValue bs := by
  subst h
  simp [field]

theorem field_one (b : Byte) (bs : List Byte) : field (b :: bs) 0 1 = b.toNat := by
  simp [field, leValue]

theorem field_lt (pl : List Byte) (off size : Nat) : field pl off size < 256 ^ size := by
  refine lt_of_lt_of_le (leValue_lt _) (Nat.pow_le_pow_right (by norm_num) ?_)
  simp

namespace Machine

@[simp] theorem byte_toNat (n : Nat) : (byte n).toNat = n % 256 := by simp [byte]

theorem leBytes_one (n : Nat) : leBytes 1 n = [byte n] := rfl

end Machine

end Sys2Proof
end

