-- ==== Sys2Proof/Laws/Frames.lean ====
section
/-! SUPPORT. What the taking of a frame does, once for all commands (R142 to R146). -/

namespace Sys2Proof.Machine

theorem renewLease_raiseSelect (p : Port) (s : State) : renewLease p (raiseSelect p s) = leaseRenewed s p := by
  unfold renewLease raiseSelect leaseRenewed attached PortRec.renewed State.setPort
  by_cases h : s.ports[p].state = .attached <;> simp_all

theorem atRise_taken {p : Port} {run : State → State} {s : State} (h : Taken s p) :
    atRise p run s = run (raiseSelect p s) := by
  obtain ⟨h1, h2⟩ := h
  rw [Fin.getElem_fin] at h2
  simp [atRise, h1, h2]

theorem atRise_not_taken {p : Port} {run : State → State} {s : State} (h : ¬ Taken s p) :
    atRise p run s = raiseSelect p s := by
  unfold atRise
  rw [if_pos]
  by_contra hc
  simp only [Bool.or_eq_true, beq_iff_eq, not_or, Bool.not_eq_true] at hc
  exact h ⟨hc.1, hc.2⟩

@[simp] theorem leaseRenewed_ports (s : State) (p : Port) :
    (leaseRenewed s p).ports = upd s.ports p s.ports[p].renewed := rfl

@[simp] theorem renewed_state (r : PortRec) : r.renewed.state = r.state := rfl

theorem respond_refuse_leaseRenewed (s : State) (p : Port) (c : Command) (st : Status) :
    respond p c.code (.refuse st) (leaseRenewed s p) = refused s p c st := by
  simp [respond, leaseRenewed, refused, answered, refusal, Answer.refuse, State.setPort]

theorem command_length_le (c : Command) : c.length ≤ 58 := by cases c <;> decide

theorem stateRefusal_attached (c : Command) : stateRefusal c .attached = none := by cases c <;> rfl

/-- The stored answer of a command whose act changed no port record. -/
theorem respond_of_ports {s u : State} {p : Port} (c : Command) (ans : Answer)
    (h : u.ports = upd s.ports p s.ports[p].renewed) :
    respond p c.code ans u = { u with ports := answered s p ⟨ans.status, c.code, ans.payload⟩ } := by
  simp [respond, answered, State.setPort, h]

/-- A frame that is taken and whose payload fits (R145): the lease is renewed, and then come the checks of R145. -/
theorem takeFrame_taken {p : Port} {c : Command} {pl : List Byte} {act : State → State × Answer} {s : State}
    (h : Taken s p) (hm : pl.length ≤ 58) :
    takeFrame p c pl act s =
      if pl.length ≠ c.length then refused s p c .badLength
      else
        match stateRefusal c s.ports[p].state with
        | some st => refused s p c st
        | none => respond p c.code (act (leaseRenewed s p)).2 (act (leaseRenewed s p)).1 := by
  have hm : ¬ Config.maxPayload < pl.length := by unfold Config.maxPayload; omega
  unfold takeFrame
  rw [atRise_taken h]
  simp only [if_neg hm, renewLease_raiseSelect, respond_refuse_leaseRenewed, Fin.getElem_fin, leaseRenewed_ports,
    getElem_upd_self, renewed_state]
  try rfl

/-- A command of the right length on a port whose state admits it: the owning block acts, and its answer is stored. -/
theorem takeFrame_admitted {p : Port} {c : Command} {pl : List Byte} {act : State → State × Answer} {s : State}
    (h : Taken s p) (hl : pl.length = c.length) (hs : stateRefusal c s.ports[p].state = none) :
    takeFrame p c pl act s = respond p c.code (act (leaseRenewed s p)).2 (act (leaseRenewed s p)).1 := by
  rw [takeFrame_taken h (hl ▸ command_length_le c), if_neg (not_not.mpr hl), hs]

/-- The same for a port that is ATTACHED. -/
theorem takeFrame_attached {p : Port} {c : Command} {pl : List Byte} {act : State → State × Answer} {s : State}
    (h : Admitted s p) (hl : pl.length = c.length) :
    takeFrame p c pl act s = respond p c.code (act (leaseRenewed s p)).2 (act (leaseRenewed s p)).1 :=
  takeFrame_admitted h.1 hl (by rw [h.2]; exact stateRefusal_attached c)

/-- A command refused by the port state (R145, check 3). -/
theorem takeFrame_state_refused {p : Port} {c : Command} {pl : List Byte} {act : State → State × Answer} {s : State}
    {st : Status} (h : Taken s p) (hl : pl.length = c.length) (hs : stateRefusal c s.ports[p].state = some st) :
    takeFrame p c pl act s = refused s p c st := by
  rw [takeFrame_taken h (hl ▸ command_length_le c), if_neg (not_not.mpr hl), hs]

/-- A command of a wrong length (R145, check 2). -/
theorem takeFrame_bad_length {p : Port} {c : Command} {pl : List Byte} {act : State → State × Answer} {s : State}
    (h : Taken s p) (hm : pl.length ≤ 58) (hl : pl.length ≠ c.length) :
    takeFrame p c pl act s = refused s p c .badLength := by
  rw [takeFrame_taken h hm, if_pos hl]

end Sys2Proof.Machine
end

