-- ==== Sys2Proof/Laws/Marks.lean ====
section
/-! SUPPORT. What the MKU's operations on one mark input do, as effects at that input (Safety.lean): a counted mark, a miss, a
deferred miss, a judged capture and a step, and a step at the four inputs. -/

namespace Sys2Proof.Machine

theorem substituteMark_eq (m : MarkId) (l : Int) (s : State) :
    substituteMark m l s = MarkEffect.on ⟨
      { s.marks[m] with
        misses := s.marks[m].misses + 1, deferred := false, seq := s.marks[m].seq + 1
        last := some ⟨s.marks[m].direction.beyond l s.marks[m].pitch, s.marks[m].seq + 1⟩
        history := (⟨m, .substituted, s.marks[m].seq + 1, s.uptime,
          upd (snapshotValues s) s.marks[m].refAxis (s.marks[m].direction.beyond l s.marks[m].pitch),
          snapshotValidities s⟩ :: s.marks[m].history).take 8 },
      [⟨.markCaptured m .substituted (s.marks[m].seq + 1) (s.marks[m].direction.beyond l s.marks[m].pitch)
        (s.marks[m].misses + 1), []⟩],
      [.mark ⟨m, .substituted, s.marks[m].seq + 1, s.uptime,
          upd (snapshotValues s) s.marks[m].refAxis (s.marks[m].direction.beyond l s.marks[m].pitch),
          snapshotValidities s⟩]⟩ m s := by
  unfold substituteMark countMark MarkEffect.on tellScu post State.setMark
  simp [Config.historyCapacity]

/-- A miss at a TRACKING input with no pending capture (R88, R89). -/
theorem declareMiss_eq (m : MarkId) (l : LastMark) (s : State) (hs : s.marks[m].state = .tracking)
    (hc : s.marks[m].capture = none) (hl : s.marks[m].last = some l) :
    declareMiss m s = (s.marks[m].missed m l s).on m s := by
  unfold declareMiss
  simp only [hl]
  unfold MarkRec.missed
  by_cases h : s.marks[m].misses < s.marks[m].missLimit
  · rw [if_pos h, if_pos h, substituteMark_eq]
    unfold MarkRec.counted Direction.beyond snapshotValues snapshotValidities
    rw [Fin.getElem_fin] at hs hc
    cases hd : s.marks[m].direction <;> rw [Fin.getElem_fin] at hd <;> simp [MarkEffect.on, hs, hc, hd]
  · rw [if_neg h, if_neg h]
    unfold loseMarks postLost MarkEffect.on MarkRec.enter post State.setMark MarkRec.lastSeq
    rw [Fin.getElem_fin] at hl
    simp [hl]

theorem limit_eq (r : MarkRec) (l : LastMark) : r.lateLimit l.ref = r.limit l := by
  unfold MarkRec.lateLimit MarkRec.limit Direction.beyond
  cases r.direction <;> push_cast <;> ring_nf

theorem setMark_get (s : State) (m : MarkId) (r : MarkRec) : (s.setMark m r).marks[m] = r := getElem_upd_self ..

theorem on_setMark (x : MarkEffect) (m : MarkId) (s : State) (r : MarkRec) : x.on m (s.setMark m r) = x.on m s := by
  unfold MarkEffect.on State.setMark; simp

/-- A deferred miss whose capture is gone (R87). -/
theorem resolveDeferred_eq (m : MarkId) (l : LastMark) (s : State) (hs : s.marks[m].state = .tracking)
    (hc : s.marks[m].capture = none) (hl : s.marks[m].last = some l) :
    resolveDeferred m s = (s.marks[m].deferredMiss m l s).on m s := by
  have hdecl := declareMiss_eq m l (s.setMark m { s.marks[m] with deferred := false }) (by rw [setMark_get]; exact hs)
    (by rw [setMark_get]; exact hc) (by rw [setMark_get]; exact hl)
  rw [on_setMark, setMark_get] at hdecl
  change _ = MarkEffect.on (MarkRec.missed { s.marks[m] with deferred := false } m l s) m s at hdecl
  unfold resolveDeferred
  obtain ⟨r, hr⟩ : ∃ r, s.marks[m] = r := ⟨_, rfl⟩
  simp only [hr] at hs hc hl hdecl ⊢
  have hiff : 0 ≤ r.direction.distance (r.lateLimit l.ref) s.axes[r.refAxis].value
      ↔ (r.direction = .forward ∧ r.limit l ≤ s.axes[r.refAxis].value
        ∨ r.direction = .reverse ∧ s.axes[r.refAxis].value ≤ r.limit l) := by
    rw [limit_eq]
    unfold Direction.distance
    cases r.direction <;> simp
  have hset : MarkEffect.on ⟨{ r with deferred := false }, [], []⟩ m s = s.setMark m { r with deferred := false } := by
    simp [MarkEffect.on, State.setMark]
  unfold MarkRec.deferredMiss
  dsimp only
  by_cases hd : r.deferred = true
  · rw [if_pos hd]
    by_cases h : 0 ≤ r.direction.distance (r.lateLimit l.ref) s.axes[r.refAxis].value
    · rw [if_pos ⟨hd, hiff.1 h⟩]
      refine Eq.trans ?_ hdecl
      simp only [hl]
      exact if_pos h
    · rw [if_neg (fun k => h (hiff.2 k.2)), hset]
      simp only [hl]
      exact if_neg h
  · rw [if_neg hd, if_neg (fun k => hd k.1), hset]
    have : ({ r with deferred := false } : MarkRec) = r := by
      have h : r.deferred = false := by simpa using hd
      rw [← h]
    rw [this, ← hr]
    simp [State.setMark]

theorem acceptCapture_eq (m : MarkId) (c : Capture) (s : State) (hc : s.marks[m].capture = none) :
    acceptCapture m c s = (s.marks[m].counted m c .real c.values[s.marks[m].refAxis] 0).on m s := by
  unfold acceptCapture countMark MarkRec.counted MarkEffect.on tellScu post State.setMark
  rw [Fin.getElem_fin] at hc
  simp [hc, Config.historyCapacity]

/-- A capture judged in TRACKING, no longer pending (R86, R87). -/
theorem judgeCapture_eq (m : MarkId) (l : LastMark) (c : Capture) (s : State) (hs : s.marks[m].state = .tracking)
    (hc : s.marks[m].capture = none) (hl : s.marks[m].last = some l) :
    judgeCapture m c s = (s.marks[m].judged m l c s).on m s := by
  have hacc := acceptCapture_eq m c s hc
  have hdef := resolveDeferred_eq m l (post (.markRejected m c.values[s.marks[m].refAxis] l.seq) [] s) hs hc hl
  unfold judgeCapture
  dsimp only
  have hseq : s.marks[m].lastSeq = l.seq := by unfold MarkRec.lastSeq; rw [hl]; rfl
  rw [hseq]
  change resolveDeferred m _ = MarkEffect.on (s.marks[m].deferredMiss m l s) m _ at hdef
  obtain ⟨r, hr⟩ : ∃ r, s.marks[m] = r := ⟨_, rfl⟩
  simp only [hr] at hs hc hl hacc hdef ⊢
  simp only [hs, hl]
  unfold MarkRec.judged
  dsimp only
  by_cases hx : r.direction.distance l.ref c.values[r.refAxis] < (r.pitch : Int) - r.tolerance
  · rw [if_pos hx, hdef]
    refine Eq.trans ?_ (congrArg (fun x => MarkEffect.on x m s) (if_pos hx)).symm
    simp [MarkEffect.on, post]
  · rw [if_neg hx, hacc]
    exact (congrArg (fun x => MarkEffect.on x m s) (if_neg hx)).symm

/-- A step at one input (R87). -/
theorem trackStep_eq (a : AxisId) (msg : StepMsg) (s : State) (m : MarkId) (hf : msg.frozen = false) :
    trackStep a msg s m = (s.marks[m].stepped m a msg s).on m s := by
  have hid : MarkEffect.on ⟨s.marks[m], [], []⟩ m s = s := by simp [MarkEffect.on]
  have hdecl := declareMiss_eq m (s := s)
  unfold trackStep
  dsimp only
  obtain ⟨r, hr⟩ : ∃ r, s.marks[m] = r := ⟨_, rfl⟩
  simp only [hr] at hid hdecl ⊢
  cases hl : r.last with
  | none =>
    have h0 : r.stepped m a msg s = ⟨r, [], []⟩ := by unfold MarkRec.stepped; simp only [hl]
    rw [h0, hid]
    cases r.state <;> rfl
  | some l =>
    by_cases hs : r.state = .tracking
    · simp only [hs]
      rw [limit_eq]
      by_cases hx : r.refAxis = a ∧ r.direction = msg.dir ∧ msg.value = r.limit l
      · have h0 : r.stepped m a msg s
            = if r.capture = none then r.missed m l s else ⟨{ r with deferred := true }, [], []⟩ := by
          unfold MarkRec.stepped
          simp only [hl]
          exact if_pos ⟨hs, hx.1, hx.2.1, hf, hx.2.2⟩
        rw [if_pos hx, h0]
        cases hc : r.capture with
        | none => simpa using hdecl l hs hc hl
        | some p => simp [MarkEffect.on, State.setMark, hs, hl]
      · have h0 : r.stepped m a msg s = ⟨r, [], []⟩ := by
          unfold MarkRec.stepped
          simp only [hl]
          exact if_neg (fun k => hx ⟨k.2.1, k.2.2.1, k.2.2.2.2⟩)
        rw [if_neg hx, h0, hid]
    · have h0 : r.stepped m a msg s = ⟨r, [], []⟩ := by
        unfold MarkRec.stepped
        simp only [hl]
        exact if_neg (fun k => hs k.1)
      rw [h0, hid]
      cases h : r.state <;> first | rfl | exact absurd h hs

/-- The effect of a step at one input asks nothing of the other inputs. -/
theorem stepped_congr (r : MarkRec) (m : MarkId) (a : AxisId) (msg : StepMsg) {s t : State} (h1 : t.axes = s.axes)
    (h2 : t.uptime = s.uptime) : r.stepped m a msg t = r.stepped m a msg s := by
  unfold MarkRec.stepped MarkRec.missed
  rw [h1, h2]

/-- An effect at one input leaves the records of the others. -/
theorem on_get (x : MarkEffect) (m k : MarkId) (s : State) :
    (x.on m s).marks[k] = if k = m then x.record else s.marks[k] := by
  unfold MarkEffect.on
  split
  · rename_i h; subst h; exact getElem_upd_self ..
  · rename_i h; exact getElem_upd_ne _ _ (fun e => h e.symm)

/-- A step is taken at the inputs of a list that holds each once: their effects in order, the other inputs unchanged. -/
theorem foldl_trackStep (a : AxisId) (msg : StepMsg) (hf : msg.frozen = false) (l : List MarkId) (hn : l.Nodup) (s : State) :
    ∃ t, l.foldl (trackStep a msg) s = t
      ∧ t = { s with
          marks := t.marks
          posted := s.posted ++ l.flatMap (fun m => (s.marks[m].stepped m a msg s).posted)
          mkuToScu := s.mkuToScu ++ l.flatMap (fun m => (s.marks[m].stepped m a msg s).handed) }
      ∧ ∀ m : MarkId, t.marks[m] = if m ∈ l then (s.marks[m].stepped m a msg s).record else s.marks[m] := by
  induction l generalizing s with
  | nil => exact ⟨s, rfl, by simp, by simp⟩
  | cons k l ih =>
    rw [List.nodup_cons] at hn
    obtain ⟨t, h1, h2, h3⟩ := ih hn.2 (trackStep a msg s k)
    rw [trackStep_eq a msg s k hf] at h1 h2 h3
    set x := s.marks[k].stepped k a msg s with hx
    have he : ∀ m ∈ l, (x.on k s).marks[m].stepped m a msg (x.on k s) = s.marks[m].stepped m a msg s := by
      intro m hm
      rw [on_get, if_neg (by rintro rfl; exact hn.1 hm)]
      exact stepped_congr _ _ _ _ rfl rfl
    refine ⟨t, by rw [List.foldl_cons, trackStep_eq a msg s k hf]; exact h1, ?_, fun m => ?_⟩
    · have hp : l.flatMap (fun m => ((x.on k s).marks[m].stepped m a msg (x.on k s)).posted)
          = l.flatMap (fun m => (s.marks[m].stepped m a msg s).posted) := List.flatMap_congr (fun m hm => by rw [he m hm])
      have hh : l.flatMap (fun m => ((x.on k s).marks[m].stepped m a msg (x.on k s)).handed)
          = l.flatMap (fun m => (s.marks[m].stepped m a msg s).handed) := List.flatMap_congr (fun m hm => by rw [he m hm])
      rw [hp, hh] at h2
      rw [h2]
      simp only [List.flatMap_cons, ← hx, ← List.append_assoc]
      rfl
    · rw [h3 m]
      by_cases hm : m ∈ l
      · rw [if_pos hm, if_pos (List.mem_cons_of_mem _ hm), he m hm]
      · rw [if_neg hm, on_get]
        by_cases hk : m = k
        · subst hk
          rw [if_pos rfl, if_pos (by simp)]
        · rw [if_neg hk, if_neg (by simp [hk, hm])]

end Sys2Proof.Machine
end

