-- ==== Sys2Proof/Laws/Notices.lean ====
section
/-! SUPPORT. What the AXU's notices do: one that is handed on is posted or waits, and the re-base that the MKU takes releases
those that waited for it (R15, R24, log 25); and that taking every notice in transit is taking them one by one (log 5). -/

namespace Sys2Proof.Machine

/-- A notice that carries what R24 has it carry now is handed on with just that. -/
theorem notify_eq {a : AxisId} {body : NoticeBody} {ports : List Port} {s : State} (h : noticeAtPosting s body = body) :
    notify a ⟨body, ports⟩ s = s.notified a body ports (noticeHolders s body) := by
  unfold notify State.notified asPosted
  split <;> simp_all

theorem postFault_eq (a : AxisId) (cause : FaultCause) (continued : Bool) (s : State) :
    postFault a cause continued s
      = s.notified a (.axisFault a cause continued s.axes[a].value) [] (entryHolders s a) := notify_eq rfl

theorem postRecovered_eq (a : AxisId) (way : Recovery) (s : State) :
    postRecovered a way s = s.notified a (.axisRecovered a way s.axes[a].value) [] [] := notify_eq rfl

theorem postEpoch_eq (result : EpochResult) (ports : List Port) (s : State) :
    postEpoch result ports s = s.notified timeAxis (.epochSeen result s.axes[timeAxis].value) ports [] := notify_eq rfl

theorem Posting.isRebased_iff (q : Posting) :
    q.isRebased = true ↔ ∃ a cause old new, q.body = .axisRebased a cause old new := by
  unfold Posting.isRebased
  split <;> simp_all

theorem releaseNotices_none {a : AxisId} {s : State} (h : s.heldNotices[a] = []) : releaseNotices a s = s := by
  unfold releaseNotices
  rw [h]

/-- The first notice that waits, and those behind it up to the next AXIS_REBASED, are posted; the others wait on. -/
theorem releaseNotices_some {a : AxisId} {s : State} {first : Posting} {behind later : List Posting}
    (h : s.heldNotices[a] = first :: behind ++ later) (hb : ∀ q ∈ behind, q.isRebased = false)
    (hl : ∀ q ∈ later.head?, q.isRebased = true) :
    releaseNotices a s = { s with
      posted := s.posted ++ (first :: behind).map (asPosted s), heldNotices := upd s.heldNotices a later } := by
  have none_of_later : later.takeWhile (fun q => !q.isRebased) = [] ∧ later.dropWhile (fun q => !q.isRebased) = later := by
    cases later with
    | nil => exact ⟨rfl, rfl⟩
    | cons q _ => simp [hl q rfl]
  have all : ∀ q ∈ behind, (!q.isRebased) = true := fun q hq => by simp [hb q hq]
  unfold releaseNotices
  rw [h, List.cons_append]
  simp only [List.takeWhile_append_of_pos all, List.dropWhile_append_of_pos all, none_of_later.1, none_of_later.2,
    List.append_nil]

theorem runs_deliver (l : List Posting) (s : State) :
    Runs (List.replicate l.length .noticePosting) { s with posted := l }
      (l.foldl (fun t q => deliver q t) { s with posted := [] }) := by
  induction l generalizing s with
  | nil => exact rfl
  | cons q l ih => exact ⟨{ deliver q s with posted := l }, rfl, ih (deliver q s)⟩

/-- Taking every notice in transit is taking the oldest until none is left (log 5). -/
theorem runs_takePostings (s : State) : Runs (List.replicate s.posted.length .noticePosting) s (takePostings s) :=
  runs_deliver s.posted s

end Sys2Proof.Machine
end

