-- ==== Sys2Proof/Laws/Serial.lean ====
section
/-! SUPPORT. The serial pins (R142): bits shifted in spell the bytes that were sent, and what one edge can change. -/

namespace Sys2Proof

theorem byteBits_eq (b : Byte) : byteBits b = [b.getLsbD 7, b.getLsbD 6, b.getLsbD 5, b.getLsbD 4, b.getLsbD 3, b.getLsbD 2,
    b.getLsbD 1, b.getLsbD 0] := by decide +revert

theorem bitsByte_byteBits (b : Byte) : bitsByte (byteBits b) = b := by decide +revert

/-- The bits of whole bytes and of a part of a byte spell the whole bytes. -/
theorem wholeBytes_bits (bytes : List Byte) {tail : List Bool} (h : tail.length < 8) :
    wholeBytes (bytes.flatMap byteBits ++ tail) = bytes := by
  induction bytes with
  | nil =>
    rw [List.flatMap_nil, List.nil_append, wholeBytes.eq_def]
    split
    · simp only [List.length_cons] at h; omega
    · rfl
  | cons b bs ih =>
    have step : wholeBytes (byteBits b ++ (bs.flatMap byteBits ++ tail))
        = bitsByte (byteBits b) :: wholeBytes (bs.flatMap byteBits ++ tail) := rfl
    rw [List.flatMap_cons, List.append_assoc, step, bitsByte_byteBits, ih]

namespace Machine

/-- The bit presented at place `n` is bit 7 − n mod 8 of the byte at place n / 8. -/
theorem sentBit_eq (frame : List Byte) (n : Nat) : sentBit frame n = (frame.getD (n / 8) 0xFF).getLsbD (7 - n % 8) := by
  have : n % 8 < 8 := Nat.mod_lt _ (by decide)
  simp [sentBit, sentByte, BitVec.getMsbD, this]

/-- An edge changes the shift registers of its port and the commands waiting, and nothing else. -/
theorem takeEdge_changes (e : SerialEdge) (s : State) : ∃ (p : Port) (l : Link) (q : List Instr),
    takeEdge e s = { s with ports := upd s.ports p { s.ports[p] with link := l }, pending := q } := by
  have same : ∀ (p : Port) (q : List Instr),
      { s with pending := q } = { s with ports := upd s.ports p s.ports[p], pending := q } := fun p q => by
    rw [Fin.getElem_fin, upd_same]
  cases e with
  | selectFall p => exact ⟨p, s.ports[p].link, _, same p _⟩
  | clockRise p b => exact ⟨p, _, _, rfl⟩
  | clockFall p => exact ⟨p, _, _, rfl⟩
  | selectRise p => exact ⟨p, s.ports[p].link, _, same p _⟩

end Machine

end Sys2Proof
end

