-- ==== Sys2Proof/Tests/Slice0.lean ====
section
/-! SUPPORT. Small tests of the model, each on a small state, and for every statement with hypotheses a state and operands
that meet them, clause by clause, at the ends of their ranges. -/

set_option maxRecDepth 8000
set_option Elab.async false

namespace Sys2Proof.Tests

open Sys2Proof Sys2Proof.Machine

/-! ## States -/

/-- The state after a command. -/
def after (c : Instr) (s : State) : State :=
  match exec c s with
  | .next t => t
  | .fault _ => s
  | .refused _ => s

/-- A port that is ATTACHED with a lease of 10 ms. -/
def portUp : PortRec := { PortRec.reset .high with state := .attached, period := 10, remaining := 10000 }

/-- Every port ATTACHED, every axis RUNNING at 0, OUT0 and OUT1 owned by MP0. -/
def up : State :=
  { State.reset with
    ports := .replicate 4 portUp
    axes := .replicate 4 ⟨.running, 0, none⟩
    chans := upd (upd State.reset.chans 0 ⟨some 0, .activeHigh, false, .rest, 0⟩) 1 ⟨some 0, .activeHigh, true, .rest, 0⟩ }

def upPort (f : PortRec → PortRec) : State := { up with ports := upd up.ports 0 (f portUp) }
def upAxis (a : AxisId) (r : AxisRec) : State := { up with axes := upd up.axes a r }
def upMark (f : MarkRec → MarkRec) : State := { up with marks := upd up.marks 0 (f (.reset false)) }
def upGroup (g : GroupRec) : State := { up with groups := upd up.groups 0 g }

/-- A pulse of 1 µs on OUT0 at target 5 of A0. -/
def pulse5 : TriggerDesc :=
  { tag := 7, axis := 0, approach := .forward, reference := .absolute, mark := 0, markCount := 0, place := 5,
    action := .pulse, mask := 1, width := 1, repeats := 1, interval := 0, fireN := 0, skipN := 0, late := .fireLate,
    notify := .each }

def entryOf (d : TriggerDesc) (st : LiveState) (target : Option Int) : Entry := ⟨d, 0, st, target, 0, d.markCount, none, false⟩

/-- Entry 0 of MP0 is ARMED at 5 on A0. -/
def placed : State :=
  { up with table := upd up.table 0 ⟨1, some (entryOf pulse5 .armed (some 5))⟩, due := upd up.due 0 [0] }

/-- A mark-relative description on MK0. -/
def onMark : TriggerDesc := { pulse5 with reference := .markOnce }

/-- Entry 0 of MP0 is WAITING for MK0, which is SEEKING. -/
def awaiting : State :=
  { upMark (fun r => { r with state := .seeking, holder := some 0 }) with
    table := upd up.table 0 ⟨0, some (entryOf onMark .waiting none)⟩, waiting := [0] }

/-- Entry 0 of MP0 is STAGED in its group. -/
def staged : State :=
  { upGroup ⟨.staging, [.arm 0 false], none, 0, 0⟩ with
    table := upd up.table 0 ⟨0, some (entryOf onMark .staged none)⟩ }

/-- A capture of MK0 with every axis VALID at 0. -/
def capture0 : Capture := ⟨0, .real, 0, 0, .replicate 4 0, .replicate 4 .valid⟩

/-! ## Tables with one entry -/

/-- The only entry of the table, if there is one, stands at index 0. -/
def Lone (s : State) (x : Slot) : Prop := s.table = upd (.replicate 256 ⟨0, none⟩) 0 x

theorem lone_entry {s : State} {x : Slot} (h : Lone s x) (i : EntryIx) (e : Entry) (he : e ∈ s.table[i].entry) :
    i = 0 ∧ e ∈ x.entry := by
  rw [h] at he
  rcases eq_or_ne i 0 with rfl | hi
  · exact ⟨rfl, he⟩
  · have h0 : ¬ (0 : Nat) = i.val := fun e => hi (Fin.ext e.symm)
    simp [upd, h0] at he

theorem lone_any {s : State} {x : Slot} (h : Lone s x) {i : EntryIx} (hi : i ≠ 0) (P : Entry → Bool) :
    s.table[i].entry.any P = false := by
  cases he : s.table[i].entry with
  | none => rfl
  | some e => exact absurd (lone_entry h i e he).1 hi

theorem lone_scheduleOk {s : State} {x : Slot} (h : Lone s x)
    (hl : (∀ a : AxisId, ∀ i ∈ s.due[a], i = 0) ∧ (∀ i ∈ s.waiting, i = 0)
      ∧ (∀ a : AxisId, 0 ∈ s.due[a] ↔ armedOn s 0 a = true) ∧ (0 ∈ s.waiting ↔ isWaiting s 0 = true)
      ∧ (∀ a : AxisId, s.due[a].Nodup) ∧ s.waiting.Nodup
      ∧ x.entry.all (fun e => e.target.isSome == (e.state == .armed)) = true
      ∧ ∀ a : AxisId, s.due[a].Pairwise (fun i j => targetAt s i ≤ targetAt s j)) : ScheduleOk s := by
  obtain ⟨hd, hw, hd0, hw0, h1, h2, ht, h3⟩ := hl
  refine ⟨fun i a => ?_, fun i => ?_, h1, h2, fun i e he => ?_, h3⟩
  · rcases eq_or_ne i 0 with rfl | hi
    · exact hd0 a
    · rw [armedOn, lone_any h hi]
      exact ⟨fun hm => absurd (hd a i hm) hi, fun hf => absurd hf (by decide)⟩
  · rcases eq_or_ne i 0 with rfl | hi
    · exact hw0
    · rw [isWaiting, lone_any h hi]
      exact ⟨fun hm => absurd (hw i hm) hi, fun hf => absurd hf (by decide)⟩
  · have := (lone_entry h i e he).2
    rw [Option.mem_def.mp this] at ht
    have e1 : e.target.isSome = (e.state == .armed) := eq_of_beq ht
    rw [e1, beq_iff_eq]

theorem lone_entriesOk {s : State} {x : Slot} (h : Lone s x) (hx : ∀ e ∈ x.entry, e.ok) : EntriesOk s :=
  fun i e he => hx e (lone_entry h i e he).2

theorem lone_stagedOk {s : State} {x : Slot} (h : Lone s x)
    (hl : ∀ p : Port, (reservedBy s p).Nodup ∧ (∀ i ∈ reservedBy s p, i = 0) ∧ (0 ∈ reservedBy s p ↔ stagedFor s 0 p = true)) :
    StagedOk s := fun p => by
  obtain ⟨h1, h2, h3⟩ := hl p
  refine ⟨h1, fun i => ?_⟩
  rcases eq_or_ne i 0 with rfl | hi
  · exact h3
  · rw [stagedFor, lone_any h hi]
    exact ⟨fun hm => absurd (h2 i hm) hi, fun hf => absurd hf (by decide)⟩

/-! ## Well-formedness refuses what its row cannot be -/

theorem test_wellFormed_payload : (Instr.arm 0 (List.replicate 59 0)).wellFormed = false := by decide +kernel
theorem test_wellFormed_malformed : (Instr.malformedFrame 0 [0x01, 0x00, 0x01, 0x00]).wellFormed = false := by decide +kernel
theorem test_wellFormed_malformed_empty : (Instr.malformedFrame 0 []).wellFormed = false := by decide +kernel
theorem test_wellFormed_unknown : (Instr.unknownCode 0 0x20 []).wellFormed = false := by decide +kernel
theorem test_wellFormed_accepts : (Instr.arm 3 (List.replicate 58 0)).wellFormed = true
    ∧ (Instr.malformedFrame 0 [0x01]).wellFormed = true ∧ (Instr.unknownCode 0 0x24 []).wellFormed = true := by
  decide +kernel

/-! ## Frames and layouts, written out from the spec's encodings -/

/-- AXIS_ENABLE of A2: code 0x11, LEN 1, payload 2, check 0x0014. -/
theorem test_frame_axisEnable : decodeFrame 1 [0x11, 0x01, 0x02, 0x14, 0x00] = .axisEnable 1 [0x02] := by decide +kernel
theorem test_frame_nop : decodeFrame 0 [0x00, 0x00, 0x00, 0x00] = .nop 0 [] := by decide +kernel
theorem test_frame_padded : decodeFrame 2 [0x01, 0x00, 0x01, 0x00, 0xFF] = .ident 2 [] := by decide +kernel
theorem test_frame_check : decodeFrame 2 [0x01, 0x00, 0x02, 0x00] = .malformedFrame 2 [0x01, 0x00, 0x02, 0x00] := by
  decide +kernel
theorem test_frame_unknown : decodeFrame 0 [0x24, 0x00, 0x24, 0x00] = .unknownCode 0 0x24 [] := by decide +kernel

/-- The 26 bytes of `pulse5`, by the layout of the trigger description. -/
def pulse5Bytes : List Byte :=
  [0x07, 0x00, 0, 0, 0, 0, 0, 0x05, 0, 0, 0, 0, 0, 0, 0x01, 0x00, 0x01, 0x00, 0x01, 0x00, 0, 0, 0, 0, 0x00, 0x10]

theorem test_trigger : parseTrigger pulse5Bytes = some pulse5 := by decide +kernel
theorem test_trigger_width0 : parseTrigger (pulse5Bytes.set 16 0) = none := by decide +kernel
theorem test_trigger_mask : parseTrigger (pulse5Bytes.set 15 0x10) = none := by decide +kernel

/-- AXIS_REBASED of A2 by EPOCH from −1 to 1, at uptime 258. -/
theorem test_notice : (Notice.mk 258 (.axisRebased 2 .epoch (-1) 1)).bytes
    = [0x32, 0x02, 0x01, 0, 0, 0x22, 0xFF, 0xFF, 0xFF, 0xFF, 0xFF, 0xFF, 1, 0, 0, 0, 0, 0] := by decide +kernel

theorem test_ident : (after (.ident 3 []) up).ports[3].buffer
    = ⟨.ok, 0x01, [0x41, 0x0C, 0x12, 0x04, 0x01, 0x03]⟩ := by decide +kernel

/-! ## One step each -/

theorem test_enable : (after (.axisEnable 0 [0]) { up with axes := .replicate 4 .reset }).axes[0].state = .running := by
  decide +kernel

/-- X4: (0,0) to (1,0) is one forward count, handed to both units. -/
theorem test_count : (after (.encoderTransition 0 true false) up).axes[0].value = 1
    ∧ (after (.encoderTransition 0 true false) up).toScu[0] = [⟨.forward, 1, false⟩]
    ∧ (after (.encoderTransition 0 true false) up).toMku[0] = [.step ⟨.forward, 1, false⟩] := by decide +kernel

/-- (0,0) to (1,1) is a quadrature error. -/
theorem test_quadError : (after (.encoderTransition 0 true true) up).axes[0] = ⟨.faulted, 0, some .quadError⟩ := by
  decide +kernel

theorem test_prescaler : (after .prescalerExpiry { up with time := ⟨1, 1⟩ }).axes[3].value = 1 := by decide +kernel

theorem test_arm : (after (.arm 0 pulse5Bytes) up).due[0] = [0]
    ∧ (after (.arm 0 pulse5Bytes) up).ports[0].buffer = ⟨.ok, 0x20, [0, 0, 3, 0xFF]⟩ := by decide +kernel

theorem test_arm_order :
    (after (.arm 0 pulse5Bytes) (after (.arm 0 (pulse5Bytes.set 7 0x04)) placed)).due[0] = [1, 0, 2] := by decide +kernel

theorem test_fire : (after (.scuStep 0) { placed with toScu := upd up.toScu 0 [⟨.forward, 5, false⟩] }).toOtu
      = [[⟨0, 0, .pulse, 1⟩]]
    ∧ (after (.scuStep 0) { placed with toScu := upd up.toScu 0 [⟨.forward, 5, false⟩] }).table[0] = ⟨2, none⟩ := by
  decide +kernel

theorem test_fire_frozen : (after (.scuStep 0) { placed with toScu := upd up.toScu 0 [⟨.forward, 5, true⟩] }).due[0]
    = [0] := by decide +kernel

theorem test_late_dropped :
    (after (.arm 0 (((pulse5Bytes.set 18 3).set 20 1).set 25 0x21)) (upAxis 0 ⟨.running, 6, none⟩)).posted
      = [⟨.lateDropped ⟨0, 0⟩ 7 0 1 false, [0]⟩] := by decide +kernel

theorem test_mark : (after .markHandoff { awaiting with mkuToScu := [.mark capture0] }).due[0] = [0]
    ∧ (after .markHandoff { awaiting with mkuToScu := [.mark capture0] }).waiting = [] := by decide +kernel

theorem test_stop : (after .stopRequest { awaiting with mkuToScu := [.stop 0 0] }).posted
    = [⟨.withdrawn ⟨0, 0⟩ 7 0 .stopped, [0]⟩] := by decide +kernel

theorem test_group_skips_idle : (after (.groupEnd 0 (List.replicate 11 0)) staged).posted
    = [⟨.groupApplied .now 0 1 (some 0), [0]⟩] := by decide +kernel

theorem test_action : (after .action { up with toOtu := [[⟨0, 0, .set, 0⟩, ⟨1, 1, .set, 0⟩]] }).chans[0].state = .active
    ∧ (after .action { up with toOtu := [[⟨0, 0, .set, 0⟩, ⟨1, 1, .set, 0⟩]] }).chans[1].state = .rest := by decide +kernel

theorem test_release_drives_safe : (after (.channelRelease 0 [1]) up).chans[1].pin = true := by decide +kernel

theorem test_lease : (after (.leaseExpiry 0) (upPort (fun r => { r with remaining := 0 }))).ports[0].state = .releasing := by
  decide +kernel

theorem test_notice_stamp : (after .noticePosting { up with uptime := 9, posted := [⟨.peer 1 2, [0]⟩] }).ports[0].queue
    = [⟨9, .peer 1 2⟩] := by decide +kernel

/-! ## The hypotheses of the statements are met -/

theorem witness_StepRunsFrontCommand : ({ up with pending := [.baseTick] } : State).pending = .baseTick :: []
    ∧ up.pending = [] ∧ up.serial = [] := ⟨rfl, rfl, rfl⟩

theorem witness_EveryCommandCompletes : up.inReset = false ∧ (∃ t, exec .baseTick up = .next t)
    ∧ Instr.ident 0 [] ≠ .baseTick ∧ Instr.ident 0 [] ≠ .deviceReset ∧ ∃ t, exec (.ident 0 []) up = .next t :=
  ⟨rfl, ⟨_, rfl⟩, by decide, by decide, ⟨_, rfl⟩⟩

theorem witness_DeviceReset : ({ up with inReset := true } : State).inReset = true := rfl

/-- Every counter one tick from its end. -/
def counting : State :=
  { upGroup ⟨.pending, [], some (.atMark 0), 1, 1⟩ with
    ports := .replicate 4 { portUp with remaining := 1 }
    time := ⟨1000, 999⟩
    marks := upd up.marks 0 { MarkRec.reset false with state := .seeking, holder := some 0, capture := some ⟨capture0, 1⟩ }
    chans := upd up.chans 0 ⟨some 0, .activeHigh, false, .pulsing, 1⟩ }

theorem witness_BaseTickCounts : counting.inReset = false ∧ counting.posted = []
    ∧ (∀ p : Port, counting.ports[p].state = .attached → counting.ports[p].remaining ≠ 0)
    ∧ (counting.axes[timeAxis].state ≠ .disabled → counting.time.phase < counting.time.prescaler)
    ∧ (∀ m : MarkId, ∀ c ∈ counting.marks[m].capture, c.remaining ≠ 0)
    ∧ (∀ p : Port, counting.groups[p].state = .pending → counting.groups[p].period ≠ 0 → counting.groups[p].remaining ≠ 0)
    ∧ (∀ c : ChanId, counting.chans[c].state = .pulsing → counting.chans[c].remaining ≠ 0)
    ∧ ({ up with inReset := true } : State).inReset = true := by
  refine ⟨rfl, rfl, by decide +kernel, by decide +kernel, fun m => ?_, by decide +kernel, by decide +kernel, rfl⟩
  fin_cases m <;> simp [counting, upGroup, up, upd, State.reset, State.resetWith, MarkRec.reset]

theorem witness_ChipSelect : up.inReset = false ∧ up.ports[3].link = .high
    ∧ (upPort (fun r => { r with link := .abandoned })).inReset = false
    ∧ (upPort (fun r => { r with link := .abandoned })).ports[0].link ≠ .high
    ∧ ({ up with inReset := true } : State).inReset = true := by decide +kernel

/-- A notice in transit to MP0 stands in its queue when chip select falls: PORTFLAGS shows ATTACHED and the notice. -/
theorem test_fall_takes_postings : let s := after (.chipSelectFall 0) { up with posted := [⟨.peer 1 2, [0]⟩] }
    s.posted = [] ∧ s.ports[0].queue.length = 1 ∧ ∃ frame, s.ports[0].link = .sending frame [] 0 ∧ frame[2]? = some 0x05 :=
  ⟨by decide +kernel, by decide +kernel, _, rfl, by decide +kernel⟩

/-- An edge of A0's encoder while reset is asserted makes no count, and the release takes its level as the first sample. -/
theorem test_edge_in_reset : let s := after (.encoderTransition 0 true false) { up with inReset := true }
    s.axes = up.axes ∧ s.encs[0].refA = false ∧ (after .releaseOfReset s).encs[0].refA = true := by decide +kernel

/-- MP0 has shifted in these bits of a transaction, its response frame is 0x85, and `e` is the next edge. -/
def shifting (bits : List Bool) (presented : Nat) (e : SerialEdge) : State :=
  { upPort (fun r => { r with link := .sending [0x85] bits presented }) with serial := [e] }

/-- The 32 bits of a NOP frame with the read-out byte 0xFF, and seven bits more. -/
def nopBits : List Bool := List.replicate 32 false ++ List.replicate 15 true

theorem witness_ChipSelect_edges : (∀ e ∈ [SerialEdge.selectFall 0, .clockRise 0 true, .clockFall 0, .selectRise 0],
      (shifting nopBits 46 e).pending = [] ∧ (shifting nopBits 46 e).serial = e :: []
      ∧ (shifting nopBits 46 e).ports[0].link = .sending [0x85] nopBits 46)
    ∧ nopBits = ([0, 0, 0, 0, 0xFF] : List Byte).flatMap byteBits ++ List.replicate 7 true ∧ (List.replicate 7 true).length < 8
    ∧ (upPort (fun r => { r with link := .abandoned })).ports[0].link = .abandoned := by decide +kernel

/-- A partial byte is discarded at the rise of chip select, and an eighth bit would complete it. -/
theorem test_select_rise : (takeEdge (.selectRise 0) (shifting nopBits 46 (.selectRise 0))).pending = [.nop 0 []]
    ∧ wholeBytes (nopBits ++ [false]) = [0, 0, 0, 0, 0xFF, 0xFE] ∧ wholeBytes (List.replicate 7 true) = [] := by decide +kernel

/-- A falling edge before any rising one leaves the first bit; 0x85 goes out most significant bit first, and 0xFF after it. -/
theorem test_data_out : (List.range 10).map (sentBit [0x85])
      = [true, false, false, false, false, true, false, true, true, true]
    ∧ takeEdge (.clockFall 0) (shifting [] 0 (.clockFall 0)) = shifting [] 0 (.clockFall 0)
    ∧ dataOut (shifting [true] 1 (.clockFall 0)) 0 = some false ∧ dataOut up 0 = none := by decide +kernel

theorem witness_MalformedFrame : Taken up 0 ∧ malformed [0x01] = true ∧ malformed (List.replicate 65 0) = true := by
  decide +kernel

theorem witness_FrameChecks : Taken up 3 ∧ (∀ c : Command, c.code ≠ 0x24) ∧ (List.replicate 58 (0 : Byte)).length ≤ 58
    ∧ (List.replicate 58 (0 : Byte)).length ≠ Command.arm.length ∧ ([] : List Byte).length = Command.detach.length
    ∧ (Command.detach ≠ .nop ∧ Command.detach ≠ .ident ∧ Command.detach ≠ .status ∧ Command.detach ≠ .attach)
    ∧ Taken State.reset 0 ∧ State.reset.ports[0].state = .detached
    ∧ (upPort (fun r => { r with state := .releasing })).ports[0].state = .releasing
    ∧ (upPort (fun r => { r with state := .expired })).ports[0].state = .expired
    ∧ ¬Taken (upPort (fun r => { r with link := .abandoned })) 0 ∧ ¬Taken { up with inReset := true } 0
    ∧ malformed [0x01] = true := by
  refine ⟨by decide +kernel, fun c => by cases c <;> decide, ?_⟩
  decide +kernel

theorem witness_RefusalChangesNothing : Taken up 0 ∧ ¬(Command.axisEnable = .nop ∧ ([4] : List Byte) = [])
    ∧ exec (.axisEnable 0 [4]) up = .next (after (.axisEnable 0 [4]) up)
    ∧ (after (.axisEnable 0 [4]) up).ports[0].buffer.status ≠ .ok := by
  refine ⟨by decide +kernel, by decide, rfl, by decide +kernel⟩

theorem witness_Ident : Taken State.reset 3 := by decide +kernel
theorem witness_ReadCommands : Admitted up 3 := by decide +kernel

theorem witness_HandleCommands : Admitted placed 0 ∧ Admitted placed 1 ∧ placed.groups[0].state ≠ .staging
    ∧ placed.table[255].entry = none ∧ placed.table[0].entry = some (entryOf pulse5 .armed (some 5))
    ∧ (entryOf pulse5 .armed (some 5)).owner ≠ 1 ∧ (entryOf pulse5 .armed (some 5)).owner = 0
    ∧ placed.table[0].gen = 1 ∧ (entryOf pulse5 .armed (some 5)).state ≠ .staged := by decide +kernel

theorem witness_HandleCommands_staged :
    let s := { staged with groups := upd staged.groups 0 { staged.groups[0] with state := .pending } }
    Admitted s 0 ∧ s.groups[0].state ≠ .staging ∧ s.table[0].entry = some (entryOf onMark .staged none) := by
  decide +kernel

theorem witness_MarkReads : Admitted up 0 ∧ 3 < (4 : Byte).toNat ∧ up.marks[3].history.length ≤ (0 : Byte).toNat
    ∧ (upMark (fun r => { r with history := [capture0] })).marks[0].history[(0 : Byte).toNat]? = some capture0
    ∧ Admitted (upMark (fun r => { r with history := [capture0] })) 3 := by decide +kernel

theorem witness_StatusCommand : Taken State.reset 0 ∧ Taken up 3 := by decide +kernel

theorem witness_Attach : Taken State.reset 0 ∧ State.reset.ports[0].state = .detached ∧ Taken up 0
    ∧ up.ports[0].state = .attached ∧ State.reset.ports[0].state ≠ .releasing
    ∧ (10 ≤ 10 ∧ 60000 ≤ 60000) ∧ (9 < 10 ∧ 60000 < 60001 ∧ 60001 < 65536) := by decide +kernel

theorem witness_TeardownStart : Admitted up 0 ∧ (upPort (fun r => { r with remaining := 0 })).ports[0].state = .attached
    ∧ (upPort (fun r => { r with remaining := 0 })).ports[0].remaining = 0 := by decide +kernel

/-- MP0 is RELEASING, every part requested, holding OUT0, OUT1, MK0, the preset slot and a STAGED entry. -/
def leaving : State :=
  { staged with
    ports := upd up.ports 0 { portUp with
      state := .releasing, endState := some .detached, outstanding := .full, requested := .full }
    marks := upd up.marks 0 { MarkRec.reset false with state := .seeking, holder := some 0 }
    preset := some ⟨5, 0⟩ }

/-- For AxuTeardown, MkuTeardown and ScuAndOtuTeardown: one port in teardown with every part requested. -/
theorem witness_teardowns : leaving.ports[0].requested.axu = true ∧ leaving.ports[0].requested.otu = true
    ∧ leaving.ports[0].requested.mku = true ∧ leaving.ports[0].requested.scu = true
    ∧ leaving.chans[0].owner = some 0 ∧ leaving.chans[11].owner ≠ some 0 ∧ leaving.marks[0].holder = some 0 := by
  decide +kernel

theorem witness_ScuAndOtuTeardown : StagedOk leaving := lone_stagedOk rfl (by decide +kernel)

theorem witness_TeardownPartDone :
    let all := { portUp with state := .releasing, endState := some .expired, outstanding := .full, reported := .full }
    let last := fun e : EndState => { portUp with
      state := .releasing, endState := some e, outstanding := ⟨false, false, false, true⟩
      reported := ⟨false, false, false, true⟩ }
    all.reported.has .scu = true ∧ all.outstanding.put .scu false ≠ ⟨false, false, false, false⟩
      ∧ ∀ e, (last e).reported.has .axu = true ∧ (last e).outstanding.put .axu false = ⟨false, false, false, false⟩
        ∧ (last e).endState = some e := by
  refine ⟨rfl, by decide, fun e => ⟨rfl, rfl, rfl⟩⟩

/-- The axes DISABLED, the ports ATTACHED. -/
def still : State := { up with axes := .replicate 4 .reset }

theorem witness_AxisConfigAndDisable : (Admitted still 0 ∧ Decode.ofCode (3 : Byte).toNat = some .stepDir
    ∧ FaultPolicy.ofCode (1 : Byte).toNat = some .continued ∧ still.axes[encAxis 2].state = .disabled
    ∧ up.axes[encAxis 2].state ≠ .disabled ∧ Admitted up 0 ∧ (1 ≤ 1 ∧ 1000 ≤ 1000)
    ∧ still.axes[timeAxis].state = .disabled ∧ up.axes[timeAxis].state ≠ .disabled ∧ 3 < (4 : Byte).toNat
    ∧ placed.axes[0].state ≠ .disabled ∧ Admitted placed 0)
    ∧ Referenced placed 0 ∧ ¬Referenced up (encAxis 0) ∧ ¬Referenced up timeAxis := by
  have unreferenced : ∀ a : AxisId, axisReferenced up a = false := by decide +kernel
  exact ⟨by decide +kernel, .inl ⟨0, _, rfl, rfl⟩, (axisReferenced_false_iff _ _).1 (unreferenced _),
    (axisReferenced_false_iff _ _).1 (unreferenced _)⟩

/-- One field wrong at a time, each next to its range. -/
theorem witness_AxisConfigAndDisable_badField : ∀ x ∈ ([(4, 0, 0, 0, 0), (2, 4, 0, 0, 0), (2, 0, 2, 0, 0), (2, 0, 0, 2, 0),
      (2, 0, 0, 0, 1), (3, 1, 0, 0, 1), (3, 0, 1, 0, 1), (3, 0, 0, 1, 1), (3, 0, 0, 0, 0), (3, 0, 0, 0, 1001)] :
      List (Byte × Byte × Byte × Byte × Nat)),
    let (a, n, i, q, k) := x
    k < 65536 ∧ (3 < a.toNat ∨ (a.toNat < 3 ∧ (3 < n.toNat ∨ 1 < i.toNat ∨ 1 < q.toNat ∨ k ≠ 0))
      ∨ (a = 3 ∧ (n ≠ 0 ∨ i ≠ 0 ∨ q ≠ 0 ∨ k = 0 ∨ 1000 < k))) := by decide +kernel

theorem witness_AxisEnable : Admitted still 0 ∧ 3 < (4 : Byte).toNat ∧ Admitted up 0 ∧ up.axes[3].state ≠ .disabled
    ∧ still.axes[encAxis 0].state = .disabled ∧ still.axes[timeAxis].state = .disabled := by decide +kernel

theorem witness_AxisSet : Admitted placed 1 ∧ 3 < (4 : Byte).toNat ∧ ForeignReferenced placed 0 1 ∧ ¬ForeignReferenced placed 0 0
    ∧ inRange 140737488355327 = true ∧ inRange (-140737488355327) = true ∧ Admitted still 0
    ∧ ¬ForeignReferenced still 0 0 ∧ still.axes[0].state = .disabled ∧ Admitted placed 0
    ∧ placed.axes[0].state = .running
    ∧ (let f := upAxis 0 ⟨.faulted, 0, some .quadError⟩
       Admitted f 0 ∧ ¬ForeignReferenced f 0 0 ∧ f.axes[0].state = .faulted ∧ policyOf f 0 = .hold)
    ∧ (let f := { upAxis 0 ⟨.faulted, 0, some .overrange⟩ with
         encs := upd up.encs 0 { up.encs[0] with policy := .continued } }
       Admitted f 0 ∧ ¬ForeignReferenced f 0 0 ∧ f.axes[0].state = .faulted ∧ policyOf f 0 = .continued)
    ∧ (let h := upAxis 2 ⟨.homing, 0, none⟩
       Admitted h 0 ∧ ¬ForeignReferenced h 2 0 ∧ (2 : AxisId) = encAxis 2 ∧ h.axes[2].state = .homing) := by
  simp only [← axisForeign_iff]
  decide +kernel

theorem witness_AxisHome : Admitted up 0 ∧ (0 < 4294967296 ∧ 2147483647 < 2147483648 ∧ 2147483648 < 4294967296)
    ∧ 2 < (3 : Byte).toNat ∧ inRange (-140737488355327) = true ∧ (1 ≤ 1 ∧ 2147483647 ≤ 2147483647) ∧ Admitted still 0
    ∧ still.axes[encAxis 0].state = .disabled ∧ up.axes[encAxis 0].state = .running
    ∧ (let f := upAxis 0 ⟨.faulted, 0, some .quadError⟩
       Admitted f 0 ∧ f.axes[encAxis 0].state = .faulted ∧ f.encs[0].policy = .hold)
    ∧ (let f := { upAxis 0 ⟨.faulted, 0, some .overrange⟩ with
         encs := upd up.encs 0 { up.encs[0] with policy := .continued } }
       Admitted f 0 ∧ f.axes[encAxis 0].state = .faulted ∧ f.encs[0].policy = .continued)
    ∧ Admitted (upAxis 2 ⟨.homing, 0, none⟩) 0 ∧ (upAxis 2 ⟨.homing, 0, none⟩).axes[encAxis 2].state = .homing := by
  decide +kernel

/-- The slot is filled by MP0, and MP0 alone refers to A3. -/
def presetBy0 : State :=
  { placed with
    preset := some ⟨5, 0⟩
    table := upd up.table 0 ⟨1, some (entryOf { pulse5 with axis := 3 } .armed (some 5))⟩ }

theorem witness_TimePresetAndEpoch : Admitted presetBy0 1 ∧ Admitted presetBy0 0 ∧ inRange 140737488355327 = true
    ∧ presetBy0.preset = some ⟨5, 0⟩ ∧ ¬ForeignReferenced presetBy0 timeAxis 0
    ∧ (let f := { presetBy0 with preset := some ⟨5, 1⟩ }
       Admitted f 1 ∧ f.preset = some ⟨5, 1⟩ ∧ ForeignReferenced f timeAxis 1 ∧ f.axes[timeAxis].state = .running)
    ∧ presetBy0.inReset = false ∧ presetBy0.epochLevel = false ∧ ({ up with epochLevel := true } : State).epochLevel = true
    ∧ still.axes[timeAxis].state ≠ .running ∧ up.preset = none ∧ up.axes[timeAxis].state = .running
    ∧ presetBy0.axes[timeAxis].state = .running := by
  simp only [← axisForeign_iff]
  decide +kernel

theorem witness_TimePresetClear : Admitted presetBy0 0 ∧ presetBy0.preset = some ⟨5, 0⟩ ∧ (0 : Port) ≠ 1
    ∧ Admitted presetBy0 1 ∧ Admitted up 0 ∧ up.preset = none := by decide +kernel

theorem witness_IndexEdge : up.inReset = false ∧ up.axes[encAxis 0].state ≠ .homing
    ∧ (let h := upAxis 2 ⟨.homing, 0, none⟩
       h.inReset = false ∧ h.encs[2].levelZ = false ∧ h.axes[encAxis 2].state = .homing) := by decide +kernel

theorem witness_EncoderCounting :
    let x4 := EncRec.reset false false false
    let x2 := { x4 with decode := .quadX2 }
    let x1 := { x4 with decode := .quadX1 }
    (true ≠ x4.refA ∧ false = x4.refB) ∧ quadNext (x4.refA, x4.refB) = (true, false)
      ∧ quadNext (false, true) = (x4.refA, x4.refB) ∧ x2.decode = .quadX2 ∧ x1.decode = .quadX1
      ∧ ({ x4 with decode := .stepDir } : EncRec).decode = .stepDir := by decide +kernel

theorem witness_EncoderCounting_step : isQuadError up.encs[0] false false = false ∧ decodeCount up.encs[0] false false = none
    ∧ isQuadError up.encs[0] true false = false ∧ decodeCount up.encs[0] true false = some .forward
    ∧ up.axes[encAxis 0].state ≠ .disabled ∧ inRange (up.axes[encAxis 0].value + 1) = true
    ∧ up.axes[encAxis 0].state ≠ .homing ∧ still.axes[encAxis 0].state = .disabled
    ∧ (let h := fun limit => { upAxis 0 ⟨.homing, 0, none⟩ with
         encs := upd up.encs 0 { up.encs[0] with searchLimit := limit, searchTravel := 1 } }
       (∀ limit < 3, isQuadError (h limit).encs[0] true false = false
         ∧ decodeCount (h limit).encs[0] true false = some .forward ∧ (h limit).axes[encAxis 0].state = .homing)
         ∧ (h 2).encs[0].searchTravel + 1 ≤ (h 2).encs[0].searchLimit
         ∧ (h 1).encs[0].searchLimit < (h 1).encs[0].searchTravel + 1) := by decide +kernel

theorem witness_AxisFaults : isQuadError up.encs[0] true true = true ∧ still.axes[encAxis 0].state = .disabled
    ∧ up.axes[encAxis 0].state = .running ∧ up.encs[0].policy = .hold
    ∧ (upAxis 0 ⟨.homing, 0, none⟩).axes[encAxis 0].state = .homing
    ∧ (let top := upAxis 0 ⟨.running, 140737488355327, none⟩
       isQuadError top.encs[0] true false = false ∧ decodeCount top.encs[0] true false = some .forward
         ∧ top.axes[encAxis 0].state = .running ∧ top.axes[encAxis 0].value = 140737488355327)
    ∧ (let bottom := upAxis 0 ⟨.faulted, -140737488355327, some .quadError⟩
       decodeCount bottom.encs[0] false true = some .reverse ∧ bottom.axes[encAxis 0].state = .faulted
         ∧ bottom.axes[encAxis 0].cause ≠ some .overrange ∧ bottom.axes[encAxis 0].value = -140737488355327)
    ∧ (upAxis 0 ⟨.homing, 140737488355327, none⟩).axes[encAxis 0].state = .homing
    ∧ (upAxis 0 ⟨.faulted, 140737488355327, some .overrange⟩).axes[encAxis 0].cause = some .overrange := by decide +kernel

/-- The policy CONTINUE beside each state. -/
theorem witness_AxisFaults_continue : ∀ st ∈ [AxisState.running, .homing, .faulted], ∀ v ∈ [(0 : Int), 140737488355327],
    let s := { upAxis 0 ⟨st, v, if st = .faulted then some .quadError else none⟩ with
      encs := upd up.encs 0 { up.encs[0] with policy := .continued } }
    s.inReset = false ∧ s.encs[0].policy = .continued ∧ s.axes[encAxis 0].state = st ∧ s.axes[encAxis 0].value = v
      ∧ isQuadError s.encs[0] true true = true ∧ isQuadError s.encs[0] true false = false
      ∧ decodeCount s.encs[0] true false = some .forward := by decide +kernel

theorem witness_PrescalerExpiry : ({ up with time := ⟨1000, 1000⟩ } : State).time.prescaler
      ≤ ({ up with time := ⟨1000, 1000⟩ } : State).time.phase
    ∧ up.axes[timeAxis].state = .running ∧ inRange (up.axes[timeAxis].value + 1) = true
    ∧ (upAxis 3 ⟨.running, 140737488355327, none⟩).axes[timeAxis].value = 140737488355327
    ∧ (upAxis 3 ⟨.faulted, 140737488355327, some .overrange⟩).axes[timeAxis].cause = some .overrange
    ∧ (upAxis 3 ⟨.faulted, 0, some .overrange⟩).axes[timeAxis].state = .faulted
    ∧ still.axes[timeAxis].state = .disabled := by decide +kernel

theorem witness_FreezeThawRebase :
    let s := fun e => { up with toMku := upd up.toMku 0 [e] }
    (s .freeze).toMku[0] = .freeze :: [] ∧ (s (.rebase .set 0 1)).toMku[0] = .rebase .set 0 1 :: []
      ∧ (s .thaw).toMku[0] = .thaw :: [] ∧ (s (.rebase .set 0 1)).heldNotices[0] = [] := by decide +kernel

/-- The notices of two re-bases, the first with an AXIS_RECOVERED behind it. -/
theorem witness_FreezeThawRebase_held :
    let first : Posting := ⟨.axisRebased 0 .set 0 1, []⟩
    let behind : List Posting := [⟨.axisRecovered 0 .set 1, []⟩]
    let later : List Posting := [⟨.axisRebased 0 .set 1 2, []⟩]
    ({ up with heldNotices := upd up.heldNotices 0 (first :: behind ++ later) } : State).heldNotices[0] = first :: behind ++ later
      ∧ (∀ q ∈ behind, q.isRebased = false) ∧ ∀ q ∈ later.head?, q.isRebased = true := by decide +kernel

/-- MK0 is SEEKING on A0, which AXIS_SET re-bases: MARK_LOST is posted before AXIS_REBASED. -/
theorem test_rebase_order :
    let s := after (.axisSet 0 (0 :: leInt48 7)) (upMark (fun r => { r with state := .seeking, holder := some 0 }))
    s.posted = [] ∧ (after (.rebaseEvent 0) s).posted = [⟨.markLost 0 .rebase 0 7, []⟩, ⟨.axisRebased 0 .set 0 7, []⟩]
      ∧ (after (.rebaseEvent 0) s).heldNotices[0] = [] := by decide +kernel

/-- A fault of A0 waits behind a re-base while A0 moves from 7 to 9: AXIS_FAULT is posted with 9. -/
theorem test_held_fault_value :
    let fault : Int → Posting := fun v => ⟨.axisFault 0 .quadError true v, []⟩
    let s := { up with
      axes := upd up.axes 0 ⟨.faulted, 9, some .quadError⟩, toMku := upd up.toMku 0 [.rebase .set 0 7]
      heldNotices := upd up.heldNotices 0 [⟨.axisRebased 0 .set 0 7, []⟩, fault 7] }
    (after (.rebaseEvent 0) s).posted = [⟨.axisRebased 0 .set 0 7, []⟩, fault 9] := by decide +kernel

theorem witness_MarkConfig : Admitted up 0 ∧ 2147483648 < 4294967296 ∧ 3 < (4 : Byte).toNat ∧ 2 < (3 : Byte).toNat
    ∧ 1 < (2 : Byte).toNat ∧ 15 < (16 : Byte).toNat ∧ (3 : Byte) = byte 3 ∧ (2 : Byte) = byte Edge.both.code
    ∧ (1 : Byte) = byte Direction.reverse.code ∧ (15 : Byte).toNat ≤ 15
    ∧ ¬((2 : AxisId) = 3 ∧ Direction.reverse = .reverse) ∧ up.marks[3].state = .idle
    ∧ (upMark (fun r => { r with state := .seeking })).marks[0].state ≠ .idle := by decide +kernel

theorem witness_MarkStartAndStop : Admitted up 0 ∧ 3 < (4 : Byte).toNat ∧ up.marks[3].state = .idle
    ∧ up.axes[up.marks[3].refAxis].state ≠ .disabled ∧ Admitted still 0 ∧ still.marks[0].state = .idle
    ∧ still.axes[still.marks[0].refAxis].state = .disabled ∧ Admitted awaiting 0 ∧ awaiting.marks[0].state ≠ .idle
    ∧ awaiting.marks[0].holder = some 0 ∧ Admitted awaiting 1 ∧ awaiting.marks[0].holder ≠ some 1 := by decide +kernel

/-- MK0 is held by MP0 and an entry of a port waits on it. -/
def awaitedBy (owner : Port) : State :=
  { awaiting with table := upd up.table 0 ⟨0, some { entryOf onMark .waiting none with owner := owner }⟩ }

theorem witness_MarkStartAndStop_inUse : Admitted (awaitedBy 1) 0 ∧ (awaitedBy 1).marks[0].holder = some 0
    ∧ (∃ i : EntryIx, ∃ e ∈ (awaitedBy 1).table[i].entry, e.owner ≠ 0 ∧ e.desc.reference ≠ .absolute ∧ e.desc.mark = 0)
    ∧ (let s := upGroup ⟨.pending, [], some (.atMark 0), 0, 0⟩
       ∃ q : Port, q ≠ 1 ∧ s.groups[q].state = .pending ∧ s.groups[q].boundary = some (.atMark 0)) :=
  ⟨by decide +kernel, by decide +kernel, ⟨0, { entryOf onMark .waiting none with owner := 1 }, rfl, by decide⟩,
    by decide +kernel⟩

theorem witness_MarkStartAndStop_free : Admitted (awaitedBy 0) 0 ∧ (awaitedBy 0).marks[0].holder = some 0
    ∧ (¬∃ i : EntryIx, ∃ e ∈ (awaitedBy 0).table[i].entry, e.owner ≠ 0 ∧ e.desc.reference ≠ .absolute ∧ e.desc.mark = 0)
    ∧ ¬∃ q : Port, q ≠ 0 ∧ (awaitedBy 0).groups[q].state = .pending
        ∧ (awaitedBy 0).groups[q].boundary = some (.atMark 0) := by
  refine ⟨by decide +kernel, by decide +kernel, ?_, by decide +kernel⟩
  rintro ⟨i, e, he, hn, _⟩
  cases (lone_entry (s := awaitedBy 0) rfl i e he).2
  exact hn rfl

/-- MK0 captured by an edge. -/
def seeking (debounce : Nat) (edge : Edge) (capture : Option PendingCapture) : State :=
  upMark (fun r => { r with state := .seeking, holder := some 0, debounce := debounce, edge := edge, capture := capture })

theorem witness_MarkAccepted : (seeking 0 .both none).marks[0].state = .seeking
    ∧ (seeking 1 .rise (some ⟨capture0, 0⟩)).marks[0].state = .seeking
    ∧ (seeking 1 .rise (some ⟨capture0, 0⟩)).marks[0].capture = some ⟨capture0, 0⟩
    ∧ (seeking 0 .both none).inReset = false ∧ true ≠ (seeking 0 .both none).marks[0].level
    ∧ (seeking 0 .both none).marks[0].debounce = 0 ∧ (seeking 0 .rise none).marks[0].edge = .rise
    ∧ { (seeking 0 .fall none).marks[0] with level := true }.level ≠ false := by decide +kernel

theorem witness_MarkEdges : up.inReset = false ∧ true ≠ up.marks[0].level ∧ up.marks[0].state = .idle
    ∧ (seeking 255 .rise none).marks[0].state = .seeking ∧ (seeking 255 .rise none).marks[0].debounce ≠ 0
    ∧ (seeking 255 .rise none).marks[0].level = false
    ∧ ¬(Edge.fall = .both ∨ Edge.fall = .rise ∧ true = true ∨ Edge.fall = .fall ∧ true = false)
    ∧ (seeking 0 .fall (some ⟨capture0, 1⟩)).marks[0].deferred = false := by decide +kernel

/-- MK0 is TRACKING A0 with its last mark at 0, pitch 10 and tolerance 1. -/
def tracking (misses limit : Nat) (capture : Option PendingCapture) (value : Int) : State :=
  { upMark (fun r => { r with
      state := .tracking, holder := some 0, last := some ⟨0, 1⟩, pitch := 10, tolerance := 1, misses := misses
      missLimit := limit, capture := capture }) with
    toMku := upd up.toMku 0 [.step ⟨.forward, value, false⟩] }

def captureAt (v : Int) : PendingCapture := ⟨{ capture0 with values := .replicate 4 v }, 0⟩

/-- The same with a deferred miss beside a pending capture, A0 standing at a value. -/
def deferring (edge : Edge) (value : Int) (capture : PendingCapture) : State :=
  let s := tracking 0 1 (some capture) 0
  { s with marks := upd s.marks 0 { s.marks[0] with deferred := true, edge := edge }
           axes := upd s.axes 0 ⟨.running, value, none⟩ }

theorem witness_MarkEdges_tracking :
    (let s := tracking 0 0 none 0
     s.marks[0].state = .tracking ∧ true ≠ s.marks[0].level ∧ s.marks[0].edge = .rise ∧ s.marks[0].debounce = 0
       ∧ s.marks[0].last = some ⟨0, 1⟩)
    ∧ ∀ v ∈ [(10 : Int), 11], let s := deferring .fall v ⟨capture0, 5⟩
      s.inReset = false ∧ s.marks[0].state = .tracking ∧ s.marks[0].capture ≠ none ∧ s.marks[0].last = some ⟨0, 1⟩
        ∧ s.marks[0].deferred = true
        ∧ ¬(s.marks[0].edge = .both ∨ s.marks[0].edge = .rise ∧ true = true ∨ s.marks[0].edge = .fall ∧ true = false) := by
  decide +kernel

/-- A rejected capture leaves its deferred miss to be judged where the axis stands: beyond the late limit 11, or short of
it. -/
theorem test_deferred_miss :
    (after (.debounceEnd 0) (deferring .rise 11 (captureAt 8))).posted
        = [⟨.markRejected 0 8 1, []⟩, ⟨.markCaptured 0 .substituted 1 10 1, []⟩]
      ∧ (after (.debounceEnd 0) (deferring .rise 10 (captureAt 8))).posted = [⟨.markRejected 0 8 1, []⟩] := by decide +kernel

theorem witness_MarkWindowAndMiss_window : ∀ v ∈ [(8 : Int), 9], ∀ s ∈ [tracking 0 0 (some (captureAt v)) 0,
      deferring .rise 11 (captureAt v)],
    s.marks[0].state = .tracking ∧ s.marks[0].last = some ⟨0, 1⟩ ∧ s.marks[0].capture = some (captureAt v)
      ∧ (captureAt v).remaining = 0
      ∧ (decide ((captureAt v).record.values[0] - 0 < (10 : Int) - 1) = decide (v = 8)) := by decide +kernel

theorem witness_MarkWindowAndMiss_step : ∀ v ∈ [(10 : Int), 11], ∀ c ∈ [none, some (captureAt 5)], ∀ misses ∈ [14, 15],
    let s := tracking misses 15 c v
    s.toMku[0] = .step ⟨.forward, v, false⟩ :: [] ∧ s.marks[0].state = .tracking ∧ s.marks[0].last = some ⟨0, 1⟩
      ∧ s.marks[0].refAxis = 0 ∧ s.marks[0].direction = .forward ∧ s.marks[0].capture = c ∧ s.marks[0].misses = misses
      ∧ s.marks[0].missLimit = 15 := by decide +kernel

theorem placed_scheduleOk : ScheduleOk placed := lone_scheduleOk rfl (by decide +kernel)

theorem awaiting_scheduleOk : ScheduleOk awaiting := lone_scheduleOk rfl (by decide +kernel)

theorem placed_entriesOk : EntriesOk placed := lone_entriesOk rfl (by decide +kernel)

theorem awaiting_entriesOk : EntriesOk awaiting := lone_entriesOk rfl (by decide +kernel)

theorem witness_ArmImmediate_absolute : Admitted placed 0 ∧ ScheduleOk placed ∧ EntriesOk placed
    ∧ placed.groups[0].state ≠ .staging ∧ pulse5Bytes.length = 26 ∧ parseTrigger pulse5Bytes = some pulse5
    ∧ armPasses 0 pulse5 1 placed ∧ pulse5.reference = .absolute ∧ ¬ArmLate placed pulse5 := by
  refine ⟨by decide +kernel, placed_scheduleOk, placed_entriesOk, by decide +kernel, rfl, test_trigger, ?_, rfl,
    fun h => absurd h.2.1 (by decide)⟩
  unfold armPasses
  decide +kernel

/-- A0 stands at 5 or beyond it. -/
def placedAt (v : Int) : State := { placed with axes := upd up.axes 0 ⟨.running, v, none⟩ }

/-- On time, late under FIRE_LATE, and a series under DROP_LATE with a member left. -/
theorem witness_ArmImmediate_atOnce :
    let d := { pulse5 with late := .dropLate, repeats := 3, interval := 1 }
    ScheduleOk (placedAt 6) ∧ EntriesOk (placedAt 6) ∧ Admitted (placedAt 6) 0 ∧ (placedAt 6).groups[0].state ≠ .staging
      ∧ armPasses 0 pulse5 1 (placedAt 5) ∧ armPasses 0 pulse5 1 (placedAt 6) ∧ armPasses 0 d 1 (placedAt 6)
      ∧ ¬ArmLate (placedAt 5) pulse5 ∧ ¬ArmLate (placedAt 6) pulse5 ∧ ¬ArmLate (placedAt 6) d
      ∧ parseTrigger (((pulse5Bytes.set 18 3).set 20 1).set 25 0x11) = some d := by
  refine ⟨placed_scheduleOk, placed_entriesOk, by decide +kernel, by decide +kernel, ?_, ?_, ?_,
    fun h => absurd h.2.1 (by decide), fun h => absurd h.2.1 (by decide),
    fun h => absurd ((lateRefused_iff _ _ (by decide) (by decide)).2 h) (by decide +kernel), by decide +kernel⟩
    <;> unfold armPasses <;> decide +kernel

/-- The bytes of `onMark`. -/
def onMarkBytes : List Byte := pulse5Bytes.set 4 1

theorem witness_ArmImmediate_mark : Admitted awaiting 0 ∧ ScheduleOk awaiting ∧ EntriesOk awaiting
    ∧ awaiting.groups[0].state ≠ .staging ∧ onMarkBytes.length = 26 ∧ parseTrigger onMarkBytes = some onMark
    ∧ armPasses 0 onMark 1 awaiting ∧ onMark.reference ≠ .absolute := by
  refine ⟨by decide +kernel, awaiting_scheduleOk, awaiting_entriesOk, by decide +kernel, rfl, by decide +kernel, ?_, by decide⟩
  unfold armPasses
  decide +kernel

/-- MP0 holds its quota. -/
def atQuota : State :=
  { up with table := .ofFn fun i => if i.val < 96 then ⟨0, some (entryOf pulse5 .waiting none)⟩ else ⟨0, none⟩ }

/-- No entry is FREE, and each port owns 64. -/
def fullTable : State :=
  { up with table := .ofFn fun i =>
      ⟨0, some { entryOf pulse5 .waiting none with owner := ⟨i.val / 64, by omega⟩ }⟩ }

theorem witness_ArmRefusals : Admitted up 0 ∧ (pulse5Bytes.set 16 0).length = 26 ∧ parseTrigger (pulse5Bytes.set 16 0) = none
    ∧ parseTrigger pulse5Bytes = some pulse5 ∧ parseTrigger onMarkBytes = some onMark ∧ Admitted still 0
    ∧ still.axes[pulse5.axis].state = .disabled ∧ up.axes[pulse5.axis].state ≠ .disabled
    ∧ (onMark.reference ≠ .absolute ∧ up.marks[onMark.mark].state = .idle) ∧ Admitted up 1
    ∧ (let owns := fun (s : State) (p : Port) =>
         ∀ c : ChanId, pulse5.mask.getLsbD c.val = true → s.chans[c].owner = some p
       ¬owns up 1 ∧ owns up 0 ∧ Admitted atQuota 0 ∧ owns atQuota 0 ∧ owns fullTable 0)
    ∧ 96 ≤ liveCount atQuota 0 ∧ Admitted fullTable 0 ∧ liveCount fullTable 0 < 96
    ∧ (∀ i : EntryIx, fullTable.table[i].entry ≠ none)
    ∧ (let g := upGroup ⟨.staging, List.replicate 16 (.drive 1 .set 0), none, 0, 0⟩
       Admitted g 0 ∧ g.groups[0].state = .staging ∧ 16 ≤ g.groups[0].ops.length) := by decide +kernel

/-- A single occurrence, a whole series, and a series that leaves the range. -/
theorem witness_ArmRefusals_late :
    let d := { pulse5 with late := .dropLate }
    let series := { d with repeats := 3, interval := 1 }
    let top := { d with place := 140737488355326, repeats := 0, interval := 2 }
    (Admitted (placedAt 6) 0 ∧ parseTrigger (pulse5Bytes.set 25 0x11) = some d ∧ (placedAt 6).axes[d.axis].state ≠ .disabled
      ∧ (∀ c : ChanId, d.mask.getLsbD c.val = true → (placedAt 6).chans[c].owner = some 0) ∧ liveCount (placedAt 6) 0 < 96
      ∧ (placedAt 6).table[1].entry = none ∧ (placedAt 6).groups[0].state ≠ .staging)
      ∧ ArmLate (placedAt 6) d ∧ ArmLate (placedAt 8) series ∧ ArmLate (placedAt 140737488355327) top := by
  refine ⟨by decide +kernel, ?_, ?_, ?_⟩ <;> refine (lateRefused_iff _ _ (by decide) (by decide)).1 ?_ <;> decide +kernel

/-- MP0's group is STAGING with `n` operations, and entry 0 is ARMED. -/
def stagingWith (n : Nat) : State :=
  { placed with groups := upd up.groups 0 ⟨.staging, List.replicate n (.drive 1 .set 0), none, 0, 0⟩ }

theorem witness_StagedCommands : (∀ n ∈ [0, 15, 16], Admitted (stagingWith n) 0 ∧ (stagingWith n).groups[0].state = .staging
      ∧ (stagingWith n).groups[0].ops.length = n)
    ∧ parseTrigger pulse5Bytes = some pulse5 ∧ armPasses 0 pulse5 1 (stagingWith 15)
    ∧ (stagingWith 15).table[255].entry = none
    ∧ (stagingWith 15).table[0].entry = some (entryOf pulse5 .armed (some 5)) ∧ (stagingWith 15).table[0].gen = 1
    ∧ (entryOf pulse5 .armed (some 5)).owner = 0 ∧ (entryOf pulse5 .armed (some 5)).state ≠ .staged
    ∧ Admitted staged 0 ∧ staged.table[0].entry = some (entryOf onMark .staged none) := by
  refine ⟨by decide +kernel, test_trigger, ?_, by decide +kernel⟩
  unfold armPasses
  decide +kernel

/-- An ARMED entry of another port, beside a group of MP1 in STAGING. -/
theorem witness_StagedCommands_notOwner :
    let s := { stagingWith 0 with groups := upd up.groups 1 ⟨.staging, [], none, 0, 0⟩ }
    (Admitted s 1 ∧ s.groups[1].state = .staging ∧ s.groups[1].ops.length < 16
      ∧ s.table[0].entry = some (entryOf pulse5 .armed (some 5)) ∧ (entryOf pulse5 .armed (some 5)).owner ≠ 1)
      ∧ ∃ c : ChanId, (1 : BitVec 12).getLsbD c.val = true ∧ s.chans[c].owner ≠ some 1 :=
  ⟨by decide +kernel, 0, by decide +kernel⟩

/-- For StagedCommands and ChannelDrive: one field of a drive wrong at a time, and the ends of the ranges. -/
theorem witness_drive : (∀ x ∈ ([(0, 1, 0), (4096, 1, 0), (65535, 1, 0), (1, 4, 0), (1, 0, 0), (1, 1, 1), (1, 3, 65535)] :
      List (Nat × Byte × Nat)),
      let (mask, act, width) := x
      mask < 65536 ∧ width < 65536
        ∧ (mask = 0 ∨ 4096 ≤ mask ∨ 3 < act.toNat ∨ (act = 0 ∧ width = 0) ∨ (act ≠ 0 ∧ width ≠ 0)))
    ∧ ∀ x ∈ ([(1, .pulse, 65535), (3, .pulse, 1), (4095, .toggle, 0)] : List (BitVec 12 × Machine.Action × Nat)),
      let (mask, act, width) := x
      mask ≠ 0 ∧ width < 65536 ∧ (act = .pulse ↔ width ≠ 0) := by decide +kernel

/-- A step of A0 on its way to the SCU, with entry 0 of this description ARMED at 5. -/
def stepping (d : TriggerDesc) (m : StepMsg) : State :=
  { placed with table := upd up.table 0 ⟨1, some (entryOf d .armed (some 5))⟩, toScu := upd up.toScu 0 [m] }

theorem witness_ScuStep_law : ∀ d ∈ [pulse5, { pulse5 with repeats := 65535, interval := 1 }, { onMark with reference := .markEach }],
    ScheduleOk (stepping d ⟨.forward, 5, false⟩) ∧ EntriesOk (stepping d ⟨.forward, 5, false⟩) := by
  have h1 : ∀ d ∈ [pulse5, { pulse5 with repeats := 65535, interval := 1 }, { onMark with reference := .markEach }],
      (entryOf d .armed (some 5)).ok ∧ d.axis = 0 := by decide +kernel
  intro d hd
  refine ⟨lone_scheduleOk rfl ?_, lone_entriesOk rfl ?_⟩
  · fin_cases hd <;> decide +kernel
  · rintro e ⟨⟩
    exact (h1 d hd).1

/-- A frozen step, one that crosses the entry and reaches the boundary of a pending group, and one that does neither. -/
theorem witness_ScuStep :
    (stepping pulse5 ⟨.forward, 5, true⟩).toScu[0] = ⟨.forward, 5, true⟩ :: []
      ∧ (∀ v ∈ [(4 : Int), 5], ∀ d ∈ [Direction.forward, .reverse],
        let s := { stepping pulse5 ⟨d, v, false⟩ with
          groups := upd up.groups 0 ⟨.pending, [.drive 1 .set 0], some (.atPosition 0 5 .forward), 0, 0⟩
          pendingGroups := [0] }
        s.toScu[0] = ⟨d, v, false⟩ :: []
          ∧ (decide ((entryOf pulse5 .armed (some 5)).crossedBy d v) = decide (v = 5 ∧ d = .forward)))
      ∧ (stepping pulse5 ⟨.forward, 5, false⟩).ports[0].state = .attached := by decide +kernel

theorem witness_SeriesArithmetic : 0 < 1 := by decide

/-- Entry 0 is ARMED on MK0 with MARK_EACH. -/
def bursting (owed : Option Capture) : State :=
  { awaiting with
    table := upd up.table 0 ⟨0, some { entryOf { onMark with reference := .markEach } .armed (some 5) with owed := owed }⟩
    due := upd up.due 0 [0], waiting := [] }

theorem witness_MarkResolves :
    (∀ v ∈ [Validity.valid, .suspect],
      let c : Capture := { capture0 with validities := .replicate 4 v }
      let s := { awaiting with mkuToScu := [.mark c] }
      s.mkuToScu = .mark c :: [] ∧ s.table[0].entry = some (entryOf onMark .waiting none) ∧ c.validities[onMark.axis] = v)
    ∧ ScheduleOk { awaiting with mkuToScu := [.mark capture0] } ∧ EntriesOk { awaiting with mkuToScu := [.mark capture0] }
    ∧ ∀ owed ∈ [none, some capture0],
      ScheduleOk { bursting owed with mkuToScu := [.mark capture0] } ∧ EntriesOk { bursting owed with mkuToScu := [.mark capture0] } := by
  refine ⟨by decide +kernel, awaiting_scheduleOk, awaiting_entriesOk, fun o ho => ⟨lone_scheduleOk rfl ?_, lone_entriesOk rfl ?_⟩⟩
    <;> fin_cases ho <;> decide +kernel

/-- A mark while an entry bursts is owed to it, and a second one takes its place. -/
theorem test_owed :
    (after .markHandoff { bursting none with mkuToScu := [.mark capture0] }).table[0].entry
        = some { entryOf { onMark with reference := .markEach } .armed (some 5) with owed := some capture0 }
      ∧ (after .markHandoff { bursting (some capture0) with mkuToScu := [.mark { capture0 with seq := 1 }] }).posted
        = [⟨.markOverrun ⟨0, 0⟩ 7 0 0 1, [0]⟩] := by decide +kernel

theorem witness_StopRequests :
    let s := fun h => { awaiting with mkuToScu := [h] }
    (s (.stop 0 0)).mkuToScu = .stop 0 0 :: [] ∧ (s (.holderStop 0)).mkuToScu = .holderStop 0 :: []
      ∧ ScheduleOk awaiting ∧ GroupsOk awaiting ∧ StagedOk awaiting := by
  refine ⟨rfl, rfl, awaiting_scheduleOk, ⟨by decide +kernel, by decide +kernel, by decide +kernel⟩,
    lone_stagedOk rfl (by decide +kernel)⟩

theorem witness_StopRequests_staged : staged.groups[0].ops[0]? = some (.arm 0 false)
    ∧ staged.table[0].entry = some (entryOf onMark .staged none) ∧ ScheduleOk staged ∧ GroupsOk staged ∧ StagedOk staged :=
  ⟨by decide +kernel, by decide +kernel, lone_scheduleOk rfl (by decide +kernel),
    ⟨by decide +kernel, by decide +kernel, by decide +kernel⟩, lone_stagedOk rfl (by decide +kernel)⟩

/-- A group of MP0 is PENDING at a mark of MK0, with a staged ARM. -/
def pendingAtMark : State :=
  { staged with groups := upd staged.groups 0 ⟨.pending, [.arm 0 false], some (.atMark 0), 0, 0⟩, pendingGroups := [0] }

theorem witness_StopRequests_pending : ScheduleOk pendingAtMark ∧ GroupsOk pendingAtMark ∧ StagedOk pendingAtMark
    ∧ pendingAtMark.pendingGroups = [0] ∧ pendingAtMark.groups[0].boundary = some (.atMark 0) :=
  ⟨lone_scheduleOk rfl (by decide +kernel), ⟨by decide +kernel, by decide +kernel, by decide +kernel⟩,
    lone_stagedOk rfl (by decide +kernel), rfl, rfl⟩

theorem test_group_discarded :
    (after .stopRequest { pendingAtMark with mkuToScu := [.stop 0 0] }).posted
        = [⟨.groupDiscarded .markStopped 1 (some (.atMark 0)), [0]⟩]
      ∧ (after .stopRequest { pendingAtMark with mkuToScu := [.stop 0 0] }).table[0] = ⟨1, none⟩ := by decide +kernel

/-- The group of `staged` at the end of its expiry. -/
def expiring : State := { staged with groups := upd staged.groups 0 ⟨.pending, [.arm 0 false], some (.atMark 0), 1, 0⟩ }

theorem witness_GroupLifetime : StagedOk staged ∧ StagedOk expiring ∧ Admitted up 0 ∧ up.groups[0].state = .none
    ∧ Admitted staged 0 ∧ staged.groups[0].state ≠ .none ∧ expiring.groups[0].state = .pending
    ∧ expiring.groups[0].period ≠ 0 ∧ expiring.groups[0].remaining = 0 :=
  ⟨lone_stagedOk rfl (by decide +kernel), lone_stagedOk rfl (by decide +kernel), by decide +kernel⟩

theorem witness_GroupEnd : Admitted up 0 ∧ up.groups[0].state ≠ .staging ∧ Admitted (stagingWith 0) 0
    ∧ (stagingWith 0).groups[0].state = .staging ∧ 65535 < 65536
    ∧ (stagingWith 0).marks[3].state = .idle ∧ inRange 140737488355327 = true ∧ ¬((3 : AxisId) = 3 ∧ Direction.forward = .reverse)
    ∧ (stagingWith 0).axes[3].state ≠ .disabled ∧ axisFrozen (stagingWith 0) 3 = false
    ∧ ¬(140737488355327 ≤ (stagingWith 0).axes[3].value) ∧ (0 : Int) ≤ (stagingWith 0).axes[3].value
    ∧ (stagingWith 1).groups[0].ops = [.drive 1 .set 0] ∧ Admitted (stagingWith 1) 0
    ∧ (let s := { stagingWith 0 with marks := awaiting.marks, axes := upd up.axes 0 .reset }
       Admitted s 0 ∧ s.groups[0].state = .staging ∧ s.marks[0].state ≠ .idle ∧ s.axes[0].state = .disabled) := by
  decide +kernel

/-- A group NOW with an ARM on MK0, which is IDLE: skipped, or WAITING and withdrawn when a stop request is on its way (R116,
R120). -/
theorem test_apply_before_stop_request :
    let applied := fun l => after (.groupEnd 0 (List.replicate 11 0)) { staged with mkuToScu := l }
    let stopped := fun h => after .stopRequest (after .holderStopRequest (applied [h]))
    (applied []).waiting = [] ∧ (applied []).table[0].entry = none
      ∧ (applied []).posted = [⟨.groupApplied .now 0 1 (some 0), [0]⟩]
      ∧ (applied [.stop 0 1]).waiting = [] ∧ (applied [.stop 1 0]).waiting = []
      ∧ ∀ h ∈ [(MkuHandoff.stop 0 0, WithdrawCause.stopped), (.holderStop 0, .holderGone)],
        (applied [h.1]).waiting = [0] ∧ (stopped h.1).waiting = [] ∧ (stopped h.1).table[0] = ⟨1, none⟩
          ∧ (stopped h.1).posted = [⟨.groupApplied .now 1 0 none, [0]⟩, ⟨.withdrawn ⟨0, 0⟩ 7 0 h.2, [0]⟩] := by
  decide +kernel

/-- A group with each kind of operation, one of them on a WAITING entry, and the laws the apply asks for. -/
theorem witness_GroupEnd_applies :
    let s := { awaiting with groups := upd up.groups 0 ⟨.staging, [.cancel ⟨0, 0⟩, .cancel ⟨1, 0⟩, .drive 1 .set 0], none, 0, 0⟩ }
    Admitted s 0 ∧ s.groups[0].state = .staging ∧ ScheduleOk s ∧ EntriesOk s ∧ Admitted staged 0 ∧ ScheduleOk staged
      ∧ EntriesOk staged :=
  ⟨by decide +kernel, by decide +kernel, awaiting_scheduleOk, awaiting_entriesOk, by decide +kernel,
    lone_scheduleOk rfl (by decide +kernel), lone_entriesOk rfl (by decide +kernel)⟩

/-- One field wrong at a time, each next to its range. -/
theorem witness_GroupEnd_badField : ∀ x ∈ ([(3, 0, 0, 0), (0, 1, 0, 0), (0, 0, 1, 0), (0, 0, 0, 1), (1, 4, 0, 0), (1, 3, 1, 0),
      (1, 3, 0, -1), (2, 4, 0, 0), (2, 0, 2, 0), (2, 3, 1, 0), (2, 0, 0, -140737488355328)] : List (Byte × Byte × Byte × Int)),
    let (b, x, d, v) := x;
    (-140737488355328 : Int) ≤ v ∧ v < 140737488355328 ∧
      (2 < b.toNat ∨ (b = 0 ∧ (x ≠ 0 ∨ d ≠ 0 ∨ v ≠ 0)) ∨ (b = 1 ∧ (3 < x.toNat ∨ d ≠ 0 ∨ v ≠ 0))
        ∨ (b = 2 ∧ (3 < x.toNat ∨ 1 < d.toNat ∨ (x = 3 ∧ d = 1) ∨ v = -140737488355328))) := by decide +kernel

theorem witness_ChannelOwnership : Admitted up 0 ∧ Admitted up 1 ∧ 11 < (12 : Byte).toNat ∧ 1 < (2 : Byte).toNat
    ∧ up.chans[0].owner = some 0 ∧ (0 : Port) ≠ 1 ∧ up.chans[11].owner = none ∧ up.chans[11].owner ≠ some 0
    ∧ Admitted placed 0 ∧ placed.chans[0].owner = some 0
    ∧ (entryOf pulse5 .armed (some 5)).desc.mask.getLsbD 0 = true
    ∧ .drive 1 .set 0 ∈ (stagingWith 1).groups[0].ops := by decide +kernel

theorem witness_ChannelOwnership_free : up.chans[1].owner = some 0
    ∧ ¬((∃ i : EntryIx, ∃ e ∈ up.table[i].entry, e.owner = 0 ∧ e.desc.mask.getLsbD 1 = true)
      ∨ ∃ mask act width, .drive mask act width ∈ up.groups[0].ops ∧ mask.getLsbD 1 = true) := by
  refine ⟨by decide +kernel, ?_⟩
  rintro (⟨i, e, he, _⟩ | ⟨mask, act, width, h, _⟩)
  · rw [show up.table = Vector.replicate 256 ⟨0, none⟩ from rfl] at he
    simp at he
  · exact absurd h (by rw [show up.groups[0].ops = [] by decide +kernel]; simp)

theorem witness_ChannelActionsAndPulseEnd :
    let s := { up with toOtu := [[⟨0, 0, .toggle, 0⟩]] }
    s.toOtu = [⟨0, 0, .toggle, 0⟩] :: [] ∧ s.chans[0].owner = some 0 ∧ s.chans[0].state = .rest
      ∧ s.chans[0].owner ≠ some 1 ∧ { s.chans[0] with state := .active }.state = .active
      ∧ (let u := { up with chans := upd up.chans 11 ⟨some 0, .activeLow, false, .pulsing, 0⟩ }
         u.chans[11].state = .pulsing ∧ u.chans[11].remaining = 0) := by decide +kernel

theorem witness_ChannelDrive :
    ({ up with toOtu := [[⟨0, 0, .set, 0⟩, ⟨0, 1, .set, 0⟩]] } : State).toOtu = (⟨0, 0, .set, 0⟩ :: [⟨0, 1, .set, 0⟩]) :: []
      ∧ Admitted up 0 ∧ Admitted up 1 ∧ up.groups[0].state ≠ .staging ∧ up.groups[1].state ≠ .staging
      ∧ (∀ c : ChanId, (3 : BitVec 12).getLsbD c.val = true → up.chans[c].owner = some 0)
      ∧ ¬∀ c : ChanId, (3 : BitVec 12).getLsbD c.val = true → up.chans[c].owner = some 1 := by
  decide +kernel

theorem witness_NoticeReadAndSubscribe : Admitted up 0 ∧ (0 : Byte).toNat < 1 ∧ 3 < (4 : Byte).toNat
    ∧ (1 ≤ (1 : Byte).toNat ∧ (3 : Byte).toNat ≤ 3) ∧ 15 < (16 : Byte).toNat ∧ 1 < (2 : Byte).toNat
    ∧ (15 : Byte).toNat ≤ 15 ∧ (1 : Byte).toNat ≤ 1 := by decide +kernel

/-- MP0 takes peer notices and holds `n` notices. -/
def peerUp (n : Nat) : State :=
  upPort (fun r => { r with peerEnable := true, queue := List.replicate n ⟨0, .peer 1 0⟩ })

theorem witness_PostPeer : Admitted up 1 ∧ 3 < (4 : Byte).toNat ∧ up.ports[0].peerEnable = false
    ∧ (∀ n ∈ [31, 32], Admitted (peerUp n) 0 ∧ Admitted (peerUp n) 1 ∧ (peerUp n).ports[0].state = .attached
      ∧ (peerUp n).ports[0].peerEnable = true ∧ (peerUp n).ports[0].queue.length = n) := by decide +kernel

theorem witness_NoticePosting :
    let q : Posting := ⟨.axisFault 0 .overrange false 0, [0]⟩
    (∀ n ∈ [31, 32], { peerUp n with posted := [q] }.posted = q :: [] ∧ (peerUp n).ports[0].state = .attached
      ∧ (peerUp n).ports[0].queue.length = n) ∧ 0 ∈ q.addressed
      ∧ ¬((1 : Port) ∈ q.addressed ∨ portUp.subscribes q.body = true)
      ∧ { portUp with axisSubs := 1 }.subscribes q.body = true ∧ State.reset.ports[0].state ≠ .attached := by
  decide +kernel

theorem witness_DecodeEncode : (Instr.arm 0 (List.replicate 58 0)).wellFormed = true
    ∧ encodeFrame (.arm 0 (List.replicate 58 0)) = some (0, frameBytes 0x20 (List.replicate 58 0))
    ∧ (List.replicate 58 (0 : Byte)).length ≤ 58 ∧ (List.replicate 58 (0 : Byte)).length + 4 + 2 ≤ 64 := by decide +kernel

theorem witness_TriggerDescription : pulse5Bytes.length = 26 ∧ parseTrigger pulse5Bytes = some pulse5
    ∧ pulse5.repeats = 1
    ∧ parseTrigger ((((pulse5Bytes.set 18 0).set 20 1).set 24 0x01)) = some
        { pulse5 with repeats := 0, interval := 1, fireN := 1 } := by decide +kernel

/-- Descriptions at the ends of their ranges. -/
theorem witness_TriggerDescription_ranges : ∀ d ∈ [pulse5,
      { onMark with place := -140737488355327, reference := .markEach, mark := 3, markCount := 255, mask := 4095, width := 65535,
                    repeats := 65535, interval := 2147483647, fireN := 15, skipN := 15 },
      { onMark with axis := 3, action := .set, width := 0 }],
    inRange d.place = true ∧ d.mask ≠ 0 ∧ (d.action = .pulse ↔ d.width ≠ 0)
      ∧ (d.repeats ≠ 1 → 1 ≤ d.interval ∧ d.interval ≤ 2147483647) ∧ (d.repeats = 1 → d.interval = 0)
      ∧ (d.axis = 3 → d.approach = .forward) ∧ (d.approach = .either → d.repeats = 1)
      ∧ (d.reference = .absolute → d.mark = 0 ∧ d.markCount = 0) ∧ (d.reference = .markOnce → d.markCount = 0)
      ∧ (d.fireN = 0 → d.skipN = 0)
      ∧ d.markCount < 256 ∧ d.width < 65536 ∧ d.repeats < 65536 ∧ d.fireN < 16 ∧ d.skipN < 16 := by decide +kernel

/-- The laws hold together in a state with an entry, and a step is taken from it. -/
theorem witness_laws_kept : (DisabledOk placed ∧ HeldOk placed ∧ PortsOk placed ∧ ResponsesOk placed ∧ ChannelsOk placed ∧ QuotaOk placed)
    ∧ AxesOk placed ∧ MarksOk placed ∧ GroupsOk placed ∧ ScheduleOk placed ∧ EntriesOk placed ∧ StagedOk placed
    ∧ ∃ t, step { placed with pending := [.baseTick] } = .next t := by
  refine ⟨by decide +kernel, ?_, by decide +kernel, ?_, placed_scheduleOk, placed_entriesOk,
    lone_stagedOk rfl (by decide +kernel), ⟨_, rfl⟩⟩
  · and_intros <;> decide +kernel
  · and_intros <;> decide +kernel

theorem witness_HoldingsKept : PortsOk placed ∧ HoldingsOk placed := by
  refine ⟨by decide +kernel, ?_, ?_, by decide +kernel, ?_, ?_, ?_⟩
  · intro i e he
    cases (lone_entry (s := placed) rfl i e he).2
    decide +kernel
  · intro i e he _
    cases (lone_entry (s := placed) rfl i e he).2
    decide +kernel
  · intro c p hp
    have : ∀ c : ChanId, placed.chans[c].owner.all (fun p => decide (MayHold placed p .otu)) = true := by decide +kernel
    have := this c
    rw [Option.mem_def.mp hp] at this
    exact of_decide_eq_true this
  · intro m p hp
    have : ∀ m : MarkId, placed.marks[m].holder = none := by decide +kernel
    rw [this m] at hp
    exact absurd hp (by simp)
  · rintro q ⟨⟩

end Sys2Proof.Tests
end

section
/-! SUPPORT. What one command can change, said once for all commands: the place where it is taken, the fields that may change
there, and the laws that hold because no command of another place touches them. -/

namespace Sys2Proof.Machine

/-! ## The places of the part -/

/-- The places where commands are taken. The OTU stands with the PIF: neither changes what another block's laws speak of. -/
inductive Site where
  | axu
  | mku
  | scu
  | pif
  deriving DecidableEq

/-- The place where a command is taken; the two reset events and the base tick concern the whole part. -/
def site : Instr → Option Site
  | .deviceReset | .baseTick | .releaseOfReset => none
  | .axisConfig .. | .axisEnable .. | .axisDisable .. | .axisSet .. | .axisHome .. | .timePreset .. | .timePresetClear ..
  | .axuTeardown _ | .encoderTransition .. | .prescalerExpiry | .indexEdge .. | .epochEdge _ => some .axu
  | .markConfig .. | .markStart .. | .markStop .. | .mkuTeardown _ | .freezeEvent _ | .thawEvent _ | .rebaseEvent _
  | .mkuStep _ | .markEdge .. | .debounceEnd _ => some .mku
  | .arm .. | .cancel .. | .groupBegin .. | .groupEnd .. | .groupDiscard .. | .channelDrive .. | .scuTeardown _ | .scuStep _
  | .markHandoff | .stopRequest | .holderStopRequest | .groupExpiry _ => some .scu
  | .chipSelectFall _ | .emptyTransaction _ | .malformedFrame .. | .unknownCode .. | .nop .. | .ident .. | .attach ..
  | .detach .. | .status .. | .axisRead .. | .recordRead .. | .tableStatus .. | .groupStatus .. | .markRead .. | .markStatus ..
  | .channelClaim .. | .channelRelease .. | .channelStatus .. | .noticeRead .. | .subscribe .. | .postPeer .. | .leaseExpiry _
  | .otuTeardown _ | .teardownPartDone .. | .action | .pulseExpiry _ | .noticePosting => some .pif

/-- What a command taken at a place may change: the records of the block, what it hands on and takes, the port that answers, and
the pins. -/
def By (k : Site) (s t : State) : Prop :=
  match k with
  | .axu => t = { s with
      axes := t.axes, encs := t.encs, time := t.time, preset := t.preset, epochLevel := t.epochLevel, toScu := t.toScu
      toMku := t.toMku, heldNotices := t.heldNotices, posted := t.posted, ports := t.ports, pins := t.pins }
  | .mku => t = { s with
      marks := t.marks, mkuToScu := t.mkuToScu, toMku := t.toMku, heldNotices := t.heldNotices, posted := t.posted
      ports := t.ports, pins := t.pins }
  | .scu => t = { s with
      table := t.table, due := t.due, waiting := t.waiting, groups := t.groups, pendingGroups := t.pendingGroups
      toScu := t.toScu, mkuToScu := t.mkuToScu, toOtu := t.toOtu, chans := t.chans, posted := t.posted, ports := t.ports }
  | .pif => t = { s with chans := t.chans, toOtu := t.toOtu, posted := t.posted, ports := t.ports }

theorem By.refl (k : Site) (s : State) : By k s s := by cases k <;> rfl

theorem By.trans {k : Site} {s t u : State} (h : By k s t) (h' : By k t u) : By k s u := by
  cases s; cases t; cases u
  cases k <;> (simp only [By, State.mk.injEq] at *; simp_all)

theorem By.after {k : Site} {s t u : State} (h : By k t u) (h' : By k s t) : By k s u := h'.trans h

theorem By.setPort (k : Site) (s : State) (p : Port) (r : PortRec) : By k s (s.setPort p r) := by cases k <;> rfl

theorem AxuOnly.by {s t : State} (h : AxuOnly s t) : By .axu s t := by
  cases s; cases t; simp only [AxuOnly, By, State.mk.injEq] at *; simp_all

theorem MkuOnly.by {s t : State} (h : MkuOnly s t) : By .mku s t := by
  cases s; cases t; simp only [MkuOnly, By, State.mk.injEq] at *; simp_all

theorem ScuOnly.by {s t : State} (h : ScuOnly s t) : By .scu s t := by
  cases s; cases t; simp only [ScuOnly, By, State.mk.injEq] at *; simp_all

/-! ## Frames -/

/-- A relation between the states before and after that the replacement of a port record keeps, as does doing one thing after
another: what holds of the acting block then holds of the whole frame. -/
structure Framing (R : State → State → Prop) : Prop where
  refl : ∀ s, R s s
  trans : ∀ {s t u}, R s t → R t u → R s u
  port : ∀ s p r, R s (s.setPort p r)

theorem framing_by (k : Site) : Framing (By k) := ⟨By.refl k, By.trans, By.setPort k⟩

/-- A law that does not speak of the ports. -/
theorem framing_law {law : State → Prop} (h : ∀ s p r, law s → law (s.setPort p r)) : Framing (fun s t => law s → law t) :=
  ⟨fun _ => id, fun f g => g ∘ f, h⟩

section
variable {R : State → State → Prop} (hR : Framing R)
include hR

theorem Framing.foldl {β : Type} {f : State → β → State} (h : ∀ s b, R s (f s b)) (l : List β) (s : State) :
    R s (l.foldl f s) := foldl_rel hR.refl (fun _ _ _ => hR.trans) h l s

theorem atRise_rel {p : Port} {run : State → State} (h : ∀ u, R u (run u)) (s : State) : R s (atRise p run s) := by
  unfold atRise
  split
  · exact hR.port ..
  · exact hR.trans (hR.port ..) (h _)

theorem renewLease_rel (p : Port) (s : State) : R s (renewLease p s) := by
  unfold renewLease
  split
  · exact hR.port ..
  · exact hR.refl s

theorem takeFrame_rel {p : Port} {c : Command} {pl : List Byte} {act : State → State × Answer} (h : ∀ u, R u (act u).1)
    (s : State) : R s (takeFrame p c pl act s) := by
  refine atRise_rel hR (fun u => ?_) s
  have renewed := renewLease_rel hR p u
  split
  · exact hR.port ..
  · dsimp only
    split
    · exact hR.trans renewed (hR.port ..)
    · split
      · exact hR.trans renewed (hR.port ..)
      · exact hR.trans renewed (hR.trans (h _) (hR.port ..))

theorem teardownPart_rel {p : Port} {k : Block} {part : State → State} (h : ∀ u, R u (part u)) (s : State) :
    R s (teardownPart p k part s) := by
  unfold teardownPart
  split
  · exact hR.trans (h s) (hR.port ..)
  · exact hR.refl s

end

/-! ## The acts of the AXU's commands -/

theorem axisConfigAct_axuOnly (pl : List Byte) (s : State) : AxuOnly s (axisConfigAct pl s).1 := by
  unfold axisConfigAct
  split
  · rfl
  · split
    · rfl
    · split <;> rfl

theorem axisEnableAct_axuOnly (pl : List Byte) (s : State) : AxuOnly s (axisEnableAct pl s).1 := by
  unfold axisEnableAct
  split
  · rfl
  · split
    · rfl
    · dsimp only; split <;> rfl

theorem axisDisableAct_axuOnly (pl : List Byte) (s : State) : AxuOnly s (axisDisableAct pl s).1 := by
  unfold axisDisableAct
  split
  · rfl
  · split
    · rfl
    · split
      · rfl
      · dsimp only; split <;> rfl

theorem axisSetAct_axuOnly (p : Port) (pl : List Byte) (s : State) : AxuOnly s (axisSetAct p pl s).1 := by
  unfold axisSetAct
  split
  · rfl
  · split
    · rfl
    · exact setAxisValue_axuOnly ..

theorem axisHomeAct_axuOnly (pl : List Byte) (s : State) : AxuOnly s (axisHomeAct pl s).1 := by
  unfold axisHomeAct
  split
  · rfl
  · split
    · rfl
    · exact startSearch_axuOnly ..

/-- The checks of TIME_PRESET and its effect (R21), the setter's test in the words of the rule. -/
theorem timePresetAct_eq (p : Port) (pl : List Byte) (s : State) : timePresetAct p pl s =
    match rangedValue (fieldInt48 pl 0) with
    | none => (s, .refuse .badField)
    | some v =>
      if ∃ q ∈ s.preset, q.setter ≠ p then (s, .refuse .owned)
      else if axisForeign s timeAxis p then (s, .refuse .inUse)
      else ({ s with preset := some { value := v, setter := p } }, .ok []) := by
  unfold timePresetAct
  cases s.preset <;> simp <;> rfl

theorem timePresetAct_axuOnly (p : Port) (pl : List Byte) (s : State) : AxuOnly s (timePresetAct p pl s).1 := by
  rw [timePresetAct_eq]
  split
  · rfl
  · split
    · rfl
    · split <;> rfl

theorem timePresetClearAct_axuOnly (p : Port) (s : State) : AxuOnly s (timePresetClearAct p s).1 := by
  unfold timePresetClearAct
  split
  · rfl
  · split <;> rfl

theorem clearPreset_axuOnly (p : Port) (s : State) : AxuOnly s (clearPreset p s) := by
  unfold clearPreset
  split
  · rfl
  · split <;> rfl

theorem encoderChange_by (x : EncId) (a b : Bool) (s : State) : By .axu s (encoderChange x a b s) := by
  unfold encoderChange
  dsimp only
  split
  · rfl
  · split
    · exact (quadError_axuOnly ..).by.after rfl
    · split
      · exact (count_axuOnly ..).by.after rfl
      · rfl

theorem indexChange_by (x : EncId) (level : Bool) (s : State) : By .axu s (indexChange x level s) := by
  unfold indexChange
  dsimp only
  split
  · rfl
  · split
    · exact (endSearch_axuOnly ..).by.after ((rebase_axuOnly ..).by.after rfl)
    · rfl

theorem epochChange_by (level : Bool) (s : State) : By .axu s (epochChange level s) := by
  unfold epochChange
  dsimp only
  split
  · rfl
  · split
    · exact (epochRise_axuOnly _).by.after rfl
    · rfl

/-! ## The acts of the MKU's commands, and what the MKU takes from the AXU -/

theorem markConfigAct_mkuOnly (pl : List Byte) (s : State) : MkuOnly s (markConfigAct pl s).1 := by
  unfold markConfigAct
  split
  · rfl
  · dsimp only; split <;> rfl

theorem markStartAct_mkuOnly (p : Port) (pl : List Byte) (s : State) : MkuOnly s (markStartAct p pl s).1 := by
  unfold markStartAct
  split
  · rfl
  · dsimp only
    split
    · rfl
    · split <;> rfl

theorem markStopAct_mkuOnly (p : Port) (pl : List Byte) (s : State) : MkuOnly s (markStopAct p pl s).1 := by
  unfold markStopAct
  split
  · rfl
  · split
    · rfl
    · split
      · rfl
      · split <;> rfl

/-- A change at a mark pin is an event of the MKU once the pin has followed. -/
theorem markChange_mkuOnly (m : MarkId) (level : Bool) (s : State) :
    MkuOnly { s with pins := { s.pins with mark := upd s.pins.mark m level } } (markChange m level s) := by
  unfold markChange
  dsimp only
  split
  · rfl
  · split
    · rfl
    · split
      · rfl
      · rfl
      all_goals exact (setMark_mkuOnly _ m _).trans (edgeSeen_mkuOnly _ m level)

theorem markChange_by (m : MarkId) (level : Bool) (s : State) : By .mku s (markChange m level s) :=
  (markChange_mkuOnly m level s).by.after rfl

theorem releaseNotices_by (a : AxisId) (s : State) : By .mku s (releaseNotices a s) := by
  unfold releaseNotices
  split <;> rfl

theorem takeMkuStep_by (a : AxisId) (s : State) : By .mku s (takeMkuStep a s) := by
  unfold takeMkuStep
  split
  · dsimp only
    split
    · rfl
    · exact (foldl_mkuOnly (fun s m => trackStep_mkuOnly s a _ m) _ _).by.after rfl
  · rfl

theorem takeFreeze_by (a : AxisId) (s : State) : By .mku s (takeFreeze a s) := by
  unfold takeFreeze
  split
  · exact (foldl_mkuOnly (fun s m => freezeInput_mkuOnly s a m) _ _).by.after rfl
  · rfl

theorem takeThaw_by (a : AxisId) (s : State) : By .mku s (takeThaw a s) := by
  unfold takeThaw
  split
  · exact (foldl_mkuOnly (fun s m => thawInput_mkuOnly s a m) _ _).by.after rfl
  · rfl

theorem takeRebase_by (a : AxisId) (s : State) : By .mku s (takeRebase a s) := by
  unfold takeRebase
  split
  · exact (releaseNotices_by ..).after ((foldl_mkuOnly (fun s m => rebaseInput_mkuOnly s a m) _ _).by.after rfl)
  · rfl

/-! ## The acts of the SCU's commands -/

theorem routeArm_scuOnly (p : Port) (i : EntryIx) (d : TriggerDesc) (s : State) : ScuOnly s (routeArm p i d s) := by
  unfold routeArm
  split
  · exact (giveTarget_scuOnly (.begin s) ..).trans (done_scuOnly _)
  · rfl

theorem armAct_scuOnly (p : Port) (pl : List Byte) (s : State) : ScuOnly s (armAct p pl s).1 := by
  unfold armAct
  dsimp only
  split
  · rfl
  · split
    · rfl
    · split
      · rfl
      · split
        · rfl
        · split
          · rfl
          · exact routeArm_scuOnly ..

theorem cancelAct_scuOnly (p : Port) (pl : List Byte) (s : State) : ScuOnly s (cancelAct p pl s).1 := by
  unfold cancelAct
  dsimp only
  split
  · rfl
  · split
    · rfl
    · split
      · rfl
      · split <;> rfl

theorem groupBeginAct_scuOnly (p : Port) (s : State) : ScuOnly s (groupBeginAct p s).1 := by
  unfold groupBeginAct
  dsimp only
  split <;> rfl

theorem groupEndAct_scuOnly (p : Port) (pl : List Byte) (s : State) : ScuOnly s (groupEndAct p pl s).1 := by
  have apply (at_ : AppliedAt) : ScuOnly s (applyGroup none p at_ (.begin s)).done :=
    (applyGroup_scuOnly (.begin s) none p at_).trans (done_scuOnly _)
  unfold groupEndAct
  dsimp only
  split
  · rfl
  · split
    · rfl
    · exact apply _
    · split
      · rfl
      · split
        · exact apply _
        · rfl

theorem groupDiscardAct_scuOnly (p : Port) (s : State) : ScuOnly s (groupDiscardAct p s).1 := by
  unfold groupDiscardAct
  dsimp only
  split
  · rfl
  · exact discardGroup_scuOnly ..

theorem takeScuStep_by (a : AxisId) (s : State) : By .scu s (takeScuStep a s) := by
  unfold takeScuStep
  split
  · rfl
  · dsimp only
    split
    · rfl
    · exact ((scuStepWork_scuOnly _ a _).trans (done_scuOnly _)).by.after rfl

theorem takeMarkHandoff_by (s : State) : By .scu s (takeMarkHandoff s) := by
  unfold takeMarkHandoff
  split
  · exact (takeMark_scuOnly _ _).by.after rfl
  · rfl

theorem takeStopRequest_by (s : State) : By .scu s (takeStopRequest s) := by
  unfold takeStopRequest
  split
  · exact (stopAtScu_scuOnly _ _ _ _).by.after rfl
  · rfl

theorem takeHolderStop_by (s : State) : By .scu s (takeHolderStop s) := by
  unfold takeHolderStop
  split
  · exact (stopAtScu_scuOnly _ _ _ _).by.after rfl
  · rfl

/-! ## The acts of the OTU's and the PIF's commands -/

theorem takeAction_by (s : State) (x : OutAction) : By .pif s (takeAction s x) := by
  unfold takeAction
  split <;> rfl

theorem takeBatch_by (batch : List OutAction) (s : State) : By .pif s (takeBatch batch s) :=
  (framing_by .pif).foldl takeAction_by batch s

theorem By.scu_of_pif {s t : State} (h : By .pif s t) : By .scu s t := by
  cases s; cases t; simp only [By, State.mk.injEq] at *; simp_all

theorem channelDriveAct_by (p : Port) (pl : List Byte) (s : State) : By .scu s (channelDriveAct p pl s).1 := by
  unfold channelDriveAct
  dsimp only
  split
  · rfl
  · split
    · rfl
    · split
      · rfl
      · split
        · rfl
        · exact (takeBatch_by ..).scu_of_pif

theorem takeOldestBatch_by (s : State) : By .pif s (takeOldestBatch s) := by
  unfold takeOldestBatch
  split
  · rfl
  · exact (takeBatch_by ..).after rfl

theorem expirePulse_by (c : ChanId) (s : State) : By .pif s (expirePulse c s) := by
  unfold expirePulse
  split <;> rfl

theorem channelClaimAct_by (p : Port) (pl : List Byte) (s : State) : By .pif s (channelClaimAct p pl s).1 := by
  unfold channelClaimAct
  split
  · rfl
  · split
    · split <;> rfl
    · rfl

theorem channelReleaseAct_by (p : Port) (pl : List Byte) (s : State) : By .pif s (channelReleaseAct p pl s).1 := by
  unfold channelReleaseAct
  split
  · rfl
  · split
    · rfl
    · split <;> rfl

theorem recordReadAct_state (p : Port) (pl : List Byte) (s : State) : (recordReadAct p pl s).1 = s := by
  unfold recordReadAct
  dsimp only
  split <;> rfl

theorem markReadAct_state (pl : List Byte) (s : State) : (markReadAct pl s).1 = s := by
  unfold markReadAct
  split
  · rfl
  · split <;> rfl

theorem markStatusAct_state (pl : List Byte) (s : State) : (markStatusAct pl s).1 = s := by
  unfold markStatusAct
  split <;> rfl

theorem takePostings_by (s : State) : By .pif s (takePostings s) := by
  rw [takePostings_eq]; rfl

theorem takePosting_by (s : State) : By .pif s (takePosting s) := by
  unfold takePosting
  split <;> rfl

theorem fallSelect_by (p : Port) (s : State) : By .pif s (fallSelect p s) := by
  unfold fallSelect
  split
  · rfl
  · split
    · exact (takePostings_by s).trans rfl
    all_goals rfl

theorem takeMalformed_by (p : Port) (bytes : List Byte) (s : State) : By .pif s (takeMalformed p bytes s) := by
  unfold takeMalformed
  split
  · rfl
  · split
    · exact atRise_rel (framing_by .pif) (fun u => By.setPort .pif u p _) s
    · rfl

theorem takeUnknown_by (p : Port) (code : Byte) (pl : List Byte) (s : State) : By .pif s (takeUnknown p code pl s) := by
  unfold takeUnknown
  split
  · rfl
  · refine atRise_rel (framing_by .pif) (fun u => ?_) s
    split
    · rfl
    · exact (By.setPort .pif ..).after (renewLease_rel (framing_by .pif) p u)

theorem takeNop_by (p : Port) (pl : List Byte) (s : State) : By .pif s (takeNop p pl s) := by
  refine atRise_rel (framing_by .pif) (fun u => ?_) s
  have renewed := renewLease_rel (framing_by .pif) p u
  dsimp only
  split
  · rfl
  · split
    · exact renewed.trans rfl
    · exact renewed

theorem attachAct_by (p : Port) (pl : List Byte) (s : State) : By .pif s (attachAct p pl s).1 := by
  unfold attachAct attachPort
  split
  · rfl
  · dsimp only; split <;> rfl

theorem noticeReadAct_by (p : Port) (pl : List Byte) (s : State) : By .pif s (noticeReadAct p pl s).1 := by
  unfold noticeReadAct
  split <;> rfl

theorem subscribeAct_by (p : Port) (pl : List Byte) (s : State) : By .pif s (subscribeAct p pl s).1 := by
  unfold subscribeAct
  split <;> rfl

theorem postPeerAct_by (p : Port) (pl : List Byte) (s : State) : By .pif s (postPeerAct p pl s).1 := by
  unfold postPeerAct
  split
  · rfl
  · dsimp only
    split
    · rfl
    · split <;> rfl

theorem expireLease_by (p : Port) (s : State) : By .pif s (expireLease p s) := by
  unfold expireLease
  split <;> rfl

theorem takePartDone_by (p : Port) (b : Block) (s : State) : By .pif s (takePartDone p b s) := by
  unfold takePartDone
  dsimp only
  split
  · split <;> rfl
  · rfl

/-! ## Every command -/

/-- Every command that is taken at one place completes, and changes only what its place may change. -/
theorem exec_by {c : Instr} {k : Site} (h : site c = some k) (s : State) : ∃ t, exec c s = .next t ∧ By k s t := by
  have frame {k : Site} {p : Port} {c : Command} {pl : List Byte} {act : State → State × Answer}
      (hact : ∀ u, By k u (act u).1) : By k s (takeFrame p c pl act s) := takeFrame_rel (framing_by k) hact s
  have part {k : Site} {p : Port} {b : Block} {act : State → State} (hact : ∀ u, By k u (act u)) :
      By k s (teardownPart p b act s) := teardownPart_rel (framing_by k) hact s
  have read {u v : State} (h : v = u) : By .pif u v := h ▸ .refl ..
  match c, h with
  | .axisConfig .., rfl => exact ⟨_, rfl, frame fun u => (axisConfigAct_axuOnly _ u).by⟩
  | .axisEnable .., rfl => exact ⟨_, rfl, frame fun u => (axisEnableAct_axuOnly _ u).by⟩
  | .axisDisable .., rfl => exact ⟨_, rfl, frame fun u => (axisDisableAct_axuOnly _ u).by⟩
  | .axisSet .., rfl => exact ⟨_, rfl, frame fun u => (axisSetAct_axuOnly _ _ u).by⟩
  | .axisHome .., rfl => exact ⟨_, rfl, frame fun u => (axisHomeAct_axuOnly _ u).by⟩
  | .timePreset .., rfl => exact ⟨_, rfl, frame fun u => (timePresetAct_axuOnly _ _ u).by⟩
  | .timePresetClear .., rfl => exact ⟨_, rfl, frame fun u => (timePresetClearAct_axuOnly _ u).by⟩
  | .axuTeardown _, rfl => exact ⟨_, rfl, part fun u => (clearPreset_axuOnly _ u).by⟩
  | .encoderTransition .., rfl => exact ⟨_, rfl, encoderChange_by ..⟩
  | .prescalerExpiry, rfl => exact ⟨_, rfl, (expirePrescaler_axuOnly s).by⟩
  | .indexEdge .., rfl => exact ⟨_, rfl, indexChange_by ..⟩
  | .epochEdge _, rfl => exact ⟨_, rfl, epochChange_by ..⟩
  | .markConfig .., rfl => exact ⟨_, rfl, frame fun u => (markConfigAct_mkuOnly _ u).by⟩
  | .markStart .., rfl => exact ⟨_, rfl, frame fun u => (markStartAct_mkuOnly _ _ u).by⟩
  | .markStop .., rfl => exact ⟨_, rfl, frame fun u => (markStopAct_mkuOnly _ _ u).by⟩
  | .mkuTeardown _, rfl => exact ⟨_, rfl, part fun u => (releaseInputs_mkuOnly u _).by⟩
  | .freezeEvent _, rfl => exact ⟨_, rfl, takeFreeze_by ..⟩
  | .thawEvent _, rfl => exact ⟨_, rfl, takeThaw_by ..⟩
  | .rebaseEvent _, rfl => exact ⟨_, rfl, takeRebase_by ..⟩
  | .mkuStep _, rfl => exact ⟨_, rfl, takeMkuStep_by ..⟩
  | .markEdge .., rfl => exact ⟨_, rfl, markChange_by ..⟩
  | .debounceEnd _, rfl => exact ⟨_, rfl, (endDebounce_mkuOnly s _).by⟩
  | .arm .., rfl => exact ⟨_, rfl, frame fun u => (armAct_scuOnly _ _ u).by⟩
  | .cancel .., rfl => exact ⟨_, rfl, frame fun u => (cancelAct_scuOnly _ _ u).by⟩
  | .groupBegin .., rfl => exact ⟨_, rfl, frame fun u => (groupBeginAct_scuOnly _ u).by⟩
  | .groupEnd .., rfl => exact ⟨_, rfl, frame fun u => (groupEndAct_scuOnly _ _ u).by⟩
  | .groupDiscard .., rfl => exact ⟨_, rfl, frame fun u => (groupDiscardAct_scuOnly _ u).by⟩
  | .channelDrive .., rfl => exact ⟨_, rfl, frame fun u => channelDriveAct_by _ _ u⟩
  | .scuTeardown _, rfl => exact ⟨_, rfl, part fun u => (removePort_scuOnly u _).by⟩
  | .scuStep _, rfl => exact ⟨_, rfl, takeScuStep_by ..⟩
  | .markHandoff, rfl => exact ⟨_, rfl, takeMarkHandoff_by s⟩
  | .stopRequest, rfl => exact ⟨_, rfl, takeStopRequest_by s⟩
  | .holderStopRequest, rfl => exact ⟨_, rfl, takeHolderStop_by s⟩
  | .groupExpiry _, rfl => exact ⟨_, rfl, (expireGroup_scuOnly s _).by⟩
  | .chipSelectFall _, rfl => exact ⟨_, rfl, fallSelect_by ..⟩
  | .emptyTransaction _, rfl => exact ⟨_, rfl, rfl⟩
  | .malformedFrame .., rfl => exact ⟨_, rfl, takeMalformed_by ..⟩
  | .unknownCode .., rfl => exact ⟨_, rfl, takeUnknown_by ..⟩
  | .nop .., rfl => exact ⟨_, rfl, takeNop_by ..⟩
  | .ident .., rfl => exact ⟨_, rfl, frame fun _ => rfl⟩
  | .attach .., rfl => exact ⟨_, rfl, frame fun u => attachAct_by _ _ u⟩
  | .detach .., rfl => exact ⟨_, rfl, frame fun _ => rfl⟩
  | .status .., rfl => exact ⟨_, rfl, frame fun _ => rfl⟩
  | .axisRead .., rfl => exact ⟨_, rfl, frame fun _ => rfl⟩
  | .recordRead .., rfl => exact ⟨_, rfl, frame fun u => read (recordReadAct_state _ _ u)⟩
  | .tableStatus .., rfl => exact ⟨_, rfl, frame fun _ => rfl⟩
  | .groupStatus .., rfl => exact ⟨_, rfl, frame fun _ => rfl⟩
  | .markRead .., rfl => exact ⟨_, rfl, frame fun u => read (markReadAct_state _ u)⟩
  | .markStatus .., rfl => exact ⟨_, rfl, frame fun u => read (markStatusAct_state _ u)⟩
  | .channelClaim .., rfl => exact ⟨_, rfl, frame fun u => channelClaimAct_by _ _ u⟩
  | .channelRelease .., rfl => exact ⟨_, rfl, frame fun u => channelReleaseAct_by _ _ u⟩
  | .channelStatus .., rfl => exact ⟨_, rfl, frame fun _ => rfl⟩
  | .noticeRead .., rfl => exact ⟨_, rfl, frame fun u => noticeReadAct_by _ _ u⟩
  | .subscribe .., rfl => exact ⟨_, rfl, frame fun u => subscribeAct_by _ _ u⟩
  | .postPeer .., rfl => exact ⟨_, rfl, frame fun u => postPeerAct_by _ _ u⟩
  | .leaseExpiry _, rfl => exact ⟨_, rfl, expireLease_by ..⟩
  | .otuTeardown _, rfl => exact ⟨_, rfl, part fun _ => rfl⟩
  | .teardownPartDone .., rfl => exact ⟨_, rfl, takePartDone_by ..⟩
  | .action, rfl => exact ⟨_, rfl, takeOldestBatch_by s⟩
  | .pulseExpiry _, rfl => exact ⟨_, rfl, expirePulse_by ..⟩
  | .noticePosting, rfl => exact ⟨_, rfl, takePosting_by s⟩

end Sys2Proof.Machine
end

section
/-! SUPPORT. The base tick as the commands it stands for, what every command leaves unchanged, and how a law of the whole part
is shown: command by command (O2, O4, and the frame of every invariant). -/

namespace Sys2Proof.Machine

/-! ## Commands run one after another -/

theorem Runs.append {l l' : List Instr} {s t u : State} (h : Runs l s t) (h' : Runs l' t u) : Runs (l ++ l') s u := by
  induction l generalizing s with
  | nil => cases h; exact h'
  | cons c l ih =>
    obtain ⟨v, hc, hl⟩ := h
    exact ⟨v, hc, ih hl⟩

theorem runs_map {β : Type} {f : β → Instr} {g : β → State → State} (h : ∀ b s, exec (f b) s = .next (g b s)) (l : List β)
    (s : State) : Runs (l.map f) s (l.foldl (fun s b => g b s) s) := by
  induction l generalizing s with
  | nil => exact rfl
  | cons b l ih => exact ⟨g b s, h b s, ih _⟩

/-- What each of the commands does, they do together. -/
theorem Runs.rel {R : State → State → Prop} (refl : ∀ s, R s s) (trans : ∀ {s t u}, R s t → R t u → R s u) {l : List Instr}
    (h : ∀ c ∈ l, ∀ s t, exec c s = .next t → R s t) {s t : State} (hr : Runs l s t) : R s t := by
  induction l generalizing s with
  | nil => cases hr; exact refl _
  | cons c l ih =>
    obtain ⟨v, hc, hl⟩ := hr
    exact trans (h c (by simp) _ v hc) (ih (fun d hd => h d (List.mem_cons_of_mem _ hd)) hl)

/-- The expiry rows in the order in which a base tick takes those that are due (log 4). -/
def expiries : List Instr :=
  (List.finRange 4).map Instr.leaseExpiry ++ [.prescalerExpiry] ++ (List.finRange 4).map Instr.debounceEnd
    ++ (List.finRange 4).map Instr.groupExpiry ++ (List.finRange 12).map Instr.pulseExpiry

theorem runs_takeDue (s : State) : Runs expiries s (takeDue s) := by
  have leases := runs_map (f := Instr.leaseExpiry) (g := expireLease) (fun _ _ => rfl) (List.finRange 4)
  have prescaler (u : State) : Runs [.prescalerExpiry] u (expirePrescaler u) := ⟨_, rfl, rfl⟩
  have debounces := runs_map (f := Instr.debounceEnd) (g := endDebounce) (fun _ _ => rfl) (List.finRange 4)
  have groups := runs_map (f := Instr.groupExpiry) (g := expireGroup) (fun _ _ => rfl) (List.finRange 4)
  have pulses := runs_map (f := Instr.pulseExpiry) (g := expirePulse) (fun _ _ => rfl) (List.finRange 12)
  exact ((((leases s).append (prescaler _)).append (debounces _)).append (groups _)).append (pulses _)

theorem site_of_mem_expiries {c : Instr} (h : c ∈ expiries) : ∃ k, site c = some k := by
  simp only [expiries, List.mem_append, List.mem_map, List.mem_singleton] at h
  rcases h with (((⟨_, _, rfl⟩ | rfl) | ⟨_, _, rfl⟩) | ⟨_, _, rfl⟩) | ⟨_, _, rfl⟩ <;> exact ⟨_, rfl⟩

/-! ## What no command but the reset events and the base tick changes -/

/-- The commands waiting, the edges to come, the assertion of reset and the uptime stamp are the same. -/
structure SameClock (s t : State) : Prop where
  pending : t.pending = s.pending
  serial : t.serial = s.serial
  inReset : t.inReset = s.inReset
  uptime : t.uptime = s.uptime

theorem SameClock.refl (s : State) : SameClock s s := ⟨rfl, rfl, rfl, rfl⟩

theorem SameClock.trans {s t u : State} (h : SameClock s t) (k : SameClock t u) : SameClock s u :=
  ⟨k.1.trans h.1, k.2.trans h.2, k.3.trans h.3, k.4.trans h.4⟩

theorem By.sameClock {k : Site} {s t : State} (h : By k s t) : SameClock s t := by
  cases k <;> (simp only [By] at h; rw [h]; exact ⟨rfl, rfl, rfl, rfl⟩)

/-- The axis records and the preset slot are the same. -/
structure SameAxes (s t : State) : Prop where
  axes : t.axes = s.axes
  encs : t.encs = s.encs
  time : t.time = s.time
  preset : t.preset = s.preset

theorem SameAxes.trans {s t u : State} (h : SameAxes s t) (k : SameAxes t u) : SameAxes s u :=
  ⟨k.1.trans h.1, k.2.trans h.2, k.3.trans h.3, k.4.trans h.4⟩

/-- Only the commands of the AXU change the axis records and the preset slot. -/
theorem By.sameAxes {k : Site} {s t : State} (h : By k s t) (hk : k ≠ .axu) : SameAxes s t := by
  cases k
  case axu => exact absurd rfl hk
  all_goals simp only [By] at h; rw [h]; exact ⟨rfl, rfl, rfl, rfl⟩

theorem exec_of_site {c : Instr} {k : Site} (h : site c = some k) {s t : State} (ht : exec c s = .next t) : By k s t := by
  obtain ⟨u, hu, hby⟩ := exec_by h s
  rw [hu] at ht
  cases ht
  exact hby

/-! ## The base tick -/

theorem takeDue_sameClock (s : State) : SameClock s (takeDue s) :=
  (runs_takeDue s).rel SameClock.refl SameClock.trans fun c hc _ _ ht => by
    obtain ⟨k, hk⟩ := site_of_mem_expiries hc
    exact (exec_of_site hk ht).sameClock

theorem baseTick_running {s : State} (h : s.inReset = false) : baseTick s = advance (takePostings (takeDue s)) := by
  simp [baseTick, h]

theorem baseTick_inReset {s : State} (h : s.inReset = true) : baseTick s = s := by simp [baseTick, h]

/-- What a base tick does before the counters advance. -/
theorem takePostings_takeDue_sameClock (s : State) : SameClock s (takePostings (takeDue s)) :=
  (takeDue_sameClock s).trans (takePostings_by _).sameClock

theorem count_time (a : AxisId) (d : Direction) (s : State) : (count a d s).time = s.time := by
  have searched (x : EncId) (u : State) : (searchStep x u).time = u.time := by
    unfold searchStep
    dsimp only
    split
    · split <;> rfl
    · rfl
  unfold count
  split
  · rfl
  · split
    · unfold applyCount
      dsimp only
      split
      · split
        · rw [searched]; rfl
        · rfl
      · rfl
    · unfold refuseCount
      split
      · rfl
      · dsimp only; split <;> rfl
      · dsimp only; split <;> split <;> rfl
      · split <;> rfl

/-- The prescaler has room for another base tick: its expiry is not due (R10, log 4). -/
abbrev PrescalerRoom (s : State) : Prop :=
  s.axes[timeAxis].state ≠ .disabled → s.time.phase = 0 ∨ s.time.phase < s.time.prescaler

theorem expirePrescaler_room (s : State) : PrescalerRoom (expirePrescaler s) := by
  unfold PrescalerRoom expirePrescaler
  by_cases h : prescalerDue s = true
  · rw [if_pos h, count_time]
    exact fun _ => .inl rfl
  · rw [if_neg h]
    intro hs
    simp only [prescalerDue, Bool.and_eq_true, bne_iff_ne, decide_eq_true_eq, not_and, not_le] at h
    exact .inr (h hs)

/-- After what is due has been taken the prescaler has room. -/
theorem takeDue_room (s : State) : PrescalerRoom (takePostings (takeDue s)) := by
  have same : SameAxes (expirePrescaler ((List.finRange 4).foldl (fun s p => expireLease p s) s)) (takePostings (takeDue s)) :=
    ((((framing_by .mku).foldl (fun s m => (endDebounce_mkuOnly s m).by) _ _).sameAxes (by decide)).trans
      ((((framing_by .scu).foldl (fun s p => (expireGroup_scuOnly s p).by) _ _).sameAxes (by decide)).trans
        (((framing_by .pif).foldl (fun s c => expirePulse_by c s) _ _).sameAxes (by decide)))).trans
      ((takePostings_by _).sameAxes (by decide))
  have room := expirePrescaler_room ((List.finRange 4).foldl (fun s p => expireLease p s) s)
  unfold PrescalerRoom at *
  rw [same.axes, same.time]
  exact room

/-! ## Laws, command by command -/

/-- A law that speaks neither of the ports nor of what is to come. -/
def PortFree (law : State → Prop) : Prop :=
  ∀ (s : State) (ports : Vector PortRec 4) (pending : List Instr) (serial : List SerialEdge),
    law s → law { s with ports := ports, pending := pending, serial := serial }

theorem PortFree.framing {law : State → Prop} (h : PortFree law) : Framing (fun s t => law s → law t) :=
  framing_law fun s _ _ => h s _ s.pending s.serial

/-- A law that does not speak of the ports holds after every step if it holds after every command. -/
theorem kept_of_exec {law : State → Prop} (hfree : PortFree law)
    (h : ∀ (c : Instr) (s t : State), law s → exec c s = .next t → law t) : Kept law := by
  intro s t hs ht
  unfold step at ht
  split at ht
  · split at ht
    · cases ht; exact hs
    · rename_i e rest _
      obtain ⟨p, l, q, hedge⟩ := takeEdge_changes e { s with serial := rest }
      rw [hedge] at ht
      cases ht
      exact hfree s _ q rest hs
  · exact h _ _ _ (hfree s s.ports _ s.serial hs) ht

/-- A law that does not speak of the ports is kept by every command if the commands of each place keep it, both reset events,
and the counters' advance at a base tick, before which the prescaler's expiry has been taken. -/
theorem exec_keeps {law : State → Prop}
    (hsite : ∀ (c : Instr) (k : Site), site c = some k → ∀ s t : State, law s → exec c s = .next t → law t)
    (hreset : ∀ s, law s → law (resetDevice s)) (hrelease : ∀ s, law s → law (releaseReset s))
    (htick : ∀ s, law s → PrescalerRoom s → law (advance s)) (c : Instr) (s t : State) (hs : law s)
    (ht : exec c s = .next t) : law t := by
  cases hc : site c with
  | some k => exact hsite c k hc s t hs ht
  | none =>
    have runs {l : List Instr} (hl : ∀ c ∈ l, ∃ k, site c = some k) {s t : State} (hr : Runs l s t) : law s → law t :=
      hr.rel (R := fun s t => law s → law t) (fun _ => id) (fun f g => g ∘ f) fun c hc s t ht hs => by
        obtain ⟨k, hk⟩ := hl c hc
        exact hsite c k hk s t hs ht
    match c, hc with
    | .deviceReset, _ => cases ht; exact hreset s hs
    | .releaseOfReset, _ => cases ht; exact hrelease s hs
    | .baseTick, _ =>
      cases ht
      cases hr : s.inReset with
      | true => rw [baseTick_inReset hr]; exact hs
      | false =>
        rw [baseTick_running hr]
        have due := runs (fun c hc => site_of_mem_expiries hc) (runs_takeDue s) hs
        refine htick _ (runs (fun c hc => ?_) (runs_takePostings _) due) (takeDue_room s)
        rw [List.eq_of_mem_replicate hc]
        exact ⟨.pif, rfl⟩

end Sys2Proof.Machine
end

section
namespace Sys2Proof.Machine

@[simp] theorem advance_pending (s : State) : (advance s).pending = s.pending := rfl
@[simp] theorem advance_serial (s : State) : (advance s).serial = s.serial := rfl
@[simp] theorem advance_inReset (s : State) : (advance s).inReset = s.inReset := rfl
@[simp] theorem advance_uptime (s : State) : (advance s).uptime = s.uptime + 1 := rfl

theorem exec_completes (c : Instr) (s : State) : ∃ t, exec c s = .next t ∧ t.pending = s.pending ∧ t.serial = s.serial
    ∧ (c ≠ .deviceReset → c ≠ .releaseOfReset → t.inReset = s.inReset) := by
  cases hc : site c with
  | some k =>
    obtain ⟨t, ht, hby⟩ := exec_by hc s
    obtain ⟨hp, hs, hr, -⟩ := hby.sameClock
    exact ⟨t, ht, hp, hs, fun _ _ => hr⟩
  | none =>
    match c, hc with
    | .deviceReset, _ => exact ⟨_, rfl, rfl, rfl, fun h => absurd rfl h⟩
    | .releaseOfReset, _ =>
      refine ⟨releaseReset s, rfl, ?_, ?_, fun _ h => absurd rfl h⟩ <;> (unfold releaseReset; split <;> rfl)
    | .baseTick, _ =>
      refine ⟨baseTick s, rfl, ?_⟩
      cases hr : s.inReset with
      | true => rw [baseTick_inReset hr]; exact ⟨rfl, rfl, fun _ _ => hr⟩
      | false =>
        rw [baseTick_running hr]
        obtain ⟨hp, hs, hi, -⟩ := takePostings_takeDue_sameClock s
        rw [advance_pending, advance_serial, advance_inReset]
        exact ⟨hp, hs, fun _ _ => hi.trans hr⟩

theorem baseTick_uptime {s : State} (h : s.inReset = false) : (baseTick s).uptime = s.uptime + 1 := by
  rw [baseTick_running h, advance_uptime, (takePostings_takeDue_sameClock s).uptime]

theorem exec_uptime {c : Instr} {s t : State} (hb : c ≠ .baseTick) (hd : c ≠ .deviceReset) (ht : exec c s = .next t) :
    t.uptime = s.uptime := by
  cases hc : site c with
  | some k => exact (exec_of_site hc ht).sameClock.uptime
  | none =>
    match c, hc with
    | .deviceReset, _ => exact absurd rfl hd
    | .baseTick, _ => exact absurd rfl hb
    | .releaseOfReset, _ =>
      cases ht
      unfold releaseReset
      split <;> rfl

/-- Settles O2: each place's commands complete with the clock unchanged (`exec_by`), the base tick after those that it stands
for. -/
theorem everyCommandCompletes : Obligations.EveryCommandCompletes :=
  ⟨exec_completes, fun s t hs ht => by cases ht; exact baseTick_uptime hs, fun c s t hb hd ht => exec_uptime hb hd ht⟩

/-! ## The base tick at the counters -/

theorem exec_baseTick (s : State) : exec .baseTick s = .next (baseTick s) := rfl

theorem tick_port (r : PortRec) :
    r.tick = { r with remaining := if r.state = .attached then r.remaining - 1 else r.remaining } := by
  unfold PortRec.tick; split <;> rfl

theorem tick_group (g : GroupRec) :
    g.tick = { g with remaining := if g.state = .pending then g.remaining - 1 else g.remaining } := by
  unfold GroupRec.tick; split <;> rfl

theorem tick_chan (r : ChanRec) :
    r.tick = { r with remaining := if r.state = .pulsing then r.remaining - 1 else r.remaining } := by
  unfold ChanRec.tick; split <;> rfl

/-- Nothing is due: no lease, prescaler, debounce, group or pulse has run out (log 4). -/
structure NothingDue (s : State) : Prop where
  lease : ∀ p : Port, s.ports[p].state = .attached → s.ports[p].remaining ≠ 0
  prescaler : s.axes[timeAxis].state ≠ .disabled → s.time.phase < s.time.prescaler
  debounce : ∀ m : MarkId, ∀ c ∈ s.marks[m].capture, c.remaining ≠ 0
  group : ∀ p : Port, s.groups[p].state = .pending → s.groups[p].period ≠ 0 → s.groups[p].remaining ≠ 0
  pulse : ∀ c : ChanId, s.chans[c].state = .pulsing → s.chans[c].remaining ≠ 0

theorem takeDue_of_nothingDue {s : State} (h : NothingDue s) : takeDue s = s := by
  have lease (p : Port) : expireLease p s = s := by
    refine if_neg fun k => ?_
    simp only [leaseDue, attached, Bool.and_eq_true, beq_iff_eq] at k
    exact h.lease p k.1 k.2
  have prescaler : expirePrescaler s = s := by
    refine if_neg fun k => ?_
    simp only [prescalerDue, Bool.and_eq_true, bne_iff_ne, decide_eq_true_eq] at k
    exact absurd (h.prescaler k.1) (not_lt.2 k.2)
  have debounce (m : MarkId) : endDebounce m s = s := by
    unfold endDebounce
    split
    · rename_i c hc
      exact if_neg (h.debounce m c hc)
    · rfl
  have group (p : Port) : expireGroup p s = s := by
    refine if_neg fun k => ?_
    simp only [groupDue, Bool.and_eq_true, beq_iff_eq, bne_iff_ne] at k
    exact h.group p k.1.1 k.1.2 k.2
  have pulse (c : ChanId) : expirePulse c s = s := by
    refine if_neg fun k => ?_
    simp only [pulseDue, Bool.and_eq_true, beq_iff_eq] at k
    exact h.pulse c k.1 k.2
  have fixed {n : Nat} {f : Fin n → State → State} (hf : ∀ i, f i s = s) :
      (List.finRange n).foldl (fun s i => f i s) s = s := List.foldl_fixed' hf _
  unfold takeDue
  dsimp only
  rw [fixed lease, prescaler, fixed debounce, fixed group, fixed pulse]

theorem takePostings_of_none {s : State} (h : s.posted = []) : takePostings s = s := by
  unfold takePostings
  rw [h, List.foldl_nil, ← h]

/-- Settles O4: what a base tick takes first is what the expiry rows and NOTICE_POSTING do (`runs_takeDue`,
`runs_takePostings`), and then every counter advances. -/
theorem baseTickCounts : Obligations.BaseTickCounts := by
  unfold Obligations.BaseTickCounts
  intro counted rows
  have counts (s : State) : counted s (advance s) := by
    refine ⟨rfl, ?_, ?_, fun p => ?_, fun m => ?_, fun p => ?_, fun c => ?_⟩
    · unfold advance; dsimp only; split <;> rfl
    · unfold advance; dsimp only; split <;> rfl
    · simp [advance, tick_port]
    · simp [advance, MarkRec.tick]
    · simp [advance, tick_group]
    · simp [advance, tick_chan]
  have tick (s : State) (hr : s.inReset = false) :
      exec .baseTick s = .next (advance (takePostings (takeDue s))) := by rw [exec_baseTick, baseTick_running hr]
  refine ⟨fun s hr hp h1 h2 h3 h4 h5 => ?_, fun s hr => ?_, fun s hr => by rw [exec_baseTick, baseTick_inReset hr]⟩
  · have quiet := tick s hr
    rw [takeDue_of_nothingDue ⟨h1, h2, h3, h4, h5⟩, takePostings_of_none hp] at quiet
    exact ⟨_, quiet, counts s⟩
  · have due := runs_takeDue s
    have run := tick s hr
    generalize takeDue s = u at due run
    exact ⟨u, takePostings u, _, due, runs_takePostings u, run, counts _⟩

end Sys2Proof.Machine
end

section
/-! SUPPORT. What the operations of the AXU do, case by case: the state after a count, a quadrature error, a re-base, a search
and an AXIS_SET, each written out once (spec/01_axes_and_the_timebase.md). -/

namespace Sys2Proof.Machine

/-! ## Axes and encoders -/

@[simp] theorem axisEnc_encAxis (x : EncId) : axisEnc (encAxis x) = some x := by
  unfold axisEnc encAxis
  rw [dif_pos (show x.val < 3 from x.isLt)]

@[simp] theorem axisEnc_timeAxis : axisEnc timeAxis = none := rfl

theorem encAxis_injective {x y : EncId} (h : encAxis x = encAxis y) : x = y :=
  Fin.ext (Fin.mk.inj_iff.1 h)

theorem encAxis_ne_timeAxis (x : EncId) : encAxis x ≠ timeAxis := by
  intro h
  have hv : x.val = 3 := congrArg Fin.val h
  omega

theorem timeAxis_ne_encAxis (x : EncId) : timeAxis ≠ encAxis x := (encAxis_ne_timeAxis x).symm

/-- Every axis is that of an encoder or the time axis. -/
theorem axis_cases (a : AxisId) : (∃ x, a = encAxis x) ∨ a = timeAxis := by
  by_cases h : a.val < 3
  · exact .inl ⟨⟨a.val, h⟩, rfl⟩
  · exact .inr (Fin.ext (show a.val = 3 by omega))

theorem policyOf_encAxis (s : State) (x : EncId) : policyOf s (encAxis x) = s.encs[x].policy := by
  simp [policyOf]

theorem policyOf_timeAxis (s : State) : policyOf s timeAxis = .hold := rfl

/-- An axis is frozen in HOMING, and in FAULTED under HOLD (R3). -/
theorem axisFrozen_iff (s : State) (a : AxisId) :
    axisFrozen s a = true ↔ s.axes[a].state = .homing ∨ (s.axes[a].state = .faulted ∧ policyOf s a = .hold) := by
  unfold axisFrozen
  cases s.axes[a].state <;> simp

theorem axisFrozen_eq (s : State) (a : AxisId) :
    axisFrozen s a = decide (s.axes[a].state = .homing ∨ (s.axes[a].state = .faulted ∧ policyOf s a = .hold)) := by
  rw [Bool.eq_iff_iff, axisFrozen_iff, decide_eq_true_iff]

theorem upd_get {α : Type} {n : Nat} (v : Vector α n) (i : Fin n) (x : α) : (upd v i x)[i] = x := getElem_upd_self ..

theorem upd_get_ne {α : Type} {n : Nat} (v : Vector α n) {i j : Fin n} (x : α) (h : j ≠ i) : (upd v i x)[j] = v[j] :=
  getElem_upd_ne v x h.symm

/-! ## What the AXU hands on -/

section
variable (t : State) (a : AxisId) (body : NoticeBody) (ports holders : List Port)

@[simp] theorem notified_axes : (t.notified a body ports holders).axes = t.axes := by unfold State.notified; split <;> rfl
@[simp] theorem notified_encs : (t.notified a body ports holders).encs = t.encs := by unfold State.notified; split <;> rfl
@[simp] theorem notified_time : (t.notified a body ports holders).time = t.time := by unfold State.notified; split <;> rfl
@[simp] theorem notified_preset : (t.notified a body ports holders).preset = t.preset := by unfold State.notified; split <;> rfl

/-- A notice and an event for the MKU are handed on in either order. -/
theorem tellMku_notified (b : AxisId) (e : AxuEvent) :
    tellMku b e (t.notified a body ports holders) = (tellMku b e t).notified a body ports holders := by
  have held : (tellMku b e t).heldNotices = t.heldNotices := rfl
  unfold State.notified
  rw [held]
  split <;> rfl

end

/-- A notice of an axis that has notices waiting joins them. -/
theorem notify_of_held {a : AxisId} {q : Posting} {s : State} (h : s.heldNotices[a] ≠ []) :
    notify a q s = s.setHeld a (s.heldNotices[a] ++ [q]) := by
  unfold notify State.setHeld
  rw [if_neg h, if_neg h]

/-! ## Counting (R8, R9, R19) -/

/-- The state after a count within the range: the value is one further and the step is handed on (R8). -/
def moved (a : AxisId) (d : Direction) (s : State) : State :=
  let step : StepMsg := ⟨d, d.next s.axes[a].value, axisFrozen s a⟩
  { s with
    axes := upd s.axes a { s.axes[a] with value := d.next s.axes[a].value }
    toScu := upd s.toScu a (s.toScu[a] ++ [step]), toMku := upd s.toMku a (s.toMku[a] ++ [.step step]) }

/-- The state after a fault with no continued counting: the axis is FAULTED with its cause, the MKU has been told these events,
and AXIS_FAULT is handed on (R2, R24). -/
def stopped (a : AxisId) (cause : FaultCause) (events : List AxuEvent) (s : State) : State :=
  ({ s with
    axes := upd s.axes a ⟨.faulted, s.axes[a].value, some cause⟩
    toMku := upd s.toMku a (s.toMku[a] ++ events) } : State).notified a
    (.axisFault a cause false s.axes[a].value) [] (entryHolders s a)

theorem postFault_enterFaulted (a : AxisId) (cause : FaultCause) (s : State) :
    postFault a cause false (enterFaulted a cause s) = stopped a cause [] s := by
  rw [postFault_eq]
  simp [stopped, enterFaulted, State.setAxis]
  rfl

theorem tellMku_stopped (a : AxisId) (cause : FaultCause) (e : AxuEvent) (s : State) :
    tellMku a e (stopped a cause [] s) = stopped a cause [e] s := by
  unfold stopped
  rw [tellMku_notified]
  simp [tellMku, State.setToMku]

theorem ite_tellMku_stopped (P : Prop) [Decidable P] (a : AxisId) (cause : FaultCause) (e : AxuEvent) (s : State) :
    (if P then tellMku a e (stopped a cause [] s) else stopped a cause [] s)
      = stopped a cause (if P then [e] else []) s := by
  split
  · exact tellMku_stopped ..
  · rfl

theorem count_of_disabled {a : AxisId} {d : Direction} {s : State} (h : s.axes[a].state = .disabled) : count a d s = s :=
  if_pos h

section
variable {a : AxisId} {d : Direction} {s : State} (hd : s.axes[a].state ≠ .disabled)
include hd

theorem count_inRange (hv : inRange (d.next s.axes[a].value) = true) : count a d s = applyCount a d s := by
  rw [count, if_neg hd, if_pos hv]

theorem count_outOfRange (hv : inRange (d.next s.axes[a].value) = false) : count a d s = refuseCount a s := by
  rw [count, if_neg hd, if_neg (ne_true_of_eq_false hv)]

end

theorem applyCount_time (d : Direction) (s : State) : applyCount timeAxis d s = moved timeAxis d s := rfl

theorem applyCount_enc (x : EncId) (d : Direction) (s : State) : applyCount (encAxis x) d s =
    if s.axes[encAxis x].state = .homing then searchStep x (moved (encAxis x) d s) else moved (encAxis x) d s := by
  unfold applyCount
  simp only [axisEnc_encAxis, beq_iff_eq]
  rfl

/-- A search that has travel left goes on (R19). -/
theorem searchStep_goesOn {x : EncId} {s : State} (h : s.encs[x].searchTravel + 1 ≤ s.encs[x].searchLimit) :
    searchStep x s = { s with encs := upd s.encs x { s.encs[x] with searchTravel := s.encs[x].searchTravel + 1 } } := by
  unfold searchStep
  exact if_neg (not_lt.2 h)

/-- A search whose travel exceeds its limit fails (R19). -/
theorem searchStep_fails {x : EncId} {s : State} (h : s.encs[x].searchLimit < s.encs[x].searchTravel + 1) :
    searchStep x s = stopped (encAxis x) .homeFailed (if s.encs[x].policy = .continued then [.thaw] else [])
      (s.setEnc x { s.encs[x] with searchTravel := 0, recover := false }) := by
  unfold searchStep
  dsimp only
  rw [if_pos h, postFault_enterFaulted, ite_tellMku_stopped]

theorem policyOf_congr {s t : State} (h : t.encs = s.encs) (a : AxisId) : policyOf t a = policyOf s a := by
  unfold policyOf
  rw [h]

theorem policyOf_stopped (b a : AxisId) (cause : FaultCause) (events : List AxuEvent) (s : State) :
    policyOf (stopped a cause events s) b = policyOf s b := policyOf_congr (notified_encs ..) b

theorem refuseCount_running {a : AxisId} {s : State} (h : s.axes[a].state = .running) :
    refuseCount a s = stopped a .overrange (if policyOf s a = .hold then [.freeze] else []) s := by
  unfold refuseCount
  rw [h]
  dsimp only
  rw [postFault_enterFaulted, policyOf_stopped, ite_tellMku_stopped]

theorem refuseCount_homing {x : EncId} {s : State} (h : s.axes[encAxis x].state = .homing) :
    refuseCount (encAxis x) s = stopped (encAxis x) .overrange (if s.encs[x].policy = .continued then [.thaw] else [])
      (s.setEnc x { s.encs[x] with recover := false }) := by
  unfold refuseCount
  rw [h]
  simp only [axisEnc_encAxis]
  rw [postFault_enterFaulted, policyOf_stopped, policyOf_encAxis, State.setEnc_encs, upd_get, ite_tellMku_stopped]

theorem refuseCount_homing_time {s : State} (h : s.axes[timeAxis].state = .homing) :
    refuseCount timeAxis s = stopped timeAxis .overrange [] s := by
  unfold refuseCount
  rw [h]
  simp only [axisEnc_timeAxis]
  rw [postFault_enterFaulted]
  rfl

theorem refuseCount_faulted {a : AxisId} {s : State} (h : s.axes[a].state = .faulted) :
    refuseCount a s = if s.axes[a].cause = some .overrange then s else stopped a .overrange [] s := by
  unfold refuseCount
  rw [h]
  dsimp only
  rw [postFault_enterFaulted]

/-! ## Quadrature errors (R7) -/

theorem quadError_quiet {x : EncId} {s : State} (h : s.axes[encAxis x].state = .disabled ∨ s.axes[encAxis x].state = .faulted) :
    quadError x s = s := by
  unfold quadError
  dsimp only
  rcases h with h | h <;> rw [h]

theorem quadError_stops {x : EncId} {s : State} (h : s.axes[encAxis x].state = .running) (hp : s.encs[x].policy = .hold) :
    quadError x s = stopped (encAxis x) .quadError [.freeze] s := by
  unfold quadError
  dsimp only
  rw [h, hp]
  rw [postFault_enterFaulted, tellMku_stopped]

theorem quadError_continues {x : EncId} {s : State}
    (h : s.axes[encAxis x].state = .running ∨ s.axes[encAxis x].state = .homing) (hp : s.encs[x].policy = .continued) :
    quadError x s = postFault (encAxis x) .quadError true s := by
  unfold quadError
  dsimp only
  rcases h with h | h <;> rw [h, hp]

theorem quadError_searching {x : EncId} {s : State} (h : s.axes[encAxis x].state = .homing) (hp : s.encs[x].policy = .hold) :
    quadError x s = postFault (encAxis x) .quadError false (s.setEnc x { s.encs[x] with recover := true }) := by
  unfold quadError
  dsimp only
  rw [h, hp]

/-! ## Changes of the encoder pins (R5) -/

/-- The state once the pins and the decoder reference of an encoder have followed its levels. -/
def sampled (x : EncId) (a b : Bool) (s : State) : State :=
  { s with
    pins := { s.pins with encA := upd s.pins.encA x a, encB := upd s.pins.encB x b }
    encs := upd s.encs x { s.encs[x] with refA := a, refB := b } }

section
variable {x : EncId} {a b : Bool} {s : State} (hr : s.inReset = false)
include hr

theorem encoderChange_quadError (hq : isQuadError s.encs[x] a b = true) :
    encoderChange x a b s = quadError x (sampled x a b s) := by
  unfold encoderChange
  dsimp only
  rw [if_neg (ne_true_of_eq_false hr), if_pos hq]
  rfl

theorem encoderChange_count (hq : isQuadError s.encs[x] a b = false) {d : Direction}
    (hd : decodeCount s.encs[x] a b = some d) : encoderChange x a b s = count (encAxis x) d (sampled x a b s) := by
  unfold encoderChange
  dsimp only
  rw [if_neg (ne_true_of_eq_false hr), if_neg (ne_true_of_eq_false hq), hd]
  rfl

theorem encoderChange_none (hq : isQuadError s.encs[x] a b = false) (hd : decodeCount s.encs[x] a b = none) :
    encoderChange x a b s = sampled x a b s := by
  unfold encoderChange
  dsimp only
  rw [if_neg (ne_true_of_eq_false hr), if_neg (ne_true_of_eq_false hq), hd]
  rfl

end

/-! ## Re-bases and searches (R15 to R18) -/

theorem rebase_eq (a : AxisId) (cause : RebaseCause) (v : Int) (s : State) : rebase a cause v s = { s with
    axes := upd s.axes a { s.axes[a] with value := v }
    time := if a = timeAxis then { s.time with phase := 0 } else s.time
    toMku := upd s.toMku a (s.toMku[a] ++ [.rebase cause s.axes[a].value v])
    heldNotices := upd s.heldNotices a (s.heldNotices[a] ++ [⟨.axisRebased a cause s.axes[a].value v, []⟩]) } := by
  unfold rebase
  dsimp only
  split <;> rfl

/-- A search that ends by a re-base (R16, R18). -/
theorem endSearch_rebase (x : EncId) (way : Recovery) (cause : RebaseCause) (v : Int) (s : State) :
    endSearch x way (rebase (encAxis x) cause v s) = { s with
      axes := upd s.axes (encAxis x) ⟨.running, v, none⟩
      encs := upd s.encs x { s.encs[x] with searchTravel := 0, recover := false }
      toMku := upd s.toMku (encAxis x) (s.toMku[encAxis x] ++ [.rebase cause s.axes[encAxis x].value v, .thaw])
      heldNotices := upd s.heldNotices (encAxis x) (s.heldNotices[encAxis x]
        ++ ⟨.axisRebased (encAxis x) cause s.axes[encAxis x].value v, []⟩ ::
          if s.encs[x].recover then [⟨.axisRecovered (encAxis x) way v, []⟩] else []) } := by
  rw [rebase_eq, if_neg (encAxis_ne_timeAxis x)]
  unfold endSearch
  dsimp only
  cases hr : s.encs[x].recover with
  | false => simp [enterRunning, tellMku, State.setAxis, State.setEnc, State.setToMku]
  | true =>
    simp only [if_true, postRecovered]
    rw [notify_of_held (by simp [enterRunning, tellMku])]
    simp [enterRunning, tellMku, State.setAxis, State.setEnc, State.setToMku, State.setHeld]

/-- Whether an axis recovers at the end of the search that AXIS_HOME starts in a state of the axis (R17); `before` says it of
the search that was in progress. -/
def recoversAfter (state : AxisState) (before : Bool) : Bool :=
  match state with
  | .running | .disabled => false
  | .faulted => true
  | .homing => before

/-- A search starts or starts again (R17). -/
theorem startSearch_eq (x : EncId) (home : Int) (limit : Nat) (s : State) : startSearch x home limit s = { s with
    axes := upd s.axes (encAxis x) ⟨.homing, s.axes[encAxis x].value, none⟩
    encs := upd s.encs x { s.encs[x] with
      homeValue := home, searchLimit := limit, searchTravel := 0
      recover := recoversAfter s.axes[encAxis x].state s.encs[x].recover }
    toMku := upd s.toMku (encAxis x) (s.toMku[encAxis x] ++ if axisFrozen s (encAxis x) then [] else [.freeze]) } := by
  unfold startSearch recoversAfter
  dsimp only
  cases axisFrozen s (encAxis x) with
  | true => cases s.axes[encAxis x].state <;> simp [State.setAxis, State.setEnc]
  | false => cases s.axes[encAxis x].state <;> rfl

/-! ## AXIS_SET (R16) -/

theorem setAxisValue_faulted {a : AxisId} {v : Int} {s : State} (h : s.axes[a].state = .faulted) :
    setAxisValue a v s = { s with
      axes := upd s.axes a ⟨.running, v, none⟩
      time := if a = timeAxis then { s.time with phase := 0 } else s.time
      toMku := upd s.toMku a (s.toMku[a]
        ++ .rebase .set s.axes[a].value v :: if policyOf s a = .hold then [.thaw] else [])
      heldNotices := upd s.heldNotices a (s.heldNotices[a]
        ++ [⟨.axisRebased a .set s.axes[a].value v, []⟩, ⟨.axisRecovered a .set v, []⟩]) } := by
  unfold setAxisValue
  rw [h]
  dsimp only
  have frozen : axisFrozen s a = true ↔ policyOf s a = .hold := by rw [axisFrozen_iff, h]; simp
  simp only [frozen, rebase_eq, postRecovered]
  split
  · rw [notify_of_held (by simp [enterRunning, tellMku])]
    simp [enterRunning, tellMku, State.setAxis, State.setToMku, State.setHeld]
  · rw [notify_of_held (by simp [enterRunning])]
    simp [enterRunning, State.setAxis, State.setHeld]

theorem setAxisValue_homing_time {v : Int} {s : State} (h : s.axes[timeAxis].state = .homing) :
    setAxisValue timeAxis v s = { s with
      axes := upd s.axes timeAxis ⟨.running, v, none⟩
      time := { s.time with phase := 0 }
      toMku := upd s.toMku timeAxis (s.toMku[timeAxis] ++ [.rebase .set s.axes[timeAxis].value v, .thaw])
      heldNotices := upd s.heldNotices timeAxis (s.heldNotices[timeAxis]
        ++ [⟨.axisRebased timeAxis .set s.axes[timeAxis].value v, []⟩]) } := by
  unfold setAxisValue
  rw [h, axisEnc_timeAxis, rebase_eq]
  simp [enterRunning, tellMku, State.setAxis, State.setToMku]

theorem setAxisValue_disabled {a : AxisId} {v : Int} {s : State} (h : s.axes[a].state = .disabled) :
    setAxisValue a v s = s.setAxis a { s.axes[a] with value := v } := by
  unfold setAxisValue
  rw [h]

theorem setAxisValue_running {a : AxisId} {v : Int} {s : State} (h : s.axes[a].state = .running) :
    setAxisValue a v s = rebase a .set v s := by
  unfold setAxisValue
  rw [h]

theorem setAxisValue_homing {x : EncId} {v : Int} {s : State} (h : s.axes[encAxis x].state = .homing) :
    setAxisValue (encAxis x) v s = endSearch x .set (rebase (encAxis x) .set v s) := by
  unfold setAxisValue
  rw [h, axisEnc_encAxis]

end Sys2Proof.Machine
end

section
/-! SUPPORT. The law of the notices that wait behind a re-base (R15, log 25) and the states of the axes, through every operation
of the AXU: no operation but AXIS_DISABLE disables an axis, and each hands on its events and notices in step. -/

namespace Sys2Proof.Machine

/-! ## Notices and re-bases of one axis -/

/-- Whether an event is a re-base. -/
def AxuEvent.isRebase : AxuEvent → Bool
  | .rebase .. => true
  | .step _ | .freeze | .thaw => false

/-- The law of one axis: an AXIS_REBASED waits exactly for each re-base in transit, and nothing waits but behind one. -/
structure HeldAxisOk (held : List Posting) (sent : List AxuEvent) : Prop where
  head : ∀ q ∈ held.head?, q.isRebased = true
  count : held.countP Posting.isRebased = sent.countP AxuEvent.isRebase

theorem heldOk_iff (s : State) : HeldOk s ↔ ∀ a : AxisId, HeldAxisOk s.heldNotices[a] s.toMku[a] :=
  forall_congr' fun _ => ⟨fun h => ⟨h.1, h.2⟩, fun h => ⟨h.1, h.2⟩⟩

namespace HeldAxisOk
variable {held : List Posting} {sent : List AxuEvent}

theorem tell (h : HeldAxisOk held sent) {events : List AxuEvent} (he : ∀ e ∈ events, e.isRebase = false) :
    HeldAxisOk held (sent ++ events) := by
  refine ⟨h.head, ?_⟩
  rw [List.countP_append, List.countP_eq_zero.2 (fun e hm => ne_true_of_eq_false (he e hm)), h.count]
  rfl

theorem join (h : HeldAxisOk held sent) (hne : held ≠ []) {q : Posting} (hq : q.isRebased = false) :
    HeldAxisOk (held ++ [q]) sent := by
  refine ⟨?_, ?_⟩
  · rw [List.head?_append_of_ne_nil _ hne]; exact h.head
  · rw [List.countP_append, List.countP_singleton, hq, h.count]; rfl

theorem rebase (h : HeldAxisOk held sent) {q : Posting} {qs : List Posting} {e : AxuEvent} {events : List AxuEvent}
    (hq : q.isRebased = true) (hqs : ∀ q ∈ qs, q.isRebased = false) (he : e.isRebase = true)
    (hes : ∀ e ∈ events, e.isRebase = false) : HeldAxisOk (held ++ q :: qs) (sent ++ e :: events) := by
  refine ⟨fun q' hq' => ?_, ?_⟩
  · cases held with
    | nil => cases hq'; exact hq
    | cons x l => exact h.head q' hq'
  · rw [List.countP_append, List.countP_append, List.countP_cons_of_pos hq, List.countP_cons_of_pos he, h.count,
      List.countP_eq_zero.2 (fun q hm => ne_true_of_eq_false (hqs q hm)),
      List.countP_eq_zero.2 (fun e hm => ne_true_of_eq_false (hes e hm))]

theorem take {e : AxuEvent} (h : HeldAxisOk held (e :: sent)) (he : e.isRebase = false) : HeldAxisOk held sent := by
  refine ⟨h.head, ?_⟩
  rw [h.count, List.countP_cons_of_neg (ne_true_of_eq_false he)]

/-- The MKU takes a re-base: the notice at the head and those behind it up to the next AXIS_REBASED leave. -/
theorem release {e : AxuEvent} {q : Posting} (h : HeldAxisOk (q :: held) (e :: sent)) (he : e.isRebase = true) :
    HeldAxisOk (held.dropWhile (fun q => !q.isRebased)) sent := by
  refine ⟨fun q' hq' => ?_, ?_⟩
  · have first := List.head?_dropWhile_not (fun q : Posting => !q.isRebased) held
    rw [Option.mem_def.1 hq'] at first
    simpa using first
  · have split := List.takeWhile_append_dropWhile (p := fun q : Posting => !q.isRebased) (l := held)
    have left : (held.takeWhile (fun q => !q.isRebased)).countP Posting.isRebased = 0 :=
      List.countP_eq_zero.2 fun q hq => by simpa using List.mem_takeWhile_imp hq
    have total := h.count
    rw [List.countP_cons_of_pos (h.head q rfl), List.countP_cons_of_pos he, ← split, List.countP_append, left] at total
    omega

end HeldAxisOk

/-- A change of what waits and what is in transit for one axis. -/
theorem HeldOk.at {s t : State} (h : HeldOk s) (a : AxisId)
    (hne : ∀ b ≠ a, t.heldNotices[b] = s.heldNotices[b] ∧ t.toMku[b] = s.toMku[b])
    (ha : HeldAxisOk t.heldNotices[a] t.toMku[a]) : HeldOk t := by
  rw [heldOk_iff] at *
  intro b
  by_cases hb : b = a
  · exact hb ▸ ha
  · obtain ⟨h1, h2⟩ := hne b hb
    rw [h1, h2]
    exact h b

/-! ## What the AXU's operations do to both -/

/-- No axis becomes DISABLED, and the law of the waiting notices is kept. -/
structure Steady (s t : State) : Prop where
  enabled : ∀ a : AxisId, t.axes[a].state = .disabled → s.axes[a].state = .disabled
  held : HeldOk s → HeldOk t

theorem framing_steady : Framing Steady :=
  ⟨fun _ => ⟨fun _ => id, id⟩, fun f g => ⟨fun a => f.enabled a ∘ g.enabled a, g.held ∘ f.held⟩, fun _ _ _ => ⟨fun _ => id, id⟩⟩

theorem Steady.refl (s : State) : Steady s s := framing_steady.refl s

theorem Steady.trans {s t u : State} (h : Steady s t) (k : Steady t u) : Steady s u := framing_steady.trans h k

theorem Steady.after {s t u : State} (h : Steady t u) (k : Steady s t) : Steady s u := k.trans h

/-- Nothing that the two laws speak of changes. -/
theorem Steady.of_same {s t : State} (h1 : t.axes = s.axes) (h2 : t.toMku = s.toMku) (h3 : t.heldNotices = s.heldNotices) :
    Steady s t := by
  refine ⟨fun a => by rw [h1]; exact id, fun h => ?_⟩
  unfold HeldOk
  rw [h2, h3]
  exact h

theorem enabled_upd {s t : State} {a : AxisId} {r : AxisRec} (h : t.axes = upd s.axes a r)
    (hr : r.state = .disabled → s.axes[a].state = .disabled) (b : AxisId) :
    t.axes[b].state = .disabled → s.axes[b].state = .disabled := by
  rw [h]
  by_cases hb : b = a
  · subst hb; rw [upd_get]; exact hr
  · rw [upd_get_ne _ _ hb]; exact id

/-- One axis changes and events other than re-bases go to the MKU. -/
theorem Steady.of_events {s t : State} {a : AxisId} {r : AxisRec} {events : List AxuEvent} (h1 : t.axes = upd s.axes a r)
    (hr : r.state = .disabled → s.axes[a].state = .disabled) (h2 : t.toMku = upd s.toMku a (s.toMku[a] ++ events))
    (he : ∀ e ∈ events, e.isRebase = false) (h3 : t.heldNotices = s.heldNotices) : Steady s t := by
  refine ⟨enabled_upd h1 hr, fun h => h.at a (fun b hb => ?_) ?_⟩
  · rw [h2, h3, upd_get_ne _ _ hb]; exact ⟨rfl, rfl⟩
  · rw [h2, h3, upd_get]; exact ((heldOk_iff s).1 h a).tell he

/-- One axis changes by a re-base, whose AXIS_REBASED waits. -/
theorem Steady.of_rebase {s t : State} {a : AxisId} {r : AxisRec} {e : AxuEvent} {events : List AxuEvent} {q : Posting}
    {qs : List Posting} (h1 : t.axes = upd s.axes a r) (hr : r.state = .disabled → s.axes[a].state = .disabled)
    (h2 : t.toMku = upd s.toMku a (s.toMku[a] ++ e :: events)) (he : e.isRebase = true)
    (hes : ∀ e ∈ events, e.isRebase = false) (h3 : t.heldNotices = upd s.heldNotices a (s.heldNotices[a] ++ q :: qs))
    (hq : q.isRebased = true) (hqs : ∀ q ∈ qs, q.isRebased = false) : Steady s t := by
  refine ⟨enabled_upd h1 hr, fun h => h.at a (fun b hb => ?_) ?_⟩
  · rw [h2, h3, upd_get_ne _ _ hb, upd_get_ne _ _ hb]; exact ⟨rfl, rfl⟩
  · rw [h2, h3, upd_get, upd_get]; exact ((heldOk_iff s).1 h a).rebase hq hqs he hes

/-- A notice that is no AXIS_REBASED is posted, or joins those that wait. -/
theorem notified_steady (s : State) (a : AxisId) {body : NoticeBody} {ports holders : List Port}
    (hb : (⟨body, ports⟩ : Posting).isRebased = false) : Steady s (s.notified a body ports holders) := by
  unfold State.notified
  split
  · exact .of_same rfl rfl rfl
  · rename_i hne
    refine ⟨fun _ => id, fun h => h.at a (fun b hba => ⟨upd_get_ne _ _ hba, rfl⟩) ?_⟩
    rw [upd_get]
    exact ((heldOk_iff s).1 h a).join hne hb

theorem setEnc_steady (s : State) (x : EncId) (r : EncRec) : Steady s (s.setEnc x r) := .of_same rfl rfl rfl

theorem postFault_steady (a : AxisId) (cause : FaultCause) (continued : Bool) (s : State) :
    Steady s (postFault a cause continued s) := by
  rw [postFault_eq]
  exact notified_steady s a rfl

theorem stopped_steady (a : AxisId) (cause : FaultCause) {events : List AxuEvent} (he : ∀ e ∈ events, e.isRebase = false)
    (s : State) : Steady s (stopped a cause events s) := by
  refine Steady.trans ?_ (notified_steady _ a rfl)
  exact .of_events (r := ⟨.faulted, s.axes[a].value, some cause⟩) rfl (fun h => nomatch h) rfl he rfl

theorem moved_steady (a : AxisId) (d : Direction) (s : State) : Steady s (moved a d s) :=
  .of_events (r := { s.axes[a] with value := d.next s.axes[a].value }) rfl id rfl (by simp [AxuEvent.isRebase]) rfl

theorem searchStep_steady (x : EncId) (s : State) : Steady s (searchStep x s) := by
  rcases Nat.lt_or_ge s.encs[x].searchLimit (s.encs[x].searchTravel + 1) with h | h
  · rw [searchStep_fails h]
    refine (setEnc_steady ..).trans (stopped_steady _ _ ?_ _)
    split <;> simp [AxuEvent.isRebase]
  · rw [searchStep_goesOn h]
    exact .of_same rfl rfl rfl

theorem applyCount_steady (a : AxisId) (d : Direction) (s : State) : Steady s (applyCount a d s) := by
  rcases axis_cases a with ⟨x, rfl⟩ | rfl
  · rw [applyCount_enc]
    split
    · exact (moved_steady ..).trans (searchStep_steady ..)
    · exact moved_steady ..
  · exact moved_steady ..

theorem refuseCount_steady (a : AxisId) (s : State) : Steady s (refuseCount a s) := by
  cases h : s.axes[a].state with
  | disabled => unfold refuseCount; rw [h]; exact .refl s
  | running =>
    rw [refuseCount_running h]
    refine stopped_steady _ _ ?_ _
    split <;> simp [AxuEvent.isRebase]
  | homing =>
    rcases axis_cases a with ⟨x, rfl⟩ | rfl
    · rw [refuseCount_homing h]
      refine (setEnc_steady ..).trans (stopped_steady _ _ ?_ _)
      split <;> simp [AxuEvent.isRebase]
    · rw [refuseCount_homing_time h]
      exact stopped_steady _ _ (by simp) _
  | faulted =>
    rw [refuseCount_faulted h]
    split
    · exact .refl s
    · exact stopped_steady _ _ (by simp) _

theorem count_steady (a : AxisId) (d : Direction) (s : State) : Steady s (count a d s) := by
  unfold count
  split
  · exact .refl s
  · split
    · exact applyCount_steady ..
    · exact refuseCount_steady ..

theorem quadError_steady (x : EncId) (s : State) : Steady s (quadError x s) := by
  cases h : s.axes[encAxis x].state with
  | disabled => rw [quadError_quiet (.inl h)]; exact .refl s
  | faulted => rw [quadError_quiet (.inr h)]; exact .refl s
  | running =>
    cases hp : s.encs[x].policy with
    | hold => rw [quadError_stops h hp]; exact stopped_steady _ _ (by simp [AxuEvent.isRebase]) _
    | continued => rw [quadError_continues (.inl h) hp]; exact postFault_steady ..
  | homing =>
    cases hp : s.encs[x].policy with
    | hold => rw [quadError_searching h hp]; exact (setEnc_steady ..).trans (postFault_steady ..)
    | continued => rw [quadError_continues (.inr h) hp]; exact postFault_steady ..

theorem encoderChange_steady (x : EncId) (a b : Bool) (s : State) : Steady s (encoderChange x a b s) := by
  have followed : Steady s (sampled x a b s) := .of_same rfl rfl rfl
  cases hr : s.inReset with
  | true =>
    unfold encoderChange
    dsimp only
    rw [if_pos hr]
    exact .of_same rfl rfl rfl
  | false =>
    cases hq : isQuadError s.encs[x] a b with
    | true => rw [encoderChange_quadError hr hq]; exact followed.trans (quadError_steady ..)
    | false =>
      cases hd : decodeCount s.encs[x] a b with
      | none => rw [encoderChange_none hr hq hd]; exact followed
      | some d => rw [encoderChange_count hr hq hd]; exact followed.trans (count_steady ..)

theorem expirePrescaler_steady (s : State) : Steady s (expirePrescaler s) := by
  unfold expirePrescaler
  split
  · exact (count_steady ..).after (.of_same rfl rfl rfl)
  · exact .refl s

theorem rebase_steady (a : AxisId) (cause : RebaseCause) (v : Int) (s : State) : Steady s (rebase a cause v s) := by
  rw [rebase_eq]
  exact .of_rebase (events := []) rfl id rfl rfl (by simp) rfl rfl (by simp)

theorem endSearch_rebase_steady (x : EncId) (way : Recovery) (cause : RebaseCause) (v : Int) (s : State) :
    Steady s (endSearch x way (rebase (encAxis x) cause v s)) := by
  rw [endSearch_rebase]
  refine .of_rebase rfl (fun h => nomatch h) rfl rfl (by simp [AxuEvent.isRebase]) rfl rfl ?_
  split <;> simp [Posting.isRebased]

theorem setAxisValue_steady (a : AxisId) (v : Int) (s : State) : Steady s (setAxisValue a v s) := by
  cases h : s.axes[a].state with
  | disabled =>
    rw [setAxisValue_disabled h]
    exact .of_events (events := []) rfl (fun _ => h) (by simp) (by simp) rfl
  | running => rw [setAxisValue_running h]; exact rebase_steady ..
  | faulted =>
    rw [setAxisValue_faulted h]
    refine .of_rebase rfl (fun h => nomatch h) rfl rfl ?_ rfl rfl (by simp [Posting.isRebased])
    split <;> simp [AxuEvent.isRebase]
  | homing =>
    rcases axis_cases a with ⟨x, rfl⟩ | rfl
    · rw [setAxisValue_homing h]; exact endSearch_rebase_steady ..
    · rw [setAxisValue_homing_time h]
      exact .of_rebase rfl (fun h => nomatch h) rfl rfl (by simp [AxuEvent.isRebase]) rfl rfl (by simp)

theorem startSearch_steady (x : EncId) (home : Int) (limit : Nat) (s : State) : Steady s (startSearch x home limit s) := by
  rw [startSearch_eq]
  refine .of_events rfl (fun h => nomatch h) rfl ?_ rfl
  split <;> simp [AxuEvent.isRebase]

theorem indexChange_steady (x : EncId) (level : Bool) (s : State) : Steady s (indexChange x level s) := by
  unfold indexChange
  dsimp only
  split
  · exact .of_same rfl rfl rfl
  · split
    · exact (endSearch_rebase_steady ..).after (.of_same rfl rfl rfl)
    · exact .of_same rfl rfl rfl

theorem postEpoch_steady (result : EpochResult) (ports : List Port) (s : State) : Steady s (postEpoch result ports s) := by
  rw [postEpoch_eq]
  exact notified_steady s timeAxis rfl

theorem epochRise_steady (s : State) : Steady s (epochRise s) := by
  unfold epochRise
  split
  · exact postEpoch_steady ..
  · split
    · exact postEpoch_steady ..
    · split
      · exact (postEpoch_steady ..).after (.of_same rfl rfl rfl)
      · rename_i q _ _
        exact (postEpoch_steady ..).after ((rebase_steady timeAxis .epoch q.value s).trans (.of_same rfl rfl rfl))

theorem epochChange_steady (level : Bool) (s : State) : Steady s (epochChange level s) := by
  unfold epochChange
  dsimp only
  split
  · exact .of_same rfl rfl rfl
  · split
    · exact (epochRise_steady _).after (.of_same rfl rfl rfl)
    · exact .of_same rfl rfl rfl

/-! ## The AXU's commands -/

theorem axisConfigAct_steady (pl : List Byte) (s : State) : Steady s (axisConfigAct pl s).1 := by
  unfold axisConfigAct
  split
  · exact .refl s
  · split
    · exact .refl s
    · split <;> exact .of_same rfl rfl rfl

theorem axisEnableAct_steady (pl : List Byte) (s : State) : Steady s (axisEnableAct pl s).1 := by
  have enabled (a : AxisId) : Steady s (enterRunning a s) :=
    .of_events (a := a) (events := []) rfl (fun h => nomatch h) (by simp [enterRunning]) (by simp) rfl
  unfold axisEnableAct
  split
  · exact .refl s
  · split
    · exact .refl s
    · dsimp only
      split <;> exact (enabled _).trans (.of_same rfl rfl rfl)

theorem axisSetAct_steady (p : Port) (pl : List Byte) (s : State) : Steady s (axisSetAct p pl s).1 := by
  unfold axisSetAct
  split
  · exact .refl s
  · split
    · exact .refl s
    · exact setAxisValue_steady ..

theorem axisHomeAct_steady (pl : List Byte) (s : State) : Steady s (axisHomeAct pl s).1 := by
  unfold axisHomeAct
  split
  · exact .refl s
  · split
    · exact .refl s
    · exact startSearch_steady ..

theorem timePresetAct_steady (p : Port) (pl : List Byte) (s : State) : Steady s (timePresetAct p pl s).1 := by
  rw [timePresetAct_eq]
  split
  · exact .refl s
  · split
    · exact .refl s
    · split <;> exact .of_same rfl rfl rfl

theorem timePresetClearAct_steady (p : Port) (s : State) : Steady s (timePresetClearAct p s).1 := by
  unfold timePresetClearAct
  split
  · exact .refl s
  · split <;> exact .of_same rfl rfl rfl

theorem clearPreset_steady (p : Port) (s : State) : Steady s (clearPreset p s) := by
  unfold clearPreset
  split
  · exact .refl s
  · split <;> exact .of_same rfl rfl rfl

/-- Every command of the AXU but AXIS_DISABLE. -/
theorem exec_steady {c : Instr} (h : site c = some .axu) (hd : ∀ p pl, c ≠ .axisDisable p pl) {s t : State}
    (ht : exec c s = .next t) : Steady s t := by
  match c, h with
  | .axisDisable p pl, _ => exact absurd rfl (hd p pl)
  | .axisConfig .., _ => cases ht; exact takeFrame_rel framing_steady (axisConfigAct_steady _) s
  | .axisEnable .., _ => cases ht; exact takeFrame_rel framing_steady (axisEnableAct_steady _) s
  | .axisSet .., _ => cases ht; exact takeFrame_rel framing_steady (axisSetAct_steady _ _) s
  | .axisHome .., _ => cases ht; exact takeFrame_rel framing_steady (axisHomeAct_steady _) s
  | .timePreset .., _ => cases ht; exact takeFrame_rel framing_steady (timePresetAct_steady _ _) s
  | .timePresetClear .., _ => cases ht; exact takeFrame_rel framing_steady (timePresetClearAct_steady _) s
  | .axuTeardown _, _ => cases ht; exact teardownPart_rel framing_steady (clearPreset_steady _) s
  | .encoderTransition .., _ => cases ht; exact encoderChange_steady ..
  | .prescalerExpiry, _ => cases ht; exact expirePrescaler_steady s
  | .indexEdge .., _ => cases ht; exact indexChange_steady ..
  | .epochEdge _, _ => cases ht; exact epochChange_steady ..

/-! ## AXIS_REBASED waits for the MKU -/

theorem heldOk_axisDisableAct {pl : List Byte} {s : State} (h : HeldOk s) : HeldOk (axisDisableAct pl s).1 := by
  unfold axisDisableAct
  split
  · exact h
  · split
    · exact h
    · split
      · exact h
      · dsimp only
        split <;> exact h

/-- What the MKU takes of an axis: an event that is no re-base. -/
theorem heldOk_taken {s : State} {a : AxisId} {e : AxuEvent} {rest : List AxuEvent} (h : HeldOk s)
    (hs : s.toMku[a] = e :: rest) (he : e.isRebase = false) : HeldOk (s.setToMku a rest) := by
  refine h.at a (fun b hb => ⟨rfl, upd_get_ne _ _ hb⟩) ?_
  rw [State.setToMku_toMku, upd_get]
  have := (heldOk_iff s).1 h a
  rw [hs] at this
  exact this.take he

/-- The MKU takes a re-base of an axis, and the notices it held back are posted. -/
theorem heldOk_released {s t : State} {a : AxisId} {e : AxuEvent} {rest : List AxuEvent} (h : HeldOk s)
    (hs : s.toMku[a] = e :: rest) (he : e.isRebase = true) (h1 : t.toMku = upd s.toMku a rest)
    (h2 : t.heldNotices = s.heldNotices) : HeldOk (releaseNotices a t) := by
  have law := (heldOk_iff s).1 h a
  rw [hs, ← h2] at law
  unfold releaseNotices
  cases hq : t.heldNotices[a] with
  | nil =>
    rw [hq] at law
    have := law.count
    rw [List.countP_cons_of_pos he] at this
    simp at this
  | cons q held =>
    rw [hq] at law
    refine h.at a (fun b hb => ⟨?_, ?_⟩) ?_
    · exact (upd_get_ne _ _ hb).trans (by rw [h2])
    · exact (congrArg (·[b]) h1).trans (upd_get_ne _ _ hb)
    · dsimp only
      rw [h1, upd_get, upd_get]
      exact law.release he

theorem MkuOnly.heldOk {s t : State} (k : MkuOnly s t) (h : HeldOk s) : HeldOk t := by
  rw [k]; exact h

theorem heldOk_takeMkuStep {a : AxisId} {s : State} (h : HeldOk s) : HeldOk (takeMkuStep a s) := by
  unfold takeMkuStep
  split
  · rename_i hs
    have taken := heldOk_taken h hs rfl
    dsimp only
    split
    · exact taken
    · exact (foldl_mkuOnly (fun s m => trackStep_mkuOnly s a _ m) _ _).heldOk taken
  · exact h

theorem heldOk_takeFreeze {a : AxisId} {s : State} (h : HeldOk s) : HeldOk (takeFreeze a s) := by
  unfold takeFreeze
  split
  · rename_i hs
    exact (foldl_mkuOnly (fun s m => freezeInput_mkuOnly s a m) _ _).heldOk (heldOk_taken h hs rfl)
  · exact h

theorem heldOk_takeThaw {a : AxisId} {s : State} (h : HeldOk s) : HeldOk (takeThaw a s) := by
  unfold takeThaw
  split
  · rename_i hs
    exact (foldl_mkuOnly (fun s m => thawInput_mkuOnly s a m) _ _).heldOk (heldOk_taken h hs rfl)
  · exact h

theorem heldOk_takeRebase {a : AxisId} {s : State} (h : HeldOk s) : HeldOk (takeRebase a s) := by
  unfold takeRebase
  split
  · rename_i rest hs
    have marks := foldl_mkuOnly (fun s m => rebaseInput_mkuOnly s a m) (List.finRange 4) (s.setToMku a rest)
    exact heldOk_released h hs rfl (by rw [marks]; rfl) (by rw [marks]; rfl)
  · exact h

theorem heldOk_resetWith (pins : Pins) (links : Vector Link 4) : HeldOk (State.resetWith pins links) := by
  intro a
  simp [State.resetWith]

theorem heldOk_exec (c : Instr) (s t : State) (h : HeldOk s) (ht : exec c s = .next t) : HeldOk t := by
  have port : PortFree HeldOk := fun _ _ _ _ h => h
  refine exec_keeps (law := HeldOk) (fun c k hc s t h ht => ?_) (fun s _ => ?_) (fun s h => ?_) (fun _ h _ => h) c s t h ht
  · cases k with
    | axu =>
      by_cases hd : ∃ p pl, c = .axisDisable p pl
      · obtain ⟨p, pl, rfl⟩ := hd
        cases ht
        exact takeFrame_rel port.framing (fun _ => heldOk_axisDisableAct) s h
      · exact (exec_steady hc (fun p pl e => hd ⟨p, pl, e⟩) ht).held h
    | mku =>
      match c, hc with
      | .freezeEvent _, _ => cases ht; exact heldOk_takeFreeze h
      | .thawEvent _, _ => cases ht; exact heldOk_takeThaw h
      | .rebaseEvent _, _ => cases ht; exact heldOk_takeRebase h
      | .mkuStep _, _ => cases ht; exact heldOk_takeMkuStep h
      | .markEdge m level, _ => cases ht; exact (markChange_mkuOnly m level s).heldOk h
      | .debounceEnd m, _ => cases ht; exact (endDebounce_mkuOnly s m).heldOk h
      | .markConfig .., _ =>
        cases ht; exact takeFrame_rel port.framing (fun u => (markConfigAct_mkuOnly _ u).heldOk) s h
      | .markStart .., _ =>
        cases ht; exact takeFrame_rel port.framing (fun u => (markStartAct_mkuOnly _ _ u).heldOk) s h
      | .markStop .., _ =>
        cases ht; exact takeFrame_rel port.framing (fun u => (markStopAct_mkuOnly _ _ u).heldOk) s h
      | .mkuTeardown _, _ =>
        cases ht; exact teardownPart_rel port.framing (fun u => (releaseInputs_mkuOnly u _).heldOk) s h
    | scu => have by_ := exec_of_site hc ht; simp only [By] at by_; rw [by_]; exact h
    | pif => have by_ := exec_of_site hc ht; simp only [By] at by_; rw [by_]; exact h
  · exact heldOk_resetWith s.pins (.ofFn fun p => s.ports[p].link.abandon)
  · unfold releaseReset
    split <;> exact h

end Sys2Proof.Machine
end

section
/-! SUPPORT. The ranges of the axis records (R2, R10, R21), through every operation of the AXU: an operation of one axis is
judged by the records of that axis alone. -/

namespace Sys2Proof.Machine

/-! ## The records of one axis -/

/-- The records of an encoder axis keep to R2. -/
structure EncAxisOk (r : AxisRec) (e : EncRec) : Prop where
  value : inRange r.value = true
  cause : r.cause = none ↔ r.state ≠ .faulted
  home : inRange e.homeValue = true
  limit : e.searchLimit ≤ Config.countMax
  travel : e.searchTravel ≤ e.searchLimit
  recover : e.recover = true → r.state = .homing

/-- The records of the time axis keep to R2 and R10. -/
structure TimeAxisOk (r : AxisRec) (t : TimeRec) : Prop where
  value : inRange r.value = true
  cause : r.cause = none ↔ r.state ≠ .faulted
  notHoming : r.state ≠ .homing
  prescaler : 1 ≤ t.prescaler ∧ t.prescaler ≤ 1000
  phase : t.phase ≤ t.prescaler
  still : r.state = .disabled → t.phase = 0

/-- The laws of the axis records, axis by axis. -/
theorem axesOk_iff (s : State) : AxesOk s ↔ (∀ x : EncId, EncAxisOk s.axes[encAxis x] s.encs[x])
    ∧ TimeAxisOk s.axes[timeAxis] s.time ∧ ∀ q ∈ s.preset, inRange q.value = true := by
  constructor
  · rintro ⟨axis, enc, recover, time, prescaler, phase, still, preset⟩
    refine ⟨fun x => ?_, ?_, preset⟩
    · obtain ⟨value, cause⟩ := axis (encAxis x)
      obtain ⟨home, limit, travel⟩ := enc x
      exact ⟨value, cause, home, limit, travel, recover x⟩
    · obtain ⟨value, cause⟩ := axis timeAxis
      exact ⟨value, cause, time, prescaler, phase, still⟩
  · rintro ⟨enc, time, preset⟩
    refine ⟨fun a => ?_, fun x => ⟨(enc x).home, (enc x).limit, (enc x).travel⟩, fun x => (enc x).recover, time.notHoming,
      time.prescaler, time.phase, time.still, preset⟩
    rcases axis_cases a with ⟨x, rfl⟩ | rfl
    · exact ⟨(enc x).value, (enc x).cause⟩
    · exact ⟨time.value, time.cause⟩

theorem AxesOk.encAxis {s : State} (h : AxesOk s) (x : EncId) : EncAxisOk s.axes[encAxis x] s.encs[x] :=
  ((axesOk_iff s).1 h).1 x

theorem AxesOk.timeAxis {s : State} (h : AxesOk s) : TimeAxisOk s.axes[timeAxis] s.time := ((axesOk_iff s).1 h).2.1

theorem AxesOk.preset {s : State} (h : AxesOk s) : ∀ q ∈ s.preset, inRange q.value = true := ((axesOk_iff s).1 h).2.2

theorem AxesOk.congr {s t : State} (h : AxesOk s) (same : SameAxes s t) : AxesOk t := by
  unfold AxesOk
  rw [same.axes, same.encs, same.time, same.preset]
  exact h

/-- One encoder axis changes. -/
theorem AxesOk.of_enc {s t : State} (h : AxesOk s) {x : EncId} {r : AxisRec} {e : EncRec}
    (h1 : t.axes = upd s.axes (Machine.encAxis x) r) (h2 : t.encs = upd s.encs x e) (h3 : t.time = s.time)
    (h4 : t.preset = s.preset) (ok : EncAxisOk r e) : AxesOk t := by
  rw [axesOk_iff, h1, h2, h3, h4, upd_get_ne _ _ (timeAxis_ne_encAxis x)]
  refine ⟨fun y => ?_, h.timeAxis, h.preset⟩
  by_cases hy : y = x
  · subst hy; rw [upd_get, upd_get]; exact ok
  · rw [upd_get_ne _ _ (fun k => hy (encAxis_injective k)), upd_get_ne _ _ hy]; exact h.encAxis y

/-- The time axis changes. -/
theorem AxesOk.of_time {s t : State} (h : AxesOk s) {r : AxisRec} {tr : TimeRec} (h1 : t.axes = upd s.axes Machine.timeAxis r)
    (h2 : t.encs = s.encs) (h3 : t.time = tr) (h4 : t.preset = s.preset) (ok : TimeAxisOk r tr) : AxesOk t := by
  rw [axesOk_iff, h1, h2, h3, h4, upd_get]
  refine ⟨fun y => ?_, ok, h.preset⟩
  rw [upd_get_ne _ _ (encAxis_ne_timeAxis y)]
  exact h.encAxis y

/-! ## What the operations do to the records of their axis -/

namespace EncAxisOk
variable {r : AxisRec} {e : EncRec}

theorem withValue (h : EncAxisOk r e) {v : Int} (hv : inRange v = true) : EncAxisOk { r with value := v } e :=
  ⟨hv, h.cause, h.home, h.limit, h.travel, h.recover⟩

/-- The axis is FAULTED, no search waits to recover it, and the search travel is kept or cleared. -/
theorem faulted (h : EncAxisOk r e) (cause : FaultCause) {travel : Nat} (ht : travel ≤ e.searchLimit) :
    EncAxisOk ⟨.faulted, r.value, some cause⟩ { e with searchTravel := travel, recover := false } :=
  ⟨h.value, by simp, h.home, h.limit, ht, by simp⟩

/-- The axis is in a state without a fault and without a search, at a value in the range. -/
theorem settled (h : EncAxisOk r e) {v : Int} (hv : inRange v = true) {st : AxisState} (hst : st ≠ .faulted) :
    EncAxisOk ⟨st, v, none⟩ { e with searchTravel := 0, recover := false } :=
  ⟨hv, by simp [hst], h.home, h.limit, Nat.zero_le _, by simp⟩

/-- Outside of HOMING nothing waits for a recovery. -/
theorem recover_of_ne (h : EncAxisOk r e) (hs : r.state ≠ .homing) : { e with recover := false } = e := by
  have : e.recover = false := Bool.eq_false_iff.2 fun k => hs (h.recover k)
  rw [← this]

end EncAxisOk

namespace TimeAxisOk
variable {r : AxisRec} {t : TimeRec}

theorem withValue (h : TimeAxisOk r t) {v : Int} (hv : inRange v = true) : TimeAxisOk { r with value := v } t :=
  ⟨hv, h.cause, h.notHoming, h.prescaler, h.phase, h.still⟩

theorem faulted (h : TimeAxisOk r t) (cause : FaultCause) : TimeAxisOk ⟨.faulted, r.value, some cause⟩ t :=
  ⟨h.value, by simp, by simp, h.prescaler, h.phase, by simp⟩

theorem restarted (h : TimeAxisOk r t) : TimeAxisOk r { t with phase := 0 } :=
  ⟨h.value, h.cause, h.notHoming, h.prescaler, Nat.zero_le _, fun _ => rfl⟩

/-- The axis is RUNNING or DISABLED with its phase at 0. -/
theorem settled (h : TimeAxisOk r t) {v : Int} (hv : inRange v = true) {st : AxisState} (h1 : st ≠ .faulted)
    (h2 : st ≠ .homing) : TimeAxisOk ⟨st, v, none⟩ { t with phase := 0 } :=
  ⟨hv, by simp [h1], h2, h.prescaler, Nat.zero_le _, fun _ => rfl⟩

end TimeAxisOk

/-! ## Counting -/

theorem axesOk_notified {s : State} (h : AxesOk s) (a : AxisId) (body : NoticeBody) (ports holders : List Port) :
    AxesOk (s.notified a body ports holders) :=
  h.congr ⟨notified_axes .., notified_encs .., notified_time .., notified_preset ..⟩

/-- An encoder axis is stopped by a fault, its search ended. -/
theorem axesOk_stopped_enc {s : State} (h : AxesOk s) (x : EncId) (cause : FaultCause) (events : List AxuEvent)
    {travel : Nat} (ht : travel ≤ s.encs[x].searchLimit) :
    AxesOk (stopped (encAxis x) cause events
      (s.setEnc x { s.encs[x] with searchTravel := travel, recover := false })) := by
  unfold stopped
  refine axesOk_notified ?_ _ _ _ _
  exact h.of_enc rfl rfl rfl rfl ((h.encAxis x).faulted cause ht)

/-- The same for an axis that has no search to end. -/
theorem axesOk_stopped_plain {s : State} (h : AxesOk s) {x : EncId} (hs : s.axes[encAxis x].state ≠ .homing)
    (cause : FaultCause) (events : List AxuEvent) : AxesOk (stopped (encAxis x) cause events s) := by
  have ok := h.encAxis x
  have same : s.setEnc x { s.encs[x] with searchTravel := s.encs[x].searchTravel, recover := false } = s := by
    rw [ok.recover_of_ne hs]
    simp [State.setEnc]
  have stop := axesOk_stopped_enc h x cause events ok.travel
  rw [same] at stop
  exact stop

theorem axesOk_stopped_time {s : State} (h : AxesOk s) (cause : FaultCause) (events : List AxuEvent) :
    AxesOk (stopped timeAxis cause events s) := by
  unfold stopped
  refine axesOk_notified ?_ _ _ _ _
  exact h.of_time rfl rfl rfl rfl (h.timeAxis.faulted cause)

theorem axesOk_moved_enc {s : State} (h : AxesOk s) (x : EncId) (d : Direction)
    (hv : inRange (d.next s.axes[encAxis x].value) = true) : AxesOk (moved (encAxis x) d s) :=
  h.of_enc rfl (upd_same s.encs x).symm rfl rfl ((h.encAxis x).withValue hv)

theorem axesOk_searchStep {s : State} (h : AxesOk s) (x : EncId) : AxesOk (searchStep x s) := by
  rcases Nat.lt_or_ge s.encs[x].searchLimit (s.encs[x].searchTravel + 1) with ht | ht
  · rw [searchStep_fails ht]
    exact axesOk_stopped_enc h x _ _ (Nat.zero_le _)
  · rw [searchStep_goesOn ht]
    have ok := h.encAxis x
    exact h.of_enc (upd_same s.axes (encAxis x)).symm rfl rfl rfl
      ⟨ok.value, ok.cause, ok.home, ok.limit, ht, ok.recover⟩

theorem axesOk_refuseCount_enc {s : State} (h : AxesOk s) (x : EncId) : AxesOk (refuseCount (encAxis x) s) := by
  have ok := h.encAxis x
  cases hs : s.axes[encAxis x].state with
  | disabled => unfold refuseCount; rw [hs]; exact h
  | running => rw [refuseCount_running hs]; exact axesOk_stopped_plain h (hs.trans_ne (by decide)) _ _
  | homing => rw [refuseCount_homing hs]; exact axesOk_stopped_enc h x _ _ ok.travel
  | faulted =>
    rw [refuseCount_faulted hs]
    split
    · exact h
    · exact axesOk_stopped_plain h (hs.trans_ne (by decide)) _ _

theorem axesOk_count_enc {s : State} (h : AxesOk s) (x : EncId) (d : Direction) : AxesOk (count (encAxis x) d s) := by
  by_cases hd : s.axes[encAxis x].state = .disabled
  · rw [count_of_disabled hd]; exact h
  · cases hv : inRange (d.next s.axes[encAxis x].value) with
    | false => rw [count_outOfRange hd hv]; exact axesOk_refuseCount_enc h x
    | true =>
      rw [count_inRange hd hv, applyCount_enc]
      have moved := axesOk_moved_enc h x d hv
      split
      · exact axesOk_searchStep moved x
      · exact moved

theorem axesOk_count_time {s : State} (h : AxesOk s) (d : Direction) : AxesOk (count timeAxis d s) := by
  by_cases hd : s.axes[timeAxis].state = .disabled
  · rw [count_of_disabled hd]; exact h
  · cases hv : inRange (d.next s.axes[timeAxis].value) with
    | true =>
      rw [count_inRange hd hv, applyCount_time]
      exact h.of_time rfl rfl rfl rfl (h.timeAxis.withValue hv)
    | false =>
      rw [count_outOfRange hd hv]
      cases hs : s.axes[timeAxis].state with
      | disabled => exact absurd hs hd
      | running => rw [refuseCount_running hs]; exact axesOk_stopped_time h _ _
      | homing => exact absurd hs h.timeAxis.notHoming
      | faulted =>
        rw [refuseCount_faulted hs]
        split
        · exact h
        · exact axesOk_stopped_time h _ _

theorem axesOk_quadError {s : State} (h : AxesOk s) (x : EncId) : AxesOk (quadError x s) := by
  have ok := h.encAxis x
  cases hs : s.axes[encAxis x].state with
  | disabled => rw [quadError_quiet (.inl hs)]; exact h
  | faulted => rw [quadError_quiet (.inr hs)]; exact h
  | running =>
    cases hp : s.encs[x].policy with
    | hold => rw [quadError_stops hs hp]; exact axesOk_stopped_plain h (hs.trans_ne (by decide)) _ _
    | continued => rw [quadError_continues (.inl hs) hp, postFault_eq]; exact axesOk_notified h ..
  | homing =>
    cases hp : s.encs[x].policy with
    | hold =>
      rw [quadError_searching hs hp, postFault_eq]
      refine axesOk_notified ?_ _ _ _ _
      exact h.of_enc (upd_same s.axes (encAxis x)).symm rfl rfl rfl
        ⟨ok.value, ok.cause, ok.home, ok.limit, ok.travel, fun _ => hs⟩
    | continued => rw [quadError_continues (.inr hs) hp, postFault_eq]; exact axesOk_notified h ..

/-- A change of an encoder's record that leaves the search as it is. -/
theorem axesOk_same_search {s t : State} (h : AxesOk s) {x : EncId} {e : EncRec} (h1 : t.axes = s.axes)
    (h2 : t.encs = upd s.encs x e) (h3 : t.time = s.time) (h4 : t.preset = s.preset)
    (he : e.homeValue = s.encs[x].homeValue ∧ e.searchLimit = s.encs[x].searchLimit
      ∧ e.searchTravel = s.encs[x].searchTravel ∧ e.recover = s.encs[x].recover) : AxesOk t := by
  obtain ⟨home, limit, travel, recover⟩ := he
  have ok := h.encAxis x
  exact h.of_enc (h1.trans (upd_same s.axes (encAxis x)).symm) h2 h3 h4
    ⟨ok.value, ok.cause, home ▸ ok.home, limit ▸ ok.limit, travel ▸ limit ▸ ok.travel, recover ▸ ok.recover⟩

theorem axesOk_sampled {s : State} (h : AxesOk s) (x : EncId) (a b : Bool) : AxesOk (sampled x a b s) :=
  axesOk_same_search h rfl rfl rfl rfl ⟨rfl, rfl, rfl, rfl⟩

theorem axesOk_loadReference {s : State} (h : AxesOk s) (x : EncId) : AxesOk (loadReference x s) :=
  axesOk_same_search h rfl rfl rfl rfl ⟨rfl, rfl, rfl, rfl⟩

theorem axesOk_encoderChange {s : State} (h : AxesOk s) (x : EncId) (a b : Bool) : AxesOk (encoderChange x a b s) := by
  have followed := axesOk_sampled h x a b
  cases hr : s.inReset with
  | true =>
    unfold encoderChange
    dsimp only
    rw [if_pos hr]
    exact h
  | false =>
    cases hq : isQuadError s.encs[x] a b with
    | true => rw [encoderChange_quadError hr hq]; exact axesOk_quadError followed x
    | false =>
      cases hd : decodeCount s.encs[x] a b with
      | none => rw [encoderChange_none hr hq hd]; exact followed
      | some d => rw [encoderChange_count hr hq hd]; exact axesOk_count_enc followed x d

theorem axesOk_expirePrescaler {s : State} (h : AxesOk s) : AxesOk (expirePrescaler s) := by
  unfold expirePrescaler
  split
  · refine axesOk_count_time ?_ _
    exact h.of_time (upd_same s.axes timeAxis).symm rfl rfl rfl h.timeAxis.restarted
  · exact h

/-! ## Re-bases, searches and AXIS_SET -/

theorem axesOk_rebase {s : State} (h : AxesOk s) (a : AxisId) (cause : RebaseCause) {v : Int} (hv : inRange v = true) :
    AxesOk (rebase a cause v s) := by
  rw [rebase_eq]
  rcases axis_cases a with ⟨x, rfl⟩ | rfl
  · rw [if_neg (encAxis_ne_timeAxis x)]
    exact h.of_enc rfl (upd_same s.encs x).symm rfl rfl ((h.encAxis x).withValue hv)
  · rw [if_pos rfl]
    exact h.of_time rfl rfl rfl rfl (h.timeAxis.withValue hv).restarted

theorem axesOk_endSearch_rebase {s : State} (h : AxesOk s) (x : EncId) (way : Recovery) (cause : RebaseCause) {v : Int}
    (hv : inRange v = true) : AxesOk (endSearch x way (rebase (encAxis x) cause v s)) := by
  rw [endSearch_rebase]
  exact h.of_enc rfl rfl rfl rfl ((h.encAxis x).settled hv (by simp))

theorem axesOk_setAxisValue {s : State} (h : AxesOk s) (a : AxisId) {v : Int} (hv : inRange v = true) :
    AxesOk (setAxisValue a v s) := by
  cases hs : s.axes[a].state with
  | running => rw [setAxisValue_running hs]; exact axesOk_rebase h a _ hv
  | disabled =>
    rw [setAxisValue_disabled hs]
    rcases axis_cases a with ⟨x, rfl⟩ | rfl
    · exact h.of_enc rfl (upd_same s.encs x).symm rfl rfl ((h.encAxis x).withValue hv)
    · exact h.of_time rfl rfl rfl rfl (h.timeAxis.withValue hv)
  | faulted =>
    rw [setAxisValue_faulted hs]
    rcases axis_cases a with ⟨x, rfl⟩ | rfl
    · rw [if_neg (encAxis_ne_timeAxis x)]
      have ok := h.encAxis x
      exact h.of_enc rfl (upd_same s.encs x).symm rfl rfl
        ⟨hv, by simp, ok.home, ok.limit, ok.travel, fun k => absurd (ok.recover k) (hs.trans_ne (by decide))⟩
    · rw [if_pos rfl]
      exact h.of_time rfl rfl rfl rfl (h.timeAxis.settled hv (by simp) (by simp))
  | homing =>
    rcases axis_cases a with ⟨x, rfl⟩ | rfl
    · rw [setAxisValue_homing hs]; exact axesOk_endSearch_rebase h x _ _ hv
    · exact absurd hs h.timeAxis.notHoming

theorem axesOk_startSearch {s : State} (h : AxesOk s) (x : EncId) {home : Int} {limit : Nat} (hv : inRange home = true)
    (hl : limit ≤ Config.countMax) : AxesOk (startSearch x home limit s) := by
  rw [startSearch_eq]
  exact h.of_enc rfl rfl rfl rfl ⟨(h.encAxis x).value, by simp, hv, hl, Nat.zero_le _, fun _ => rfl⟩

/-! ## The AXU's commands -/

theorem rangedValue_eq_some {v w : Int} : rangedValue v = some w ↔ inRange v = true ∧ v = w := by
  simp [rangedValue]

theorem rangedValue_inRange {v w : Int} (h : rangedValue v = some w) : inRange w = true := by
  obtain ⟨hv, rfl⟩ := rangedValue_eq_some.1 h
  exact hv

theorem boundedNat_eq_some {lo hi n k : Nat} : boundedNat lo hi n = some k ↔ (lo ≤ n ∧ n ≤ hi) ∧ n = k := by
  simp [boundedNat]

theorem boundedNat_le {lo hi n k : Nat} (h : boundedNat lo hi n = some k) : k ≤ hi := by
  obtain ⟨⟨_, hk⟩, rfl⟩ := boundedNat_eq_some.1 h
  exact hk

theorem parseAxisSet_eq_some {pl : List Byte} {a : AxisId} {v : Int} : parseAxisSet pl = some (a, v) ↔
    fin4 (field pl 0 1) = some a ∧ rangedValue (fieldInt48 pl 1) = some v := by
  simp [parseAxisSet, Option.bind_eq_some_iff]

theorem parseAxisHome_eq_some {pl : List Byte} {x : EncId} {home : Int} {limit : Nat} :
    parseAxisHome pl = some (x, home, limit) ↔ (fin4 (field pl 0 1)).bind axisEnc = some x
      ∧ rangedValue (fieldInt48 pl 1) = some home ∧ boundedNat 1 Config.countMax (field pl 7 4) = some limit := by
  simp [parseAxisHome, Option.bind_eq_some_iff, ← exists_and_right, and_assoc]

/-- What AXIS_CONFIG reads of an encoder axis (R11). -/
theorem parseAxisConfig_enc {pl : List Byte} {x : EncId} (h : fin4 (field pl 0 1) = some (encAxis x)) :
    parseAxisConfig pl = (Decode.ofCode (field pl 1 1)).bind fun decode => (flagOf (field pl 2 1)).bind fun invert =>
      (FaultPolicy.ofCode (field pl 3 1)).bind fun policy => (demand (field pl 4 2 == 0)).bind fun _ =>
        some (.encoder x decode invert policy) := by
  simp [parseAxisConfig, h]

/-- What AXIS_CONFIG reads of the time axis (R11). -/
theorem parseAxisConfig_time {pl : List Byte} (h : fin4 (field pl 0 1) = some timeAxis) :
    parseAxisConfig pl = (demand (field pl 1 1 == 0 && field pl 2 1 == 0 && field pl 3 1 == 0)).bind fun _ =>
      (boundedNat 1 1000 (field pl 4 2)).bind fun prescaler => some (.time prescaler) := by
  simp [parseAxisConfig, h]

theorem parseAxisConfig_prescaler {pl : List Byte} {n : Nat} (h : parseAxisConfig pl = some (.time n)) :
    1 ≤ n ∧ n ≤ 1000 := by
  cases ha : fin4 (field pl 0 1) with
  | none => simp [parseAxisConfig, ha] at h
  | some a =>
    rcases axis_cases a with ⟨x, rfl⟩ | rfl
    · simp [parseAxisConfig_enc ha, Option.bind_eq_some_iff] at h
    · simp only [parseAxisConfig_time ha, Option.bind_eq_some_iff, boundedNat_eq_some] at h
      obtain ⟨_, _, k, ⟨bounds, rfl⟩, e⟩ := h
      cases e
      exact bounds

theorem axesOk_axisConfigAct {s : State} (h : AxesOk s) (pl : List Byte) : AxesOk (axisConfigAct pl s).1 := by
  unfold axisConfigAct
  split
  · exact h
  · rename_i op hop
    split
    · exact h
    · rename_i hs
      split
      · refine axesOk_loadReference ?_ _
        exact axesOk_same_search h rfl rfl rfl rfl ⟨rfl, rfl, rfl, rfl⟩
      · rename_i n
        have ok := h.timeAxis
        have still : s.time.phase = 0 := ok.still (not_not.1 hs)
        exact h.of_time (upd_same s.axes timeAxis).symm rfl rfl rfl
          ⟨ok.value, ok.cause, ok.notHoming, parseAxisConfig_prescaler hop, by rw [still]; exact Nat.zero_le _, fun _ => still⟩

theorem axesOk_axisEnableAct {s : State} (h : AxesOk s) (pl : List Byte) : AxesOk (axisEnableAct pl s).1 := by
  unfold axisEnableAct
  split
  · exact h
  · rename_i a _
    split
    · exact h
    · rename_i hs
      rcases axis_cases a with ⟨x, rfl⟩ | rfl
      · rw [axisEnc_encAxis]
        have ok := h.encAxis x
        refine axesOk_loadReference ?_ x
        exact h.of_enc rfl (upd_same s.encs x).symm rfl rfl
          ⟨ok.value, by simp, ok.home, ok.limit, ok.travel, fun k => absurd (ok.recover k) ((not_not.1 hs).trans_ne (by decide))⟩
      · rw [axisEnc_timeAxis]
        exact h.of_time rfl rfl rfl rfl (h.timeAxis.settled h.timeAxis.value (by decide) (by decide))

theorem axesOk_axisDisableAct {s : State} (h : AxesOk s) (pl : List Byte) : AxesOk (axisDisableAct pl s).1 := by
  unfold axisDisableAct
  split
  · exact h
  · rename_i a _
    split
    · exact h
    · split
      · exact h
      · rcases axis_cases a with ⟨x, rfl⟩ | rfl
        · rw [axisEnc_encAxis]
          exact h.of_enc rfl rfl rfl rfl ((h.encAxis x).settled (h.encAxis x).value (by decide))
        · rw [axisEnc_timeAxis]
          exact h.of_time rfl rfl rfl rfl (h.timeAxis.settled h.timeAxis.value (by decide) (by decide))

theorem axesOk_axisSetAct {s : State} (h : AxesOk s) (p : Port) (pl : List Byte) : AxesOk (axisSetAct p pl s).1 := by
  unfold axisSetAct
  split
  · exact h
  · rename_i a v hpl
    split
    · exact h
    · exact axesOk_setAxisValue h a (rangedValue_inRange (parseAxisSet_eq_some.1 hpl).2)

theorem axesOk_axisHomeAct {s : State} (h : AxesOk s) (pl : List Byte) : AxesOk (axisHomeAct pl s).1 := by
  unfold axisHomeAct
  split
  · exact h
  · rename_i x home limit hpl
    split
    · exact h
    · obtain ⟨-, hv, hl⟩ := parseAxisHome_eq_some.1 hpl
      exact axesOk_startSearch h x (rangedValue_inRange hv) (boundedNat_le hl)

theorem axesOk_timePresetAct {s : State} (h : AxesOk s) (p : Port) (pl : List Byte) : AxesOk (timePresetAct p pl s).1 := by
  rw [timePresetAct_eq]
  split
  · exact h
  · rename_i v hv
    split
    · exact h
    · split
      · exact h
      · obtain ⟨enc, time, -⟩ := (axesOk_iff s).1 h
        refine (axesOk_iff _).2 ⟨enc, time, ?_⟩
        rintro q ⟨⟩
        exact rangedValue_inRange hv

/-- The preset slot is emptied. -/
theorem axesOk_no_preset {s : State} (h : AxesOk s) : AxesOk { s with preset := none } := by
  obtain ⟨enc, time, -⟩ := (axesOk_iff s).1 h
  exact (axesOk_iff _).2 ⟨enc, time, by simp⟩

theorem axesOk_timePresetClearAct {s : State} (h : AxesOk s) (p : Port) : AxesOk (timePresetClearAct p s).1 := by
  unfold timePresetClearAct
  split
  · exact h
  · split
    · exact axesOk_no_preset h
    · exact h

theorem axesOk_clearPreset {s : State} (h : AxesOk s) (p : Port) : AxesOk (clearPreset p s) := by
  unfold clearPreset
  split
  · exact h
  · split
    · exact axesOk_no_preset h
    · exact h

/-! ## The index and the epoch input -/

theorem axesOk_indexChange {s : State} (h : AxesOk s) (x : EncId) (level : Bool) : AxesOk (indexChange x level s) := by
  unfold indexChange
  dsimp only
  split
  · exact h
  · have followed : AxesOk (State.setEnc { s with pins := { s.pins with encZ := upd s.pins.encZ x level } } x
        { s.encs[x] with levelZ := level }) := axesOk_same_search h rfl rfl rfl rfl ⟨rfl, rfl, rfl, rfl⟩
    split
    · exact axesOk_endSearch_rebase followed x _ _ (followed.encAxis x).home
    · exact followed

theorem axesOk_postEpoch {s : State} (h : AxesOk s) (result : EpochResult) (ports : List Port) :
    AxesOk (postEpoch result ports s) := by
  rw [postEpoch_eq]
  exact axesOk_notified h ..

theorem axesOk_epochRise {s : State} (h : AxesOk s) : AxesOk (epochRise s) := by
  unfold epochRise
  split
  · exact axesOk_postEpoch h ..
  · split
    · exact axesOk_postEpoch h ..
    · rename_i q hq
      split
      · exact axesOk_postEpoch (axesOk_no_preset h) ..
      · exact axesOk_postEpoch (axesOk_no_preset (axesOk_rebase h timeAxis .epoch (h.preset q hq))) ..

theorem axesOk_epochChange {s : State} (h : AxesOk s) (level : Bool) : AxesOk (epochChange level s) := by
  unfold epochChange
  dsimp only
  split
  · exact h
  · split
    · exact axesOk_epochRise (s := { s with pins := _, epochLevel := _ }) h
    · exact h

/-! ## Every command -/

theorem axesOk_resetWith (pins : Pins) (links : Vector Link 4) : AxesOk (State.resetWith pins links) := by
  rw [axesOk_iff]
  refine ⟨fun x => ?_, ?_, by simp [State.resetWith]⟩
  · simp only [State.resetWith, Fin.getElem_fin, Vector.getElem_replicate, Vector.getElem_ofFn]
    exact ⟨rfl, by decide, rfl, Nat.zero_le _, le_rfl, by simp [EncRec.reset]⟩
  · simp only [State.resetWith, Fin.getElem_fin, Vector.getElem_replicate]
    exact ⟨rfl, by decide, by decide, by decide, by decide, fun _ => rfl⟩

theorem axesOk_releaseReset {s : State} (h : AxesOk s) : AxesOk (releaseReset s) := by
  unfold releaseReset
  split
  · obtain ⟨enc, time, preset⟩ := (axesOk_iff s).1 h
    refine (axesOk_iff _).2 ⟨fun x => ?_, time, preset⟩
    have ok := enc x
    simp only [Fin.getElem_fin, Vector.getElem_ofFn]
    exact ⟨ok.value, ok.cause, ok.home, ok.limit, ok.travel, ok.recover⟩
  · exact h

theorem axesOk_advance {s : State} (h : AxesOk s) (room : PrescalerRoom s) : AxesOk (advance s) := by
  have ok := h.timeAxis
  by_cases hs : s.axes[timeAxis].state = .disabled
  · exact h.of_time (upd_same s.axes timeAxis).symm rfl (if_pos hs) rfl ok
  · refine h.of_time (upd_same s.axes timeAxis).symm rfl (if_neg hs) rfl
      ⟨ok.value, ok.cause, ok.notHoming, ok.prescaler, ?_, fun k => absurd k hs⟩
    have := ok.prescaler.1
    rcases room hs with hp | hp
    · show s.time.phase + 1 ≤ s.time.prescaler
      omega
    · exact hp

theorem axesOk_exec (c : Instr) (s t : State) (h : AxesOk s) (ht : exec c s = .next t) : AxesOk t := by
  have port : PortFree AxesOk := fun _ _ _ _ h => h
  refine exec_keeps (law := AxesOk) (fun c k hc s t h ht => ?_) (fun s _ => ?_) (fun s h => axesOk_releaseReset h)
    (fun s h room => axesOk_advance h room) c s t h ht
  · by_cases hk : k = .axu
    · subst hk
      have frame {p : Port} {c : Command} {pl : List Byte} {act : State → State × Answer}
          (hact : ∀ u, AxesOk u → AxesOk (act u).1) : AxesOk (takeFrame p c pl act s) :=
        takeFrame_rel port.framing hact s h
      match c, hc with
      | .axisConfig .., _ => cases ht; exact frame fun _ k => axesOk_axisConfigAct k _
      | .axisEnable .., _ => cases ht; exact frame fun _ k => axesOk_axisEnableAct k _
      | .axisDisable .., _ => cases ht; exact frame fun _ k => axesOk_axisDisableAct k _
      | .axisSet .., _ => cases ht; exact frame fun _ k => axesOk_axisSetAct k _ _
      | .axisHome .., _ => cases ht; exact frame fun _ k => axesOk_axisHomeAct k _
      | .timePreset .., _ => cases ht; exact frame fun _ k => axesOk_timePresetAct k _ _
      | .timePresetClear .., _ => cases ht; exact frame fun _ k => axesOk_timePresetClearAct k _
      | .axuTeardown _, _ => cases ht; exact teardownPart_rel port.framing (fun _ k => axesOk_clearPreset k _) s h
      | .encoderTransition .., _ => cases ht; exact axesOk_encoderChange h ..
      | .prescalerExpiry, _ => cases ht; exact axesOk_expirePrescaler h
      | .indexEdge .., _ => cases ht; exact axesOk_indexChange h ..
      | .epochEdge _, _ => cases ht; exact axesOk_epochChange h _
    · exact h.congr ((exec_of_site hc ht).sameAxes hk)
  · exact axesOk_resetWith s.pins (.ofFn fun p => s.ports[p].link.abandon)

end Sys2Proof.Machine
end

section
/-! SUPPORT. Nothing refers to a DISABLED axis (R14): where references come from. No operation of the SCU writes a description
or an owner into an entry but ARM, none makes a group PENDING but GROUP_END, and no mark input leaves IDLE but by MARK_START. -/

namespace Sys2Proof.Machine

/-! ## What the SCU holds -/

/-- Every entry's description and owner have a property, and so has the boundary of every PENDING group. -/
structure ScuHolds (P : TriggerDesc → Port → Prop) (Q : Boundary → Prop) (s : State) : Prop where
  entries : ∀ i : EntryIx, ∀ e ∈ s.table[i].entry, P e.desc e.owner
  groups : ∀ p : Port, s.groups[p].state = .pending → ∀ b ∈ s.groups[p].boundary, Q b

section
variable {P : TriggerDesc → Port → Prop} {Q : Boundary → Prop} {s t : State}

namespace ScuHolds

theorem congr (h : ScuHolds P Q s) (h1 : t.table = s.table) (h2 : t.groups = s.groups) : ScuHolds P Q t :=
  ⟨by rw [h1]; exact h.entries, by rw [h2]; exact h.groups⟩

/-- One place of the table changes. -/
theorem place (h : ScuHolds P Q s) {i : EntryIx} {x : Slot} (h1 : t.table = upd s.table i x) (h2 : t.groups = s.groups)
    (hx : ∀ e ∈ x.entry, P e.desc e.owner) : ScuHolds P Q t := by
  refine ⟨fun j => ?_, by rw [h2]; exact h.groups⟩
  rw [h1]
  by_cases hj : j = i
  · subst hj; rw [upd_get]; exact hx
  · rw [upd_get_ne _ _ hj]; exact h.entries j

/-- One group changes: it is not PENDING, or it keeps its state and boundary. -/
theorem group (h : ScuHolds P Q s) {p : Port} {g : GroupRec} (h1 : t.table = s.table) (h2 : t.groups = upd s.groups p g)
    (hg : g.state = .pending → ∀ b ∈ g.boundary, Q b) : ScuHolds P Q t := by
  refine ⟨by rw [h1]; exact h.entries, fun q => ?_⟩
  rw [h2]
  by_cases hq : q = p
  · subst hq; rw [upd_get]; exact hg
  · rw [upd_get_ne _ _ hq]; exact h.groups q

theorem foldl {β : Type} {f : State → β → State} (hf : ∀ s b, ScuHolds P Q s → ScuHolds P Q (f s b)) (l : List β)
    (h : ScuHolds P Q s) : ScuHolds P Q (l.foldl f s) :=
  foldl_rel (R := fun s t => ScuHolds P Q s → ScuHolds P Q t) (fun _ => id) (fun _ _ _ f g k => g (f k)) hf l s h

theorem foldl_work {β : Type} {f : Work → β → Work} (hf : ∀ w b, ScuHolds P Q w.st → ScuHolds P Q (f w b).st) (l : List β)
    {w : Work} (h : ScuHolds P Q w.st) : ScuHolds P Q (l.foldl f w).st :=
  foldl_rel (R := fun w v : Work => ScuHolds P Q w.st → ScuHolds P Q v.st) (fun _ k => k) (fun _ _ _ f g => g ∘ f) hf l w h

theorem done {w : Work} (h : ScuHolds P Q w.st) : ScuHolds P Q w.done := by
  unfold Work.done
  split
  · exact h
  · exact h.congr rfl rfl

/-! ## Moving an entry -/

theorem freeEntry (h : ScuHolds P Q s) (i : EntryIx) : ScuHolds P Q (freeEntry i s) := h.place rfl rfl (by simp)

theorem writeEntry (h : ScuHolds P Q s) (i : EntryIx) {e : Entry} (he : P e.desc e.owner) :
    ScuHolds P Q (writeEntry i e s) := h.place rfl rfl (by rintro _ ⟨⟩; exact he)

theorem placeArmed (h : ScuHolds P Q s) (i : EntryIx) {e : Entry} (t : Int) (he : P e.desc e.owner) :
    ScuHolds P Q (placeArmed i e t s) := h.place rfl rfl (by rintro _ ⟨⟩; exact he)

theorem placeWaiting (h : ScuHolds P Q s) (i : EntryIx) {e : Entry} (he : P e.desc e.owner) :
    ScuHolds P Q (placeWaiting i e s) := h.place rfl rfl (by rintro _ ⟨⟩; exact he)

theorem retire (h : ScuHolds P Q s) (i : EntryIx) (e : Entry) (c : EndCause) : ScuHolds P Q (retire i e c s) := by
  rw [retire_eq_retired]
  exact h.place rfl rfl (by simp)

theorem endPlain (h : ScuHolds P Q s) (i : EntryIx) {e : Entry} (c : EndCause) (he : P e.desc e.owner) :
    ScuHolds P Q (endPlain i e c s) := by
  unfold Machine.endPlain
  split
  · exact h.retire ..
  · split
    · exact h.retire ..
    · split
      · exact h.retire ..
      · exact h.placeWaiting i he

theorem settlePlain (h : ScuHolds P Q s) (i : EntryIx) {r : Verdict} (hr : P r.entry.desc r.entry.owner) :
    ScuHolds P Q (settlePlain i r s) := by
  cases r with
  | armed e t => exact h.placeArmed i t hr
  | ended e c => exact h.endPlain i c hr

end ScuHolds

/-! ## Verdicts -/

/-- The record of a verdict is of the same description and owner. -/
def Verdict.Of (e : Entry) (r : Verdict) : Prop := r.entry.desc = e.desc ∧ r.entry.owner = e.owner

theorem Verdict.Of.holds {e : Entry} {r : Verdict} (h : r.Of e) (he : P e.desc e.owner) : P r.entry.desc r.entry.owner := by
  rw [h.1, h.2]; exact he

theorem Verdict.Of.trans {e : Entry} {r q : Verdict} (h : r.Of e) (k : q.Of r.entry) : q.Of e :=
  ⟨k.1.trans h.1, k.2.trans h.2⟩

theorem afterOccurrence_of (e : Entry) (t : Int) : (afterOccurrence e t).Of e := by
  unfold afterOccurrence
  split
  · dsimp only; split <;> exact ⟨rfl, rfl⟩
  · exact ⟨rfl, rfl⟩

theorem consumeLate_of (e : Entry) (k : Nat) (t v : Int) : (consumeLate e k t v).Of e := by
  unfold consumeLate
  dsimp only
  split
  · exact ⟨rfl, rfl⟩
  · split <;> exact ⟨rfl, rfl⟩

theorem admitFrom_of (i : EntryIx) (v : Int) (r : Verdict) (w : Work) : (admitFrom i v r w).2.Of r.entry := by
  unfold admitFrom
  cases r with
  | armed e t =>
    dsimp only
    split
    · exact afterOccurrence_of e v
    · exact ⟨rfl, rfl⟩
  | ended e c => exact ⟨rfl, rfl⟩

theorem admitTarget_of (i : EntryIx) (e : Entry) (t v : Int) (f o : Bool) (w : Work) :
    (admitTarget i e t v f o w).2.Of e := by
  unfold admitTarget
  split
  · exact ⟨rfl, rfl⟩
  · split
    · exact ⟨rfl, rfl⟩
    · split
      · exact afterOccurrence_of e v
      · split
        · split
          · unfold admitFireLate
            dsimp only
            split
            · exact ⟨rfl, rfl⟩
            · exact (consumeLate_of ..).trans (admitFrom_of ..)
          · exact (consumeLate_of e e.occ t v).trans (admitFrom_of ..)
        · exact ⟨rfl, rfl⟩

/-- An occurrence and an admission leave the table and the groups as they are. -/
theorem occur_table (i : EntryIx) (e : Entry) (v : Int) (l : Bool) (w : Work) :
    (occur i e v l w).st.table = w.st.table ∧ (occur i e v l w).st.groups = w.st.groups := by
  rw [occur_eq]; exact ⟨rfl, rfl⟩

theorem admitFrom_table (i : EntryIx) (v : Int) (r : Verdict) (w : Work) :
    (admitFrom i v r w).1.st.table = w.st.table ∧ (admitFrom i v r w).1.st.groups = w.st.groups := by
  unfold admitFrom
  split
  · split
    · exact occur_table ..
    · exact ⟨rfl, rfl⟩
  · exact ⟨rfl, rfl⟩

theorem admitTarget_table (i : EntryIx) (e : Entry) (t v : Int) (f o : Bool) (w : Work) :
    (admitTarget i e t v f o w).1.st.table = w.st.table ∧ (admitTarget i e t v f o w).1.st.groups = w.st.groups := by
  unfold admitTarget
  split
  · exact ⟨rfl, rfl⟩
  · split
    · exact ⟨rfl, rfl⟩
    · split
      · exact occur_table ..
      · split
        · split
          · unfold admitFireLate
            dsimp only
            split
            · exact occur_table ..
            · obtain ⟨h1, h2⟩ := admitFrom_table i v (consumeLate e (e.occ + 1) (e.desc.approach.advance t e.desc.interval) v)
                (occur i e v true w)
              obtain ⟨h3, h4⟩ := occur_table i e v true w
              exact ⟨h1.trans h3, h2.trans h4⟩
          · exact admitFrom_table ..
        · exact ⟨rfl, rfl⟩

namespace ScuHolds

theorem occur {w : Work} (h : ScuHolds P Q w.st) (i : EntryIx) (e : Entry) (v : Int) (l : Bool) :
    ScuHolds P Q (occur i e v l w).st := h.congr (occur_table ..).1 (occur_table ..).2

theorem admitNow {w : Work} (h : ScuHolds P Q w.st) (view : View) (i : EntryIx) (e : Entry) (t : Int) :
    ScuHolds P Q (admitNow view i e t w).1.st := h.congr (admitTarget_table ..).1 (admitTarget_table ..).2

theorem settle {w : Work} (h : ScuHolds P Q w.st) (view : View) (i : EntryIx) {r : Verdict}
    (hr : P r.entry.desc r.entry.owner) : ScuHolds P Q (settle view i r w).st := by
  unfold Machine.settle
  split
  · exact h.placeArmed i _ hr
  · split
    · rename_i e _ _ c _
      unfold useOwed
      dsimp only
      split
      · exact (h.admitNow ..).settlePlain i ((admitTarget_of ..).holds hr)
      · exact (h.placeWaiting i (e := { e with owed := none }) hr).congr rfl rfl
    · exact h.endPlain i _ hr

theorem giveTarget {w : Work} (h : ScuHolds P Q w.st) (view : View) (i : EntryIx) {e : Entry} (t : Int)
    (he : P e.desc e.owner) : ScuHolds P Q (giveTarget view i e t w).st :=
  (h.admitNow view i e t).settle view i ((admitTarget_of ..).holds he)

theorem crossEntry {w : Work} (h : ScuHolds P Q w.st) (a : AxisId) (v : Int) (i : EntryIx) :
    ScuHolds P Q (crossEntry a v w i).st := by
  unfold Machine.crossEntry
  split
  · rename_i e he
    split
    · exact (h.occur ..).settle _ i ((afterOccurrence_of e v).holds (h.entries i e he))
    · exact h
  · exact h

/-! ## Groups -/

theorem closeGroup (h : ScuHolds P Q s) (p : Port) : ScuHolds P Q (closeGroup p s) :=
  h.group rfl rfl (fun k => nomatch k)

theorem discardGroup (h : ScuHolds P Q s) (p : Port) : ScuHolds P Q (discardGroup p s) :=
  (h.foldl (fun _ i k => k.freeEntry i) _).closeGroup p

theorem discardNoticed (h : ScuHolds P Q s) (p : Port) (c : DiscardCause) : ScuHolds P Q (discardNoticed p c s) :=
  (h.discardGroup p).congr rfl rfl

theorem applyOp {w : Work} (h : ScuHolds P Q w.st) (view : View) (p : Port) (op : GroupOp) :
    ScuHolds P Q (applyOp view p w op).1.st := by
  unfold Machine.applyOp
  split
  · split
    · exact h
    · rename_i e he
      have hp := h.entries _ e he
      split
      · exact h.giveTarget _ _ _ hp
      · split
        · exact h.freeEntry _
        · exact h.placeWaiting _ hp
  · split
    · exact h
    · split
      · exact h
      · exact h.freeEntry _
  · exact h

theorem applyGroup {w : Work} (h : ScuHolds P Q w.st) (view : View) (p : Port) (at_ : AppliedAt) :
    ScuHolds P Q (applyGroup view p at_ w).st := by
  have take (r : ApplyRun) (op : GroupOp) (k : ScuHolds P Q r.work.st) : ScuHolds P Q (r.take view p op).work.st := by
    unfold ApplyRun.take
    dsimp only
    split <;> exact k.applyOp ..
  have all := foldl_rel (R := fun r q : ApplyRun => ScuHolds P Q r.work.st → ScuHolds P Q q.work.st) (fun _ k => k)
    (fun _ _ _ f g => g ∘ f) take w.st.groups[p].ops ⟨w, 0, 0, 0, none⟩ h
  exact (all.closeGroup p).congr rfl rfl

theorem applyReached {w : Work} (h : ScuHolds P Q w.st) (view : View) (at_ : AppliedAt) (f : Boundary → Bool) :
    ScuHolds P Q (applyReached view at_ f w).st :=
  foldl_work (fun w p k => by dsimp only; split; exact k.applyGroup ..; exact k) _ h

theorem scuStepWork (h : ScuHolds P Q s) (a : AxisId) (m : StepMsg) : ScuHolds P Q (scuStepWork a m s).st :=
  foldl_work (fun _ i k => k.crossEntry a m.value i) _ (applyReached (w := .begin s) h ..)

theorem expireGroup (h : ScuHolds P Q s) (p : Port) : ScuHolds P Q (expireGroup p s) := by
  unfold Machine.expireGroup
  split
  · exact h.discardNoticed ..
  · exact h

theorem removePort (h : ScuHolds P Q s) (p : Port) : ScuHolds P Q (removePort p s) :=
  foldl (fun _ i k => k.freeEntry i) _ ((h.discardGroup p).group rfl rfl (fun k => nomatch k))

/-! ## Marks and stop requests -/

theorem giveOwed (h : ScuHolds P Q s) (c : Capture) (i : EntryIx) : ScuHolds P Q (giveOwed c s i) := by
  unfold Machine.giveOwed
  split
  · exact h
  · rename_i e he
    split
    · exact h
    · have given : ScuHolds P Q (Machine.writeEntry i { e with owed := some c } s) := h.writeEntry i (h.entries i e he)
      dsimp only
      split
      · exact given
      · exact given.congr rfl rfl

theorem resolveEntry {w : Work} (h : ScuHolds P Q w.st) (c : Capture) (i : EntryIx) :
    ScuHolds P Q (resolveEntry c w i).st := by
  unfold Machine.resolveEntry
  split
  · exact h
  · rename_i e he
    split
    · exact h
    · split
      · exact h.giveTarget _ i _ (e := e.resolve) (h.entries i e he)
      · exact h.congr rfl rfl

theorem takeMark (h : ScuHolds P Q s) (c : Capture) : ScuHolds P Q (takeMark c s) :=
  (foldl_work (fun _ i k => k.resolveEntry c i) _
    (w := ⟨_, _⟩) (foldl (fun _ i k => k.giveOwed c i) _ (applyReached (w := .begin s) h ..))).done

theorem withdraw (h : ScuHolds P Q s) (m : MarkId) (c : WithdrawCause) (i : EntryIx) : ScuHolds P Q (withdraw m c s i) := by
  unfold Machine.withdraw
  split
  · exact h
  · exact (h.freeEntry i).congr rfl rfl

theorem stopBursts (h : ScuHolds P Q s) (covers : Port → Bool) (m : MarkId) :
    ScuHolds P Q { s with table := s.table.map (Slot.stopBurst covers m) } := by
  refine ⟨fun i e he => ?_, h.groups⟩
  have place : (s.table.map (Slot.stopBurst covers m))[i] = s.table[i].stopBurst covers m := Vector.getElem_map ..
  dsimp only at he
  rw [place] at he
  unfold Slot.stopBurst at he
  split at he
  · rename_i e' he'
    split at he
    · cases he; exact h.entries i e' he'
    · exact h.entries i e he
  · exact h.entries i e he

/-- The operations of the groups change, their states and boundaries do not. -/
theorem withOps (h : ScuHolds P Q s) (f : Port → GroupRec)
    (hf : ∀ p, (f p).state = s.groups[p].state ∧ (f p).boundary = s.groups[p].boundary) :
    ScuHolds P Q { s with groups := .ofFn f } := by
  refine ⟨h.entries, fun p => ?_⟩
  have record : (Vector.ofFn f)[p] = f p := Vector.getElem_ofFn ..
  dsimp only
  rw [record, (hf p).1, (hf p).2]
  exact h.groups p

theorem stopAtScu (h : ScuHolds P Q s) (covers : Port → Bool) (m : MarkId) (c : WithdrawCause) :
    ScuHolds P Q (stopAtScu covers m c s) := by
  refine foldl (fun u p k => ?_) _ (((h.foldl (fun _ i k => k.withdraw m c i) _).stopBursts covers m).withOps _ fun p => ?_)
  · unfold discardAtMark
    split
    · exact k.discardNoticed ..
    · exact k
  · split <;> exact ⟨rfl, rfl⟩

/-! ## The SCU's commands -/

/-- A staged command changes the operations of a group only. -/
theorem stageOp (h : ScuHolds P Q s) (p : Port) (op : GroupOp) : ScuHolds P Q (stageOp p op s) :=
  h.group rfl rfl (h.groups p)

theorem armAct (h : ScuHolds P Q s) (p : Port) (pl : List Byte)
    (hP : ∀ d : TriggerDesc, s.axes[d.axis].state ≠ .disabled → P d p) : ScuHolds P Q (armAct p pl s).1 := by
  unfold Machine.armAct
  dsimp only
  split
  · exact h
  · split
    · exact h
    · rename_i d _
      split
      · exact h
      · rename_i i hi
        have enabled : s.axes[d.axis].state ≠ .disabled := by
          intro k
          unfold armChecks at hi
          rw [if_pos k] at hi
          cases hi
        split
        · exact (h.writeEntry i (e := newEntry p d .staged) (hP d enabled)).stageOp ..
        · split
          · exact h
          · dsimp only
            unfold routeArm
            split
            · exact (giveTarget (w := .begin s) h none i (e := newEntry p d .armed) _ (hP d enabled)).done
            · exact h.placeWaiting i (e := newEntry p d .waiting) (hP d enabled)

theorem cancelAct (h : ScuHolds P Q s) (p : Port) (pl : List Byte) : ScuHolds P Q (cancelAct p pl s).1 := by
  unfold Machine.cancelAct
  dsimp only
  split
  · exact h
  · split
    · exact h
    · split
      · exact h
      · split
        · exact h.stageOp ..
        · exact h.freeEntry _

theorem groupBeginAct (h : ScuHolds P Q s) (p : Port) : ScuHolds P Q (groupBeginAct p s).1 := by
  unfold Machine.groupBeginAct
  dsimp only
  split
  · exact h
  · exact h.group rfl rfl (fun k => nomatch k)

theorem groupEndAct (h : ScuHolds P Q s) (p : Port) (pl : List Byte) (hQ : ∀ b, boundaryRefusal s b = none → Q b) :
    ScuHolds P Q (groupEndAct p pl s).1 := by
  have apply (at_ : AppliedAt) : ScuHolds P Q (Machine.applyGroup none p at_ (.begin s)).done :=
    (applyGroup (w := .begin s) h none p at_).done
  unfold Machine.groupEndAct
  dsimp only
  split
  · exact h
  · split
    · exact h
    · exact apply _
    · rename_i b _
      split
      · exact h
      · rename_i hb
        split
        · exact apply _
        · exact h.group rfl rfl (by rintro - _ ⟨⟩; exact hQ b hb)

theorem groupDiscardAct (h : ScuHolds P Q s) (p : Port) : ScuHolds P Q (groupDiscardAct p s).1 := by
  unfold Machine.groupDiscardAct
  dsimp only
  split
  · exact h
  · exact h.discardGroup p

theorem takeBatch (h : ScuHolds P Q s) (l : List OutAction) : ScuHolds P Q (takeBatch l s) := by
  have by_ := takeBatch_by l s
  simp only [By] at by_
  rw [by_]
  exact h.congr rfl rfl

theorem channelDriveAct (h : ScuHolds P Q s) (p : Port) (pl : List Byte) : ScuHolds P Q (channelDriveAct p pl s).1 := by
  unfold Machine.channelDriveAct
  dsimp only
  split
  · exact h
  · split
    · exact h
    · split
      · exact h
      · split
        · exact h.stageOp ..
        · exact h.takeBatch _

/-! ## What it takes from the other places -/

theorem takeScuStep (h : ScuHolds P Q s) (a : AxisId) : ScuHolds P Q (takeScuStep a s) := by
  unfold Machine.takeScuStep
  split
  · exact h
  · rename_i rest _
    have taken : ScuHolds P Q (s.setToScu a rest) := h.congr rfl rfl
    dsimp only
    split
    · exact taken
    · exact (taken.scuStepWork a _).done

theorem takeMarkHandoff (h : ScuHolds P Q s) : ScuHolds P Q (takeMarkHandoff s) := by
  unfold Machine.takeMarkHandoff
  split
  · rename_i rest _
    exact (h.congr rfl rfl : ScuHolds P Q { s with mkuToScu := rest }).takeMark _
  · exact h

theorem takeStopRequest (h : ScuHolds P Q s) : ScuHolds P Q (takeStopRequest s) := by
  unfold Machine.takeStopRequest
  split
  · rename_i rest _
    exact (h.congr rfl rfl : ScuHolds P Q { s with mkuToScu := rest }).stopAtScu ..
  · exact h

theorem takeHolderStop (h : ScuHolds P Q s) : ScuHolds P Q (takeHolderStop s) := by
  unfold Machine.takeHolderStop
  split
  · rename_i rest _
    exact (h.congr rfl rfl : ScuHolds P Q { s with mkuToScu := rest }).stopAtScu ..
  · exact h

end ScuHolds

end

end Sys2Proof.Machine
end

section
/-! SUPPORT. The mark inputs that follow an axis (R14, R80), and with the SCU's entries and groups the law that nothing refers to
a DISABLED axis; the laws of the AXU are then kept by every step (O54) and hold right after reset (O53). -/

namespace Sys2Proof.Machine

/-! ## The mark inputs that are not IDLE -/

/-- The reference axis of every mark input that is not IDLE has a property. -/
def MarksFollow (Q : AxisId → Prop) (s : State) : Prop := ∀ m : MarkId, s.marks[m].state ≠ .idle → Q s.marks[m].refAxis

section
variable {Q : AxisId → Prop} {s t : State}

namespace MarksFollow

theorem congr (h : MarksFollow Q s) (h1 : t.marks = s.marks) : MarksFollow Q t := by
  unfold MarksFollow
  rw [h1]
  exact h

/-- One input changes. -/
theorem input (h : MarksFollow Q s) {m : MarkId} {r : MarkRec} (h1 : t.marks = upd s.marks m r)
    (hr : r.state ≠ .idle → Q r.refAxis) : MarksFollow Q t := by
  intro k
  rw [h1]
  by_cases hk : k = m
  · subst hk; rw [upd_get]; exact hr
  · rw [upd_get_ne _ _ hk]; exact h k

/-- One input keeps its state and reference axis. -/
theorem sameInput (h : MarksFollow Q s) {m : MarkId} {r : MarkRec} (h1 : t.marks = upd s.marks m r)
    (hr : r.state = s.marks[m].state ∧ r.refAxis = s.marks[m].refAxis) : MarksFollow Q t :=
  h.input h1 (by rw [hr.1, hr.2]; exact h m)

/-- An input that follows a suited axis keeps its reference axis, in whatever state. -/
theorem following (h : MarksFollow Q s) {m : MarkId} (hm : Q s.marks[m].refAxis) {r : MarkRec}
    (h1 : t.marks = upd s.marks m r) (hr : r.refAxis = s.marks[m].refAxis) : MarksFollow Q t :=
  h.input h1 (fun _ => by rw [hr]; exact hm)

theorem foldl {β : Type} {f : State → β → State} (hf : ∀ s b, MarksFollow Q s → MarksFollow Q (f s b)) (l : List β)
    (h : MarksFollow Q s) : MarksFollow Q (l.foldl f s) :=
  foldl_rel (R := fun s t => MarksFollow Q s → MarksFollow Q t) (fun _ => id) (fun _ _ _ f g k => g (f k)) hf l s h

theorem loseMarks (h : MarksFollow Q s) {m : MarkId} (hm : Q s.marks[m].refAxis) (c : LostCause) (st : MarkState) :
    MarksFollow Q (loseMarks m c st s) := h.following hm rfl rfl

theorem countMark (h : MarksFollow Q s) (m : MarkId) (c : Capture) (k : CaptureKind) (v : Int) :
    MarksFollow Q (countMark m c k v s) := h.sameInput rfl ⟨rfl, rfl⟩

theorem acceptCapture (h : MarksFollow Q s) {m : MarkId} (hm : Q s.marks[m].refAxis) (c : Capture) :
    MarksFollow Q (acceptCapture m c s) := by
  refine countMark ?_ m c _ _
  exact h.following hm rfl rfl

theorem declareMiss (h : MarksFollow Q s) {m : MarkId} (hm : Q s.marks[m].refAxis) : MarksFollow Q (declareMiss m s) := by
  unfold Machine.declareMiss
  dsimp only
  split
  · split
    · refine countMark ?_ m _ _ _
      exact h.sameInput rfl ⟨rfl, rfl⟩
    · exact h.loseMarks hm _ _
  · exact h.loseMarks hm _ _

theorem resolveDeferred (h : MarksFollow Q s) {m : MarkId} (hm : Q s.marks[m].refAxis) :
    MarksFollow Q (resolveDeferred m s) := by
  unfold Machine.resolveDeferred
  dsimp only
  split
  · have cleared : MarksFollow Q (s.setMark m { s.marks[m] with deferred := false }) := h.sameInput rfl ⟨rfl, rfl⟩
    split
    · split
      · exact cleared.declareMiss (by rw [setMark_get]; exact hm)
      · exact cleared
    · exact cleared
  · exact h

theorem judgeCapture (h : MarksFollow Q s) (m : MarkId) (c : Capture) : MarksFollow Q (judgeCapture m c s) := by
  unfold Machine.judgeCapture
  dsimp only
  split
  · rename_i hs
    exact h.acceptCapture (h m (hs.trans_ne (by decide))) c
  · rename_i hs
    have hm := h m (hs.trans_ne (by decide))
    split
    · split
      · exact (h.congr rfl : MarksFollow Q (post _ _ s)).resolveDeferred hm
      · exact h.acceptCapture hm c
    · exact h.acceptCapture hm c
  · exact h
  · exact h

theorem edgeSeen (h : MarksFollow Q s) {m : MarkId} (hm : Q s.marks[m].refAxis) (level : Bool) :
    MarksFollow Q (edgeSeen m level s) := by
  have emptied : MarksFollow Q (s.setMark m { s.marks[m] with capture := none }) := h.sameInput rfl ⟨rfl, rfl⟩
  unfold Machine.edgeSeen
  dsimp only
  split
  · split
    · exact emptied.judgeCapture _ _
    · exact h.sameInput rfl ⟨rfl, rfl⟩
  · split
    · exact emptied.resolveDeferred (by rw [setMark_get]; exact hm)
    · exact h

theorem endDebounce (h : MarksFollow Q s) (m : MarkId) : MarksFollow Q (endDebounce m s) := by
  unfold Machine.endDebounce
  split
  · split
    · exact (h.sameInput rfl ⟨rfl, rfl⟩ : MarksFollow Q (s.setMark m { s.marks[m] with capture := none })).judgeCapture _ _
    · exact h
  · exact h

theorem markChange (h : MarksFollow Q s) (m : MarkId) (level : Bool) : MarksFollow Q (markChange m level s) := by
  unfold Machine.markChange
  dsimp only
  split
  · exact h
  · split
    · exact h
    · have followed : MarksFollow Q (State.setMark { s with pins := { s.pins with mark := upd s.pins.mark m level } } m
          { s.marks[m] with level := level }) := h.sameInput rfl ⟨rfl, rfl⟩
      split
      · exact followed
      · exact followed
      all_goals
        rename_i hs
        exact followed.edgeSeen (by rw [setMark_get]; exact h m (hs.trans_ne (by decide))) level

theorem trackStep (h : MarksFollow Q s) (a : AxisId) (msg : StepMsg) (m : MarkId) : MarksFollow Q (trackStep a msg s m) := by
  unfold Machine.trackStep
  dsimp only
  split
  · rename_i hs _
    split
    · split
      · exact h.sameInput rfl ⟨rfl, rfl⟩
      · exact h.declareMiss (h m (hs.trans_ne (by decide)))
    · exact h
  all_goals exact h

theorem freezeInput (h : MarksFollow Q s) (a : AxisId) (m : MarkId) : MarksFollow Q (freezeInput a s m) := by
  unfold Machine.freezeInput
  dsimp only
  split
  · rename_i hs
    exact h.loseMarks (h m (by rcases hs.2 with k | k <;> exact k.trans_ne (by decide))) _ _
  · exact h

theorem thawInput (h : MarksFollow Q s) (a : AxisId) (m : MarkId) : MarksFollow Q (thawInput a s m) := by
  unfold Machine.thawInput
  dsimp only
  split
  · rename_i hs
    exact h.following (h m (hs.2.trans_ne (by decide))) rfl rfl
  · exact h

theorem rebaseInput (h : MarksFollow Q s) (a : AxisId) (m : MarkId) : MarksFollow Q (rebaseInput a s m) := by
  unfold Machine.rebaseInput
  dsimp only
  split
  · rename_i hs
    exact h.loseMarks (h m (by rcases hs.2 with k | k <;> exact k.trans_ne (by decide))) _ _
  · exact h

theorem stopInput (h : MarksFollow Q s) (m : MarkId) : MarksFollow Q (stopInput m s) := by
  refine h.input (m := m) (r := { s.marks[m].enter .idle with misses := 0, holder := none }) ?_ (fun k => absurd rfl k)
  simp [Machine.stopInput, Machine.loseMarks, postLost]

theorem releaseInputs (h : MarksFollow Q s) (p : Port) : MarksFollow Q (releaseInputs p s) :=
  foldl (fun s m k => by
    unfold releaseInput
    split
    · exact (k.stopInput m).congr rfl
    · exact k) _ h

theorem markConfigAct (h : MarksFollow Q s) (pl : List Byte) : MarksFollow Q (markConfigAct pl s).1 := by
  unfold Machine.markConfigAct
  split
  · exact h
  · dsimp only
    split
    · exact h
    · rename_i hs
      exact h.input rfl (fun k => absurd (not_not.1 hs) k)

theorem markStartAct (h : MarksFollow Q s) (p : Port) (pl : List Byte) (hQ : ∀ a, s.axes[a].state ≠ .disabled → Q a) :
    MarksFollow Q (markStartAct p pl s).1 := by
  unfold Machine.markStartAct
  split
  · exact h
  · dsimp only
    split
    · exact h
    · split
      · exact h
      · rename_i hs
        exact h.following (hQ _ hs) rfl rfl

theorem markStopAct (h : MarksFollow Q s) (p : Port) (pl : List Byte) : MarksFollow Q (markStopAct p pl s).1 := by
  unfold Machine.markStopAct
  split
  · exact h
  · split
    · exact h
    · split
      · exact h
      · split
        · exact h
        · exact (h.stopInput _).congr rfl

theorem takeMkuStep (h : MarksFollow Q s) (a : AxisId) : MarksFollow Q (takeMkuStep a s) := by
  unfold Machine.takeMkuStep
  split
  · dsimp only
    split
    · exact h
    · exact foldl (fun s m k => k.trackStep a _ m) _ h
  · exact h

theorem takeFreeze (h : MarksFollow Q s) (a : AxisId) : MarksFollow Q (takeFreeze a s) := by
  unfold Machine.takeFreeze
  split
  · exact foldl (fun s m k => k.freezeInput a m) _ h
  · exact h

theorem takeThaw (h : MarksFollow Q s) (a : AxisId) : MarksFollow Q (takeThaw a s) := by
  unfold Machine.takeThaw
  split
  · exact foldl (fun s m k => k.thawInput a m) _ h
  · exact h

theorem takeRebase (h : MarksFollow Q s) (a : AxisId) : MarksFollow Q (takeRebase a s) := by
  have released (t : State) : (releaseNotices a t).marks = t.marks := by
    unfold releaseNotices
    split <;> rfl
  unfold Machine.takeRebase
  split
  · rename_i rest _
    have moved : MarksFollow Q (s.setToMku a rest) := h.congr rfl
    exact (moved.foldl (fun s m k => k.rebaseInput a m) (List.finRange 4)).congr (released _)
  · exact h

end MarksFollow

end

/-! ## Nothing refers to a DISABLED axis -/

/-- An axis is not DISABLED. -/
def Enabled (s : State) (a : AxisId) : Prop := s.axes[a].state ≠ .disabled

/-- A boundary is on no DISABLED axis. -/
def Boundary.Enabled (s : State) (b : Boundary) : Prop := ∀ a v d, b = .atPosition a v d → Machine.Enabled s a

/-- The law of R14, by the places of the references. -/
theorem disabledOk_iff (s : State) : DisabledOk s ↔
    ScuHolds (fun d _ => Enabled s d.axis) (Boundary.Enabled s) s ∧ MarksFollow (Enabled s) s := by
  simp only [DisabledOk, axisReferenced_false_iff, Referenced]
  constructor
  · intro h
    refine ⟨⟨fun i e he k => ?_, fun p hp b hb a v d e k => ?_⟩, fun m hm k => ?_⟩
    · exact h _ k (.inl ⟨i, e, he, rfl⟩)
    · exact h a k (.inr (.inr ⟨p, hp, v, d, e ▸ hb⟩))
    · exact h _ k (.inr (.inl ⟨m, hm, rfl⟩))
  · rintro ⟨⟨entries, groups⟩, marks⟩ a k (⟨i, e, he, rfl⟩ | ⟨m, hm, rfl⟩ | ⟨p, hp, v, d, hb⟩)
    · exact entries i e he k
    · exact marks m hm k
    · exact groups p hp _ hb a v d rfl k

/-- The references of an axis stand in the table, in the marks and in the groups. -/
theorem axisReferenced_congr {s t : State} (h1 : t.table = s.table)
    (h2 : ∀ m : MarkId, t.marks[m].state = s.marks[m].state ∧ t.marks[m].refAxis = s.marks[m].refAxis)
    (h3 : ∀ p : Port, t.groups[p].state = s.groups[p].state ∧ t.groups[p].boundary = s.groups[p].boundary) (a : AxisId) :
    axisReferenced t a = axisReferenced s a := by
  rw [Bool.eq_iff_iff, axisReferenced_iff, axisReferenced_iff]
  unfold Referenced
  simp only [h1, h2, h3]

theorem axisReferenced_of_eq {s t : State} (h1 : t.table = s.table) (h2 : t.marks = s.marks) (h3 : t.groups = s.groups)
    (a : AxisId) : axisReferenced t a = axisReferenced s a :=
  axisReferenced_congr h1 (fun m => by rw [h2]; exact ⟨rfl, rfl⟩) (fun p => by rw [h3]; exact ⟨rfl, rfl⟩) a

/-- The law speaks of the states of the axes and of where the references stand. -/
theorem DisabledOk.congr {s t : State} (h : DisabledOk s)
    (h0 : ∀ a : AxisId, t.axes[a].state = .disabled → s.axes[a].state = .disabled)
    (h1 : t.table = s.table) (h2 : t.marks = s.marks) (h3 : t.groups = s.groups) : DisabledOk t :=
  fun a ha => (axisReferenced_of_eq h1 h2 h3 a).trans (h a (h0 a ha))

/-- What an event of the SCU keeps, whatever it is of the entries and the groups. -/
theorem DisabledOk.of_scu {s t : State} (h : DisabledOk s) (by_ : By .scu s t)
    (hold : ScuHolds (fun d _ => Enabled s d.axis) (Boundary.Enabled s) s →
      ScuHolds (fun d _ => Enabled s d.axis) (Boundary.Enabled s) t) : DisabledOk t := by
  obtain ⟨scu, marks⟩ := (disabledOk_iff s).1 h
  simp only [By] at by_
  have axes : t.axes = s.axes := by rw [by_]
  have inputs : t.marks = s.marks := by rw [by_]
  have same : Enabled t = Enabled s := by funext a; unfold Enabled; rw [axes]
  rw [disabledOk_iff]
  unfold Boundary.Enabled at *
  rw [same]
  exact ⟨hold scu, marks.congr inputs⟩

theorem DisabledOk.of_mku {s t : State} (h : DisabledOk s) (by_ : By .mku s t)
    (hold : MarksFollow (Enabled s) s → MarksFollow (Enabled s) t) : DisabledOk t := by
  obtain ⟨scu, marks⟩ := (disabledOk_iff s).1 h
  simp only [By] at by_
  have axes : t.axes = s.axes := by rw [by_]
  have table : t.table = s.table := by rw [by_]
  have groups : t.groups = s.groups := by rw [by_]
  have same : Enabled t = Enabled s := by funext a; unfold Enabled; rw [axes]
  rw [disabledOk_iff]
  unfold Boundary.Enabled at *
  rw [same]
  exact ⟨scu.congr table groups, hold marks⟩

/-- An axis that nothing refers to may become DISABLED. -/
theorem DisabledOk.disable {s t : State} (h : DisabledOk s) {a : AxisId} (ha : axisReferenced s a = false)
    (h0 : ∀ b ≠ a, t.axes[b].state = s.axes[b].state) (h1 : t.table = s.table) (h2 : t.marks = s.marks)
    (h3 : t.groups = s.groups) : DisabledOk t := by
  intro b hb
  rw [axisReferenced_of_eq h1 h2 h3]
  by_cases hab : b = a
  · exact hab ▸ ha
  · exact h b (h0 b hab ▸ hb)

/-- AXIS_DISABLE disables an axis that nothing refers to (R14). -/
theorem disabledOk_axisDisableAct {s : State} (h : DisabledOk s) (pl : List Byte) : DisabledOk (axisDisableAct pl s).1 := by
  unfold axisDisableAct
  split
  · exact h
  · rename_i a _
    split
    · exact h
    · split
      · exact h
      · rename_i ha
        have others (r : AxisRec) (b : AxisId) (hb : b ≠ a) : (upd s.axes a r)[b].state = s.axes[b].state :=
          congrArg _ (upd_get_ne _ _ hb)
        dsimp only
        split
        · exact h.disable (eq_false_of_ne_true ha) (others _) rfl rfl rfl
        · exact h.disable (eq_false_of_ne_true ha) (others _) rfl rfl rfl

theorem boundaryRefusal_enabled {s : State} {b : Boundary} (h : boundaryRefusal s b = none) : b.Enabled s := by
  rintro a v d rfl k
  unfold boundaryRefusal at h
  dsimp only at h
  rw [if_pos k] at h
  cases h

theorem disabledOk_scu {c : Instr} (hc : site c = some .scu) {s t : State} (h : DisabledOk s) (ht : exec c s = .next t) :
    DisabledOk t := by
  have port : PortFree DisabledOk := fun _ _ _ _ h => h
  have frame {p : Port} {c : Command} {pl : List Byte} {act : State → State × Answer} (hby : ∀ u, By .scu u (act u).1)
      (hact : ∀ u, ScuHolds (fun d _ => Enabled u d.axis) (Boundary.Enabled u) u →
        ScuHolds (fun d _ => Enabled u d.axis) (Boundary.Enabled u) (act u).1) : DisabledOk (takeFrame p c pl act s) :=
    takeFrame_rel port.framing (fun u k => k.of_scu (hby u) (hact u)) s h
  match c, hc with
  | .arm p pl, _ => cases ht; exact frame (fun u => (armAct_scuOnly ..).by) fun u k => k.armAct p pl fun _ => id
  | .cancel p pl, _ => cases ht; exact frame (fun u => (cancelAct_scuOnly ..).by) fun u k => k.cancelAct p pl
  | .groupBegin p _, _ => cases ht; exact frame (fun u => (groupBeginAct_scuOnly ..).by) fun u k => k.groupBeginAct p
  | .groupEnd p pl, _ =>
    cases ht; exact frame (fun u => (groupEndAct_scuOnly ..).by) fun u k => k.groupEndAct p pl fun _ => boundaryRefusal_enabled
  | .groupDiscard p _, _ => cases ht; exact frame (fun u => (groupDiscardAct_scuOnly ..).by) fun u k => k.groupDiscardAct p
  | .channelDrive p pl, _ => cases ht; exact frame (fun u => channelDriveAct_by ..) fun u k => k.channelDriveAct p pl
  | .scuTeardown p, _ =>
    cases ht
    exact teardownPart_rel port.framing (fun u k => k.of_scu (removePort_scuOnly ..).by fun k => k.removePort p) s h
  | .scuStep a, _ => cases ht; exact h.of_scu (takeScuStep_by ..) fun k => k.takeScuStep a
  | .markHandoff, _ => cases ht; exact h.of_scu (takeMarkHandoff_by s) fun k => k.takeMarkHandoff
  | .stopRequest, _ => cases ht; exact h.of_scu (takeStopRequest_by s) fun k => k.takeStopRequest
  | .holderStopRequest, _ => cases ht; exact h.of_scu (takeHolderStop_by s) fun k => k.takeHolderStop
  | .groupExpiry p, _ => cases ht; exact h.of_scu (expireGroup_scuOnly ..).by fun k => k.expireGroup p

theorem disabledOk_mku {c : Instr} (hc : site c = some .mku) {s t : State} (h : DisabledOk s) (ht : exec c s = .next t) :
    DisabledOk t := by
  have port : PortFree DisabledOk := fun _ _ _ _ h => h
  have frame {p : Port} {c : Command} {pl : List Byte} {act : State → State × Answer} (hby : ∀ u, By .mku u (act u).1)
      (hact : ∀ u, MarksFollow (Enabled u) u → MarksFollow (Enabled u) (act u).1) : DisabledOk (takeFrame p c pl act s) :=
    takeFrame_rel port.framing (fun u k => k.of_mku (hby u) (hact u)) s h
  have by_ := exec_of_site hc ht
  match c, hc with
  | .markConfig _ pl, _ => cases ht; exact frame (fun u => (markConfigAct_mkuOnly ..).by) fun u k => k.markConfigAct pl
  | .markStart p pl, _ =>
    cases ht; exact frame (fun u => (markStartAct_mkuOnly ..).by) fun u k => k.markStartAct p pl fun _ => id
  | .markStop p pl, _ => cases ht; exact frame (fun u => (markStopAct_mkuOnly ..).by) fun u k => k.markStopAct p pl
  | .mkuTeardown p, _ =>
    cases ht
    exact teardownPart_rel port.framing (fun u k => k.of_mku (releaseInputs_mkuOnly ..).by fun k => k.releaseInputs p) s h
  | .freezeEvent a, _ => cases ht; exact h.of_mku by_ fun k => k.takeFreeze a
  | .thawEvent a, _ => cases ht; exact h.of_mku by_ fun k => k.takeThaw a
  | .rebaseEvent a, _ => cases ht; exact h.of_mku by_ fun k => k.takeRebase a
  | .mkuStep a, _ => cases ht; exact h.of_mku by_ fun k => k.takeMkuStep a
  | .markEdge m level, _ => cases ht; exact h.of_mku by_ fun k => k.markChange m level
  | .debounceEnd m, _ => cases ht; exact h.of_mku by_ fun k => k.endDebounce m

theorem disabledOk_resetWith (pins : Pins) (links : Vector Link 4) : DisabledOk (State.resetWith pins links) := by
  rw [disabledOk_iff]
  refine ⟨⟨fun i e he => ?_, fun p hp => ?_⟩, fun m hm => ?_⟩
  · simp [State.resetWith] at he
  · simp [State.resetWith, GroupRec.reset] at hp
  · simp [State.resetWith, MarkRec.reset] at hm

/-! ## The other places, and what is not of one place -/

theorem disabledOk_axu {c : Instr} (hc : site c = some .axu) {s t : State} (h : DisabledOk s) (ht : exec c s = .next t) :
    DisabledOk t := by
  by_cases hd : ∃ p pl, c = .axisDisable p pl
  · obtain ⟨p, pl, rfl⟩ := hd
    have port : PortFree DisabledOk := fun _ _ _ _ h => h
    cases ht
    exact takeFrame_rel port.framing (fun _ k => disabledOk_axisDisableAct k pl) s h
  · have steady := exec_steady hc (fun p pl e => hd ⟨p, pl, e⟩) ht
    have by_ := exec_of_site hc ht
    simp only [By] at by_
    exact h.congr steady.enabled (by rw [by_]) (by rw [by_]) (by rw [by_])

/-- The marks move without changing what they follow, the groups without changing what they wait for. -/
theorem DisabledOk.of_records {s t : State} (h : DisabledOk s) (h0 : t.axes = s.axes) (h1 : t.table = s.table)
    (h2 : ∀ m : MarkId, t.marks[m].state = s.marks[m].state ∧ t.marks[m].refAxis = s.marks[m].refAxis)
    (h3 : ∀ p : Port, t.groups[p].state = s.groups[p].state ∧ t.groups[p].boundary = s.groups[p].boundary) :
    DisabledOk t :=
  fun a ha => (axisReferenced_congr h1 h2 h3 a).trans (h a (h0 ▸ ha))

theorem disabledOk_releaseReset {s : State} (h : DisabledOk s) : DisabledOk (releaseReset s) := by
  unfold releaseReset
  split
  · refine h.of_records rfl rfl (fun m => ?_) fun _ => ⟨rfl, rfl⟩
    have record : (Vector.ofFn fun m : MarkId => { s.marks[m] with level := s.pins.mark[m] })[m] =
        { s.marks[m] with level := s.pins.mark[m] } := Vector.getElem_ofFn ..
    dsimp only
    rw [record]
    exact ⟨rfl, rfl⟩
  · exact h

theorem disabledOk_advance {s : State} (h : DisabledOk s) : DisabledOk (advance s) := by
  refine h.of_records rfl rfl (fun m => ?_) fun p => ?_
  · have record : (advance s).marks[m] = s.marks[m].tick := Vector.getElem_map ..
    rw [record]
    exact ⟨rfl, rfl⟩
  · have record : (advance s).groups[p] = s.groups[p].tick := Vector.getElem_map ..
    rw [record]
    unfold GroupRec.tick
    split <;> exact ⟨rfl, rfl⟩

theorem disabledOk_exec (c : Instr) (s t : State) (h : DisabledOk s) (ht : exec c s = .next t) : DisabledOk t := by
  refine exec_keeps (law := DisabledOk) (fun c k hc s t h ht => ?_) (fun s _ => ?_) (fun s h => disabledOk_releaseReset h)
    (fun s h _ => disabledOk_advance h) c s t h ht
  · cases k with
    | axu => exact disabledOk_axu hc h ht
    | mku => exact disabledOk_mku hc h ht
    | scu => exact disabledOk_scu hc h ht
    | pif =>
      have by_ := exec_of_site hc ht
      simp only [By] at by_
      exact h.congr (by rw [by_]; exact fun _ => id) (by rw [by_]) (by rw [by_]) (by rw [by_])
  · exact disabledOk_resetWith s.pins (.ofFn fun p => s.ports[p].link.abandon)

/-- Settles O54: every command keeps each of the three laws, and none of them speaks of the ports. -/
theorem axisLawsKept : Obligations.AxisLawsKept :=
  ⟨kept_of_exec (fun _ _ _ _ h => h) axesOk_exec, kept_of_exec (fun _ _ _ _ h => h) disabledOk_exec,
    kept_of_exec (fun _ _ _ _ h => h) heldOk_exec⟩

end Sys2Proof.Machine
end

section
/-! SUPPORT. Device reset (R1): what each record is right after it (O3), and that every law of the state then holds (O53). -/

namespace Sys2Proof.Machine

/-! ## The records right after reset -/

section
variable (pins : Pins) (links : Vector Link 4)

theorem resetWith_axis (a : AxisId) : (State.resetWith pins links).axes[a] = .reset := Vector.getElem_replicate ..

theorem resetWith_enc (x : EncId) :
    (State.resetWith pins links).encs[x] = .reset pins.encA[x] pins.encB[x] pins.encZ[x] := Vector.getElem_ofFn ..

theorem resetWith_mark (m : MarkId) : (State.resetWith pins links).marks[m] = .reset pins.mark[m] := Vector.getElem_ofFn ..

theorem resetWith_slot (i : EntryIx) : (State.resetWith pins links).table[i] = { gen := 0, entry := none } :=
  Vector.getElem_replicate ..

theorem resetWith_group (p : Port) : (State.resetWith pins links).groups[p] = .reset := Vector.getElem_replicate ..

theorem resetWith_chan (c : ChanId) : (State.resetWith pins links).chans[c] = .reset := Vector.getElem_replicate ..

theorem resetWith_port (p : Port) : (State.resetWith pins links).ports[p] = .reset links[p] := Vector.getElem_ofFn ..

theorem resetWith_due (a : AxisId) : (State.resetWith pins links).due[a] = [] := Vector.getElem_replicate ..

/-- No entry is live. -/
theorem resetWith_noEntry {i : EntryIx} {e : Entry} (h : e ∈ (State.resetWith pins links).table[i].entry) : False := by
  rw [resetWith_slot] at h
  nomatch h

/-! ## The laws right after reset -/

theorem portsOk_resetWith : PortsOk (State.resetWith pins links) := by
  intro p
  rw [resetWith_port]
  simp [PortRec.reset, PortRec.ok, BlockSet.empty]

theorem responsesOk_resetWith : ResponsesOk (State.resetWith pins links) := by
  intro p
  rw [resetWith_port]
  simp [PortRec.reset]

theorem holdingsOk_resetWith : HoldingsOk (State.resetWith pins links) := by
  refine ⟨fun i e he => (resetWith_noEntry pins links he).elim, fun i e he => (resetWith_noEntry pins links he).elim,
    fun p hp => ?_, fun c p hp => ?_, fun m p hp => ?_, fun q hq => nomatch hq⟩
  · rw [resetWith_group] at hp
    exact absurd rfl hp
  · rw [resetWith_chan] at hp
    nomatch hp
  · rw [resetWith_mark] at hp
    nomatch hp

theorem channelsOk_resetWith : ChannelsOk (State.resetWith pins links) := by
  intro c
  rw [resetWith_chan]
  simp [ChanRec.reset]

theorem marksOk_resetWith : MarksOk (State.resetWith pins links) := by
  intro m
  rw [resetWith_mark]
  simp [MarkRec.ok, MarkRec.reset, Config.countMax]

theorem groupsOk_resetWith : GroupsOk (State.resetWith pins links) := by
  refine ⟨fun p => ?_, fun p => ?_, List.nodup_nil⟩
  · rw [resetWith_group]
    simp [GroupRec.reset]
  · rw [resetWith_group]
    exact ⟨(nomatch ·), (nomatch ·)⟩

theorem scheduleOk_resetWith : ScheduleOk (State.resetWith pins links) := by
  refine ⟨fun i a => ?_, fun i => ?_, fun a => ?_, List.nodup_nil, fun i e he => (resetWith_noEntry pins links he).elim,
    fun a => ?_⟩
  · rw [resetWith_due, armedOn, resetWith_slot]
    simp
  · rw [isWaiting, resetWith_slot]
    exact ⟨(nomatch ·), (nomatch ·)⟩
  · rw [resetWith_due]
    exact List.nodup_nil
  · rw [resetWith_due]
    exact List.Pairwise.nil

theorem quotaOk_resetWith : QuotaOk (State.resetWith pins links) := by
  intro p
  have none : entriesOf (State.resetWith pins links) = [] := by
    refine List.eq_nil_iff_forall_not_mem.2 fun e he => ?_
    obtain ⟨i, hi⟩ := (mem_entriesOf ..).1 he
    exact resetWith_noEntry pins links hi
  rw [liveCount, none]
  exact Nat.zero_le _

theorem entriesOk_resetWith : EntriesOk (State.resetWith pins links) :=
  fun _ _ he => (resetWith_noEntry pins links he).elim

theorem stagedOk_resetWith : StagedOk (State.resetWith pins links) := by
  intro p
  have none : reservedBy (State.resetWith pins links) p = [] := by
    rw [reservedBy, resetWith_group]
    rfl
  rw [none]
  refine ⟨List.nodup_nil, fun i => ?_⟩
  rw [stagedFor, resetWith_slot]
  exact ⟨(nomatch ·), (nomatch ·)⟩

end

/-- Settles O53: reset leaves nothing that a law could fail of. -/
theorem lawsHoldAtReset : Obligations.LawsHoldAtReset :=
  ⟨axesOk_resetWith _ _, disabledOk_resetWith _ _, heldOk_resetWith _ _, portsOk_resetWith _ _, responsesOk_resetWith _ _,
    holdingsOk_resetWith _ _, channelsOk_resetWith _ _, marksOk_resetWith _ _, groupsOk_resetWith _ _, scheduleOk_resetWith _ _,
    quotaOk_resetWith _ _, entriesOk_resetWith _ _, stagedOk_resetWith _ _⟩

/-! ## Edges while reset is asserted, and the release -/

section
variable {s : State}

theorem encoderChange_inReset (h : s.inReset = true) (x : EncId) (a b : Bool) : encoderChange x a b s =
    { s with pins := { s.pins with encA := upd s.pins.encA x a, encB := upd s.pins.encB x b } } := by
  unfold encoderChange
  simp [h]

theorem indexChange_inReset (h : s.inReset = true) (x : EncId) (level : Bool) : indexChange x level s =
    { s with pins := { s.pins with encZ := upd s.pins.encZ x level } } := by
  unfold indexChange
  simp [h]

theorem epochChange_inReset (h : s.inReset = true) (level : Bool) : epochChange level s =
    { s with pins := { s.pins with epoch := level } } := by
  unfold epochChange
  simp [h]

theorem markChange_inReset (h : s.inReset = true) (m : MarkId) (level : Bool) : markChange m level s =
    { s with pins := { s.pins with mark := upd s.pins.mark m level } } := by
  unfold markChange
  simp [h]

theorem releaseReset_inReset (h : s.inReset = true) : releaseReset s = { s with
    inReset := false, epochLevel := s.pins.epoch
    encs := .ofFn fun x => { s.encs[x] with refA := s.pins.encA[x], refB := s.pins.encB[x], levelZ := s.pins.encZ[x] }
    marks := .ofFn fun m => { s.marks[m] with level := s.pins.mark[m] } } := by
  unfold releaseReset
  rw [if_pos h]

end

theorem Link.abandon_of_ne_high {l : Link} (h : l ≠ .high) : l.abandon = .abandoned := by
  cases l with
  | high => exact absurd rfl h
  | sending => rfl
  | abandoned => rfl

/-- The chip selects right after device reset. -/
def linksThroughReset (s : State) : Vector Link 4 := .ofFn fun p => s.ports[p].link.abandon

theorem resetDevice_port (s : State) (p : Port) : (resetDevice s).ports[p] = .reset s.ports[p].link.abandon :=
  (resetWith_port s.pins (linksThroughReset s) p).trans (congrArg PortRec.reset (Vector.getElem_ofFn ..))

/-- Settles O3: every record is the reset record, and the release samples the pins. -/
theorem deviceReset : Obligations.DeviceReset := by
  unfold Obligations.DeviceReset
  refine ⟨fun s => ⟨resetDevice s, rfl, rfl, rfl, rfl, rfl, rfl, ?_⟩, fun s h => ?_, fun s h => ?_⟩
  · let links := linksThroughReset s
    refine ⟨resetWith_axis s.pins links, resetWith_enc s.pins links, rfl, rfl, rfl, resetWith_mark s.pins links,
      resetWith_slot s.pins links,
      fun a => ⟨resetWith_due s.pins links a, Vector.getElem_replicate .., Vector.getElem_replicate ..⟩, rfl,
      resetWith_group s.pins links, rfl, rfl, rfl, rfl, fun a => Vector.getElem_replicate .., fun c => ?_, fun p => ?_⟩
    · have record : (resetDevice s).chans[c] = .reset := resetWith_chan s.pins links c
      rw [record]
      exact ⟨rfl, rfl⟩
    · have record := resetDevice_port s p
      refine ⟨?_, ?_, ?_, ?_, ?_, ?_, ?_, ?_, ?_, ?_, ?_, ?_, ?_, fun h => ?_, fun h => ?_, ?_⟩
      case refine_14 => rw [record, h]; rfl
      case refine_15 => rw [record]; exact Link.abandon_of_ne_high h
      case refine_16 => rw [attnAsserted, attached, record]; rfl
      all_goals rw [record]; rfl
  · exact ⟨fun x a b => congrArg _ (encoderChange_inReset h x a b), fun x level => congrArg _ (indexChange_inReset h x level),
      fun level => congrArg _ (epochChange_inReset h level), fun m level => congrArg _ (markChange_inReset h m level)⟩
  · refine ⟨_, rfl, ?_⟩
    rw [releaseReset_inReset h]
    exact ⟨rfl, fun x => Vector.getElem_ofFn .., fun m => Vector.getElem_ofFn ..⟩

end Sys2Proof.Machine
end

section
/-! SUPPORT. The AXU's commands (R11 to R17, R21, R22): what their payloads read, what each act answers, and from these what the
part is after the frame (O20 to O23, O25). -/

namespace Sys2Proof.Machine

/-! ## A frame of an attached port -/

section
variable {s : State} {p : Port} {c : Command} {pl : List Byte} {act : State → State × Answer}
  (h : Admitted s p) (hl : pl.length = c.length)
include h hl

theorem takeFrame_refused {st : Status} (hact : act (leaseRenewed s p) = (leaseRenewed s p, .refuse st)) :
    takeFrame p c pl act s = refused s p c st := by
  rw [takeFrame_attached h hl, hact]
  exact respond_refuse_leaseRenewed ..

theorem takeFrame_ok {u t : State} {payload : List Byte} (hact : act (leaseRenewed s p) = (u, .ok payload))
    (hu : u.ports = upd s.ports p s.ports[p].renewed) (ht : t = { u with ports := answered s p (okResponse c payload) }) :
    takeFrame p c pl act s = t := by
  rw [takeFrame_attached h hl, hact, ht]
  exact respond_of_ports c (.ok payload) hu

end

/-! ## Payload fields -/

theorem fin4_axis (a : AxisId) (bs : List Byte) : fin4 (field (byte a.val :: bs) 0 1) = some a := by
  have hv : (byte a.val).toNat = a.val := by rw [byte_toNat]; omega
  rw [field_one, hv, fin4, dif_pos a.isLt]

/-- An encoder's number is that of its axis. -/
theorem fin4_enc (x : EncId) (bs : List Byte) : fin4 (field (byte x.val :: bs) 0 1) = some (encAxis x) := fin4_axis (encAxis x) bs

theorem fin4_none {n : Byte} (h : 3 < n.toNat) (bs : List Byte) : fin4 (field (n :: bs) 0 1) = none := by
  rw [field_one, fin4, dif_neg (by omega)]

theorem inRange_iff (v : Int) : inRange v = true ↔ -140737488355327 ≤ v ∧ v ≤ 140737488355327 := by
  rw [inRange, Bool.and_eq_true, decide_eq_true_iff, decide_eq_true_iff]
  rfl

theorem fieldInt48_cons (b : Byte) (bs : List Byte) (off : Nat) : fieldInt48 (b :: bs) (off + 1) = fieldInt48 bs off := by
  rw [fieldInt48, field_cons]
  rfl

theorem fieldInt48_leInt48 {v : Int} (h1 : -140737488355328 ≤ v) (h2 : v < 140737488355328) (bs : List Byte) :
    fieldInt48 (leInt48 v ++ bs) 0 = v := by
  rw [fieldInt48, field_append (leInt48_length v).symm, signed48_leInt48 h1 h2]

/-- A value that is read back is refused exactly out of the range. -/
theorem rangedValue_leInt48 {v : Int} (h : inRange v = true) (bs : List Byte) :
    rangedValue (fieldInt48 (leInt48 v ++ bs) 0) = some v := by
  obtain ⟨h1, h2⟩ := (inRange_iff v).1 h
  rw [fieldInt48_leInt48 (by omega) (by omega), rangedValue, if_pos h]

theorem rangedValue_lowest (bs : List Byte) : rangedValue (fieldInt48 (leInt48 (-140737488355328) ++ bs) 0) = none := by
  rw [fieldInt48_leInt48 (le_refl _) (by decide)]
  rfl

theorem field_leBytes (k n : Nat) (h : n < 256 ^ k) : field (leBytes k n) 0 k = n := by
  rw [field_zero (leBytes_length k n).symm, leValue_leBytes, Nat.mod_eq_of_lt h]

/-! ## AXIS_SET (R16) -/

theorem parseAxisSet_in (a : AxisId) {v : Int} (h : inRange v = true) :
    parseAxisSet (byte a.val :: leInt48 v) = some (a, v) := by
  refine parseAxisSet_eq_some.2 ⟨fin4_axis .., ?_⟩
  have read := rangedValue_leInt48 h []
  rwa [List.append_nil] at read

theorem parseAxisSet_lowest (n : Byte) : parseAxisSet (n :: leInt48 (-140737488355328)) = none := by
  refine Option.eq_none_iff_forall_ne_some.2 fun (a, v) h => ?_
  have read := (parseAxisSet_eq_some.1 h).2
  have lowest := rangedValue_lowest []
  rw [List.append_nil] at lowest
  rw [fieldInt48_cons, lowest] at read
  nomatch read

theorem parseAxisSet_axis {n : Byte} (h : 3 < n.toNat) (bs : List Byte) : parseAxisSet (n :: bs) = none := by
  refine Option.eq_none_iff_forall_ne_some.2 fun (a, v) k => ?_
  have read := (parseAxisSet_eq_some.1 k).1
  rw [fin4_none h] at read
  nomatch read

section
variable {p : Port} {pl : List Byte} {s : State}

theorem axisSetAct_badField (h : parseAxisSet pl = none) : axisSetAct p pl s = (s, .refuse .badField) := by
  unfold axisSetAct
  rw [h]

theorem axisSetAct_inUse {a : AxisId} {v : Int} (h : parseAxisSet pl = some (a, v)) (hf : ForeignReferenced s a p) :
    axisSetAct p pl s = (s, .refuse .inUse) := by
  unfold axisSetAct
  rw [h]
  exact if_pos ((axisForeign_iff ..).2 hf)

theorem axisSetAct_ok {a : AxisId} {v : Int} (h : parseAxisSet pl = some (a, v)) (hf : ¬ForeignReferenced s a p) :
    axisSetAct p pl s = (setAxisValue a v s, .ok []) := by
  unfold axisSetAct
  rw [h]
  exact if_neg (mt (axisForeign_iff ..).1 hf)

end

/-- Settles O22: by the state of the axis. -/
theorem axisSet : Obligations.AxisSet := by
  have len (n : Byte) (v : Int) : (n :: leInt48 v).length = Command.axisSet.length :=
    congrArg (· + 1) (leInt48_length v)
  refine ⟨fun p n v s h hn => ?_, fun p a v s h hv hf => ?_, fun p a s h => ?_, fun p a v s h hv hf => ?_⟩
  · exact congrArg _ (takeFrame_refused h (len ..) (axisSetAct_badField (parseAxisSet_axis hn _)))
  · exact congrArg _ (takeFrame_refused h (len ..) (axisSetAct_inUse (parseAxisSet_in a hv) hf))
  · exact congrArg _ (takeFrame_refused h (len ..) (axisSetAct_badField (parseAxisSet_lowest _)))
  · have act : axisSetAct p (byte a.val :: leInt48 v) (leaseRenewed s p) = (setAxisValue a v (leaseRenewed s p), .ok []) :=
      axisSetAct_ok (parseAxisSet_in a hv) hf
    refine ⟨fun ha => ?_, fun ha => ?_, fun ha hp => ?_, fun ha hp => ?_, ?_⟩
    · rw [setAxisValue_disabled (s := leaseRenewed s p) ha] at act
      exact congrArg _ (takeFrame_ok h (len ..) act rfl rfl)
    · rw [setAxisValue_running (s := leaseRenewed s p) ha, rebase_eq] at act
      exact congrArg _ (takeFrame_ok h (len ..) act rfl rfl)
    · rw [setAxisValue_faulted (s := leaseRenewed s p) ha, if_pos (show policyOf (leaseRenewed s p) a = .hold from hp)] at act
      exact congrArg _ (takeFrame_ok h (len ..) act rfl rfl)
    · have other : policyOf (leaseRenewed s p) a ≠ .hold := hp.trans_ne (by decide)
      rw [setAxisValue_faulted (s := leaseRenewed s p) ha, if_neg other] at act
      exact congrArg _ (takeFrame_ok h (len ..) act rfl rfl)
    · rintro x rfl ha
      rw [setAxisValue_homing (s := leaseRenewed s p) ha, endSearch_rebase] at act
      exact congrArg _ (takeFrame_ok h (len ..) act rfl rfl)

/-! ## AXIS_HOME (R17) -/

theorem field_homeLimit (n : Byte) (home : Int) {limit : Nat} (h : limit < 4294967296) :
    field (n :: (leInt48 home ++ leBytes 4 limit)) 7 4 = limit := by
  have read := field_mid (n :: leInt48 home) (leBytes 4 limit) [] (off := 7) (size := 4) (by simp) (by simp)
  rw [List.append_nil, List.cons_append] at read
  rw [read, leValue_leBytes]
  exact Nat.mod_eq_of_lt h

theorem parseAxisHome_in (x : EncId) {home : Int} {limit : Nat} (hv : inRange home = true) (h1 : 1 ≤ limit)
    (h2 : limit ≤ 2147483647) : parseAxisHome (byte x.val :: (leInt48 home ++ leBytes 4 limit)) = some (x, home, limit) := by
  refine parseAxisHome_eq_some.2 ⟨?_, rangedValue_leInt48 hv _, ?_⟩
  · rw [fin4_enc]
    exact axisEnc_encAxis x
  · rw [field_homeLimit _ _ (by omega)]
    exact boundedNat_eq_some.2 ⟨⟨h1, h2⟩, rfl⟩

theorem parseAxisHome_axis {n : Byte} (h : 2 < n.toNat) (bs : List Byte) : parseAxisHome (n :: bs) = none := by
  refine Option.eq_none_iff_forall_ne_some.2 fun (x, home, limit) k => ?_
  obtain ⟨a, ha, hx⟩ := Option.bind_eq_some_iff.1 (parseAxisHome_eq_some.1 k).1
  rw [field_one, fin4] at ha
  split at ha
  · cases ha
    have other : axisEnc ⟨n.toNat, by omega⟩ = none := dif_neg (show ¬n.toNat < 3 by omega)
    rw [other] at hx
    nomatch hx
  · nomatch ha

theorem parseAxisHome_lowest (n : Byte) (bs : List Byte) : parseAxisHome (n :: (leInt48 (-140737488355328) ++ bs)) = none := by
  refine Option.eq_none_iff_forall_ne_some.2 fun (x, home, limit) k => ?_
  obtain ⟨_, read, _⟩ := parseAxisHome_eq_some.1 k
  rw [fieldInt48_cons, rangedValue_lowest] at read
  nomatch read

theorem parseAxisHome_limit (n : Byte) (home : Int) {limit : Nat} (h : limit < 4294967296)
    (h0 : limit = 0 ∨ 2147483647 < limit) : parseAxisHome (n :: (leInt48 home ++ leBytes 4 limit)) = none := by
  refine Option.eq_none_iff_forall_ne_some.2 fun (x, _, k) parsed => ?_
  obtain ⟨_, _, read⟩ := parseAxisHome_eq_some.1 parsed
  rw [field_homeLimit _ _ h] at read
  obtain ⟨⟨h1, h2⟩, _⟩ := boundedNat_eq_some.1 read
  have bound : limit ≤ 2147483647 := h2
  omega

section
variable {pl : List Byte} {s : State}

theorem axisHomeAct_badField (h : parseAxisHome pl = none) : axisHomeAct pl s = (s, .refuse .badField) := by
  unfold axisHomeAct
  rw [h]

theorem axisHomeAct_disabled {x : EncId} {home : Int} {limit : Nat} (h : parseAxisHome pl = some (x, home, limit))
    (ha : s.axes[encAxis x].state = .disabled) : axisHomeAct pl s = (s, .refuse .axisState) := by
  unfold axisHomeAct
  rw [h]
  exact if_pos ha

theorem axisHomeAct_ok {x : EncId} {home : Int} {limit : Nat} (h : parseAxisHome pl = some (x, home, limit))
    (ha : s.axes[encAxis x].state ≠ .disabled) : axisHomeAct pl s = (startSearch x home limit s, .ok []) := by
  unfold axisHomeAct
  rw [h]
  exact if_neg ha

end

section
variable {x : EncId} {home : Int} {limit : Nat} {s : State} {state : AxisState} (ha : s.axes[encAxis x].state = state)
include ha

theorem startSearch_moving (hf : axisFrozen s (encAxis x) = false) : startSearch x home limit s = { s with
    axes := upd s.axes (encAxis x) ⟨.homing, s.axes[encAxis x].value, none⟩
    encs := upd s.encs x { s.encs[x] with
      homeValue := home, searchLimit := limit, searchTravel := 0, recover := recoversAfter state s.encs[x].recover }
    toMku := upd s.toMku (encAxis x) (s.toMku[encAxis x] ++ [.freeze]) } := by
  rw [startSearch_eq, hf, ha]
  rfl

theorem startSearch_frozen (hf : axisFrozen s (encAxis x) = true) : startSearch x home limit s = { s with
    axes := upd s.axes (encAxis x) ⟨.homing, s.axes[encAxis x].value, none⟩
    encs := upd s.encs x { s.encs[x] with
      homeValue := home, searchLimit := limit, searchTravel := 0, recover := recoversAfter state s.encs[x].recover } } := by
  have same : upd s.toMku (encAxis x) s.toMku[encAxis x] = s.toMku := upd_same ..
  rw [startSearch_eq, hf, ha, if_pos rfl, List.append_nil, same]

end

section
variable {s : State} {a : AxisId}

theorem axisFrozen_running (h : s.axes[a].state = .running) : axisFrozen s a = false := by
  unfold axisFrozen
  rw [h]

theorem axisFrozen_homing (h : s.axes[a].state = .homing) : axisFrozen s a = true := by
  unfold axisFrozen
  rw [h]

theorem axisFrozen_faulted (h : s.axes[a].state = .faulted) : axisFrozen s a = (policyOf s a == .hold) := by
  unfold axisFrozen
  rw [h]

theorem axisFrozen_hold {x : EncId} (h : s.axes[encAxis x].state = .faulted) (hp : s.encs[x].policy = .hold) :
    axisFrozen s (encAxis x) = true := by
  rw [axisFrozen_faulted h, policyOf_encAxis, hp]
  rfl

theorem axisFrozen_continued {x : EncId} (h : s.axes[encAxis x].state = .faulted) (hp : s.encs[x].policy = .continued) :
    axisFrozen s (encAxis x) = false := by
  rw [axisFrozen_faulted h, policyOf_encAxis, hp]
  rfl

end

/-- Settles O23: by the state of the axis; a search freezes an axis that was not frozen. -/
theorem axisHome : Obligations.AxisHome := by
  have len (n : Byte) (home : Int) (limit : Nat) : (n :: (leInt48 home ++ leBytes 4 limit)).length = Command.axisHome.length := by
    simp [Command.length]
  refine ⟨fun p n home limit s h hn => ?_, fun p x limit s h => ?_, fun p x home limit s h h1 h2 => ?_,
    fun p x home limit s h hv h1 h2 => ?_⟩
  · exact congrArg _ (takeFrame_refused h (len ..) (axisHomeAct_badField (parseAxisHome_axis hn _)))
  · exact congrArg _ (takeFrame_refused h (len ..) (axisHomeAct_badField (parseAxisHome_lowest ..)))
  · exact congrArg _ (takeFrame_refused h (len ..) (axisHomeAct_badField (parseAxisHome_limit _ _ h1 h2)))
  · have parsed := parseAxisHome_in x hv h1 h2
    refine ⟨fun ha => ?_, fun ha => ?_, fun ha hp => ?_, fun ha hp => ?_, fun ha => ?_⟩
    · exact congrArg _ (takeFrame_refused h (len ..) (axisHomeAct_disabled parsed ha))
    all_goals
      have act := axisHomeAct_ok (s := leaseRenewed s p) parsed (ha.trans_ne (by decide))
    · rw [startSearch_moving (s := leaseRenewed s p) ha (axisFrozen_running ha)] at act
      exact congrArg _ (takeFrame_ok h (len ..) act rfl rfl)
    · rw [startSearch_frozen (s := leaseRenewed s p) ha (axisFrozen_hold ha hp)] at act
      exact congrArg _ (takeFrame_ok h (len ..) act rfl rfl)
    · rw [startSearch_moving (s := leaseRenewed s p) ha (axisFrozen_continued ha hp)] at act
      exact congrArg _ (takeFrame_ok h (len ..) act rfl rfl)
    · rw [startSearch_frozen (s := leaseRenewed s p) ha (axisFrozen_homing ha)] at act
      exact congrArg _ (takeFrame_ok h (len ..) act rfl rfl)

end Sys2Proof.Machine
end

section
/-! SUPPORT. AXIS_CONFIG, AXIS_ENABLE and AXIS_DISABLE (O20, O21), the commands of the preset and the edges of EPOCH and Z
(O24 to O26): what their payloads read, what each act answers, and the part after them. -/

namespace Sys2Proof.Machine

/-! ## AXIS_ENABLE and AXIS_DISABLE (R12 to R14) -/

section
variable {n : Byte} {s : State}

theorem axisEnableAct_badField (h : 3 < n.toNat) : axisEnableAct [n] s = (s, .refuse .badField) := by
  unfold axisEnableAct
  rw [fin4_none h]

theorem axisEnableAct_refused {a : AxisId} (h : s.axes[a].state ≠ .disabled) :
    axisEnableAct [byte a.val] s = (s, .refuse .axisState) := by
  unfold axisEnableAct
  rw [fin4_axis]
  exact if_pos h

theorem axisEnableAct_enc {x : EncId} (h : s.axes[encAxis x].state = .disabled) :
    axisEnableAct [byte x.val] s = (loadReference x (enterRunning (encAxis x) s), .ok []) := by
  unfold axisEnableAct
  rw [fin4_enc]
  dsimp only
  rw [if_neg (not_not.2 h), axisEnc_encAxis]

theorem axisEnableAct_time (h : s.axes[timeAxis].state = .disabled) :
    axisEnableAct [3] s = ({ enterRunning timeAxis s with time := { s.time with phase := 0 } }, .ok []) := by
  unfold axisEnableAct
  rw [show (3 : Byte) = byte timeAxis.val from rfl, fin4_axis]
  dsimp only
  rw [if_neg (not_not.2 h), axisEnc_timeAxis]
  rfl

theorem axisDisableAct_badField (h : 3 < n.toNat) : axisDisableAct [n] s = (s, .refuse .badField) := by
  unfold axisDisableAct
  rw [fin4_none h]

theorem axisDisableAct_refused {a : AxisId} (h : s.axes[a].state = .disabled) :
    axisDisableAct [byte a.val] s = (s, .refuse .axisState) := by
  unfold axisDisableAct
  rw [fin4_axis]
  exact if_pos h

section
variable {a : AxisId} (h : s.axes[a].state ≠ .disabled)
include h

theorem axisDisableAct_inUse (hr : Referenced s a) : axisDisableAct [byte a.val] s = (s, .refuse .inUse) := by
  unfold axisDisableAct
  rw [fin4_axis]
  dsimp only
  rw [if_neg h, if_pos ((axisReferenced_iff ..).2 hr)]

end

theorem axisDisableAct_enc {x : EncId} (h : s.axes[encAxis x].state ≠ .disabled) (hr : ¬Referenced s (encAxis x)) :
    axisDisableAct [byte x.val] s = ({ s with
      axes := upd s.axes (encAxis x) ⟨.disabled, s.axes[encAxis x].value, none⟩
      encs := upd s.encs x { s.encs[x] with searchTravel := 0, recover := false } }, .ok []) := by
  unfold axisDisableAct
  rw [fin4_enc]
  dsimp only
  rw [if_neg h, if_neg (mt (axisReferenced_iff ..).1 hr), axisEnc_encAxis]
  rfl

theorem axisDisableAct_time (h : s.axes[timeAxis].state ≠ .disabled) (hr : ¬Referenced s timeAxis) :
    axisDisableAct [3] s = ({ s with
      axes := upd s.axes timeAxis ⟨.disabled, s.axes[timeAxis].value, none⟩, time := { s.time with phase := 0 } }, .ok []) := by
  unfold axisDisableAct
  rw [show (3 : Byte) = byte timeAxis.val from rfl, fin4_axis]
  dsimp only
  rw [if_neg h, if_neg (mt (axisReferenced_iff ..).1 hr), axisEnc_timeAxis]
  rfl

end

/-- Settles O21: the checks in order, and the encoder axes apart from the time axis. -/
theorem axisEnable : Obligations.AxisEnable := by
  refine ⟨fun p n s h hn => ?_, fun p a s h ha => ?_, fun p x s h ha => ?_, fun p s h ha => ?_⟩
  · exact congrArg _ (takeFrame_refused h rfl (axisEnableAct_badField hn))
  · exact congrArg _ (takeFrame_refused h rfl (axisEnableAct_refused ha))
  · exact congrArg _ (takeFrame_ok h rfl (axisEnableAct_enc ha) rfl rfl)
  · exact congrArg _ (takeFrame_ok h rfl (axisEnableAct_time ha) rfl rfl)

/-! ## AXIS_CONFIG (R11) -/

theorem Decode.ofCode_none {n : Nat} (h : 3 < n) : Decode.ofCode n = none := by
  match n, h with
  | n + 4, _ => rfl

theorem flagOf_none {n : Nat} (h : 1 < n) : flagOf n = none := by
  match n, h with
  | n + 2, _ => rfl

theorem FaultPolicy.ofCode_none {n : Nat} (h : 1 < n) : FaultPolicy.ofCode n = none := by
  match n, h with
  | n + 2, _ => rfl

theorem byte_toNat_ne_zero {b : Byte} (h : b ≠ 0) : b.toNat ≠ 0 := fun e => h (BitVec.eq_of_toNat_eq e)

/-- The fields of an AXIS_CONFIG. -/
theorem axisConfig_fields (a n i q : Byte) {k : Nat} (h : k < 65536) :
    field ([a, n, i, q] ++ leBytes 2 k) 1 1 = n.toNat ∧ field ([a, n, i, q] ++ leBytes 2 k) 2 1 = i.toNat
      ∧ field ([a, n, i, q] ++ leBytes 2 k) 3 1 = q.toNat ∧ field ([a, n, i, q] ++ leBytes 2 k) 4 2 = k :=
  ⟨field_one .., field_one .., field_one .., field_leBytes 2 k h⟩

theorem parseAxisConfig_axis {n : Byte} (h : 3 < n.toNat) (bs : List Byte) : parseAxisConfig (n :: bs) = none := by
  unfold parseAxisConfig
  rw [fin4_none h]
  rfl

theorem parseAxisConfig_bad {a n i q : Byte} {k : Nat} (hk : k < 65536)
    (h : 3 < a.toNat
      ∨ (a.toNat < 3 ∧ (3 < n.toNat ∨ 1 < i.toNat ∨ 1 < q.toNat ∨ k ≠ 0))
      ∨ (a = 3 ∧ (n ≠ 0 ∨ i ≠ 0 ∨ q ≠ 0 ∨ k = 0 ∨ 1000 < k))) :
    parseAxisConfig ([a, n, i, q] ++ leBytes 2 k) = none := by
  obtain ⟨hn, hi, hq, hk⟩ := axisConfig_fields a n i q hk
  rcases h with h | ⟨ha, h⟩ | ⟨rfl, h⟩
  · exact parseAxisConfig_axis h _
  · have axis : fin4 (field ([a, n, i, q] ++ leBytes 2 k) 0 1) = some (encAxis ⟨a.toNat, ha⟩) := by
      have read := fin4_enc ⟨a.toNat, ha⟩ ([n, i, q] ++ leBytes 2 k)
      rwa [show byte a.toNat = a from BitVec.ofNat_toNat ..] at read
    rw [parseAxisConfig_enc axis, hn, hi, hq, hk]
    rcases h with h | h | h | h
    · rw [Decode.ofCode_none h]; rfl
    · rw [flagOf_none h]; simp
    · rw [FaultPolicy.ofCode_none h]; simp
    · simp [demand, h]
  · have axis : fin4 (field ([3, n, i, q] ++ leBytes 2 k) 0 1) = some timeAxis := fin4_axis timeAxis _
    rw [parseAxisConfig_time axis, hn, hi, hq, hk]
    rcases h with h | h | h | h
    · rw [demand, if_neg (by simp [byte_toNat_ne_zero h])]; rfl
    · rw [demand, if_neg (by simp [byte_toNat_ne_zero h])]; rfl
    · rw [demand, if_neg (by simp [byte_toNat_ne_zero h])]; rfl
    · rw [boundedNat, if_neg (by omega)]
      cases demand _ <;> rfl

section
variable {pl : List Byte} {s : State}

theorem axisConfigAct_badField (h : parseAxisConfig pl = none) : axisConfigAct pl s = (s, .refuse .badField) := by
  unfold axisConfigAct
  rw [h]

theorem axisConfigAct_refused {op : AxisConfigOp} (h : parseAxisConfig pl = some op)
    (ha : s.axes[op.axis].state ≠ .disabled) : axisConfigAct pl s = (s, .refuse .axisState) := by
  unfold axisConfigAct
  rw [h]
  exact if_pos ha

theorem axisConfigAct_enc {x : EncId} {d : Decode} {inv : Bool} {pol : FaultPolicy}
    (h : parseAxisConfig pl = some (.encoder x d inv pol)) (ha : s.axes[encAxis x].state = .disabled) :
    axisConfigAct pl s = ({ s with encs := upd s.encs x { s.encs[x] with
      decode := d, invert := inv, policy := pol, refA := s.pins.encA[x], refB := s.pins.encB[x] } }, .ok []) := by
  unfold axisConfigAct
  rw [h]
  refine (if_neg (not_not.2 ha)).trans ?_
  simp [loadReference, State.setEnc]

theorem axisConfigAct_time {n : Nat} (h : parseAxisConfig pl = some (.time n)) (ha : s.axes[timeAxis].state = .disabled) :
    axisConfigAct pl s = ({ s with time := { s.time with prescaler := n } }, .ok []) := by
  unfold axisConfigAct
  rw [h]
  exact if_neg (not_not.2 ha)

end

theorem parseAxisConfig_encoder (x : EncId) {n q : Byte} (inv : Bool) {d : Decode} {pol : FaultPolicy}
    (hd : Decode.ofCode n.toNat = some d) (hp : FaultPolicy.ofCode q.toNat = some pol) :
    parseAxisConfig [byte x.val, n, byte (if inv then 1 else 0), q, 0, 0] = some (.encoder x d inv pol) := by
  obtain ⟨hn, hi, hq, hk⟩ := axisConfig_fields (byte x.val) n (byte (if inv then 1 else 0)) q (k := 0) (by decide)
  have flag : flagOf (byte (if inv then 1 else 0)).toNat = some inv := by cases inv <;> rfl
  have parsed := parseAxisConfig_enc (pl := [byte x.val, n, byte (if inv then 1 else 0), q] ++ leBytes 2 0) (fin4_enc x _)
  rw [hn, hi, hq, hk, hd, flag, hp] at parsed
  exact parsed

theorem parseAxisConfig_timeAxis {n : Nat} (h1 : 1 ≤ n) (h2 : n ≤ 1000) :
    parseAxisConfig ([3, 0, 0, 0] ++ leBytes 2 n) = some (.time n) := by
  obtain ⟨hn, hi, hq, hk⟩ := axisConfig_fields 3 0 0 0 (k := n) (by omega)
  have axis : fin4 (field ([3, 0, 0, 0] ++ leBytes 2 n) 0 1) = some timeAxis := fin4_axis timeAxis _
  rw [parseAxisConfig_time axis, hn, hi, hq, hk, boundedNat_eq_some.2 ⟨⟨h1, h2⟩, rfl⟩]
  rfl

/-- Settles O20: the checks of each command in order, and the encoder axes apart from the time axis. -/
theorem axisConfigAndDisable : Obligations.AxisConfigAndDisable := by
  refine ⟨⟨fun p a n i q k s h hk hbad => ?_, fun p x n q inv d pol s h hd hp => ?_, fun p n s h => ?_⟩,
    fun p n s h hn => ?_, fun p a s h => ⟨fun ha => ?_, fun ha hr => ?_⟩, fun p x s h ha hr => ?_, fun p s h ha hr => ?_⟩
  · exact congrArg _ (takeFrame_refused h (by simp [Command.length]) (axisConfigAct_badField (parseAxisConfig_bad hk hbad)))
  · have parsed := parseAxisConfig_encoder x inv hd hp
    refine ⟨fun ha => ?_, fun ha => ?_⟩
    · exact congrArg _ (takeFrame_ok h rfl (axisConfigAct_enc parsed ha) rfl rfl)
    · exact congrArg _ (takeFrame_refused h rfl (axisConfigAct_refused parsed ha))
  · refine ⟨fun h1 h2 ha => ?_, fun h1 h2 ha => ?_⟩
    · exact congrArg _ (takeFrame_ok h rfl (axisConfigAct_time (parseAxisConfig_timeAxis h1 h2) ha) rfl rfl)
    · exact congrArg _ (takeFrame_refused h rfl (axisConfigAct_refused (parseAxisConfig_timeAxis h1 h2) ha))
  · exact congrArg _ (takeFrame_refused h rfl (axisDisableAct_badField hn))
  · exact congrArg _ (takeFrame_refused h rfl (axisDisableAct_refused ha))
  · exact congrArg _ (takeFrame_refused h rfl (axisDisableAct_inUse ha hr))
  · exact congrArg _ (takeFrame_ok h rfl (axisDisableAct_enc ha hr) rfl rfl)
  · exact congrArg _ (takeFrame_ok h rfl (axisDisableAct_time ha hr) rfl rfl)

/-! ## The preset (R21, R22) -/

section
variable {p : Port} {pl : List Byte} {s : State}

theorem timePresetAct_badField (h : rangedValue (fieldInt48 pl 0) = none) : timePresetAct p pl s = (s, .refuse .badField) := by
  rw [timePresetAct_eq, h]

section
variable {v : Int} (h : rangedValue (fieldInt48 pl 0) = some v)
include h

theorem timePresetAct_owned (hq : ∃ q ∈ s.preset, q.setter ≠ p) : timePresetAct p pl s = (s, .refuse .owned) := by
  rw [timePresetAct_eq, h]
  exact if_pos hq

theorem timePresetAct_unowned (hq : ∀ q ∈ s.preset, q.setter = p) : timePresetAct p pl s =
    if axisForeign s timeAxis p then (s, .refuse .inUse) else ({ s with preset := some ⟨v, p⟩ }, .ok []) := by
  rw [timePresetAct_eq, h]
  exact if_neg fun ⟨q, hq', hne⟩ => hne (hq q hq')

theorem timePresetAct_inUse (hq : ∀ q ∈ s.preset, q.setter = p) (hf : ForeignReferenced s timeAxis p) :
    timePresetAct p pl s = (s, .refuse .inUse) := by
  rw [timePresetAct_unowned h hq, if_pos ((axisForeign_iff ..).2 hf)]

theorem timePresetAct_ok (hq : ∀ q ∈ s.preset, q.setter = p) (hf : ¬ForeignReferenced s timeAxis p) :
    timePresetAct p pl s = ({ s with preset := some ⟨v, p⟩ }, .ok []) := by
  rw [timePresetAct_unowned h hq, if_neg (mt (axisForeign_iff ..).1 hf)]

end

theorem timePresetClearAct_ok (hq : ∀ q ∈ s.preset, q.setter = p) :
    timePresetClearAct p s = ({ s with preset := none }, .ok []) := by
  unfold timePresetClearAct
  cases hs : s.preset with
  | none => exact congrArg (fun q => ({ s with preset := q }, Answer.ok [])) hs
  | some q => exact if_pos (hq q hs)

theorem timePresetClearAct_refused (hq : ∃ q ∈ s.preset, q.setter ≠ p) :
    timePresetClearAct p s = (s, .refuse .notOwner) := by
  obtain ⟨q, hs, hne⟩ := hq
  unfold timePresetClearAct
  rw [Option.mem_def.1 hs]
  exact if_neg hne

end

/-- Settles O25: the slot is the issuer's, or empty, or another port's. -/
theorem timePresetClear : Obligations.TimePresetClear := by
  refine fun p s h => ⟨fun hq => ?_, fun hq => ?_⟩
  · exact congrArg _ (takeFrame_ok h rfl (timePresetClearAct_ok hq) rfl rfl)
  · exact congrArg _ (takeFrame_refused h rfl (timePresetClearAct_refused hq))

/-! ## EPOCH (R23) -/

/-- The state once the level of EPOCH has been seen high. -/
def epochHigh (s : State) : State := { s with pins := { s.pins with epoch := true }, epochLevel := true }

section
variable {s : State}

theorem epochRise_notRunning (h : s.axes[timeAxis].state ≠ .running) : epochRise s =
    s.notified timeAxis (.epochSeen .notRunning s.axes[timeAxis].value) (s.preset.map (·.setter)).toList [] := by
  unfold epochRise
  rw [if_pos h, postEpoch_eq]

section
variable (h : s.axes[timeAxis].state = .running)
include h

theorem epochRise_noPreset (hq : s.preset = none) :
    epochRise s = s.notified timeAxis (.epochSeen .noPreset s.axes[timeAxis].value) [] [] := by
  unfold epochRise
  rw [if_neg (not_not.2 h), hq]
  exact postEpoch_eq ..

theorem epochRise_inUse {q : Preset} (hq : s.preset = some q) (hf : ForeignReferenced s timeAxis q.setter) : epochRise s =
    State.notified { s with preset := none } timeAxis (.epochSeen .inUse s.axes[timeAxis].value) [q.setter] [] := by
  unfold epochRise
  rw [if_neg (not_not.2 h), hq]
  dsimp only
  rw [if_pos ((axisForeign_iff ..).2 hf), postEpoch_eq]

/-- The notice of an applied preset waits behind that of the re-base. -/
theorem epochRise_applied {q : Preset} (hq : s.preset = some q) (hf : ¬ForeignReferenced s timeAxis q.setter) : epochRise s = { s with
    preset := none
    axes := upd s.axes timeAxis { s.axes[timeAxis] with value := q.value }
    time := { s.time with phase := 0 }
    toMku := upd s.toMku timeAxis (s.toMku[timeAxis] ++ [.rebase .epoch s.axes[timeAxis].value q.value])
    heldNotices := upd s.heldNotices timeAxis (s.heldNotices[timeAxis] ++
      [⟨.axisRebased timeAxis .epoch s.axes[timeAxis].value q.value, []⟩, ⟨.epochSeen .applied q.value, [q.setter]⟩]) } := by
  unfold epochRise
  rw [if_neg (not_not.2 h), hq]
  dsimp only
  rw [if_neg (mt (axisForeign_iff ..).1 hf), rebase_eq, if_pos rfl, postEpoch, notify_of_held (by simp)]
  simp [State.setHeld]

end

theorem epochChange_follows {level : Bool} (hr : s.inReset = false) (h : level = false ∨ s.epochLevel = true) :
    epochChange level s = { s with pins := { s.pins with epoch := level }, epochLevel := level } := by
  have still : (level && !s.epochLevel) = false := by rcases h with h | h <;> simp [h]
  unfold epochChange
  dsimp only
  rw [if_neg (ne_true_of_eq_false hr), if_neg (ne_true_of_eq_false still)]

theorem epochChange_rises (hr : s.inReset = false) (h : s.epochLevel = false) :
    epochChange true s = epochRise (epochHigh s) := by
  unfold epochChange
  dsimp only
  rw [if_neg (ne_true_of_eq_false hr), h]
  rfl

end

/-- Settles O24: the checks of TIME_PRESET in order, and the table of R23. -/
theorem timePresetAndEpoch : Obligations.TimePresetAndEpoch := by
  have len (v : Int) : (leInt48 v).length = Command.timePreset.length := leInt48_length v
  refine ⟨⟨fun p s h => ?_, fun p v s h hv => ?_⟩, fun level s hr hl => congrArg _ (epochChange_follows hr hl), fun s hr hl => ?_⟩
  · have lowest := rangedValue_lowest []
    rw [List.append_nil] at lowest
    exact congrArg _ (takeFrame_refused h (len _) (timePresetAct_badField lowest))
  · have read := rangedValue_leInt48 hv []
    rw [List.append_nil] at read
    refine ⟨fun hq => ?_, fun hq hf => ?_, fun hq hf => ?_⟩
    · exact congrArg _ (takeFrame_refused h (len _) (timePresetAct_owned read hq))
    · exact congrArg _ (takeFrame_refused h (len _) (timePresetAct_inUse read hq hf))
    · exact congrArg _ (takeFrame_ok h (len _) (timePresetAct_ok read hq hf) rfl rfl)
  · have rises := epochChange_rises hr hl
    refine ⟨fun ha => ?_, fun ha hq => ?_, fun q ha hq => ⟨fun hf => ?_, fun hf => ?_⟩⟩
    · exact congrArg _ (rises.trans (epochRise_notRunning (s := epochHigh s) ha))
    · exact congrArg _ (rises.trans (epochRise_noPreset (s := epochHigh s) ha hq))
    · exact congrArg _ (rises.trans (epochRise_inUse (s := epochHigh s) ha hq hf))
    · exact congrArg _ (rises.trans (epochRise_applied (s := epochHigh s) ha hq hf))

/-! ## Z (R18) -/

section
variable {x : EncId} {s : State} (hr : s.inReset = false)
include hr

theorem indexChange_follows {level : Bool}
    (h : level = false ∨ s.encs[x].levelZ = true ∨ s.axes[encAxis x].state ≠ .homing) : indexChange x level s = { s with
      pins := { s.pins with encZ := upd s.pins.encZ x level }, encs := upd s.encs x { s.encs[x] with levelZ := level } } := by
  have still : ((level && !s.encs[x].levelZ) && s.axes[encAxis x].state == .homing) = false := by
    rcases h with h | h | h
    · rw [h]; rfl
    · rw [h, Bool.not_true, Bool.and_false]; rfl
    · rw [beq_eq_false_iff_ne.2 h, Bool.and_false]
  unfold indexChange
  dsimp only
  rw [if_neg (ne_true_of_eq_false hr)]
  exact if_neg (ne_true_of_eq_false still)

theorem indexChange_homes (hz : s.encs[x].levelZ = false) (ha : s.axes[encAxis x].state = .homing) :
    indexChange x true s = { s with
      pins := { s.pins with encZ := upd s.pins.encZ x true }
      axes := upd s.axes (encAxis x) ⟨.running, s.encs[x].homeValue, none⟩
      encs := upd s.encs x { s.encs[x] with levelZ := true, searchTravel := 0, recover := false }
      toMku := upd s.toMku (encAxis x)
        (s.toMku[encAxis x] ++ [.rebase .home s.axes[encAxis x].value s.encs[x].homeValue, .thaw])
      heldNotices := upd s.heldNotices (encAxis x)
        (s.heldNotices[encAxis x] ++ ⟨.axisRebased (encAxis x) .home s.axes[encAxis x].value s.encs[x].homeValue, []⟩ ::
          if s.encs[x].recover then [⟨.axisRecovered (encAxis x) .home s.encs[x].homeValue, []⟩] else []) } := by
  have rises : ((true && !s.encs[x].levelZ) && s.axes[encAxis x].state == .homing) = true := by
    rw [hz, ha]; rfl
  unfold indexChange
  dsimp only
  rw [if_neg (ne_true_of_eq_false hr)]
  refine (if_pos rises).trans ?_
  rw [endSearch_rebase]
  simp [State.setEnc]

end

/-- Settles O26: by whether the edge rises on a search. -/
theorem indexEdge : Obligations.IndexEdge :=
  ⟨fun _ _ _ hr h => congrArg _ (indexChange_follows hr h), fun _ _ hr hz ha => congrArg _ (indexChange_homes hr hz ha)⟩

end Sys2Proof.Machine
end

section
/-! SUPPORT. Counting: what a change of the encoder pins decodes to (R5, R6), what the count does to the axis (R7 to R9, R19), and
the count of the prescaler (R10). The pin changes are those of the encoder (O27, O28), the expiry that of A3 (O29). -/

namespace Sys2Proof.Machine

/-! ## Decoding (R5, R6) -/

/-- The count of a change of (A, B) that may be a quadrature error. -/
def decoded (r : EncRec) (a b : Bool) : Option Direction := if isQuadError r a b then none else decodeCount r a b

theorem quadNext_eq (a b : Bool) : quadNext (a, b) = (!b, a) := by cases a <;> cases b <;> rfl

theorem countDir_true (inv : Bool) : countDir true inv = if inv then .reverse else .forward := by cases inv <;> rfl

theorem countDir_false (inv : Bool) : countDir false inv = if inv then .forward else .reverse := by cases inv <;> rfl

section
variable {r : EncRec} {a b : Bool}

theorem isQuadError_eq_false (h : a = r.refA ∨ b = r.refB) : isQuadError r a b = false := by
  unfold isQuadError
  rcases h with h | h <;> simp [h]

theorem isQuadError_eq_true (hd : r.decode ≠ .stepDir) (ha : a ≠ r.refA) (hb : b ≠ r.refB) : isQuadError r a b = true := by
  unfold isQuadError
  simp [hd, ha, hb]

theorem decoded_eq (h : isQuadError r a b = false) : decoded r a b = decodeCount r a b := if_neg (ne_true_of_eq_false h)

/-- In X4 every change of one level counts, forward along the sequence. -/
theorem decoded_quadX4 (h : r.decode = .quadX4) (one : (a = r.refA ∧ b ≠ r.refB) ∨ (a ≠ r.refA ∧ b = r.refB)) :
    decoded r a b = some (countDir (if a = r.refA then a == b else a != b) r.invert) := by
  rw [decoded_eq (isQuadError_eq_false (one.imp And.left And.right)), decodeCount, h]
  rcases one with ⟨ha, hb⟩ | ⟨ha, hb⟩
  · simp [ha, hb]
  · simp [ha]

theorem decoded_quadX4_next (h : r.decode = .quadX4) (one : (a = r.refA ∧ b ≠ r.refB) ∨ (a ≠ r.refA ∧ b = r.refB))
    (hn : quadNext (r.refA, r.refB) = (a, b)) : decoded r a b = some (countDir true r.invert) := by
  rw [decoded_quadX4 h one]
  rw [quadNext_eq, Prod.mk.injEq] at hn
  obtain ⟨ha, hb⟩ := hn
  split <;> simp_all

theorem decoded_quadX4_prev (h : r.decode = .quadX4) (one : (a = r.refA ∧ b ≠ r.refB) ∨ (a ≠ r.refA ∧ b = r.refB))
    (hn : quadNext (a, b) = (r.refA, r.refB)) : decoded r a b = some (countDir false r.invert) := by
  rw [decoded_quadX4 h one]
  rw [quadNext_eq, Prod.mk.injEq] at hn
  obtain ⟨ha, hb⟩ := hn
  split <;> simp_all

theorem decoded_quadX2 (h : r.decode = .quadX2) (hq : a = r.refA ∨ b = r.refB) :
    decoded r a b = if a = r.refA then none else some (countDir (a != b) r.invert) := by
  rw [decoded_eq (isQuadError_eq_false hq), decodeCount, h]
  simp only [bne_iff_ne, ne_eq, ite_not]

theorem decoded_quadX1 (h : r.decode = .quadX1) (hq : a = r.refA ∨ b = r.refB) :
    decoded r a b = if a = r.refA then none else if b then none else some (countDir a r.invert) := by
  rw [decoded_eq (isQuadError_eq_false hq), decodeCount, h]
  by_cases ha : a = r.refA
  · simp [ha]
  · cases b <;> simp [ha]

theorem decoded_stepDir (h : r.decode = .stepDir) :
    decoded r a b = if a = true ∧ r.refA = false then some (countDir (!b) r.invert) else none := by
  have quiet : isQuadError r a b = false := by unfold isQuadError; simp [h]
  rw [decoded_eq quiet, decodeCount, h]
  simp

end

/-! ## What a change of the pins does to the axis -/

section
variable (x : EncId) (a b : Bool) (s : State)

theorem sampled_enc : (sampled x a b s).encs[x] = { s.encs[x] with refA := a, refB := b } := upd_get ..

theorem policyOf_sampled : policyOf (sampled x a b s) (encAxis x) = s.encs[x].policy := by
  rw [policyOf_encAxis, sampled_enc]

/-- The step of a count within the range (R8). -/
def stepOf (d : Direction) : StepMsg := ⟨d, d.next s.axes[encAxis x].value,
  decide (s.axes[encAxis x].state = .homing ∨ (s.axes[encAxis x].state = .faulted ∧ s.encs[x].policy = .hold))⟩

theorem moved_sampled (d : Direction) : moved (encAxis x) d (sampled x a b s) = { sampled x a b s with
    axes := upd s.axes (encAxis x) { s.axes[encAxis x] with value := d.next s.axes[encAxis x].value }
    toScu := upd s.toScu (encAxis x) (s.toScu[encAxis x] ++ [stepOf x s d])
    toMku := upd s.toMku (encAxis x) (s.toMku[encAxis x] ++ [.step (stepOf x s d)]) } := by
  unfold moved
  rw [axisFrozen_eq, policyOf_sampled]
  rfl

theorem searchStep_moved_goesOn (d : Direction) (h : s.encs[x].searchTravel + 1 ≤ s.encs[x].searchLimit) :
    searchStep x (moved (encAxis x) d (sampled x a b s)) = { moved (encAxis x) d (sampled x a b s) with
      encs := upd s.encs x { s.encs[x] with refA := a, refB := b, searchTravel := s.encs[x].searchTravel + 1 } } := by
  have record : (moved (encAxis x) d (sampled x a b s)).encs[x] = { s.encs[x] with refA := a, refB := b } := sampled_enc ..
  rw [searchStep_goesOn (by rw [record]; exact h), record]
  have encs : (moved (encAxis x) d (sampled x a b s)).encs = upd s.encs x { s.encs[x] with refA := a, refB := b } := rfl
  rw [encs, upd_upd]

theorem searchStep_moved_fails (d : Direction) (h : s.encs[x].searchLimit < s.encs[x].searchTravel + 1) :
    searchStep x (moved (encAxis x) d (sampled x a b s)) = ({ sampled x a b s with
      axes := upd s.axes (encAxis x) ⟨.faulted, d.next s.axes[encAxis x].value, some .homeFailed⟩
      encs := upd s.encs x { s.encs[x] with refA := a, refB := b, searchTravel := 0, recover := false }
      toScu := upd s.toScu (encAxis x) (s.toScu[encAxis x] ++ [stepOf x s d])
      toMku := upd s.toMku (encAxis x) (s.toMku[encAxis x] ++ [.step (stepOf x s d)]
        ++ (if s.encs[x].policy = .continued then [.thaw] else [])) } : State).notified (encAxis x)
      (.axisFault (encAxis x) .homeFailed false (d.next s.axes[encAxis x].value)) [] (entryHolders s (encAxis x)) := by
  have record : (moved (encAxis x) d (sampled x a b s)).encs[x] = { s.encs[x] with refA := a, refB := b } := sampled_enc ..
  rw [searchStep_fails (by rw [record]; exact h), record, moved_sampled]
  unfold stopped State.setEnc sampled
  dsimp only
  rw [upd_upd, upd_upd, upd_upd, upd_get, upd_get]
  rfl

end

section
variable {x : EncId} {a b : Bool} {s : State} (hr : s.inReset = false)
include hr

/-- A change that is no quadrature error and makes no count, or is of a DISABLED axis. -/
theorem encoderChange_still (hq : isQuadError s.encs[x] a b = false)
    (h : decodeCount s.encs[x] a b = none ∨ s.axes[encAxis x].state = .disabled) :
    encoderChange x a b s = sampled x a b s := by
  cases hd : decodeCount s.encs[x] a b with
  | none => exact encoderChange_none hr hq hd
  | some d =>
    have disabled := h.resolve_left (fun e => nomatch hd.symm.trans e)
    exact (encoderChange_count hr hq hd).trans (count_of_disabled (s := sampled x a b s) disabled)

section
variable {d : Direction} (hq : isQuadError s.encs[x] a b = false) (hd : decodeCount s.encs[x] a b = some d)
include hq hd

theorem encoderChange_inRange (hs : s.axes[encAxis x].state ≠ .disabled)
    (hv : inRange (d.next s.axes[encAxis x].value) = true) : encoderChange x a b s =
      if s.axes[encAxis x].state = .homing then searchStep x (moved (encAxis x) d (sampled x a b s))
      else moved (encAxis x) d (sampled x a b s) := by
  rw [encoderChange_count hr hq hd, count_inRange (s := sampled x a b s) hs hv, applyCount_enc]
  rfl

theorem encoderChange_outOfRange (hs : s.axes[encAxis x].state ≠ .disabled)
    (hv : inRange (d.next s.axes[encAxis x].value) = false) :
    encoderChange x a b s = refuseCount (encAxis x) (sampled x a b s) := by
  rw [encoderChange_count hr hq hd, count_outOfRange (s := sampled x a b s) hs hv]

end

end

/-- Settles O27: the decoding by mode, and a count by the state of the axis and what is left of a search. -/
theorem encoderCounting : Obligations.EncoderCounting := by
  refine ⟨fun r a b => ⟨fun h one hn => ?_, fun h one hn => ?_, fun h ha hb => ?_, fun h ha => ?_, fun h ha hb => ?_,
    fun h ha => ?_, fun h => ?_, fun h ha hb => ?_⟩, fun x a b s hr hq => ⟨fun h => ?_, fun d hd hs hv => ?_⟩⟩
  · exact (decoded_quadX4_next h one hn).trans (congrArg _ (countDir_true _))
  · exact (decoded_quadX4_prev h one hn).trans (congrArg _ (countDir_false _))
  · refine (decoded_quadX2 h (.inr hb)).trans ?_
    rw [if_neg ha]
    by_cases hab : a = b
    · rw [if_pos hab, bne_eq_false_iff_eq.2 hab, countDir_false]
    · rw [if_neg hab, bne_iff_ne.2 hab, countDir_true]
  · exact (decoded_quadX2 h (.inl ha)).trans (if_pos ha)
  · refine (decoded_quadX1 h (.inr hb)).trans ?_
    rw [if_neg ha]
    cases a with
    | true => rw [countDir_true]; rfl
    | false => rw [countDir_false]; rfl
  · exact (decoded_quadX1 h (.inl ha)).trans (if_pos ha)
  · refine (decoded_stepDir h).trans ?_
    cases b with
    | true => rw [Bool.not_true, countDir_false]; rfl
    | false => rw [Bool.not_false, countDir_true]; rfl
  · have error := isQuadError_eq_true h ha hb
    exact ⟨error, if_pos error⟩
  · exact congrArg _ (encoderChange_still hr hq h)
  · have change := encoderChange_inRange hr hq hd hs hv
    refine ⟨fun ha => ?_, fun ha ht => ?_, fun ha ht => ?_⟩
    · rw [if_neg ha, moved_sampled] at change
      exact congrArg _ change
    · rw [if_pos ha, searchStep_moved_goesOn _ _ _ _ _ ht, moved_sampled] at change
      exact congrArg _ change
    · rw [if_pos ha, searchStep_moved_fails _ _ _ _ _ ht] at change
      exact congrArg _ change

/-! ## Faults (R7, R9) -/

/-- A fault of which the MKU is told nothing. -/
theorem stopped_nil (a : AxisId) (cause : FaultCause) (s : State) : stopped a cause [] s =
    ({ s with axes := upd s.axes a ⟨.faulted, s.axes[a].value, some cause⟩ } : State).notified a
      (.axisFault a cause false s.axes[a].value) [] (entryHolders s a) := by
  have same : upd s.toMku a s.toMku[a] = s.toMku := upd_same ..
  unfold stopped
  rw [List.append_nil, same]

section
variable {a : AxisId} {s : State} (h : s.axes[a].state = .faulted)
include h

theorem refuseCount_known (hc : s.axes[a].cause = some .overrange) : refuseCount a s = s := by
  rw [refuseCount_faulted h, if_pos hc]

theorem refuseCount_another (hc : s.axes[a].cause ≠ some .overrange) : refuseCount a s = stopped a .overrange [] s := by
  rw [refuseCount_faulted h, if_neg hc]

end

/-- An encoder record written after the pins have been followed. -/
theorem sampled_setEnc (x : EncId) (a b : Bool) (s : State) (e : EncRec) : (sampled x a b s).setEnc x e = { s with
    pins := { s.pins with encA := upd s.pins.encA x a, encB := upd s.pins.encB x b }, encs := upd s.encs x e } := by
  unfold State.setEnc sampled
  rw [upd_upd]

/-- A count beyond either end of the range. -/
theorem next_outOfRange {d : Direction} {v : Int}
    (h : d = .forward ∧ v = 140737488355327 ∨ d = .reverse ∧ v = -140737488355327) : inRange (d.next v) = false := by
  rcases h with ⟨rfl, rfl⟩ | ⟨rfl, rfl⟩ <;> rfl

/-- Settles O28: by the state of the axis and the policy; a count refused at the limit by the same. -/
theorem axisFaults : Obligations.AxisFaults := by
  intro x a b s hr
  have policy {p : FaultPolicy} (h : s.encs[x].policy = p) : (sampled x a b s).encs[x].policy = p := by
    rw [sampled_enc]; exact h
  refine ⟨fun hq => ?_, fun d hq hd hv => ?_⟩
  · have change := encoderChange_quadError hr hq
    refine ⟨fun ha => ?_, fun ha hp => ?_, fun ha hp => ?_, fun ha hp => ?_⟩
    · exact congrArg _ (change.trans (quadError_quiet (s := sampled x a b s) ha))
    · exact congrArg _ (change.trans (quadError_stops (s := sampled x a b s) ha (policy hp)))
    · rw [quadError_continues (s := sampled x a b s) ha (policy hp), postFault_eq] at change
      exact congrArg _ change
    · rw [quadError_searching (s := sampled x a b s) ha (policy hp), postFault_eq, sampled_setEnc, sampled_enc] at change
      exact congrArg _ change
  · have change (hs : s.axes[encAxis x].state ≠ .disabled) := encoderChange_outOfRange hr hq hd hs (next_outOfRange hv)
    refine ⟨fun ha hp => ?_, fun ha hp => ?_, fun ha => ?_, fun ha hc => ?_, fun ha hc => ?_⟩
    all_goals
      have change := change (ha.trans_ne (by decide))
    · rw [refuseCount_running (s := sampled x a b s) ha, policyOf_sampled, if_pos hp] at change
      exact congrArg _ change
    · rw [refuseCount_running (s := sampled x a b s) ha, policyOf_sampled, if_neg (hp.trans_ne (by decide)), stopped_nil] at change
      exact congrArg _ change
    · rw [refuseCount_homing (s := sampled x a b s) ha, sampled_setEnc, sampled_enc] at change
      by_cases hp : s.encs[x].policy = .continued
      · rw [if_pos hp] at change ⊢
        exact congrArg _ change
      · rw [if_neg hp, stopped_nil] at change
        rw [if_neg hp]
        exact congrArg _ change
    · rw [refuseCount_another (s := sampled x a b s) ha hc, stopped_nil] at change
      exact congrArg _ change
    · rw [refuseCount_known (s := sampled x a b s) ha hc] at change
      exact congrArg _ change

/-! ## The prescaler (R10) -/

section
variable {s : State}

/-- The state once the prescaler phase has returned to 0. -/
def phaseZero (s : State) : State := { s with time := { s.time with phase := 0 } }

theorem expirePrescaler_counts (h : s.time.prescaler ≤ s.time.phase) (ha : s.axes[timeAxis].state ≠ .disabled) :
    expirePrescaler s = count timeAxis .forward (phaseZero s) := by
  refine if_pos ?_
  rw [prescalerDue, Bool.and_eq_true, bne_iff_ne, decide_eq_true_iff]
  exact ⟨ha, h⟩

theorem expirePrescaler_disabled (ha : s.axes[timeAxis].state = .disabled) : expirePrescaler s = s := by
  refine if_neg ?_
  rw [prescalerDue, Bool.and_eq_true, bne_iff_ne]
  exact fun k => k.1 ha

end

/-- Settles O29: a step within the range, an overrange at its end. -/
theorem prescalerExpiry : Obligations.PrescalerExpiry := by
  intro s hp
  have counts (ha : s.axes[timeAxis].state ≠ .disabled) := expirePrescaler_counts hp ha
  have atEnd (hv : s.axes[timeAxis].value = 140737488355327) :
      inRange (Direction.forward.next (phaseZero s).axes[timeAxis].value) = false := next_outOfRange (.inl ⟨rfl, hv⟩)
  refine ⟨fun frozen h hv => ?_, fun ha hv => ?_, fun ha hc hv => ?_, fun ha => ?_⟩
  · have enabled : s.axes[timeAxis].state ≠ .disabled := by
      rcases h with ⟨ha, _⟩ | ⟨ha, _⟩ <;> exact ha.trans_ne (by decide)
    have frozen_eq : axisFrozen (phaseZero s) timeAxis = frozen := by
      rcases h with ⟨ha, rfl⟩ | ⟨ha, rfl⟩
      · exact axisFrozen_running (s := phaseZero s) ha
      · exact axisFrozen_faulted (s := phaseZero s) ha
    have count := counts enabled
    rw [count_inRange (s := phaseZero s) (d := .forward) enabled hv, applyCount_time, moved, frozen_eq] at count
    exact congrArg _ count
  · have count := counts (ha.trans_ne (by decide))
    rw [count_outOfRange (s := phaseZero s) (ha.trans_ne (by decide)) (atEnd hv), refuseCount_running (s := phaseZero s) ha] at count
    exact congrArg _ count
  · have count := counts (ha.trans_ne (by decide))
    rw [count_outOfRange (s := phaseZero s) (ha.trans_ne (by decide)) (atEnd hv), refuseCount_known (s := phaseZero s) ha hc] at count
    exact congrArg _ count
  · exact congrArg _ (expirePrescaler_disabled ha)

end Sys2Proof.Machine
end

section
/-! SUPPORT. The read commands (R20, R49, R124, R138), the AXU part of a teardown (R25), and the posting of a notice (R157, R162):
O10, O16, O50. -/

namespace Sys2Proof.Machine

/-! ## Commands that only read -/

theorem takeFrame_read {s : State} {p : Port} {c : Command} {f : State → List Byte} {bytes : List Byte} (h : Admitted s p)
    (hl : ([] : List Byte).length = c.length) (hf : f (leaseRenewed s p) = bytes) :
    takeFrame p c [] (fun s => (s, .ok (f s))) s = { s with ports := answered s p (okResponse c bytes) } :=
  takeFrame_ok h hl (congrArg (fun b => (leaseRenewed s p, Answer.ok b)) hf) rfl rfl

theorem toList_four {α : Type} (v : Vector α 4) : v.toList = [v[0], v[1], v[2], v[3]] := by
  refine List.ext_getElem (by simp) fun i hi _ => ?_
  have bound : i < 4 := by simpa using hi
  interval_cases i <;> simp

theorem snapshotBytes_eq (s : State) : snapshotBytes s =
    [s.axes[0].state, s.axes[1].state, s.axes[2].state, s.axes[3].state].map (fun st => byte st.code)
      ++ leInt48 s.axes[0].value ++ leInt48 s.axes[1].value ++ leInt48 s.axes[2].value ++ leInt48 s.axes[3].value
      ++ leBytes 4 s.uptime.toNat := by
  rw [snapshotBytes, toList_four]
  simp [leBytes_one]

theorem chanBytes_eq (r : ChanRec) : r.bytes = [byte (portCode r.owner), byte (r.state.code + 4 * r.polarity.code
    + (if r.safe then 8 else 0) + (if r.pin then 16 else 0))] ++ leBytes 2 r.remaining := by
  rw [ChanRec.bytes, leBytes_one, leBytes_one]
  cases r.safe <;> cases r.pin <;> rfl

/-- Settles O10: each payload is that of the record. -/
theorem readCommands : Obligations.ReadCommands := by
  refine fun p s h => ⟨?_, ?_, ?_, ?_⟩
  · exact congrArg _ (takeFrame_read h rfl (snapshotBytes_eq (leaseRenewed s p)))
  · exact congrArg _ (takeFrame_read (f := fun s => tableStatusBytes s p) h rfl rfl)
  · exact congrArg _ (takeFrame_read (f := fun s => s.groups[p].bytes) h rfl rfl)
  · refine congrArg _ (takeFrame_read h rfl ?_)
    rw [channelStatusBytes]
    exact congrArg (s.chans.toList.flatMap ·) (funext chanBytes_eq)

/-! ## Teardown at the AXU (R25) -/

theorem clearPreset_eq (p : Port) (s : State) :
    clearPreset p s = { s with preset := s.preset.filter (fun q => decide (q.setter ≠ p)) } := by
  unfold clearPreset
  cases hs : s.preset with
  | none => exact congrArg (fun q => { s with preset := q }) hs
  | some q =>
    by_cases hq : q.setter = p
    · refine (if_pos hq).trans (congrArg (fun o => { s with preset := o }) ?_)
      simp [Option.filter_some, hq]
    · refine (if_neg hq).trans (congrArg (fun o => { s with preset := o }) ?_)
      simp [Option.filter_some, hq, hs]

/-- Settles O16: the slot keeps the preset of another port. -/
theorem axuTeardown : Obligations.AxuTeardown := by
  intro p s h
  have done : teardownPart p .axu (clearPreset p) s = reportPart p .axu (clearPreset p s) := if_pos h
  rw [clearPreset_eq] at done
  exact congrArg _ done

/-! ## The posting of a notice (R157, R162) -/

section
variable {r : PortRec} {n : Notice}

theorem receive_of_not_attached (h : r.state ≠ .attached) : r.receive n = r := if_neg h

theorem receive_queued (h : r.state = .attached) (hq : r.queue.length < 32) :
    r.receive n = { r with queue := r.queue ++ [n] } := (if_pos h).trans (if_pos hq)

theorem receive_overrun (h : r.state = .attached) (hq : 32 ≤ r.queue.length) :
    r.receive n = { r with overrun := true } := (if_pos h).trans (if_neg (not_lt.2 hq))

end

/-- Settles O50: who a notice goes to, and what becomes of the copy of each port. -/
theorem noticePosting : Obligations.NoticePosting := by
  refine ⟨fun r => ?_, fun s a p => mem_entryHolders s a p, fun q rest s hq => ?_⟩
  · refine ⟨?_, ?_, ?_, ?_, ?_, ?_, ?_, ?_, ?_, ?_, ?_, ?_, ?_, ?_, ?_, ?_⟩ <;> intros <;> rfl
  · have taken : takePosting s = deliver q { s with posted := rest } := by unfold takePosting; rw [hq]
    refine ⟨takePosting s, rfl, by rw [taken]; rfl, fun p => ?_⟩
    have record := deliver_ports q { s with posted := rest } p
    rw [← taken] at record
    refine ⟨fun h => ?_, fun h ha => ?_, fun h ha hl => ?_, fun h ha hl => ?_⟩
    · rw [record, if_neg h]
    · rw [record, if_pos h, receive_of_not_attached ha]
    · rw [if_pos h, receive_queued ha hl] at record
      refine ⟨record, ?_⟩
      rw [attnAsserted, attached, record, Bool.and_eq_true]
      exact ⟨beq_iff_eq.2 ha, by simp⟩
    · rw [record, if_pos h, receive_overrun ha hl]

end Sys2Proof.Machine
end

section
/-! SUPPORT. What the MKU does on a freeze, a re-base and a thaw (R15, R97, R98): the effect at each input, the inputs in order,
and the notices that a re-base releases (O30). -/

namespace Sys2Proof.Machine

/-! ## Effects at the inputs of a list -/

/-- Effects that ask only for the record of their input and the axes, taken at the inputs of a list that holds each once. -/
theorem foldl_on {f : State → MarkId → State} {axes : Vector AxisRec 4} {effect : MarkId → MarkRec → MarkEffect}
    (hf : ∀ (s : State) (m : MarkId), s.axes = axes → f s m = (effect m s.marks[m]).on m s) {l : List MarkId} (hn : l.Nodup)
    (s : State) (hs : s.axes = axes) :
    ∃ marks : Vector MarkRec 4, l.foldl f s = { s with
        marks := marks
        posted := s.posted ++ l.flatMap (fun m => (effect m s.marks[m]).posted)
        mkuToScu := s.mkuToScu ++ l.flatMap (fun m => (effect m s.marks[m]).handed) }
      ∧ ∀ m : MarkId, marks[m] = if m ∈ l then (effect m s.marks[m]).record else s.marks[m] := by
  induction l generalizing s with
  | nil => exact ⟨s.marks, by simp, by simp⟩
  | cons k l ih =>
    obtain ⟨hk, hn⟩ := List.nodup_cons.1 hn
    have others : ∀ m ∈ l, ((effect k s.marks[k]).on k s).marks[m] = s.marks[m] := fun m hm => by
      rw [on_get, if_neg (ne_of_mem_of_not_mem hm hk)]
    rw [List.foldl_cons, hf s k hs]
    obtain ⟨marks, h1, h2⟩ := ih hn ((effect k s.marks[k]).on k s) hs
    refine ⟨marks, ?_, fun m => ?_⟩
    · have posted : l.flatMap (fun m => (effect m ((effect k s.marks[k]).on k s).marks[m]).posted)
          = l.flatMap (fun m => (effect m s.marks[m]).posted) := List.flatMap_congr fun m hm => by rw [others m hm]
      have handed : l.flatMap (fun m => (effect m ((effect k s.marks[k]).on k s).marks[m]).handed)
          = l.flatMap (fun m => (effect m s.marks[m]).handed) := List.flatMap_congr fun m hm => by rw [others m hm]
      rw [posted, handed] at h1
      rw [h1, List.flatMap_cons, List.flatMap_cons, ← List.append_assoc, ← List.append_assoc]
      rfl
    · rw [h2 m]
      by_cases hm : m ∈ l
      · rw [if_pos hm, if_pos (List.mem_cons_of_mem _ hm), others m hm]
      · rw [if_neg hm, on_get]
        by_cases hmk : m = k
        · subst hmk
          rw [if_pos rfl, if_pos List.mem_cons_self]
        · rw [if_neg hmk, if_neg (by simp [hmk, hm])]

theorem flatMap_ite_singleton {α β : Type} (p : α → Bool) (g : α → β) (l : List α) :
    l.flatMap (fun x => if p x then [g x] else []) = (l.filter p).map g := by
  induction l with
  | nil => rfl
  | cons x l ih => cases h : p x <;> simp [h, ih]

/-! ## A freeze, a re-base and a thaw at one input -/

/-- An input runs on an axis: it is SEEKING or TRACKING and follows it. -/
def MarkRec.runsOn (r : MarkRec) (a : AxisId) : Bool := decide (r.refAxis = a ∧ (r.state = .seeking ∨ r.state = .tracking))

theorem runsOn_iff (r : MarkRec) (a : AxisId) :
    r.runsOn a = true ↔ r.refAxis = a ∧ (r.state = .seeking ∨ r.state = .tracking) := decide_eq_true_iff

/-- An input that runs on an axis loses its marks, the axis value being `v`. -/
def losing (a : AxisId) (v : Int) (cause : LostCause) (st : MarkState) (m : MarkId) (r : MarkRec) : MarkEffect :=
  if r.runsOn a then
    ⟨{ r with state := st, capture := none, deferred := false, misses := 0 }, [⟨.markLost m cause r.lastSeq v, []⟩], []⟩
  else ⟨r, [], []⟩

/-- An input that is SUSPENDED on an axis goes on. -/
def thawing (a : AxisId) (r : MarkRec) : MarkEffect :=
  if r.refAxis = a ∧ r.state = .suspended then ⟨{ r with state := .seeking, capture := none, deferred := false }, [], []⟩
  else ⟨r, [], []⟩

theorem on_same (m : MarkId) (s : State) : MarkEffect.on ⟨s.marks[m], [], []⟩ m s = s := by
  have same : upd s.marks m s.marks[m] = s.marks := upd_same ..
  unfold MarkEffect.on
  rw [same, List.append_nil, List.append_nil]

theorem loseMarks_eq (m : MarkId) (cause : LostCause) (st : MarkState) (s : State) : loseMarks m cause st s =
    MarkEffect.on ⟨{ s.marks[m] with state := st, capture := none, deferred := false, misses := 0 },
      [⟨.markLost m cause s.marks[m].lastSeq s.axes[s.marks[m].refAxis].value, []⟩], []⟩ m s := by
  unfold MarkEffect.on
  rw [List.append_nil]
  rfl

theorem losing_on (a : AxisId) (cause : LostCause) (st : MarkState) (s : State) (m : MarkId) :
    (if s.marks[m].refAxis = a ∧ (s.marks[m].state = .seeking ∨ s.marks[m].state = .tracking) then loseMarks m cause st s else s)
      = (losing a s.axes[a].value cause st m s.marks[m]).on m s := by
  by_cases h : s.marks[m].refAxis = a ∧ (s.marks[m].state = .seeking ∨ s.marks[m].state = .tracking)
  · rw [if_pos h, losing, if_pos ((runsOn_iff ..).2 h), loseMarks_eq]
    obtain ⟨rfl, _⟩ := h
    rfl
  · rw [if_neg h, losing, if_neg (mt (runsOn_iff ..).1 h), on_same]

theorem thawInput_eq (a : AxisId) (s : State) (m : MarkId) : thawInput a s m = (thawing a s.marks[m]).on m s := by
  unfold thawInput thawing
  dsimp only
  split
  · unfold MarkEffect.on
    rw [List.append_nil, List.append_nil]
    rfl
  · exact (on_same m s).symm

/-! ## At all inputs -/

/-- The notices of the inputs that run on an axis and lose their marks. -/
def lostNotices (a : AxisId) (cause : LostCause) (s : State) : List Posting :=
  ((List.finRange 4).filter (fun m => s.marks[m].runsOn a)).map fun m =>
    ⟨.markLost m cause s.marks[m].lastSeq s.axes[a].value, []⟩

theorem foldl_losing {f : State → MarkId → State} {a : AxisId} {cause : LostCause} {st : MarkState}
    (hf : ∀ s m, f s m = (losing a s.axes[a].value cause st m s.marks[m]).on m s) (s : State) :
    ∃ marks : Vector MarkRec 4,
      (List.finRange 4).foldl f s = { s with marks := marks, posted := s.posted ++ lostNotices a cause s }
      ∧ ∀ m : MarkId, marks[m] = if s.marks[m].runsOn a then
          { s.marks[m] with state := st, capture := none, deferred := false, misses := 0 } else s.marks[m] := by
  obtain ⟨marks, h1, h2⟩ := foldl_on (f := f) (axes := s.axes) (effect := losing a s.axes[a].value cause st)
    (fun t m ht => by rw [hf, ht]) (List.nodup_finRange 4) s rfl
  refine ⟨marks, ?_, fun m => ?_⟩
  · have posted : (List.finRange 4).flatMap (fun m => (losing a s.axes[a].value cause st m s.marks[m]).posted)
        = lostNotices a cause s := by
      rw [lostNotices, ← flatMap_ite_singleton]
      refine List.flatMap_congr fun m _ => ?_
      unfold losing
      split <;> rfl
    have handed : (List.finRange 4).flatMap (fun m => (losing a s.axes[a].value cause st m s.marks[m]).handed) = [] := by
      refine List.flatMap_eq_nil_iff.2 fun m _ => ?_
      unfold losing
      split <;> rfl
    rw [posted, handed, List.append_nil] at h1
    exact h1
  · rw [h2 m, if_pos (List.mem_finRange m)]
    unfold losing
    split <;> rfl

theorem foldl_thawInput (a : AxisId) (s : State) :
    ∃ marks : Vector MarkRec 4, (List.finRange 4).foldl (thawInput a) s = { s with marks := marks }
      ∧ ∀ m : MarkId, marks[m] = if s.marks[m].refAxis = a ∧ s.marks[m].state = .suspended then
          { s.marks[m] with state := .seeking, capture := none, deferred := false } else s.marks[m] := by
  obtain ⟨marks, h1, h2⟩ := foldl_on (f := thawInput a) (axes := s.axes) (effect := fun _ => thawing a)
    (fun t m _ => thawInput_eq a t m) (List.nodup_finRange 4) s rfl
  have quiet (r : MarkRec) : (thawing a r).posted = [] ∧ (thawing a r).handed = [] := by
    unfold thawing
    split <;> exact ⟨rfl, rfl⟩
  refine ⟨marks, ?_, fun m => ?_⟩
  · rw [List.flatMap_eq_nil_iff.2 fun m _ => (quiet _).1, List.flatMap_eq_nil_iff.2 fun m _ => (quiet _).2, List.append_nil,
      List.append_nil] at h1
    exact h1
  · rw [h2 m, if_pos (List.mem_finRange m)]
    unfold thawing
    split <;> rfl

/-! ## The events the MKU takes -/

section
variable {a : AxisId} {rest : List AxuEvent} {s : State}

theorem takeFreeze_eq (h : s.toMku[a] = .freeze :: rest) :
    takeFreeze a s = (List.finRange 4).foldl (freezeInput a) (s.setToMku a rest) := by
  unfold takeFreeze
  rw [h]

theorem takeRebase_eq {cause : RebaseCause} {old new : Int} (h : s.toMku[a] = .rebase cause old new :: rest) :
    takeRebase a s = releaseNotices a ((List.finRange 4).foldl (rebaseInput a) (s.setToMku a rest)) := by
  unfold takeRebase
  rw [h]

theorem takeThaw_eq (h : s.toMku[a] = .thaw :: rest) :
    takeThaw a s = (List.finRange 4).foldl (thawInput a) (s.setToMku a rest) := by
  unfold takeThaw
  rw [h]

end

/-- An AXIS_FAULT is posted with the axis value of the moment; it and an AXIS_REBASED go to the holders too. -/
theorem asPosted_eq (s : State) (q : Posting) : asPosted s q = match q.body with
    | .axisFault b cause continued _ => ⟨.axisFault b cause continued s.axes[b].value, q.addressed ++ entryHolders s b⟩
    | .axisRebased b .. => ⟨q.body, q.addressed ++ entryHolders s b⟩
    | _ => q := by
  obtain ⟨body, addressed⟩ := q
  cases body <;> simp [asPosted, noticeAtPosting, noticeHolders]

section
variable {a : AxisId} {rest : List AxuEvent} {cause : RebaseCause} {old new : Int} {s : State}
  (h : s.toMku[a] = .rebase cause old new :: rest)
include h

/-- A re-base with no notice waiting. -/
theorem takeRebase_none (hn : s.heldNotices[a] = []) : ∃ marks : Vector MarkRec 4,
    takeRebase a s = { s.setToMku a rest with marks := marks, posted := s.posted ++ lostNotices a .rebase s }
      ∧ ∀ m : MarkId, marks[m] = if s.marks[m].runsOn a then
          { s.marks[m] with state := .seeking, capture := none, deferred := false, misses := 0 } else s.marks[m] := by
  obtain ⟨marks, h1, h2⟩ := foldl_losing (fun s m => losing_on a .rebase .seeking s m) (s.setToMku a rest)
  refine ⟨marks, ?_, h2⟩
  rw [takeRebase_eq h]
  refine (congrArg (releaseNotices a) h1).trans ?_
  exact releaseNotices_none hn

/-- A re-base releases the first notice that waits and those behind it up to the next AXIS_REBASED. -/
theorem takeRebase_some {first : Posting} {behind later : List Posting} (hn : s.heldNotices[a] = first :: behind ++ later)
    (hb : ∀ q ∈ behind, q.isRebased = false) (hl : ∀ q ∈ later.head?, q.isRebased = true)
    {released : List Posting} (hr : (first :: behind).map (asPosted s) = released) : ∃ marks : Vector MarkRec 4,
    takeRebase a s = { s.setToMku a rest with
        marks := marks, heldNotices := upd s.heldNotices a later
        posted := s.posted ++ lostNotices a .rebase s ++ released }
      ∧ ∀ m : MarkId, marks[m] = if s.marks[m].runsOn a then
          { s.marks[m] with state := .seeking, capture := none, deferred := false, misses := 0 } else s.marks[m] := by
  obtain ⟨marks, h1, h2⟩ := foldl_losing (fun s m => losing_on a .rebase .seeking s m) (s.setToMku a rest)
  refine ⟨marks, ?_, h2⟩
  rw [takeRebase_eq h, ← hr]
  refine (congrArg (releaseNotices a) h1).trans ?_
  rw [releaseNotices_some (s := { s.setToMku a rest with marks := marks, posted := _ }) hn hb hl]
  rfl

end

/-- Settles O30: each event at all inputs at once, and what a re-base then releases. -/
theorem freezeThawRebase : Obligations.FreezeThawRebase := by
  refine ⟨fun a s => ⟨axisFrozen_iff s a, policyOf_timeAxis s, policyOf_encAxis s, Vector.getElem_map .., Vector.getElem_map ..,
      rfl, rfl, rfl, rfl⟩,
    fun a rest s => ⟨fun h => ?_, fun cause old new h => ⟨fun hn => ?_, fun first behind later hn hb hl => ?_⟩, fun h => ?_⟩⟩
  · obtain ⟨marks, h1, h2⟩ := foldl_losing (fun s m => losing_on a .axisFault .suspended s m) (s.setToMku a rest)
    have same : upd s.heldNotices a s.heldNotices[a] = s.heldNotices := upd_same ..
    refine ⟨_, congrArg Host.Outcome.next ((takeFreeze_eq h).trans h1), ?_, h2⟩
    rw [same, List.append_nil]
    rfl
  · obtain ⟨marks, h1, h2⟩ := takeRebase_none h hn
    have same : upd s.heldNotices a [] = s.heldNotices := by rw [← hn]; exact upd_same ..
    refine ⟨_, congrArg Host.Outcome.next h1, ?_, h2⟩
    rw [same, List.append_nil]
    rfl
  · obtain ⟨marks, h1, h2⟩ := takeRebase_some h hn
      (fun q hq => eq_false_of_ne_true fun k => hb q hq ((Posting.isRebased_iff q).1 k))
      (fun q hq => (Posting.isRebased_iff q).2 (hl q hq)) (List.map_congr_left fun q _ => asPosted_eq s q)
    exact ⟨_, congrArg Host.Outcome.next h1, rfl, h2⟩
  · obtain ⟨marks, h1, h2⟩ := foldl_thawInput a (s.setToMku a rest)
    exact ⟨_, congrArg Host.Outcome.next ((takeThaw_eq h).trans h1), rfl, h2⟩

end Sys2Proof.Machine
end

section
/-! SUPPORT. What the field checks of ARM ensure of a trigger description (R37, R38), and where they let through more than R37 does
(O52). -/

namespace Sys2Proof.Machine

theorem demand_eq_some {b : Bool} {u : Unit} : demand b = some u ↔ b = true := by
  cases b <;> simp [demand]

/-- The series of a description is sound: its first target lies in the range, it has an interval where it repeats, an EITHER
trigger occurs once, and its repeat count is a field of 16 bits (R37, R38). -/
structure TriggerDesc.Sound (d : TriggerDesc) : Prop where
  place : inRange d.place = true
  interval : d.repeats ≠ 1 → 1 ≤ d.interval
  either : d.approach = .either → d.repeats = 1
  repeats : d.repeats < 65536

/-- A description that passes the field checks is sound. -/
theorem parseTrigger_sound {pl : List Byte} {d : TriggerDesc} (h : parseTrigger pl = some d) : d.Sound := by
  simp only [parseTrigger, Option.bind_eq_bind, Option.bind_eq_some_iff, demand_eq_some, rangedValue_eq_some,
    Option.pure_def, Option.some.injEq] at h
  obtain ⟨-, -, approach, -, -, -, -, -, place, ⟨hrange, hplace⟩, -, -, -, -, -, -, -, -, -, -, -, hrepeats, -, -, -, heither, -, -, -,
    -, -, -, -, -, -, -, rfl⟩ := h
  simp only [Bool.or_eq_true, Bool.and_eq_true, beq_iff_eq, decide_eq_true_eq, Bool.not_eq_true', Bool.and_eq_false_imp,
    bne_eq_false_iff_eq] at hrepeats heither
  exact ⟨hplace ▸ hrange, fun h1 => (hrepeats.resolve_left h1).1, heither, field_lt pl 18 2⟩

/-! ## The notify setting (R37, R166) -/

/-- The bytes of an ABSOLUTE trigger on A0: one pulse of 1 ms at OUT0, with the notify code 3, which R37 does not list. -/
def notifyThree : List Byte := [0, 0, 0, 0, 0, 0, 0, 0, 0, 0, 0, 0, 0, 0, 1, 0, 1, 0, 1, 0, 0, 0, 0, 0, 0, 0x30]

/-- What ARM reads of those bytes: the notify code 3 is taken for NONE, as every code above 2 is. -/
def notifyThreeRead : TriggerDesc :=
  { tag := 0, axis := 0, approach := .forward, reference := .absolute, mark := 0, markCount := 0, place := 0, action := .pulse
    mask := 1, width := 1, repeats := 1, interval := 0, fireN := 0, skipN := 0, late := .fireLate, notify := .none }

theorem parseTrigger_notifyThree : parseTrigger notifyThree = some notifyThreeRead := by decide

/-- The last byte is 0x30 as received and 0x00 as spelt back. -/
theorem notifyThreeRead_bytes : notifyThreeRead.bytes ≠ notifyThree := by decide

/-- Refutes O52: the wildcard arm of `Notify.ofCode` answers `Notify.none`, which reads as `some Notify.none`, where R37 and R166
have BAD_FIELD. So ARM admits a description with a notify code of 3 to 15, and what it reads does not spell those bytes back. -/
theorem not_triggerDescription : ¬ Obligations.TriggerDescription := by
  intro h
  obtain ⟨spelt, -⟩ := h.1 notifyThree notifyThreeRead rfl parseTrigger_notifyThree
  exact notifyThreeRead_bytes spelt

end Sys2Proof.Machine
end

section
/-! SUPPORT. How the table, the due lists and the waiting set move (R28 to R32, R52): every command is a sequence of a few moves, so
that a law of the entries is shown once for each move (O59, O60). -/

namespace Sys2Proof.Machine

/-! ## The moves -/

/-- A record is rewritten in its place: its state, target, owner and description stay, and its ranges if it kept to them. -/
structure Entry.Rewrites (e e' : Entry) : Prop where
  state : e'.state = e.state
  target : e'.target = e.target
  owner : e'.owner = e.owner
  desc : e'.desc = e.desc
  ok : e.ok → e'.ok

theorem Entry.Rewrites.refl (e : Entry) : e.Rewrites e := ⟨rfl, rfl, rfl, rfl, id⟩

/-- No place of the table is freed or taken, no entry leaves or joins a list, and every record stays or is rewritten. -/
structure InPlace (s t : State) : Prop where
  due : t.due = s.due
  waiting : t.waiting = s.waiting
  entry : ∀ i : EntryIx, Option.Rel Entry.Rewrites s.table[i].entry t.table[i].entry

theorem optionRel_refl {α : Type} {R : α → α → Prop} (h : ∀ a, R a a) (o : Option α) : Option.Rel R o o := by
  cases o with
  | none => exact .none
  | some a => exact .some (h a)

theorem InPlace.of_eq {s t : State} (h1 : t.table = s.table) (h2 : t.due = s.due) (h3 : t.waiting = s.waiting) : InPlace s t :=
  ⟨h2, h3, fun i => by rw [h1]; exact optionRel_refl Entry.Rewrites.refl _⟩

/-- The record may stand at this place of the table: it continues the one that stands there, in its ranges if that one was, or the
place is FREE, the record is in its ranges, and its owner's quota has room (R34, R43). -/
def Fits (s : State) (i : EntryIx) (e : Entry) : Prop :=
  (∃ old ∈ s.table[i].entry, e.owner = old.owner ∧ (old.ok → e.ok))
    ∨ (s.table[i].entry = none ∧ liveCount s e.owner < 96 ∧ e.ok)

/-- The moves of entries, one after another. -/
inductive Moves : State → State → Prop
  | inPlace {s t} : InPlace s t → Moves s t
  | frees (i s) : Moves s (freeEntry i s)
  | waits {i e s} : Fits s i { e with state := .waiting, target := none } → Moves s (placeWaiting i e s)
  | arms {i e t s} : Fits s i { e with state := .armed, target := some t } → Moves s (placeArmed i e t s)
  | stages {i e s} : s.table[i].entry = none → Fits s i e → e.state = .staged → e.target = none → Moves s (writeEntry i e s)
  | trans {s t u} : Moves s t → Moves t u → Moves s u

theorem Moves.of_eq {s t : State} (h1 : t.table = s.table) (h2 : t.due = s.due) (h3 : t.waiting = s.waiting) : Moves s t :=
  .inPlace (.of_eq h1 h2 h3)

theorem Moves.refl (s : State) : Moves s s := .of_eq rfl rfl rfl

theorem Moves.foldl {β : Type} {f : State → β → State} (h : ∀ s b, Moves s (f s b)) (l : List β) (s : State) :
    Moves s (l.foldl f s) := foldl_rel Moves.refl (fun _ _ _ => Moves.trans) h l s

theorem Moves.foldl_work {β : Type} {f : Work → β → Work} (h : ∀ w b, Moves w.st (f w b).st) (l : List β) (w : Work) :
    Moves w.st (l.foldl f w).st :=
  foldl_rel (R := fun w v => Moves w.st v.st) (fun w => Moves.refl w.st) (fun _ _ _ => Moves.trans) h l w

theorem framing_moves : Framing Moves := ⟨Moves.refl, Moves.trans, fun _ _ _ => .of_eq rfl rfl rfl⟩

/-! ## Records that fit -/

theorem Fits.congr {s t : State} {i : EntryIx} {e : Entry} (h : Fits s i e) (ht : t.table = s.table) : Fits t i e := by
  unfold Fits liveCount entriesOf at *
  rw [ht]
  exact h

/-- A record of the same owner fits as well, in its ranges if the first was. -/
theorem Fits.mono {s : State} {i : EntryIx} {e e' : Entry} (h : Fits s i e) (ho : e'.owner = e.owner) (hk : e.ok → e'.ok) :
    Fits s i e' := by
  rcases h with ⟨old, hold, h1, h2⟩ | ⟨h1, h2, h3⟩
  · exact .inl ⟨old, hold, ho.trans h1, hk ∘ h2⟩
  · exact .inr ⟨h1, ho ▸ h2, hk h3⟩

theorem Fits.of_mem {s : State} {i : EntryIx} {e : Entry} (h : s.table[i].entry = some e) : Fits s i e :=
  .inl ⟨e, h, rfl, id⟩

theorem waiting_ok {e : Entry} (h : e.ok) : { e with state := .waiting, target := none }.ok := by
  obtain ⟨h1, h2, h3, h4, h5, h6, h7, -⟩ := h
  exact ⟨h1, h2, h3, h4, h5, h6, h7, fun _ k => nomatch k⟩

theorem armed_ok {e : Entry} {t : Int} (h : e.ok) (ht : inRange t = true) : { e with state := .armed, target := some t }.ok := by
  obtain ⟨h1, h2, h3, h4, h5, h6, h7, -⟩ := h
  exact ⟨h1, h2, h3, h4, h5, h6, h7, by rintro _ ⟨⟩; exact ht⟩

theorem Moves.placeWaiting {s : State} {i : EntryIx} {e : Entry} (h : Fits s i e) : Moves s (placeWaiting i e s) :=
  .waits (h.mono rfl waiting_ok)

/-- A verdict may be carried out at a place: its record fits, and its target is in the range if its record is. -/
def Verdict.Fits (s : State) (i : EntryIx) (e : Entry) (r : Verdict) : Prop :=
  Machine.Fits s i e ∧ r.entry.owner = e.owner ∧ (e.ok → r.ok)

theorem Verdict.ok.entry {r : Verdict} (h : r.ok) : r.entry.ok := by
  cases r with
  | armed e t => exact h.1
  | ended e c => exact h

/-! ## Admission -/

theorem afterOccurrence_ok {e : Entry} (h : e.ok) (t : Int) : (afterOccurrence e t).ok :=
  ((afterOccurrence_goesOn e t h.1).keeps h).1

theorem admitTarget_ok {e : Entry} (h : e.ok) (i : EntryIx) (t v : Int) (f o : Bool) (w : Work) :
    (admitTarget i e t v f o w).2.ok := by
  obtain ⟨_, _, _, heq, admits⟩ := admitTarget_admits i e t v f o w h
  rw [heq]
  exact (admits.keeps h).1

/-- Admission sends actions and posts notices, and leaves the rest of the state as it is. -/
theorem occur_posts (i : EntryIx) (e : Entry) (v : Int) (l : Bool) (w : Work) :
    ∃ posts, (occur i e v l w).st = { w.st with posted := posts } := by
  rw [occur_eq]
  exact ⟨_, rfl⟩

theorem admitFrom_posts (i : EntryIx) (v : Int) (r : Verdict) (w : Work) :
    ∃ posts, (admitFrom i v r w).1.st = { w.st with posted := posts } := by
  unfold admitFrom
  split
  · split
    · exact occur_posts ..
    · exact ⟨_, rfl⟩
  · exact ⟨_, rfl⟩

theorem admitTarget_posts (i : EntryIx) (e : Entry) (t v : Int) (f o : Bool) (w : Work) :
    ∃ posts, (admitTarget i e t v f o w).1.st = { w.st with posted := posts } := by
  unfold admitTarget
  split
  · exact ⟨_, rfl⟩
  · split
    · exact ⟨_, rfl⟩
    · split
      · exact occur_posts ..
      · split
        · split
          · obtain ⟨posts, h⟩ := occur_posts i e v true w
            unfold admitFireLate
            dsimp only
            split
            · exact ⟨posts, h⟩
            · obtain ⟨posts', h'⟩ := admitFrom_posts i v (consumeLate e (e.occ + 1) (e.desc.approach.advance t e.desc.interval) v)
                (occur i e v true w)
              exact ⟨posts', by rw [h', h]⟩
          · exact admitFrom_posts ..
        · exact ⟨_, rfl⟩

/-! ## The end of an entry and the target it is given -/

section
variable {s : State} {i : EntryIx} {e : Entry}

theorem Moves.of_posts {t : State} (h : ∃ posts, t = { s with posted := posts }) : Moves s t := by
  obtain ⟨posts, rfl⟩ := h
  exact .of_eq rfl rfl rfl

theorem Moves.then_posts {t u : State} (h : Moves s t) (ht : ∃ posts, u = { t with posted := posts }) : Moves s u :=
  h.trans (.of_posts ht)

theorem Moves.retire (i : EntryIx) (e : Entry) (c : EndCause) (s : State) : Moves s (retire i e c s) := by
  unfold Machine.retire
  dsimp only
  split
  · exact .frees i s
  · exact (Moves.frees i s).then_posts ⟨_, rfl⟩

theorem Moves.endPlain (h : Fits s i e) (c : EndCause) : Moves s (endPlain i e c s) := by
  unfold Machine.endPlain
  split
  · exact .retire ..
  · split
    · exact .retire ..
    · split
      · exact .retire ..
      · exact .placeWaiting h

theorem Moves.settlePlain {r : Verdict} (h : Fits s i e) (ho : r.entry.owner = e.owner) (hr : e.ok → r.ok) :
    Moves s (settlePlain i r s) := by
  cases r with
  | armed e' t => exact .arms (h.mono ho fun k => armed_ok (hr k).1 (hr k).2)
  | ended e' c => exact .endPlain (h.mono ho hr) c

end

section
variable {w : Work} {i : EntryIx} {e : Entry} (view : View) (h : Fits w.st i e)
include h

/-- An admitted entry's verdict is carried out on it, whatever has been posted. -/
theorem Moves.admitted (t : Int) :
    Moves w.st ((admitNow view i e t w).1.map (Machine.settlePlain i (admitNow view i e t w).2)).st := by
  have posts := admitTarget_posts i e t (viewValue view w.st e.desc.axis) (axisFrozen w.st e.desc.axis) (attached w.st e.owner) w
  refine (Moves.of_posts posts).trans (.settlePlain (h.congr ?_) (admitTarget_of ..).2 fun k => admitTarget_ok k ..)
  exact (admitTarget_table ..).1

theorem Moves.settle {r : Verdict} (ho : r.entry.owner = e.owner) (hr : e.ok → r.ok) :
    Moves w.st (settle view i r w).st := by
  cases r with
  | armed e' t => exact .settlePlain (r := .armed e' t) h ho hr
  | ended e' c =>
    unfold Machine.settle
    dsimp only
    have fits : Fits w.st i { e' with owed := none } := h.mono ho fun k => dropOwed_ok (hr k)
    split
    · rename_i mark _
      unfold useOwed
      dsimp only
      split
      · exact .admitted view (fits.mono (e' := { e' with owed := none }.resolve) rfl resolved_ok) _
      · exact (Moves.placeWaiting fits).then_posts ⟨_, rfl⟩
    · exact .endPlain (h.mono ho hr) c

theorem Moves.giveTarget (t : Int) : Moves w.st (giveTarget view i e t w).st := by
  have posts := admitTarget_posts i e t (viewValue view w.st e.desc.axis) (axisFrozen w.st e.desc.axis) (attached w.st e.owner) w
  refine (Moves.of_posts posts).trans (.settle view (h.congr ?_) (admitTarget_of ..).2 fun k => admitTarget_ok k ..)
  exact (admitTarget_table ..).1

end

theorem Moves.done (w : Work) : Moves w.st w.done := by
  unfold Work.done
  split
  · exact .refl _
  · exact .of_eq rfl rfl rfl

theorem Moves.crossEntry (a : AxisId) (v : Int) (w : Work) (i : EntryIx) : Moves w.st (crossEntry a v w i).st := by
  unfold Machine.crossEntry
  split
  · rename_i e he
    split
    · have posts := occur_posts i e v false w
      refine (Moves.of_posts posts).trans (.settle _ ((Fits.of_mem he).congr (occur_table ..).1) (afterOccurrence_of e v).2
        fun k => afterOccurrence_ok k v)
    · exact .refl _
  · exact .refl _

/-! ## Groups -/

theorem Moves.closeGroup (p : Port) (s : State) : Moves s (closeGroup p s) := .of_eq rfl rfl rfl

theorem Moves.freeAll (l : List EntryIx) (s : State) : Moves s (l.foldl (fun s i => freeEntry i s) s) :=
  .foldl (fun s i => .frees i s) l s

theorem Moves.discardGroup (p : Port) (s : State) : Moves s (discardGroup p s) := (Moves.freeAll _ s).trans (.closeGroup ..)

theorem Moves.discardNoticed (p : Port) (c : DiscardCause) (s : State) : Moves s (discardNoticed p c s) :=
  (Moves.discardGroup p s).then_posts ⟨_, rfl⟩

theorem Moves.applyOp (view : View) (p : Port) (w : Work) (op : GroupOp) : Moves w.st (applyOp view p w op).1.st := by
  unfold Machine.applyOp
  split
  · split
    · exact .refl _
    · rename_i e he
      split
      · exact .giveTarget _ (.of_mem he) _
      · split
        · exact .frees ..
        · exact .placeWaiting (.of_mem he)
  · split
    · exact .refl _
    · split
      · exact .refl _
      · exact .frees ..
  · exact .refl _

theorem Moves.applyGroup (view : View) (p : Port) (at_ : AppliedAt) (w : Work) : Moves w.st (applyGroup view p at_ w).st := by
  have take (r : ApplyRun) (op : GroupOp) : Moves r.work.st (r.take view p op).work.st := by
    unfold ApplyRun.take
    dsimp only
    split <;> exact .applyOp ..
  have all := foldl_rel (R := fun r q : ApplyRun => Moves r.work.st q.work.st) (fun r => Moves.refl r.work.st)
    (fun _ _ _ => Moves.trans) take w.st.groups[p].ops ⟨w, 0, 0, 0, none⟩
  exact (all.trans (.closeGroup p _)).then_posts ⟨_, rfl⟩

theorem Moves.applyReached (view : View) (at_ : AppliedAt) (f : Boundary → Bool) (w : Work) :
    Moves w.st (applyReached view at_ f w).st :=
  .foldl_work (fun w p => by dsimp only; split; exact .applyGroup ..; exact .refl _) _ w

theorem Moves.scuStepWork (a : AxisId) (m : StepMsg) (s : State) : Moves s (scuStepWork a m s).st :=
  (Moves.applyReached (some (a, m.value)) _ _ (.begin s)).trans (.foldl_work (fun w i => .crossEntry a m.value w i) _ _)

theorem Moves.expireGroup (p : Port) (s : State) : Moves s (expireGroup p s) := by
  unfold Machine.expireGroup
  split
  · exact .discardNoticed ..
  · exact .refl s

theorem Moves.removePort (p : Port) (s : State) : Moves s (removePort p s) := by
  have reset : Moves (Machine.discardGroup p s) ((Machine.discardGroup p s).setGroup p .reset) := .of_eq rfl rfl rfl
  exact ((Moves.discardGroup p s).trans reset).trans (.freeAll _ _)

/-! ## Marks -/

theorem writeEntry_inPlace {s : State} {i : EntryIx} {e e' : Entry} (he : s.table[i].entry = some e) (h : e.Rewrites e') :
    InPlace s (writeEntry i e' s) := by
  refine ⟨rfl, rfl, fun j => ?_⟩
  show Option.Rel _ _ (upd s.table i _)[j].entry
  by_cases hj : j = i
  · subst hj
    rw [upd_get, he]
    exact .some h
  · rw [upd_get_ne _ _ hj]
    exact optionRel_refl Entry.Rewrites.refl _

theorem owed_ok {e : Entry} (h : e.ok) (hm : e.desc.reference = .markEach) (c : Option Capture) : { e with owed := c }.ok := by
  obtain ⟨h1, h2, h3, h4, h5, h6, -, h8⟩ := h
  exact ⟨h1, h2, h3, h4, h5, h6, fun k => absurd hm k, h8⟩

theorem InPlace.giveOwed {s : State} (c : Capture) {i : EntryIx} (hm : ∀ e ∈ s.table[i].entry, e.desc.reference = .markEach) :
    InPlace s (giveOwed c s i) := by
  unfold Machine.giveOwed
  split
  · exact .of_eq rfl rfl rfl
  · rename_i e he
    have given : InPlace s (writeEntry i { e with owed := some c } s) :=
      writeEntry_inPlace he ⟨rfl, rfl, rfl, rfl, fun k => owed_ok k (hm e he) _⟩
    split
    · exact .of_eq rfl rfl rfl
    · dsimp only
      split
      · exact given
      · exact ⟨given.due, given.waiting, given.entry⟩

/-- Entries that follow a MARK_EACH reference are rewritten to such entries. -/
theorem InPlace.markEach {s t : State} (h : InPlace s t) {i : EntryIx}
    (hm : ∀ e ∈ s.table[i].entry, e.desc.reference = .markEach) : ∀ e ∈ t.table[i].entry, e.desc.reference = .markEach := by
  intro e he
  have rel := h.entry i
  rw [Option.mem_def.1 he] at rel
  generalize ho : s.table[i].entry = o at rel
  cases rel with
  | some r => rw [r.desc]; exact hm _ ho

theorem Moves.giveOwed (c : Capture) (l : List EntryIx) (s : State)
    (hm : ∀ i ∈ l, ∀ e ∈ s.table[i].entry, e.desc.reference = .markEach) : Moves s (l.foldl (giveOwed c) s) := by
  induction l generalizing s with
  | nil => exact .refl s
  | cons i l ih =>
    have first := InPlace.giveOwed c (hm i (by simp))
    exact (Moves.inPlace first).trans (ih _ fun j hj => first.markEach (hm j (List.mem_cons_of_mem _ hj)))

theorem owesOn_markEach {s : State} {m : MarkId} {i : EntryIx} (h : owesOn s m i = true) :
    ∀ e ∈ s.table[i].entry, e.desc.reference = .markEach := by
  intro e he
  unfold owesOn at h
  rw [Option.mem_def.1 he] at h
  simp only [Bool.and_eq_true, beq_iff_eq] at h
  exact h.1.2

theorem Moves.resolveEntry (c : Capture) (w : Work) (i : EntryIx) : Moves w.st (resolveEntry c w i).st := by
  unfold Machine.resolveEntry
  split
  · exact .refl _
  · rename_i e he
    split
    · exact .refl _
    · split
      · exact .giveTarget _ ((Fits.of_mem he).mono (e' := e.resolve) rfl resolved_ok) _
      · exact .of_eq rfl rfl rfl

theorem Moves.takeMark (c : Capture) (s : State) : Moves s (takeMark c s) := by
  have reached := Moves.applyReached none (.atMark c.input c.seq) (fun b => b == .atMark c.input) (.begin s)
  refine Moves.trans ?_ (.done _)
  refine Moves.trans ?_ (.foldl_work (fun w i => .resolveEntry c w i) _ _)
  exact reached.trans (.giveOwed c _ _ fun i hi => owesOn_markEach (List.mem_filter.1 hi).2)

/-! ## Stop requests -/

theorem Moves.withdraw (m : MarkId) (c : WithdrawCause) (s : State) (i : EntryIx) : Moves s (withdraw m c s i) := by
  unfold Machine.withdraw
  split
  · exact .refl s
  · exact (Moves.frees i s).then_posts ⟨_, rfl⟩

theorem stopBurst_rewrites (covers : Port → Bool) (m : MarkId) (t : Slot) :
    Option.Rel Entry.Rewrites t.entry (t.stopBurst covers m).entry := by
  unfold Slot.stopBurst
  split
  · rename_i e he
    split
    · rename_i hm
      obtain ⟨-, hm, -⟩ := hm
      rw [he]
      refine .some ⟨rfl, rfl, rfl, rfl, fun ⟨h1, h2, h3, h4, h5, h6, _, h8⟩ => ?_⟩
      exact ⟨h1, h2, h3, h4, h5, h6, fun k => absurd hm k, h8⟩
    · exact optionRel_refl Entry.Rewrites.refl _
  · exact optionRel_refl Entry.Rewrites.refl _

theorem InPlace.stopBursts {s t : State} {covers : Port → Bool} {m : MarkId} (h1 : t.table = s.table.map (Slot.stopBurst covers m))
    (h2 : t.due = s.due) (h3 : t.waiting = s.waiting) : InPlace s t := by
  refine ⟨h2, h3, fun i => ?_⟩
  have place : t.table[i] = s.table[i].stopBurst covers m := by rw [h1]; exact Vector.getElem_map ..
  rw [place]
  exact stopBurst_rewrites ..

theorem Moves.stopAtScu (covers : Port → Bool) (m : MarkId) (c : WithdrawCause) (s : State) :
    Moves s (stopAtScu covers m c s) := by
  have discard (u : State) (p : Port) : Moves u (discardAtMark covers m u p) := by
    unfold discardAtMark
    split
    · exact .discardNoticed ..
    · exact .refl u
  refine Moves.trans ?_ (.foldl discard _ _)
  exact (Moves.foldl (fun s i => .withdraw m c s i) _ s).trans (.inPlace (.stopBursts rfl rfl rfl))

/-! ## ARM (R39, R43, R108) -/

/-- What the checks of an ARM ensure when they answer a place (R39, R43). -/
theorem armChecks_ok {p : Port} {d : TriggerDesc} {s : State} {i : EntryIx} (h : armChecks p d s = .ok i) :
    liveCount s p < 96 ∧ s.table[i].entry = none := by
  unfold armChecks at h
  split at h
  · nomatch h
  · split at h
    · nomatch h
    · split at h
      · nomatch h
      · split at h
        · nomatch h
        · rename_i hq
          split at h
          · nomatch h
          · rename_i j hj
            cases h
            have free := List.find?_some hj
            exact ⟨not_le.1 hq, by simpa using free⟩

theorem newEntry_ok {d : TriggerDesc} (hd : d.Sound) (p : Port) (st : LiveState) : (newEntry p d st).ok := by
  refine ⟨hd.repeats, hd.interval, hd.either, (by decide : 0 < 65536), ?_, le_refl _, fun _ => ⟨rfl, rfl⟩, fun _ k => nomatch k⟩
  exact or_iff_not_imp_left.2 Nat.pos_of_ne_zero

theorem newEntry_fits {p : Port} {d : TriggerDesc} {s : State} {i : EntryIx} (hd : d.Sound) (h : armChecks p d s = .ok i)
    (st : LiveState) : Fits s i (newEntry p d st) := by
  obtain ⟨room, free⟩ := armChecks_ok h
  exact .inr ⟨free, room, newEntry_ok hd p st⟩

theorem Moves.stageOp (p : Port) (op : GroupOp) (s : State) : Moves s (stageOp p op s) := .of_eq rfl rfl rfl

theorem Moves.armAct (p : Port) (pl : List Byte) (s : State) : Moves s (armAct p pl s).1 := by
  unfold Machine.armAct
  dsimp only
  split
  · exact .refl s
  · split
    · exact .refl s
    · rename_i d hd
      have sound := parseTrigger_sound hd
      split
      · exact .refl s
      · rename_i i hi
        split
        · exact (Moves.stages (armChecks_ok hi).2 (newEntry_fits sound hi .staged) rfl rfl).trans (.stageOp ..)
        · split
          · exact .refl s
          · dsimp only
            unfold routeArm
            split
            · exact (Moves.giveTarget (w := .begin s) none (newEntry_fits sound hi .armed) d.place).trans (.done _)
            · exact .placeWaiting (newEntry_fits sound hi .waiting)

/-! ## The other commands of the SCU -/

theorem Moves.cancelAct (p : Port) (pl : List Byte) (s : State) : Moves s (cancelAct p pl s).1 := by
  unfold Machine.cancelAct
  dsimp only
  split
  · exact .refl s
  · split
    · exact .refl s
    · split
      · exact .refl s
      · split
        · exact .stageOp ..
        · exact .frees ..

theorem Moves.groupBeginAct (p : Port) (s : State) : Moves s (groupBeginAct p s).1 := by
  unfold Machine.groupBeginAct
  dsimp only
  split
  · exact .refl s
  · exact .of_eq rfl rfl rfl

theorem Moves.groupEndAct (p : Port) (pl : List Byte) (s : State) : Moves s (groupEndAct p pl s).1 := by
  have apply (at_ : AppliedAt) : Moves s (Machine.applyGroup none p at_ (.begin s)).done :=
    (Moves.applyGroup none p at_ (.begin s)).trans (.done _)
  unfold Machine.groupEndAct
  dsimp only
  split
  · exact .refl s
  · split
    · exact .refl s
    · exact apply _
    · split
      · exact .refl s
      · split
        · exact apply _
        · exact .of_eq rfl rfl rfl

theorem Moves.groupDiscardAct (p : Port) (s : State) : Moves s (groupDiscardAct p s).1 := by
  unfold Machine.groupDiscardAct
  dsimp only
  split
  · exact .refl s
  · exact .discardGroup p s

theorem Moves.of_pif {s t : State} (h : By .pif s t) : Moves s t := by
  simp only [By] at h
  rw [h]
  exact .of_eq rfl rfl rfl

theorem Moves.channelDriveAct (p : Port) (pl : List Byte) (s : State) : Moves s (channelDriveAct p pl s).1 := by
  unfold Machine.channelDriveAct
  dsimp only
  split
  · exact .refl s
  · split
    · exact .refl s
    · split
      · exact .refl s
      · split
        · exact .stageOp ..
        · exact .of_pif (takeBatch_by ..)

theorem Moves.takeScuStep (a : AxisId) (s : State) : Moves s (takeScuStep a s) := by
  unfold Machine.takeScuStep
  split
  · exact .refl s
  · rename_i rest _
    have taken : Moves s (s.setToScu a rest) := .of_eq rfl rfl rfl
    dsimp only
    split
    · exact taken
    · exact taken.trans ((Moves.scuStepWork a _ _).trans (.done _))

/-- A hand-off of the MKU leaves its list. -/
theorem Moves.handOffTaken (rest : List MkuHandoff) (s : State) : Moves s { s with mkuToScu := rest } := .of_eq rfl rfl rfl

theorem Moves.takeMarkHandoff (s : State) : Moves s (takeMarkHandoff s) := by
  unfold Machine.takeMarkHandoff
  split
  · exact (Moves.handOffTaken _ s).trans (.takeMark ..)
  · exact .refl s

theorem Moves.takeStopRequest (s : State) : Moves s (takeStopRequest s) := by
  unfold Machine.takeStopRequest
  split
  · exact (Moves.handOffTaken _ s).trans (.stopAtScu ..)
  · exact .refl s

theorem Moves.takeHolderStop (s : State) : Moves s (takeHolderStop s) := by
  unfold Machine.takeHolderStop
  split
  · exact (Moves.handOffTaken _ s).trans (.stopAtScu ..)
  · exact .refl s

/-! ## Every command -/

/-- Every command taken at one place of the part moves entries, or leaves them as they are. -/
theorem exec_moves {c : Instr} {k : Site} (hc : site c = some k) {s t : State} (ht : exec c s = .next t) : Moves s t := by
  have by_ := exec_of_site hc ht
  have frame {p : Port} {c : Command} {pl : List Byte} {act : State → State × Answer} (hact : ∀ u, Moves u (act u).1) :
      Moves s (takeFrame p c pl act s) := takeFrame_rel framing_moves hact s
  cases k with
  | axu => simp only [By] at by_; rw [by_]; exact .of_eq rfl rfl rfl
  | mku => simp only [By] at by_; rw [by_]; exact .of_eq rfl rfl rfl
  | pif => exact .of_pif by_
  | scu =>
    match c, hc with
    | .arm p pl, _ => cases ht; exact frame fun u => .armAct p pl u
    | .cancel p pl, _ => cases ht; exact frame fun u => .cancelAct p pl u
    | .groupBegin p _, _ => cases ht; exact frame fun u => .groupBeginAct p u
    | .groupEnd p pl, _ => cases ht; exact frame fun u => .groupEndAct p pl u
    | .groupDiscard p _, _ => cases ht; exact frame fun u => .groupDiscardAct p u
    | .channelDrive p pl, _ => cases ht; exact frame fun u => .channelDriveAct p pl u
    | .scuTeardown p, _ => cases ht; exact teardownPart_rel framing_moves (fun u => .removePort p u) s
    | .scuStep a, _ => cases ht; exact .takeScuStep a s
    | .markHandoff, _ => cases ht; exact .takeMarkHandoff s
    | .stopRequest, _ => cases ht; exact .takeStopRequest s
    | .holderStopRequest, _ => cases ht; exact .takeHolderStop s
    | .groupExpiry p, _ => cases ht; exact .expireGroup p s

/-- A law that every move keeps, and that holds right after reset, is kept by every step. -/
theorem kept_of_moves {law : State → Prop} (hreset : ∀ pins links, law (State.resetWith pins links))
    (h : ∀ {s t}, Moves s t → law s → law t) : Kept law := by
  have same {s t : State} (h1 : t.table = s.table) (h2 : t.due = s.due) (h3 : t.waiting = s.waiting) : law s → law t :=
    h (.of_eq h1 h2 h3)
  refine kept_of_exec (fun s _ _ _ => same rfl rfl rfl) (exec_keeps ?_ (fun s _ => ?_) (fun s => ?_) fun s hs _ => ?_)
  · exact fun c k hc s t hs ht => h (exec_moves hc ht) hs
  · exact same (s := State.resetWith ..) rfl rfl rfl (hreset s.pins (.ofFn fun p => s.ports[p].link.abandon))
  · unfold releaseReset
    split
    · exact same rfl rfl rfl
    · exact id
  · exact same (s := s) rfl rfl rfl hs

end Sys2Proof.Machine
end

section
/-! SUPPORT. The laws of the table, shown for each move of an entry: the schedule (O59), the quota and the ranges (O60). -/

namespace Sys2Proof.Machine

theorem optionRel_any {α : Type} {R : α → α → Prop} {f : α → Bool} (hf : ∀ a b, R a b → f b = f a) {o p : Option α}
    (h : Option.Rel R o p) : p.any f = o.any f := by
  cases h with
  | none => rfl
  | some h => exact hf _ _ h

/-! ## The ranges of the entries (R28, R37, R38, R61, R69, R71, R75) -/

theorem Fits.ok {s : State} {i : EntryIx} {e : Entry} (h : Fits s i e) (hs : EntriesOk s) : e.ok := by
  rcases h with ⟨old, hold, _, hk⟩ | ⟨_, _, hk⟩
  · exact hk (hs i old hold)
  · exact hk

theorem Moves.entriesOk {s t : State} (h : Moves s t) (hs : EntriesOk s) : EntriesOk t := by
  induction h with
  | inPlace h =>
    intro i e he
    have rel := h.entry i
    rw [Option.mem_def.1 he] at rel
    generalize ho : Slot.entry _ = o at rel
    cases rel with
    | some r => exact r.ok (hs i _ ho)
  | frees i s => exact entriesOk_upd (by rw [freeEntry_eq]) hs (by simp)
  | waits hf =>
    refine entriesOk_upd (by rw [placeWaiting_eq]) hs ?_
    rintro _ ⟨⟩
    exact hf.ok hs
  | arms hf =>
    refine entriesOk_upd (by rw [placeArmed_eq]) hs ?_
    rintro _ ⟨⟩
    exact hf.ok hs
  | stages _ hf =>
    refine entriesOk_upd (i := _) rfl hs ?_
    rintro _ ⟨⟩
    exact hf.ok hs
  | trans _ _ ih1 ih2 => exact ih2 (ih1 hs)

/-! ## The quota (R34) -/

/-- A place of the table holds an entry of a port. -/
def Slot.ownedBy (p : Port) (x : Slot) : Bool := x.entry.any (fun e => e.owner == p)

/-- The entries of a port, counted place by place. -/
theorem liveCount_eq (s : State) (p : Port) : liveCount s p = s.table.toList.countP (Slot.ownedBy p) := by
  unfold liveCount entriesOf
  rw [List.countP_filterMap]
  congr 1
  funext x
  unfold Slot.ownedBy
  cases x.entry <;> rfl

theorem liveCount_upd {s t : State} {i : EntryIx} {x : Slot} (h : t.table = upd s.table i x) (p : Port) :
    liveCount t p = liveCount s p - (if s.table[i].ownedBy p then 1 else 0) + if x.ownedBy p then 1 else 0 := by
  rw [liveCount_eq, liveCount_eq, h, upd, Vector.toList_set, List.countP_set (by simp)]
  simp

/-- The count is the same when every place has the same owner. -/
theorem liveCount_congr {s t : State} {p : Port} (h : ∀ i : EntryIx, t.table[i].ownedBy p = s.table[i].ownedBy p) :
    liveCount t p = liveCount s p := by
  have owners : t.table.map (Slot.ownedBy p) = s.table.map (Slot.ownedBy p) := by
    ext i hi
    simpa using h ⟨i, hi⟩
  have counted (u : State) : liveCount u p = (u.table.map (Slot.ownedBy p)).toList.countP id := by
    rw [liveCount_eq, Vector.toList_map, List.countP_map]
    rfl
  rw [counted, counted, owners]

theorem InPlace.quotaOk {s t : State} (h : InPlace s t) (hs : QuotaOk s) : QuotaOk t := by
  intro p
  rw [liveCount_congr fun i => optionRel_any (fun _ _ r => by rw [r.owner]) (h.entry i)]
  exact hs p

/-- A record that fits keeps its owner's quota. -/
theorem Fits.quotaOk {s t : State} {i : EntryIx} {e : Entry} {g : BitVec 8} (h : Fits s i e) (ht : t.table = upd s.table i ⟨g, some e⟩)
    (hs : QuotaOk s) : QuotaOk t := by
  intro p
  rcases h with ⟨old, hold, howner, _⟩ | ⟨free, room, _⟩
  · rw [liveCount_congr (s := s) fun j => ?_]
    · exact hs p
    · rw [ht]
      by_cases hj : j = i
      · subst hj
        rw [upd_get, Slot.ownedBy, Slot.ownedBy, Option.mem_def.1 hold]
        simp [howner]
      · rw [upd_get_ne _ _ hj]
  · have before := hs p
    have unowned : s.table[i].ownedBy p = false := by rw [Slot.ownedBy, free]; rfl
    rw [liveCount_upd ht, unowned, if_neg (by decide), Nat.sub_zero]
    split
    · rename_i hp
      have owner : e.owner = p := by simpa [Slot.ownedBy] using hp
      rw [owner] at room
      omega
    · exact before

theorem Moves.quotaOk {s t : State} (h : Moves s t) (hs : QuotaOk s) : QuotaOk t := by
  induction h with
  | inPlace h => exact h.quotaOk hs
  | frees i s =>
    intro p
    have before := hs p
    rw [liveCount_upd (s := s) (x := ⟨s.table[i].gen + 1, none⟩) (by rw [freeEntry_eq])]
    simp only [Slot.ownedBy, Option.any_none, Bool.false_eq_true, if_false]
    omega
  | waits hf => exact hf.quotaOk (by rw [placeWaiting_eq]) hs
  | arms hf => exact hf.quotaOk (by rw [placeArmed_eq]) hs
  | stages _ hf => exact hf.quotaOk rfl hs
  | trans _ _ ih1 ih2 => exact ih2 (ih1 hs)

/-- Settles O60: each of the two laws is kept by every move of an entry. -/
theorem quotaKept : Obligations.QuotaKept :=
  ⟨kept_of_moves quotaOk_resetWith fun h => h.quotaOk, kept_of_moves entriesOk_resetWith fun h => h.entriesOk⟩

/-! ## The schedule (R28, R29, R31, R51) -/

theorem InPlace.scheduleOk {s t : State} (h : InPlace s t) (hs : ScheduleOk s) : ScheduleOk t := by
  obtain ⟨h1, h2, h3, h4, h5, h6⟩ := hs
  have armed (i : EntryIx) (a : AxisId) : armedOn t i a = armedOn s i a :=
    optionRel_any (fun _ _ r => by rw [r.state, r.desc]) (h.entry i)
  have waits (i : EntryIx) : isWaiting t i = isWaiting s i := optionRel_any (fun _ _ r => by rw [r.state]) (h.entry i)
  have target (i : EntryIx) : targetAt t i = targetAt s i := by
    unfold targetAt
    have rel := h.entry i
    generalize s.table[i].entry = o at rel
    generalize t.table[i].entry = o' at rel
    cases rel with
    | none => rfl
    | some r => exact congrArg (·.getD 0) r.target
  refine ⟨fun i a => ?_, fun i => ?_, by rwa [h.due], by rwa [h.waiting], fun i e he => ?_, fun a => ?_⟩
  · rw [h.due, armed]; exact h1 i a
  · rw [h.waiting, waits]; exact h2 i
  · have rel := h.entry i
    rw [Option.mem_def.1 he] at rel
    generalize ho : s.table[i].entry = o at rel
    cases rel with
    | some r => rw [r.target, r.state]; exact h5 i _ ho
  · rw [h.due]
    exact (h6 a).imp fun hjk => by rwa [target, target]

section
variable {s t : State} {i : EntryIx} {x : Slot} (hs : ScheduleOk s) (ht : t.table = upd s.table i x)
include hs ht

/-- One place of the table changes: the schedule is kept if its lists are, and its own entry stands where it belongs. -/
theorem ScheduleOk.place (hdue : ∀ a : AxisId, ∀ j : EntryIx, j ∈ t.due[a] ↔ if j = i then armedOn t i a = true else j ∈ s.due[a])
    (hwait : ∀ j : EntryIx, j ∈ t.waiting ↔ if j = i then isWaiting t i = true else j ∈ s.waiting)
    (hnodup : ∀ a : AxisId, t.due[a].Nodup) (hnodup' : t.waiting.Nodup)
    (htarget : ∀ e ∈ x.entry, e.target.isSome = true ↔ e.state = .armed) (hsorted : DueSorted t) : ScheduleOk t := by
  obtain ⟨h1, h2, -, -, h5, -⟩ := hs
  have other {j : EntryIx} (hj : j ≠ i) : t.table[j] = s.table[j] := by rw [ht, upd_get_ne _ _ hj]
  refine ⟨fun j a => ?_, fun j => ?_, hnodup, hnodup', fun j e he => ?_, hsorted⟩
  · rw [hdue]
    split
    · rename_i hj; rw [hj]
    · rename_i hj; rw [h1, armedOn, armedOn, other hj]
  · rw [hwait]
    split
    · rename_i hj; rw [hj]
    · rename_i hj; rw [h2, isWaiting, isWaiting, other hj]
  · by_cases hj : j = i
    · subst hj
      rw [ht, upd_get] at he
      exact htarget e he
    · rw [other hj] at he
      exact h5 j e he

end

theorem armedOn_upd {s t : State} {i : EntryIx} {x : Slot} (ht : t.table = upd s.table i x) (a : AxisId) :
    armedOn t i a = x.entry.any (fun e => e.state == .armed && e.desc.axis == a) := by
  rw [armedOn, ht, upd_get]

theorem isWaiting_upd {s t : State} {i : EntryIx} {x : Slot} (ht : t.table = upd s.table i x) :
    isWaiting t i = x.entry.any (fun e => e.state == .waiting) := by
  rw [isWaiting, ht, upd_get]

theorem mem_offDue (s : State) (i j : EntryIx) (a : AxisId) : j ∈ (offLists i s).due[a] ↔ j ∈ s.due[a] ∧ j ≠ i := by
  simp [offLists]

theorem mem_offWaiting (s : State) (i j : EntryIx) : j ∈ (offLists i s).waiting ↔ j ∈ s.waiting ∧ j ≠ i := by
  simp [offLists]

theorem offDue_nodup {s : State} (hs : ScheduleOk s) (i : EntryIx) (a : AxisId) : (offLists i s).due[a].Nodup := by
  obtain ⟨-, -, h3, -⟩ := hs
  simpa [offLists] using (h3 a).filter (· ≠ i)

theorem offWaiting_nodup {s : State} (hs : ScheduleOk s) (i : EntryIx) : (offLists i s).waiting.Nodup := by
  obtain ⟨-, -, -, h4, -⟩ := hs
  exact h4.filter _

theorem offDue_sorted {s t : State} {i : EntryIx} {x : Slot} (hs : ScheduleOk s) (ht : t.table = upd s.table i x) (a : AxisId) :
    (offLists i s).due[a].Pairwise (fun j k => targetAt t j ≤ targetAt t k) := by
  obtain ⟨-, -, -, -, -, h6⟩ := hs
  simpa [offLists] using filter_sorted ht h6 a

theorem freed_scheduleOk {s : State} (i : EntryIx) (hs : ScheduleOk s) : ScheduleOk (freed i s) := by
  have ht : (freed i s).table = upd s.table i ⟨s.table[i].gen + 1, none⟩ := rfl
  have hd : (freed i s).due = (offLists i s).due := rfl
  have hw : (freed i s).waiting = (offLists i s).waiting := rfl
  refine hs.place ht (fun a j => ?_) (fun j => ?_) (fun a => offDue_nodup hs i a) (offWaiting_nodup hs i) (by simp)
    fun a => offDue_sorted hs ht a
  · rw [hd, mem_offDue, armedOn_upd ht]
    by_cases hj : j = i <;> simp [hj]
  · rw [hw, mem_offWaiting, isWaiting_upd ht]
    by_cases hj : j = i <;> simp [hj]

theorem madeWaiting_scheduleOk {s : State} (i : EntryIx) (e : Entry) (hs : ScheduleOk s) : ScheduleOk (madeWaiting i e s) := by
  have ht : (madeWaiting i e s).table = upd s.table i ⟨s.table[i].gen, some { e with state := .waiting, target := none }⟩ := rfl
  have hd : (madeWaiting i e s).due = (offLists i s).due := rfl
  have hw : (madeWaiting i e s).waiting = (offLists i s).waiting ++ [i] := rfl
  refine hs.place ht (fun a j => ?_) (fun j => ?_) (fun a => offDue_nodup hs i a) ?_ (by rintro _ ⟨⟩; simp)
    fun a => offDue_sorted hs ht a
  · rw [hd, mem_offDue, armedOn_upd ht]
    by_cases hj : j = i <;> simp [hj]
  · rw [hw, List.mem_append, mem_offWaiting, isWaiting_upd ht]
    by_cases hj : j = i <;> simp [hj]
  · rw [hw, List.nodup_append_comm, List.singleton_append, List.nodup_cons]
    exact ⟨fun k => ((mem_offWaiting s i i).1 k).2 rfl, offWaiting_nodup hs i⟩

theorem placeArmed_scheduleOk {s : State} (i : EntryIx) (e : Entry) (t : Int) (hs : ScheduleOk s) :
    ScheduleOk (placeArmed i e t s) := by
  set u := placeArmed i e t s with hu
  set l := (offLists i s).due[e.desc.axis] with hl
  have ht : u.table = upd s.table i ⟨s.table[i].gen, some { e with state := .armed, target := some t }⟩ := by
    rw [hu, placeArmed_eq]
  have hd : u.due = upd (offLists i s).due e.desc.axis (insertDue (targetAt u) i t l) := by
    rw [hu, placeArmed_eq, hl]
    simp [offLists]
    rfl
  have hw : u.waiting = (offLists i s).waiting := by rw [hu, placeArmed_eq]; rfl
  have own : u.due[e.desc.axis] = insertDue (targetAt u) i t l := by rw [hd, upd_get]
  have other {a : AxisId} (ha : a ≠ e.desc.axis) : u.due[a] = (offLists i s).due[a] := by rw [hd, upd_get_ne _ _ ha]
  have key : targetAt u i = t := by rw [targetAt, ht, upd_get]; rfl
  refine hs.place ht (fun a j => ?_) (fun j => ?_) (fun a => ?_) (hw ▸ offWaiting_nodup hs i) (by rintro _ ⟨⟩; simp) fun a => ?_
  · rw [armedOn_upd ht]
    by_cases ha : a = e.desc.axis
    · rw [ha, own, mem_insertDue, hl, mem_offDue]
      by_cases hj : j = i <;> simp [hj]
    · rw [other ha, mem_offDue]
      by_cases hj : j = i <;> simp [hj, Ne.symm ha]
  · rw [hw, mem_offWaiting, isWaiting_upd ht]
    by_cases hj : j = i <;> simp [hj]
  · by_cases ha : a = e.desc.axis
    · rw [ha, own]
      exact insertDue_nodup (offDue_nodup hs i _) fun k => ((mem_offDue ..).1 k).2 rfl
    · rw [other ha]; exact offDue_nodup hs i a
  · by_cases ha : a = e.desc.axis
    · rw [ha, own]
      exact insertDue_pairwise key (offDue_sorted hs ht _)
    · rw [other ha]; exact offDue_sorted hs ht a

/-- An entry of a FREE place stands in no list. -/
theorem ScheduleOk.absent {s : State} (hs : ScheduleOk s) {i : EntryIx} (hfree : s.table[i].entry = none) :
    (∀ a : AxisId, i ∉ s.due[a]) ∧ i ∉ s.waiting := by
  obtain ⟨h1, h2, -⟩ := hs
  refine ⟨fun a => ?_, ?_⟩
  · rw [h1, armedOn, hfree]; simp
  · rw [h2, isWaiting, hfree]; simp

theorem writeEntry_scheduleOk {s : State} {i : EntryIx} {e : Entry} (hs : ScheduleOk s) (hfree : s.table[i].entry = none)
    (he : e.state = .staged) (htarget : e.target = none) : ScheduleOk (writeEntry i e s) := by
  have ht : (writeEntry i e s).table = upd s.table i ⟨s.table[i].gen, some e⟩ := rfl
  have hd : (writeEntry i e s).due = s.due := rfl
  have hw : (writeEntry i e s).waiting = s.waiting := rfl
  obtain ⟨absent, absent'⟩ := hs.absent hfree
  refine hs.place ht (fun a j => ?_) (fun j => ?_) hs.2.2.1 hs.2.2.2.1 (by rintro _ ⟨⟩; simp [he, htarget]) fun a => ?_
  · rw [hd, armedOn_upd ht]
    by_cases hj : j = i
    · rw [if_pos hj, hj]
      exact iff_of_false (absent a) (by simp [he])
    · rw [if_neg hj]
  · rw [hw, isWaiting_upd ht]
    by_cases hj : j = i
    · rw [if_pos hj, hj]
      exact iff_of_false absent' (by simp [he])
    · rw [if_neg hj]
  · obtain ⟨-, -, -, -, -, h6⟩ := hs
    refine (h6 a).imp_of_mem fun {j k} hj hk hjk => ?_
    rwa [targetAt_upd_ne ht (fun h => absent a (h ▸ hj)), targetAt_upd_ne ht (fun h => absent a (h ▸ hk))]

theorem Moves.scheduleOk {s t : State} (h : Moves s t) (hs : ScheduleOk s) : ScheduleOk t := by
  induction h with
  | inPlace h => exact h.scheduleOk hs
  | frees i s => rw [freeEntry_eq_freed]; exact freed_scheduleOk i hs
  | waits => rw [placeWaiting_eq_madeWaiting]; exact madeWaiting_scheduleOk _ _ hs
  | arms => exact placeArmed_scheduleOk _ _ _ hs
  | stages hfree _ he htarget => exact writeEntry_scheduleOk hs hfree he htarget
  | trans _ _ ih1 ih2 => exact ih2 (ih1 hs)

/-- Settles O59: the law of the schedule is kept by every move of an entry. -/
theorem scheduleKept : Obligations.ScheduleKept := kept_of_moves scheduleOk_resetWith fun h => h.scheduleOk

end Sys2Proof.Machine
end

section
/-! SUPPORT. The SCU's commands ARM, CANCEL and RECORD_READ (R33, R39 to R48): what their checks answer, and from these what the part
is after the frame, immediate and staged (O11, O36, O37, O38). -/

namespace Sys2Proof.Machine

/-! ## The checks of an ARM (R39) -/

theorem lowestFree_eq_none {s : State} : lowestFree s = none ↔ ∀ i : EntryIx, s.table[i].entry ≠ none := by
  simp [lowestFree]

theorem lowestFree_eq_some {s : State} {i : EntryIx} (hi : s.table[i].entry = none)
    (hlow : ∀ j : EntryIx, j < i → s.table[j].entry ≠ none) : lowestFree s = some i := by
  rw [lowestFree, List.find?_eq_some_iff_getElem]
  refine ⟨by rw [hi]; rfl, i.val, by simp, by simp, fun j hj => ?_⟩
  have taken := hlow ⟨j, by omega⟩ hj
  simpa [← Option.isSome_iff_ne_none] using taken

section
variable {p : Port} {d : TriggerDesc} {s : State}

theorem armChecks_disabled (h : s.axes[d.axis].state = .disabled) : armChecks p d s = .error .axisState := if_pos h

section
variable (h1 : s.axes[d.axis].state ≠ .disabled)
include h1

theorem armChecks_idle (h2 : d.reference ≠ .absolute ∧ s.marks[d.mark].state = .idle) :
    armChecks p d s = .error .markState := by
  rw [armChecks, if_neg h1, if_pos h2]

section
variable (h2 : ¬(d.reference ≠ .absolute ∧ s.marks[d.mark].state = .idle))
include h2

theorem armChecks_notOwner (h3 : ¬∀ c : ChanId, d.mask.getLsbD c.val = true → s.chans[c].owner = some p) :
    armChecks p d s = .error .notOwner := by
  have owns : ownsMask s p d.mask = false := eq_false_of_ne_true (mt (ownsMask_iff s p d.mask).1 h3)
  rw [armChecks, if_neg h1, if_neg h2, owns]
  rfl

section
variable (h3 : ∀ c : ChanId, d.mask.getLsbD c.val = true → s.chans[c].owner = some p)
include h3

theorem armChecks_owner : armChecks p d s = if Config.quota ≤ liveCount s p then .error .quotaFull
    else match lowestFree s with
      | none => .error .tableFull
      | some i => .ok i := by
  rw [armChecks, if_neg h1, if_neg h2, (ownsMask_iff s p d.mask).2 h3]
  rfl

theorem armChecks_quotaFull (h4 : 96 ≤ liveCount s p) : armChecks p d s = .error .quotaFull := by
  rw [armChecks_owner h1 h2 h3]
  exact if_pos h4

section
variable (h4 : liveCount s p < 96)
include h4

theorem armChecks_tableFull (h5 : ∀ i : EntryIx, s.table[i].entry ≠ none) : armChecks p d s = .error .tableFull := by
  rw [armChecks_owner h1 h2 h3, lowestFree_eq_none.2 h5]
  exact if_neg (not_le.2 h4)

theorem armChecks_free (h5 : ∃ i : EntryIx, s.table[i].entry = none) : ∃ i, armChecks p d s = .ok i := by
  rw [armChecks_owner h1 h2 h3]
  obtain ⟨i, hi⟩ := h5
  cases hl : lowestFree s with
  | none => exact absurd hi (lowestFree_eq_none.1 hl i)
  | some j => exact ⟨j, if_neg (not_le.2 h4)⟩

end
end
end
end

/-- An ARM that passes its checks is answered the FREE entry with the lowest index (R43). -/
theorem armChecks_passes {i : EntryIx} (h : armPasses p d i s) : armChecks p d s = .ok i := by
  obtain ⟨h1, h2, h3, h4, hi, hlow⟩ := h
  rw [armChecks_owner h1 (fun k => h2 k.1 k.2) h3, lowestFree_eq_some hi hlow]
  exact if_neg (not_le.2 h4)

end

/-! ## ARM -/

/-- The issuer's group is STAGING and holds 16 operations (R107). -/
abbrev GroupFull (s : State) (p : Port) : Prop := s.groups[p].state = .staging ∧ 16 ≤ s.groups[p].ops.length

section
variable {p : Port} {pl : List Byte} {s : State}

theorem groupFull_eq (s : State) (p : Port) :
    (s.groups[p].state == .staging && decide (Config.groupCapacity ≤ s.groups[p].ops.length)) = decide (GroupFull s p) := by
  rw [Bool.decide_and, ← Bool.beq_eq_decide_eq]
  rfl

theorem armAct_full (h : GroupFull s p) : armAct p pl s = (s, .refuse .groupFull) := by
  unfold armAct
  dsimp only
  rw [groupFull_eq, if_pos (decide_eq_true h)]

section
variable (hf : ¬GroupFull s p)
include hf

theorem armAct_badField (h : parseTrigger pl = none) : armAct p pl s = (s, .refuse .badField) := by
  unfold armAct
  dsimp only
  rw [groupFull_eq, if_neg (by simpa using hf), h]

section
variable {d : TriggerDesc} (hd : parseTrigger pl = some d)
include hd

theorem armAct_refused {st : Status} (h : armChecks p d s = .error st) : armAct p pl s = (s, .refuse st) := by
  unfold armAct
  dsimp only
  rw [groupFull_eq, if_neg (by simpa using hf), hd]
  dsimp only
  rw [h]

variable {i : EntryIx} (hi : armChecks p d s = .ok i)
include hi

theorem armAct_staged (h : s.groups[p].state = .staging) : armAct p pl s =
    (stageOp p (.arm i false) (writeEntry i (newEntry p d .staged) s),
      .ok (armPayload (handleAt s i) LiveState.staged.code s.groups[p].ops.length)) := by
  unfold armAct
  dsimp only
  rw [groupFull_eq, if_neg (by simpa using hf), hd]
  dsimp only
  rw [hi]
  exact if_pos (by rw [h]; rfl)

section
variable (hs : s.groups[p].state ≠ .staging)
include hs

theorem armAct_immediate : armAct p pl s = if lateRefused s d then (s, .refuse .late)
    else (routeArm p i d s, .ok (armPayload (handleAt s i) (entryStateCode (routeArm p i d s).table[i].entry) immediateIndex)) := by
  unfold armAct
  dsimp only
  rw [groupFull_eq, if_neg (by simpa using hf), hd]
  dsimp only
  rw [hi]
  exact if_neg (by simpa using hs)

theorem armAct_late (h : ArmLate s d) : armAct p pl s = (s, .refuse .late) := by
  have sound := parseTrigger_sound hd
  rw [armAct_immediate hf hd hi hs, if_pos ((lateRefused_iff s d sound.interval sound.place).2 h)]

theorem armAct_routed (h : ¬ArmLate s d) : armAct p pl s =
    (routeArm p i d s, .ok (armPayload (handleAt s i) (entryStateCode (routeArm p i d s).table[i].entry) immediateIndex)) := by
  have sound := parseTrigger_sound hd
  rw [armAct_immediate hf hd hi hs, if_neg (mt (lateRefused_iff s d sound.interval sound.place).1 h)]

end
end
end
end

/-- Settles O37: the checks in their order, each on the state in which the SCU acts. -/
theorem armRefusals : Obligations.ArmRefusals := by
  intro p pl s h hl
  have refuse {st : Status} (hact : armAct p pl (leaseRenewed s p) = (leaseRenewed s p, .refuse st)) :
      exec (.arm p pl) s = .next (refused s p .arm st) := congrArg _ (takeFrame_refused h hl hact)
  refine ⟨fun hf => refuse (armAct_full hf), fun hf hd => refuse (armAct_badField hf hd), fun d hf hd => ?_⟩
  have checked {st : Status} (hc : armChecks p d (leaseRenewed s p) = .error st) :=
    refuse (armAct_refused (s := leaseRenewed s p) hf hd hc)
  intro disabled idle owns
  refine ⟨fun h1 => checked (armChecks_disabled h1), fun h1 h2 => checked (armChecks_idle h1 h2),
    fun h1 h2 h3 => checked (armChecks_notOwner h1 h2 h3), fun h1 h2 h3 h4 => checked (armChecks_quotaFull h1 h2 h3 h4),
    fun h1 h2 h3 h4 h5 => checked (armChecks_tableFull h1 h2 h3 h4 h5), fun h1 h2 h3 h4 h5 hs late => ?_⟩
  obtain ⟨i, hi⟩ := armChecks_free (s := leaseRenewed s p) h1 h2 h3 h4 h5
  exact refuse (armAct_late hf hd hi hs late)

/-! ## An immediate ARM (R43, R44) -/

theorem byte_toNat_self (b : Byte) : byte b.toNat = b := by simp [byte]

theorem armPayload_eq (h : Handle) (st n : Nat) : armPayload h st n = [byte h.index.val, h.gen, byte st, byte n] := by
  rw [armPayload, Handle.bytes, leBytes_one, leBytes_one, leBytes_one, leBytes_one, byte_toNat_self]
  rfl

theorem entryStateCode_eq (o : Option Entry) : entryStateCode o = (o.map (·.state.code)).getD 0 := by
  cases o <;> rfl

/-- A FREE place leaves no list. -/
theorem offLists_of_free {s : State} (hs : ScheduleOk s) {i : EntryIx} (h : s.table[i].entry = none) : offLists i s = s := by
  obtain ⟨absent, absent'⟩ := hs.absent h
  have due : s.due.map (fun l => l.filter (· ≠ i)) = s.due := by
    ext1 a ha
    rw [Vector.getElem_map]
    exact filter_ne_of_not_mem (absent ⟨a, ha⟩)
  rw [offLists, due, filter_ne_of_not_mem absent']

/-- A mark-relative ARM joins the waiting set at its tail. -/
theorem routeArm_waiting {p : Port} {i : EntryIx} {d : TriggerDesc} {s : State} (hs : ScheduleOk s) (h : s.table[i].entry = none)
    (hd : d.reference ≠ .absolute) : routeArm p i d s = { s with
      table := upd s.table i ⟨s.table[i].gen, some ⟨d, p, .waiting, none, 0, d.markCount, none, false⟩⟩
      waiting := s.waiting ++ [i] } := by
  obtain ⟨-, absent'⟩ := hs.absent h
  rw [routeArm, if_neg hd, placeWaiting_eq_madeWaiting, madeWaiting, offLists_of_free hs h, filter_ne_of_not_mem absent']
  rfl

/-- An ABSOLUTE ARM goes to admission against the value of its axis. -/
theorem routeArm_given {p : Port} {i : EntryIx} {d : TriggerDesc} {s : State} (h : FiringOk s) (hd : d.reference = .absolute)
    (sound : d.Sound) : ∃ acts t, GivenTarget (fun a => s.axes[a].value) i (newEntry p d .armed) d.place s acts t
      ∧ routeArm p i d s = sent t acts := by
  obtain ⟨acts, t, hq, given⟩ := giveTarget_given (view := none) i (newEntry p d .armed) d.place (.begin s) (fun _ => rfl) h
    (newEntry_ok sound p .armed)
  refine ⟨acts, t, given, ?_⟩
  rw [routeArm, if_pos hd, hq, done_eq_sent]
  rfl

/-- Settles O36: a mark-relative ARM waits, an ABSOLUTE one is given its target. -/
theorem armImmediate : Obligations.ArmImmediate := by
  intro p pl d i s h hschedule hentries hstaging hl hd hpass
  have hi := armChecks_passes (s := leaseRenewed s p) hpass
  have free : s.table[i].entry = none := (armChecks_ok hi).2
  have notFull : ¬GroupFull (leaseRenewed s p) p := fun k => hstaging k.1
  refine ⟨fun href => ?_, fun href hlate => ?_⟩
  · have act := armAct_routed notFull hd hi hstaging fun k => href k.1
    rw [routeArm_waiting (s := leaseRenewed s p) hschedule free href, armPayload_eq] at act
    refine congrArg _ (takeFrame_ok h hl act rfl ?_)
    rw [upd_get]
    rfl
  · obtain ⟨acts, t, given, hroute⟩ := routeArm_given (p := p) (i := i) (s := leaseRenewed s p) (.of_laws hschedule hentries) href
      (parseTrigger_sound hd)
    have act := armAct_routed notFull hd hi hstaging hlate
    have ports : (sent t acts).ports = upd s.ports p s.ports[p].renewed := by
      have only := routeArm_scuOnly p i d (leaseRenewed s p)
      rw [hroute] at only
      rw [only]
      rfl
    rw [hroute, armPayload_eq, entryStateCode_eq] at act
    exact ⟨acts, t, given, congrArg _ (takeFrame_ok h hl act ports rfl)⟩

end Sys2Proof.Machine
end

section
/-! SUPPORT. The SCU's handle commands CANCEL and RECORD_READ (R33, R46 to R48), CHANNEL_DRIVE (R137), and from these what the part
is after the frame of a staged command (O38) and of a handle command (O11). -/

namespace Sys2Proof.Machine

/-! ## Handles (R33) -/

theorem parseHandle_pair (i : EntryIx) (g : Byte) : parseHandle [byte i.val, g] = ⟨i, g⟩ := by
  have index : field [byte i.val, g] 0 1 = i.val := by
    rw [field_one, byte_toNat]
    omega
  have gen : field [byte i.val, g] 1 1 = g.toNat := by rw [field_cons, field_one]
  simp only [parseHandle, index, gen, Nat.mod_eq_of_lt i.isLt, Fin.eta, BitVec.ofNat_toNat, BitVec.setWidth_eq]

section
variable {s : State} {p : Port} {i : EntryIx} {g : Byte}

theorem judgeHandle_free (h : s.table[i].entry = none) : judgeHandle s p ⟨i, g⟩ = .error .stale := by
  unfold judgeHandle
  dsimp only
  rw [h]

variable {e : Entry} (h : s.table[i].entry = some e)
include h

theorem judgeHandle_notOwner (ho : e.owner ≠ p) : judgeHandle s p ⟨i, g⟩ = .error .notOwner := by
  unfold judgeHandle
  dsimp only
  rw [h]
  exact if_pos ho

theorem judgeHandle_stale (ho : e.owner = p) (hg : s.table[i].gen ≠ g) : judgeHandle s p ⟨i, g⟩ = .error .stale := by
  unfold judgeHandle
  dsimp only
  rw [h]
  exact (if_neg (not_not.2 ho)).trans (if_pos hg)

theorem judgeHandle_ok (ho : e.owner = p) (hg : s.table[i].gen = g) : judgeHandle s p ⟨i, g⟩ = .ok e := by
  unfold judgeHandle
  dsimp only
  rw [h]
  exact (if_neg (not_not.2 ho)).trans (if_neg (not_not.2 hg))

theorem judgeHandle_parsed (ho : e.owner = p) (hg : s.table[i].gen = g) :
    judgeHandle s p (parseHandle [byte i.val, g]) = .ok e := by
  rw [parseHandle_pair]
  exact judgeHandle_ok h ho hg

end

/-! ## CANCEL (R46, R47, R109) -/

section
variable {p : Port} {pl : List Byte} {s : State}

theorem cancelAct_full (h : GroupFull s p) : cancelAct p pl s = (s, .refuse .groupFull) := by
  unfold cancelAct
  dsimp only
  rw [groupFull_eq, if_pos (decide_eq_true h)]

section
variable (hf : ¬GroupFull s p)
include hf

theorem cancelAct_refused {st : Status} (h : judgeHandle s p (parseHandle pl) = .error st) :
    cancelAct p pl s = (s, .refuse st) := by
  unfold cancelAct
  dsimp only
  rw [groupFull_eq, if_neg (by simpa using hf), h]

section
variable {e : Entry} (h : judgeHandle s p (parseHandle pl) = .ok e)
include h

theorem cancelAct_ok : cancelAct p pl s =
    if e.state = .staged then (s, .refuse .groupState)
    else if s.groups[p].state == .staging then
      (stageOp p (.cancel (parseHandle pl)) s, .ok (leBytes 1 s.groups[p].ops.length ++ leBytes 1 e.state.code ++ leBytes 2 0))
    else (freeEntry (parseHandle pl).index s, .ok (leBytes 1 immediateIndex ++ leBytes 1 e.state.code ++ leBytes 2 e.occ)) := by
  unfold cancelAct
  dsimp only
  rw [groupFull_eq, if_neg (by simpa using hf), h]

theorem cancelAct_groupState (he : e.state = .staged) : cancelAct p pl s = (s, .refuse .groupState) := by
  rw [cancelAct_ok hf h, if_pos he]

theorem cancelAct_staged (he : e.state ≠ .staged) (hs : s.groups[p].state = .staging) : cancelAct p pl s =
    (stageOp p (.cancel (parseHandle pl)) s, .ok [byte s.groups[p].ops.length, byte e.state.code, 0, 0]) := by
  rw [cancelAct_ok hf h, if_neg he, if_pos (beq_iff_eq.2 hs)]
  rfl

theorem cancelAct_immediate (he : e.state ≠ .staged) (hs : s.groups[p].state ≠ .staging) : cancelAct p pl s =
    (freeEntry (parseHandle pl).index s, .ok ([0xFF, byte e.state.code] ++ leBytes 2 e.occ)) := by
  rw [cancelAct_ok hf h, if_neg he, if_neg (mt beq_iff_eq.1 hs)]
  rfl

end
end
end

section
variable {s : State} {p : Port} (h : Admitted s p)
include h

theorem cancel_refused {i : EntryIx} {g : Byte} {st : Status}
    (hact : cancelAct p [byte i.val, g] (leaseRenewed s p) = (leaseRenewed s p, .refuse st)) :
    exec (.cancel p [byte i.val, g]) s = .next (refused s p .cancel st) := congrArg _ (takeFrame_refused h rfl hact)

/-- The refusals of a CANCEL that the group does not refuse, in their order. -/
theorem cancel_refusals (hf : ¬GroupFull s p) (i : EntryIx) (g : Byte) :
    (s.table[i].entry = none → exec (.cancel p [byte i.val, g]) s = .next (refused s p .cancel .stale))
    ∧ ∀ e, s.table[i].entry = some e →
      (e.owner ≠ p → exec (.cancel p [byte i.val, g]) s = .next (refused s p .cancel .notOwner))
      ∧ (e.owner = p → s.table[i].gen ≠ g → exec (.cancel p [byte i.val, g]) s = .next (refused s p .cancel .stale))
      ∧ (e.owner = p → s.table[i].gen = g → e.state = .staged →
          exec (.cancel p [byte i.val, g]) s = .next (refused s p .cancel .groupState)) := by
  have judged {st : Status} (hj : judgeHandle (leaseRenewed s p) p ⟨i, g⟩ = .error st) :
      exec (.cancel p [byte i.val, g]) s = .next (refused s p .cancel st) := by
    refine cancel_refused h (cancelAct_refused (s := leaseRenewed s p) hf ?_)
    rwa [parseHandle_pair]
  refine ⟨fun he => judged (judgeHandle_free he), fun e he => ⟨fun ho => judged (judgeHandle_notOwner he ho),
    fun ho hg => judged (judgeHandle_stale he ho hg), fun ho hg hst => ?_⟩⟩
  exact cancel_refused h (cancelAct_groupState (s := leaseRenewed s p) hf (judgeHandle_parsed he ho hg) hst)

end

/-! ## CHANNEL_DRIVE (R137) -/

/-- The payload of a CHANNEL_DRIVE. -/
abbrev drivePayload (mask : Nat) (act : Byte) (width : Nat) : List Byte := leBytes 2 mask ++ act :: leBytes 2 width

theorem parseDrive_payload {mask : Nat} (act : Byte) {width : Nat} (hm : mask < 65536) (hw : width < 65536) :
    parseDrive (drivePayload mask act width) = do
      let m ← channelMask mask
      let a ← Action.ofCode act.toNat
      demand (!(a == .pulse && width == 0))
      demand (!(a != .pulse && width != 0))
      return { mask := m, act := a, width := width } := by
  have maskField : field (drivePayload mask act width) 0 2 = mask := by
    rw [field_append (leBytes_length 2 mask).symm, leValue_leBytes]
    exact Nat.mod_eq_of_lt hm
  have actField : field (drivePayload mask act width) 2 1 = act.toNat := field_one act (leBytes 2 width)
  have widthField : field (drivePayload mask act width) 3 2 = width := field_leBytes 2 width hw
  rw [parseDrive, maskField, actField, widthField]

theorem Action.code_of_ofCode {n : Nat} {a : Action} (h : Action.ofCode n = some a) : a.code = n := by
  match n, h with
  | 0, rfl | 1, rfl | 2, rfl | 3, rfl => rfl

theorem Action.ofCode_code (a : Action) : Action.ofCode a.code = some a := by cases a <;> rfl

theorem Action.code_lt (a : Action) : a.code < 4 := by cases a <;> decide

theorem Action.code_eq_zero {a : Action} : a.code = 0 ↔ a = .pulse := by cases a <;> decide

theorem channelMask_toNat {mask : BitVec 12} (h : mask ≠ 0) : channelMask mask.toNat = some mask := by
  have pos : 0 < mask.toNat := Nat.pos_of_ne_zero fun e => h (BitVec.eq_of_toNat_eq e)
  rw [channelMask, if_pos ⟨pos, mask.isLt⟩, BitVec.ofNat_toNat, BitVec.setWidth_eq]

theorem channelMask_none {n : Nat} (h : n = 0 ∨ 4096 ≤ n) : channelMask n = none := if_neg (by omega)

/-- The five reasons for which a CHANNEL_DRIVE is BAD_FIELD. -/
theorem parseDrive_none {mask : Nat} {act : Byte} {width : Nat} (hm : mask < 65536) (hw : width < 65536)
    (h : mask = 0 ∨ 4096 ≤ mask ∨ 3 < act.toNat ∨ (act = 0 ∧ width = 0) ∨ (act ≠ 0 ∧ width ≠ 0)) :
    parseDrive (drivePayload mask act width) = none := by
  refine Option.eq_none_iff_forall_ne_some.2 fun d read => ?_
  rw [parseDrive_payload act hm hw] at read
  simp only [Option.bind_eq_bind, Option.bind_eq_some_iff, demand_eq_some] at read
  obtain ⟨m, hmask, a, hact, -, pulse, -, level, -⟩ := read
  have code := Action.code_of_ofCode hact
  have inside : ¬(mask = 0 ∨ 4096 ≤ mask) := fun k => nomatch hmask.symm.trans (channelMask_none k)
  have lt := a.code_lt
  have zero : act = 0 ↔ a = .pulse := by
    rw [← Action.code_eq_zero, code]
    exact (BitVec.toNat_inj (y := 0#8)).symm
  simp only [Bool.not_eq_true', Bool.and_eq_false_imp, beq_iff_eq, bne_iff_ne, beq_eq_false_iff_ne, bne_eq_false_iff_eq]
    at pulse level
  rcases h with none | beyond | code4 | ⟨h0, w0⟩ | ⟨h0, w0⟩
  · exact inside (.inl none)
  · exact inside (.inr beyond)
  · omega
  · exact pulse (zero.1 h0) w0
  · exact w0 (level (mt zero.2 h0))

theorem parseDrive_some {mask : BitVec 12} {act : Action} {width : Nat} (hm : mask ≠ 0) (hw : width < 65536)
    (h : act = .pulse ↔ width ≠ 0) : parseDrive (drivePayload mask.toNat (byte act.code) width) = some ⟨mask, act, width⟩ := by
  have code : (byte act.code).toNat = act.code := by
    have := act.code_lt
    rw [byte_toNat]
    omega
  have lt : mask.toNat < 65536 := by omega
  have pulse : (!(act == .pulse && width == 0)) = true := by
    simpa [imp_iff_not_or] using h.1
  have level : (!(act != .pulse && width != 0)) = true := by
    simpa [or_iff_not_imp_left] using fun k => not_not.1 (mt h.2 k)
  rw [parseDrive_payload _ lt hw, channelMask_toNat hm, code, Action.ofCode_code]
  simp only [Option.bind_eq_bind, Option.bind_some, pulse, level]
  rfl

section
variable {p : Port} {pl : List Byte} {s : State}

theorem channelDriveAct_full (h : GroupFull s p) : channelDriveAct p pl s = (s, .refuse .groupFull) := if_pos h

variable (hf : ¬GroupFull s p)
include hf

theorem channelDriveAct_badField (h : parseDrive pl = none) : channelDriveAct p pl s = (s, .refuse .badField) := by
  unfold channelDriveAct
  rw [h]
  exact if_neg hf

variable {d : DriveOp} (h : parseDrive pl = some d)
include h

theorem channelDriveAct_notOwner (ho : ∃ c : ChanId, d.mask.getLsbD c.val = true ∧ s.chans[c].owner ≠ some p) :
    channelDriveAct p pl s = (s, .refuse .notOwner) := by
  obtain ⟨c, hc, hn⟩ := ho
  have owns : ownsMask s p d.mask = false := eq_false_of_ne_true fun k => hn ((ownsMask_iff s p d.mask).1 k c hc)
  unfold channelDriveAct
  rw [h]
  dsimp only
  rw [owns]
  exact if_neg hf

theorem channelDriveAct_staged (ho : ∀ c : ChanId, d.mask.getLsbD c.val = true → s.chans[c].owner = some p)
    (hs : s.groups[p].state = .staging) : channelDriveAct p pl s =
      (stageOp p (.drive d.mask d.act d.width) s, .ok [byte s.groups[p].ops.length]) := by
  unfold channelDriveAct
  rw [h]
  dsimp only
  rw [(ownsMask_iff s p d.mask).2 ho]
  exact (if_neg hf).trans (if_pos hs)

end

/-! ## Staged commands (R107) -/

/-- Settles O38: each command through its checks, with the group neither full nor ended. -/
theorem stagedCommands : Obligations.StagedCommands := by
  intro p s h hs
  have driveLength (mask : Nat) (act : Byte) (width : Nat) : (drivePayload mask act width).length = Command.channelDrive.length := rfl
  refine ⟨fun full arm cancel drive harm hcancel hdrive => ?_, fun room => ?_⟩
  · have full' : GroupFull (leaseRenewed s p) p := ⟨hs, full⟩
    exact ⟨congrArg _ (takeFrame_refused h harm (armAct_full full')), congrArg _ (takeFrame_refused h hcancel (cancelAct_full full')),
      congrArg _ (takeFrame_refused h hdrive (channelDriveAct_full full'))⟩
  · have notFull : ¬GroupFull (leaseRenewed s p) p := fun k => absurd k.2 (not_le.2 room)
    refine ⟨fun pl d i hl hd hpass => ?_, fun i g => ?_, fun mask act width hm hw hbad => ?_, fun mask act width hm hw hwidth => ?_⟩
    · have act := armAct_staged notFull hd (armChecks_passes (s := leaseRenewed s p) hpass) hs
      rw [armPayload_eq] at act
      exact congrArg _ (takeFrame_ok h hl act rfl rfl)
    · obtain ⟨free, taken⟩ := cancel_refusals h notFull i g
      refine ⟨free, fun e he => ?_⟩
      obtain ⟨notOwner, stale, staged⟩ := taken e he
      refine ⟨notOwner, stale, staged, fun ho hg hst => ?_⟩
      have act := cancelAct_staged notFull (judgeHandle_parsed (s := leaseRenewed s p) he ho hg) hst hs
      rw [parseHandle_pair] at act
      exact congrArg _ (takeFrame_ok h rfl act rfl rfl)
    · exact congrArg _ (takeFrame_refused h (driveLength ..) (channelDriveAct_badField notFull (parseDrive_none hm hw hbad)))
    · have read := parseDrive_some hm hw hwidth
      refine ⟨fun foreign => ?_, fun owns => ?_⟩
      · exact congrArg _ (takeFrame_refused h (driveLength ..) (channelDriveAct_notOwner notFull read foreign))
      · exact congrArg _ (takeFrame_ok h (driveLength ..) (channelDriveAct_staged notFull read owns hs) rfl rfl)

/-! ## RECORD_READ (R48) -/

section
variable {p : Port} {pl : List Byte} {s : State}

theorem recordReadAct_refused {st : Status} (h : judgeHandle s p (parseHandle pl) = .error st) :
    recordReadAct p pl s = (s, .refuse st) := by
  unfold recordReadAct
  dsimp only
  rw [h]

theorem recordReadAct_ok {e : Entry} (h : judgeHandle s p (parseHandle pl) = .ok e) :
    recordReadAct p pl s = (s, .ok (e.bytes (parseHandle pl))) := by
  unfold recordReadAct
  dsimp only
  rw [h]

end

/-- The flags of an entry record: a target, an owed mark, the final burst. -/
theorem bit_isSome {α : Type} (o : Option α) : bit o.isSome = if o = none then 0 else 1 := by cases o <;> rfl

theorem recordFlags (e : Entry) : bit e.target.isSome + 2 * bit e.owed.isSome + 4 * bit e.finalBurst
    = (if e.target = none then 0 else 1) + (if e.owed = none then 0 else 2) + (if e.finalBurst then 4 else 0) := by
  rw [bit_isSome, bit_isSome]
  cases e.owed <;> cases e.finalBurst <;> rfl

/-- An entry record by its parts: the handle and the state, the description, the flags, the target, the counts, the owed mark. -/
theorem Entry.bytes_eq (i : EntryIx) (g : Byte) (e : Entry) : e.bytes ⟨i, g⟩ =
    [byte i.val, g, byte e.state.code]
      ++ (leBytes 2 e.desc.tag.toNat
        ++ [byte e.desc.axis.val, byte e.desc.approach.code, byte e.desc.reference.code, byte e.desc.mark.val, byte e.desc.markCount]
        ++ leInt48 e.desc.place ++ [byte e.desc.action.code] ++ leBytes 2 e.desc.mask.toNat ++ leBytes 2 e.desc.width
        ++ leBytes 2 e.desc.repeats ++ leBytes 4 e.desc.interval
        ++ [byte (e.desc.fireN + 16 * e.desc.skipN), byte (e.desc.late.code + 16 * e.desc.notify.code)])
      ++ [byte ((if e.target = none then 0 else 1) + (if e.owed = none then 0 else 2) + (if e.finalBurst then 4 else 0))]
      ++ leInt48 (e.target.getD 0) ++ leBytes 2 e.occ ++ [byte e.marksLeft] ++ owedBytes e.desc.axis e.owed := by
  rw [Entry.bytes, recordFlags, TriggerDesc.bytes]
  simp only [leBytes_one, byte_toNat_self, List.append_assoc, List.cons_append, List.nil_append]

/-- Settles O11: by the judgement of the handle. -/
theorem handleCommands : Obligations.HandleCommands := by
  refine ⟨⟨rfl, rfl, rfl, rfl, rfl, rfl, rfl⟩, fun p i g s h => ?_, fun p i g s h hs => ?_⟩
  · have judged {st : Status} (hj : judgeHandle (leaseRenewed s p) p ⟨i, g⟩ = .error st) :
        exec (.recordRead p [byte i.val, g]) s = .next (refused s p .recordRead st) := by
      refine congrArg _ (takeFrame_refused h rfl (recordReadAct_refused ?_))
      rwa [parseHandle_pair]
    refine ⟨fun he => judged (judgeHandle_free he), fun e he ho => judged (judgeHandle_notOwner he ho),
      fun e he ho hg => judged (judgeHandle_stale he ho hg), fun e he ho hg => ?_⟩
    have act := recordReadAct_ok (judgeHandle_parsed (s := leaseRenewed s p) he ho hg)
    rw [parseHandle_pair, Entry.bytes_eq] at act
    refine congrArg _ (takeFrame_ok h rfl act rfl ?_)
    cases e.owed <;> rfl
  · have notFull : ¬GroupFull s p := fun k => hs k.1
    obtain ⟨free, taken⟩ := cancel_refusals h notFull i g
    refine ⟨free, fun e he => ?_⟩
    obtain ⟨notOwner, stale, staged⟩ := taken e he
    refine ⟨notOwner, stale, staged, fun ho hg hst => ?_⟩
    have act := cancelAct_immediate (s := leaseRenewed s p) notFull (judgeHandle_parsed (s := leaseRenewed s p) he ho hg) hst hs
    rw [parseHandle_pair, freeEntry_eq] at act
    refine congrArg _ (takeFrame_ok h rfl act rfl ?_)
    rw [show (leaseRenewed s p).table[i].gen = g from hg]
    rfl

end Sys2Proof.Machine
end

section
/-! SUPPORT. The SCU's and the OTU's parts of a teardown (R50, R123, R140; O18). -/

namespace Sys2Proof.Machine

section
variable {s : State} {p : Port}

theorem mem_ownedEntries {i : EntryIx} : i ∈ ownedEntries s p ↔ s.table[i].entry.any (fun e => e.owner == p) = true := by
  rw [ownedEntries, List.mem_filter]
  cases s.table[i].entry <;> simp

theorem ownedEntries_nodup (s : State) (p : Port) : (ownedEntries s p).Nodup := (List.nodup_finRange 256).filter _

/-- What a port's group reserves, the port owns. -/
theorem mem_ownedEntries_of_reserved (hs : StagedOk s) {i : EntryIx} (h : i ∈ reservedBy s p) : i ∈ ownedEntries s p := by
  have staged := ((hs p).2 i).1 h
  rw [stagedFor, Option.any_eq_true] at staged
  obtain ⟨e, he, staged⟩ := staged
  rw [mem_ownedEntries, he]
  exact (Bool.and_eq_true_iff.1 staged).2

/-- The group of a port is closed and returns to its reset values. -/
def groupReset (p : Port) (s : State) : State := (closeGroup p s).setGroup p .reset

theorem groupReset_eq (p : Port) (s : State) : groupReset p s = { s with
    groups := upd s.groups p .reset, pendingGroups := s.pendingGroups.filter (· ≠ p) } := by
  rw [groupReset, closeGroup_eq, State.setGroup]
  dsimp only
  rw [upd_upd]

/-- The entries that the SCU's part of a teardown frees, in its order: those its group reserves, then the others of the port. -/
def removedEntries (s : State) (p : Port) : List EntryIx :=
  reservedBy s p ++ ownedEntries ((reservedBy s p).foldl (fun s i => freeEntry i s) s) p

theorem removePort_foldl (p : Port) (s : State) :
    removePort p s = (removedEntries s p).foldl (fun s i => freeEntry i s) (groupReset p s) := by
  have commute : (reservedBy s p).foldl (fun s i => freeEntry i s) (groupReset p s)
      = groupReset p ((reservedBy s p).foldl (fun s i => freeEntry i s) s) :=
    List.foldl_hom (groupReset p) fun _ _ => rfl
  rw [removedEntries, List.foldl_append, commute]
  rfl

/-- Each entry of the port is freed once. -/
theorem removedEntries_spec (hs : StagedOk s) :
    (removedEntries s p).Nodup ∧ ∀ i : EntryIx, i ∈ removedEntries s p ↔ i ∈ ownedEntries s p := by
  obtain ⟨u, hu, -, -, table⟩ := foldl_freeEntry (reservedBy s p) (hs p).1 s
  have later (i : EntryIx) : i ∈ ownedEntries u p ↔ i ∉ reservedBy s p ∧ i ∈ ownedEntries s p := by
    rw [mem_ownedEntries, mem_ownedEntries, table i]
    by_cases hi : i ∈ reservedBy s p <;> simp [hi]
  rw [removedEntries, hu]
  refine ⟨List.Nodup.append (hs p).1 (ownedEntries_nodup u p) fun i reserved left => ((later i).1 left).1 reserved, fun i => ?_⟩
  have := mem_ownedEntries_of_reserved hs (p := p) (i := i)
  rw [List.mem_append, later]
  tauto

end

/-- The OTU's part of a teardown at one channel. -/
theorem releaseChannels_chan (p : Port) (s : State) (c : ChanId) :
    (releaseChannels p s).chans[c] = if s.chans[c].owner = some p then s.chans[c].release else s.chans[c] := by
  simp [releaseChannels]

/-- Settles O18: the SCU frees what the port owns, the OTU releases what it owns. -/
theorem scuAndOtuTeardown : Obligations.ScuAndOtuTeardown := by
  refine ⟨fun p s hs h => ?_, fun p s h => ?_⟩
  · intro mine
    obtain ⟨nodup, removed⟩ := removedEntries_spec hs (p := p)
    obtain ⟨t, ht, form, due, table⟩ := foldl_freeEntry (removedEntries s p) nodup (groupReset p s)
    have mine_iff (i : EntryIx) : i ∈ removedEntries s p ↔ mine i = true := (removed i).trans mem_ownedEntries
    have others : (fun i => !(removedEntries s p).contains i) = fun i => !mine i := by
      funext i
      rw [List.contains_eq_mem, Bool.eq_iff_iff]
      simp [mine_iff]
    rw [← removePort_foldl] at ht
    rw [others, groupReset_eq] at form
    have done : teardownPart p .scu (removePort p) s = reportPart p .scu t := (if_pos h).trans (by rw [ht])
    refine ⟨reportPart p .scu t, congrArg _ done, ?_, fun a => ?_, fun i => ?_, fun q => ?_⟩
    · rw [form]
      rfl
    · rw [← others]
      exact (due a).trans (by rw [groupReset_eq])
    · refine (table i).trans ?_
      simp only [mine_iff, groupReset_eq]
    · have groups : t.groups = upd s.groups p .reset := by rw [form]
      refine (congrArg (fun g : Vector GroupRec 4 => g[q]) groups).trans ?_
      rcases eq_or_ne q p with rfl | hq
      · rw [upd_get, if_pos rfl]
        rfl
      · rw [upd_get_ne _ _ hq, if_neg hq]
  · have done : teardownPart p .otu (releaseChannels p) s = reportPart p .otu (releaseChannels p s) := if_pos h
    refine ⟨reportPart p .otu (releaseChannels p s), congrArg _ done, rfl, fun c => ⟨fun ho => ?_, fun ho => ?_⟩⟩
    · have released : (reportPart p .otu (releaseChannels p s)).chans[c] = s.chans[c].release :=
        (releaseChannels_chan p s c).trans (if_pos ho)
      rw [released]
      exact ⟨rfl, rfl⟩
    · exact (releaseChannels_chan p s c).trans (if_neg ho)

end Sys2Proof.Machine
end

section
/-! SUPPORT. Chip select and the serial pins (R142): the response frame and what each edge does (O5). -/

namespace Sys2Proof.Machine

/-! ## The response frame (R142, R155) -/

theorem someAxisFaulted_iff (s : State) : someAxisFaulted s = true ↔ ∃ a : AxisId, s.axes[a].state = .faulted := by
  rw [someAxisFaulted, Vector.any_eq_true]
  simp only [beq_iff_eq]
  exact ⟨fun ⟨a, ha, h⟩ => ⟨⟨a, ha⟩, h⟩, fun ⟨a, h⟩ => ⟨a.val, a.isLt, h⟩⟩

theorem mul_bit {b : Bool} {q : Prop} [Decidable q] (h : b = true ↔ q) (n : Nat) : n * bit b = if q then n else 0 := by
  cases b
  · exact (if_neg fun k => Bool.noConfusion (h.2 k)).symm
  · exact (Nat.mul_one n).trans (if_pos (h.1 rfl)).symm

/-- The PORTFLAGS byte by its fields. -/
theorem portFlags_eq (s : State) (p : Port) : portFlags s p =
    byte (s.ports[p].state.code + (if s.ports[p].queue = [] then 0 else 4) + (if s.ports[p].overrun then 8 else 0)
      + 16 * s.groups[p].state.code + (if ∃ a : AxisId, s.axes[a].state = .faulted then 64 else 0)) := by
  have queue : 4 * bit (!s.ports[p].queue.isEmpty) = if s.ports[p].queue = [] then 0 else 4 := by
    rw [mul_bit (q := ¬s.ports[p].queue = []) (by simp), ite_not]
  rw [portFlags, queue, mul_bit Iff.rfl, mul_bit (someAxisFaulted_iff s)]
  rfl

/-! ## Falls and rises of chip select -/

section
variable {p : Port} {s : State}

theorem fallSelect_high (hr : s.inReset = false) (h : s.ports[p].link = .high) : fallSelect p s =
    (takePostings s).setPort p { (takePostings s).ports[p] with link := .sending (responseFrame (takePostings s) p) [] 0 } := by
  unfold fallSelect
  rw [hr, h]
  rfl

theorem fallSelect_low (hr : s.inReset = false) (h : s.ports[p].link ≠ .high) : fallSelect p s = s := by
  unfold fallSelect
  rw [hr]
  cases hl : s.ports[p].link with
  | high => exact absurd hl h
  | sending | abandoned => rfl

theorem fallSelect_reset (hr : s.inReset = true) : fallSelect p s = s.setPort p { s.ports[p] with link := .abandoned } := if_pos hr

end

/-! ## One edge (log 18) -/

/-- A clock edge that leaves the shift registers leaves the part. -/
theorem setPort_link_same (p : Port) (s : State) {l : Link} (h : l = s.ports[p].link) :
    s.setPort p { s.ports[p] with link := l } = s := by
  subst h
  exact congrArg (fun v => { s with ports := v }) (upd_same ..)

theorem Link.clockRise_idle {l : Link} (h : l = .high ∨ l = .abandoned) (b : Bool) : l.clockRise b = l := by
  rcases h with rfl | rfl <;> rfl

theorem Link.clockFall_idle {l : Link} (h : l = .high ∨ l = .abandoned) : l.clockFall = l := by
  rcases h with rfl | rfl <;> rfl

/-- The bits of a transaction, byte by byte, spell the frame that is decoded. -/
theorem risenCommand_sending (p : Port) (frame bytes : List Byte) {tail : List Bool} (n : Nat) (h : tail.length < 8) :
    risenCommand p (.sending frame (bytes.flatMap byteBits ++ tail) n) = some (decodeFrame p bytes) :=
  congrArg (fun l => some (decodeFrame p l)) (wholeBytes_bits bytes h)

section
variable {s : State} (hp : s.pending = [])
include hp

/-- With no command waiting the next edge is taken. -/
theorem step_edge {e : SerialEdge} {rest : List SerialEdge} (h : s.serial = e :: rest) :
    step s = .next (takeEdge e { s with serial := rest }) := by
  unfold step
  rw [hp, h]

theorem step_selectFall {p : Port} {rest : List SerialEdge} (h : s.serial = .selectFall p :: rest) :
    step s = .next { s with serial := rest, pending := [.chipSelectFall p] } := by
  rw [step_edge hp h, takeEdge, hp]
  rfl

theorem step_selectRise {p : Port} {rest : List SerialEdge} (h : s.serial = .selectRise p :: rest) :
    step s = .next { s with serial := rest, pending := (risenCommand p s.ports[p].link).toList } := by
  rw [step_edge hp h, takeEdge, hp]
  rfl

end

/-- Settles O5: by the level of chip select, and by the edge. -/
theorem chipSelect : Obligations.ChipSelect := by
  refine ⟨fun p s hr h => ⟨takePostings s, runs_takePostings s, ?_⟩, fun p s hr h => congrArg _ (fallSelect_low hr h),
    fun p s hr => congrArg _ (fallSelect_reset hr), fun p s => rfl, fun p b rest s hp => ?_, fun p s frame bits n h => ?_⟩
  · refine congrArg _ ((fallSelect_high hr h).trans ?_)
    rw [responseFrame, portFlags_eq]
    rfl
  · refine ⟨step_selectFall hp, fun he => ⟨fun frame bits n hl => ?_, fun hl => ?_⟩,
      fun he => ⟨fun frame bits n hl => ?_, fun hl => ?_⟩, fun he => ⟨fun frame bytes tail n ht hl => ?_, fun hl => ?_, fun hl => ?_⟩⟩
    · rw [step_edge hp he, takeEdge, hl]
      rfl
    · rw [step_edge hp he]
      exact congrArg _ (setPort_link_same p { s with serial := rest } (Link.clockRise_idle hl b))
    · rw [step_edge hp he, takeEdge, hl]
      rfl
    · rw [step_edge hp he]
      exact congrArg _ (setPort_link_same p { s with serial := rest } (Link.clockFall_idle hl))
    · simp only [← byteBits_eq] at hl
      rw [step_selectRise hp he, hl, risenCommand_sending p frame bytes n ht]
      rfl
    · rw [step_selectRise hp he, hl]
      rfl
    · rw [step_selectRise hp he, hl]
      rfl
  · unfold dataOut
    rw [h]
    exact congrArg some (sentBit_eq frame n)

end Sys2Proof.Machine
end

section
/-! SUPPORT. The SCU's step (R62 to R77, R115 to R118) from the walks of the pending groups and of the crossed set, and the
arithmetic of a series (R42, R57, R59, R66). -/

namespace Sys2Proof.Machine

/-! ## Series -/

/-- A ceiling division by the interval counts the multiples of the interval that fall short of the gap (R57). -/
theorem behindCount_least {ap : Approach} {i gap : Nat} {t v : Int} (hi : 0 < i)
    (hc : behindCount ap i t v = (gap + i - 1) / i) :
    gap ≤ behindCount ap i t v * i ∧ ∀ n, n < behindCount ap i t v → n * i < gap := by
  rw [hc]
  exact ⟨ceilDiv_le hi, fun n hn => le_ceilDiv hi hn⟩

theorem behindCount_forward {i : Nat} (hi : 0 < i) (t v : Int) :
    behindCount .forward i t v = ((v - t).toNat + i - 1) / i := if_neg hi.ne'

theorem behindCount_reverse {i : Nat} (hi : 0 < i) (t v : Int) :
    behindCount .reverse i t v = ((t - v).toNat + i - 1) / i := if_neg hi.ne'

/-- Settles O40: the skip pattern is its definition, and in either direction the gap is the distance to the value. -/
theorem seriesArithmetic : Obligations.SeriesArithmetic := by
  refine ⟨fun d k => ?_, fun i t v hi => ?_, fun i t v hi => ?_⟩
  · simp [TriggerDesc.driven]
  · obtain ⟨reached, short⟩ := behindCount_least hi (behindCount_forward hi t v)
    refine ⟨by omega, fun n hn => ?_⟩
    have := short n hn
    omega
  · obtain ⟨reached, short⟩ := behindCount_least hi (behindCount_reverse hi t v)
    refine ⟨by omega, fun n hn => ?_⟩
    have := short n hn
    omega

/-! ## The SCU takes a step (R63) -/

theorem exec_scuStep_frozen {a : AxisId} {m : StepMsg} {rest : List StepMsg} {s : State} (hm : s.toScu[a] = m :: rest)
    (hf : m.frozen = true) : exec (.scuStep a) s = .next (s.setToScu a rest) := by
  show Host.Outcome.next (takeScuStep a s) = _
  unfold takeScuStep
  simp only [hm, hf, if_true]

theorem exec_scuStep_unfrozen {a : AxisId} {m : StepMsg} {rest : List StepMsg} {s : State} (hm : s.toScu[a] = m :: rest)
    (hf : m.frozen = false) :
    exec (.scuStep a) s = .next (scuStepWork a m (s.setToScu a rest)).done := by
  show Host.Outcome.next (takeScuStep a s) = _
  unfold takeScuStep
  simp only [hm, hf, Bool.false_eq_true, if_false]

/-- The crossed set of a step, in the words of R62. -/
theorem crossed_eq_any (s : State) (d : Direction) (v : Int) :
    crossed s d v = fun i : EntryIx => s.table[i].entry.any (fun e => decide (e.crossedBy d v)) := by
  funext i
  rw [Bool.eq_iff_iff, crossed_iff, Option.any_eq_true]
  simp

/-- A step that is not frozen: the groups it reaches, then the entries that it crosses as the groups have left them. -/
theorem scuStepWork_fires {a : AxisId} {m : StepMsg} {val : AxisId → Int} {s : State}
    (hv : Sees (some (a, m.value)) s val) (h : FiringOk s) :
    ∃ acts₁ t acts₂ v,
      Reaches val (.atPosition a m.value) (.atPosition a m.value m.dir) s.pendingGroups s acts₁ t
      ∧ Crosses val m.value (t.due[a].filter (crossed t m.dir m.value)) t acts₂ v
      ∧ scuStepWork a m s = ⟨v, acts₁ ++ acts₂⟩ := by
  obtain ⟨acts₁, t, happly, hreach, ht⟩ :=
    applyReached_reaches (.atPosition a m.value) (.atPosition a m.value m.dir) (.begin s) hv h
  have axes := (applyReached_scuOnly (.begin s) (some (a, m.value)) (.atPosition a m.value)
    (fun b => b == .atPosition a m.value m.dir)).axes
  rw [happly] at axes
  obtain ⟨acts₂, v, hfold, hcross, -⟩ :=
    foldl_crossEntry (t.due[a].filter (crossed t m.dir m.value)) ⟨t, acts₁⟩ (hv.congr axes) ht
  refine ⟨acts₁, t, acts₂, v, hreach, hcross, ?_⟩
  unfold scuStepWork
  dsimp only
  rw [happly]
  exact hfold

/-- Settles O39: a frozen step is taken and nothing more; for any other the walks of the event meet the relations. -/
theorem scuStep : Obligations.ScuStep := by
  intro a m rest s hm u
  refine ⟨exec_scuStep_frozen hm, ?_⟩
  intro hf hs he val
  have sees : Sees (some (a, m.value)) u val := fun b => by
    simp only [viewValue, val, eq_comm (a := a)]
    rfl
  have firing : FiringOk u := (FiringOk.of_laws hs he).congr rfl rfl
  obtain ⟨acts₁, t, acts₂, v, hreach, hcross, hwork⟩ := scuStepWork_fires sees firing
  refine ⟨acts₁, t, acts₂, v, hreach, crossed_eq_any t m.dir m.value ▸ hcross, ?_⟩
  calc exec (.scuStep a) s
      = .next (scuStepWork a m u).done := exec_scuStep_unfrozen hm hf
    _ = .next (sent v (acts₁ ++ acts₂)) := by rw [hwork, done_eq_sent]

end Sys2Proof.Machine
end

section
/-! SUPPORT. The commands of the mark inputs (R81, R82, R99 to R103) and the MKU's part of a teardown (R101): what their payloads
read, what each act answers, and from these what the part is after the frame (O12, O17, O31, O32). -/

namespace Sys2Proof.Machine

/-! ## MARK_READ and MARK_STATUS (R102, R103) -/

theorem captureBytes_eq (c : Capture) : c.bytes =
    [byte c.input.val, byte c.kind.code] ++ leBytes 2 c.seq.toNat ++ leBytes 4 c.stamp.toNat
      ++ leInt48 c.values[0] ++ leInt48 c.values[1] ++ leInt48 c.values[2] ++ leInt48 c.values[3]
      ++ [byte c.validities[0].code, byte c.validities[1].code, byte c.validities[2].code, byte c.validities[3].code] := by
  rw [Capture.bytes, toList_four, toList_four]
  simp [leBytes_one]

theorem markBytes_eq (r : MarkRec) : r.bytes =
    [byte r.state.code, byte (portCode r.holder)] ++ leBytes 2 r.seq.toNat
      ++ [byte r.misses, byte r.history.length, byte (if r.last.isSome then 1 else 0)]
      ++ leInt48 ((r.last.map (·.ref)).getD 0)
      ++ [byte r.refAxis.val, byte r.edge.code, byte r.direction.code] ++ leBytes 4 r.pitch ++ leBytes 4 r.tolerance
      ++ [byte r.missLimit, byte r.debounce] := by
  simp [MarkRec.bytes, leBytes_one, bit]

section
variable {pl : List Byte} {s : State}

theorem markReadAct_input (h : fin4 (field pl 0 1) = none) : markReadAct pl s = (s, .refuse .badField) := by
  unfold markReadAct
  rw [h]

theorem markStatusAct_input (h : fin4 (field pl 0 1) = none) : markStatusAct pl s = (s, .refuse .badField) := by
  unfold markStatusAct
  rw [h]

variable {m : MarkId} (h : fin4 (field pl 0 1) = some m)
include h

theorem markReadAct_age (ha : s.marks[m].history[field pl 1 1]? = none) : markReadAct pl s = (s, .refuse .badField) := by
  unfold markReadAct
  rw [h]
  dsimp only
  rw [ha]

theorem markReadAct_ok {c : Capture} (ha : s.marks[m].history[field pl 1 1]? = some c) : markReadAct pl s = (s, .ok c.bytes) := by
  unfold markReadAct
  rw [h]
  dsimp only
  rw [ha]

theorem markStatusAct_ok : markStatusAct pl s = (s, .ok s.marks[m].bytes) := by
  unfold markStatusAct
  rw [h]

end

theorem field_age (m age : Byte) : field [m, age] 1 1 = age.toNat := field_one age []

/-- Settles O12: by the input number, and for MARK_READ by the age. -/
theorem markReads : Obligations.MarkReads := by
  refine ⟨fun p m age s h hm => ⟨?_, ?_⟩, fun p m age s h ha => ?_, fun p m age c s h ha => ?_, fun p m s h => ?_⟩
  · exact congrArg _ (takeFrame_refused h rfl (markReadAct_input (fin4_none hm _)))
  · exact congrArg _ (takeFrame_refused h rfl (markStatusAct_input (fin4_none hm _)))
  · refine congrArg _ (takeFrame_refused h rfl (markReadAct_age (fin4_axis m _) ?_))
    rw [field_age]
    exact List.getElem?_eq_none ha
  · have act := markReadAct_ok (s := leaseRenewed s p) (fin4_axis m [age]) (by rw [field_age]; exact ha)
    rw [captureBytes_eq] at act
    exact congrArg _ (takeFrame_ok h rfl act rfl rfl)
  · have act := markStatusAct_ok (s := leaseRenewed s p) (fin4_axis m [])
    rw [markBytes_eq] at act
    exact congrArg _ (takeFrame_ok h rfl act rfl rfl)

/-! ## MARK_CONFIG (R81) -/

theorem fin4_eq_some {n : Nat} {i : Fin 4} : fin4 n = some i ↔ n = i.val := by
  unfold fin4
  split
  · simp [Fin.ext_iff]
  · simp
    omega

theorem Edge.code_of_ofCode {n : Nat} {e : Edge} (h : Edge.ofCode n = some e) : e.code = n := by
  match n, h with
  | 0, rfl | 1, rfl | 2, rfl => rfl

theorem Edge.ofCode_code (e : Edge) : Edge.ofCode e.code = some e := by cases e <;> rfl

theorem Edge.code_lt (e : Edge) : e.code < 3 := by cases e <;> decide

theorem Direction.code_of_ofCode {n : Nat} {d : Direction} (h : Direction.ofCode n = some d) : d.code = n := by
  match n, h with
  | 0, rfl | 1, rfl => rfl

theorem Direction.ofCode_code (d : Direction) : Direction.ofCode d.code = some d := by cases d <;> rfl

theorem Direction.code_lt (d : Direction) : d.code < 2 := by cases d <;> decide

theorem Direction.code_eq_one {d : Direction} : d.code = 1 ↔ d = .reverse := by cases d <;> decide

theorem field_leBytes_append {k n : Nat} (h : n < 256 ^ k) (bs : List Byte) : field (leBytes k n ++ bs) 0 k = n := by
  rw [field_append (leBytes_length k n).symm, leValue_leBytes, Nat.mod_eq_of_lt h]

/-- The payload of a MARK_CONFIG. -/
abbrev markConfigPayload (m a edge dir : Byte) (pitch tolerance : Nat) (limit debounce : Byte) : List Byte :=
  [m, a, edge, dir] ++ leBytes 4 pitch ++ leBytes 4 tolerance ++ [limit, debounce]

theorem parseMarkConfig_payload (m a edge dir : Byte) {pitch tolerance : Nat} (limit debounce : Byte) (hp : pitch < 4294967296)
    (ht : tolerance < 4294967296) : parseMarkConfig (markConfigPayload m a edge dir pitch tolerance limit debounce) = do
      let m ← fin4 m.toNat
      let a ← fin4 a.toNat
      let edge ← Edge.ofCode edge.toNat
      let dir ← Direction.ofCode dir.toNat
      demand (!(a == timeAxis && dir == .reverse))
      let pitch ← boundedNat 1 Config.countMax pitch
      demand (tolerance < pitch)
      let missLimit ← boundedNat 0 15 limit.toNat
      return { m := m, refAxis := a, edge := edge, direction := dir, pitch := pitch, tolerance := tolerance,
               missLimit := missLimit, debounce := debounce.toNat } := by
  set pl := markConfigPayload m a edge dir pitch tolerance limit debounce
  have pitchField : field pl 4 4 = pitch := field_leBytes_append (k := 4) hp (leBytes 4 tolerance ++ [limit, debounce])
  have toleranceField : field pl 8 4 = tolerance := field_leBytes_append (k := 4) ht [limit, debounce]
  have mField : field pl 0 1 = m.toNat := field_one ..
  have aField : field pl 1 1 = a.toNat := field_one ..
  have edgeField : field pl 2 1 = edge.toNat := field_one ..
  have dirField : field pl 3 1 = dir.toNat := field_one ..
  have limitField : field pl 12 1 = limit.toNat := field_one limit [debounce]
  have debounceField : field pl 13 1 = debounce.toNat := field_one debounce []
  rw [parseMarkConfig, mField, aField, edgeField, dirField, pitchField, toleranceField, limitField, debounceField]

section
variable {m a edge dir limit debounce : Byte} {pitch tolerance : Nat} (hp : pitch < 4294967296) (ht : tolerance < 4294967296)
include hp ht

/-- The nine reasons for which a MARK_CONFIG is BAD_FIELD. -/
theorem parseMarkConfig_none
    (h : 3 < m.toNat ∨ 3 < a.toNat ∨ 2 < edge.toNat ∨ 1 < dir.toNat ∨ (a = 3 ∧ dir = 1) ∨ pitch = 0 ∨ 2147483647 < pitch
      ∨ pitch ≤ tolerance ∨ 15 < limit.toNat) :
    parseMarkConfig (markConfigPayload m a edge dir pitch tolerance limit debounce) = none := by
  refine Option.eq_none_iff_forall_ne_some.2 fun c read => ?_
  rw [parseMarkConfig_payload m a edge dir limit debounce hp ht] at read
  simp only [Option.bind_eq_bind, Option.bind_eq_some_iff, demand_eq_some, boundedNat_eq_some, fin4_eq_some] at read
  obtain ⟨mi, hm, ai, ha, ek, hedge, dk, hdir, -, time, _, ⟨⟨low, high⟩, rfl⟩, -, within, _, ⟨⟨-, most⟩, rfl⟩, -⟩ := read
  have edgeCode := Edge.code_of_ofCode hedge
  have dirCode := Direction.code_of_ofCode hdir
  have edgeLt := ek.code_lt
  have dirLt := dk.code_lt
  have range : pitch ≤ 2147483647 := high
  have below : tolerance < pitch := of_decide_eq_true within
  have forward : ¬(a = 3 ∧ dir = 1) := by
    rintro ⟨rfl, rfl⟩
    have reverse := Direction.code_eq_one.1 dirCode
    have last : ai = timeAxis := Fin.ext ha.symm
    simp [reverse, last] at time
  simp only [forward, false_or] at h
  omega

end

theorem byte_toNat_of_lt {n : Nat} (h : n < 256) : (byte n).toNat = n := (byte_toNat n).trans (Nat.mod_eq_of_lt h)

theorem parseMarkConfig_some {mi : MarkId} {ai : AxisId} {ek : Edge} {dk : Direction} {pitch tolerance : Nat} {limit debounce : Byte}
    (hd : ¬(ai = 3 ∧ dk = .reverse)) (h1 : 1 ≤ pitch) (h2 : pitch ≤ 2147483647) (ht : tolerance < pitch) (hl : limit.toNat ≤ 15) :
    parseMarkConfig (markConfigPayload (byte mi.val) (byte ai.val) (byte ek.code) (byte dk.code) pitch tolerance limit debounce)
      = some ⟨mi, ai, ek, dk, pitch, tolerance, limit.toNat, debounce.toNat⟩ := by
  have edgeLt := ek.code_lt
  have dirLt := dk.code_lt
  have forward : (!(ai == timeAxis && dk == .reverse)) = true := by
    rw [Bool.not_eq_true', ← Bool.not_eq_true, Bool.and_eq_true, beq_iff_eq, beq_iff_eq]
    exact hd
  have range : boundedNat 1 Config.countMax pitch = some pitch := boundedNat_eq_some.2 ⟨⟨h1, h2⟩, rfl⟩
  rw [parseMarkConfig_payload _ _ _ _ _ _ (by omega) (by omega), byte_toNat_of_lt (by omega), byte_toNat_of_lt (by omega),
    byte_toNat_of_lt (by omega), byte_toNat_of_lt (by omega), fin4_eq_some.2 rfl, fin4_eq_some.2 rfl, Edge.ofCode_code,
    Direction.ofCode_code, range, boundedNat_eq_some.2 ⟨⟨Nat.zero_le _, hl⟩, rfl⟩]
  simp only [Option.bind_eq_bind, Option.bind_some, forward, decide_eq_true ht]
  rfl

section
variable {pl : List Byte} {s : State}

theorem markConfigAct_badField (h : parseMarkConfig pl = none) : markConfigAct pl s = (s, .refuse .badField) := by
  unfold markConfigAct
  rw [h]

variable {c : MarkConfigOp} (h : parseMarkConfig pl = some c)
include h

theorem markConfigAct_markState (hs : s.marks[c.m].state ≠ .idle) : markConfigAct pl s = (s, .refuse .markState) := by
  unfold markConfigAct
  rw [h]
  exact if_pos hs

theorem markConfigAct_ok (hs : s.marks[c.m].state = .idle) : markConfigAct pl s =
    (s.setMark c.m { s.marks[c.m] with
      refAxis := c.refAxis, edge := c.edge, direction := c.direction, pitch := c.pitch, tolerance := c.tolerance
      missLimit := c.missLimit, debounce := c.debounce }, .ok []) := by
  unfold markConfigAct
  rw [h]
  exact if_neg (not_not.2 hs)

end

/-- Settles O31: the fields, then the state of the input. -/
theorem markConfig : Obligations.MarkConfig := by
  intro p m a edge dir pitch tolerance limit debounce s h hp ht c
  have len : (markConfigPayload m a edge dir pitch tolerance limit debounce).length = Command.markConfig.length := rfl
  refine ⟨fun bad => ?_, ?_⟩
  · exact congrArg _ (takeFrame_refused h len (markConfigAct_badField (parseMarkConfig_none hp ht bad)))
  · rintro mi ai ek dk rfl rfl rfl rfl hd h1 h2 hlt hl
    have parsed := parseMarkConfig_some (mi := mi) (ek := ek) (debounce := debounce) hd h1 h2 hlt hl
    refine ⟨fun hs => ?_, fun hs => ?_⟩
    · exact congrArg _ (takeFrame_refused h len (markConfigAct_markState parsed hs))
    · exact congrArg _ (takeFrame_ok h len (markConfigAct_ok parsed hs) rfl rfl)

/-! ## MARK_START (R82) -/

section
variable {p : Port} {pl : List Byte} {s : State}

theorem markStartAct_badField (h : fin4 (field pl 0 1) = none) : markStartAct p pl s = (s, .refuse .badField) := by
  unfold markStartAct
  rw [h]

variable {m : MarkId} (h : fin4 (field pl 0 1) = some m)
include h

theorem markStartAct_markState (hs : s.marks[m].state ≠ .idle) : markStartAct p pl s = (s, .refuse .markState) := by
  unfold markStartAct
  rw [h]
  exact if_pos hs

variable (hs : s.marks[m].state = .idle)
include hs

theorem markStartAct_axisState (ha : s.axes[s.marks[m].refAxis].state = .disabled) :
    markStartAct p pl s = (s, .refuse .axisState) := by
  unfold markStartAct
  rw [h]
  exact (if_neg (not_not.2 hs)).trans (if_pos ha)

theorem markStartAct_ok (ha : s.axes[s.marks[m].refAxis].state ≠ .disabled) : markStartAct p pl s =
    (s.setMark m { s.marks[m] with
      state := if axisFrozen s s.marks[m].refAxis then .suspended else .seeking
      holder := some p, history := [], seq := 0, misses := 0, last := none, capture := none, deferred := false }, .ok []) := by
  unfold markStartAct
  rw [h]
  exact (if_neg (not_not.2 hs)).trans (if_neg ha)

end

/-! ## MARK_STOP (R99, R100) -/

/-- The stop of an input at the MKU is the loss of its marks, and its holder goes. -/
theorem stopInput_eq (m : MarkId) (s : State) : stopInput m s =
    MarkEffect.on ⟨{ s.marks[m] with state := .idle, holder := none, capture := none, deferred := false, misses := 0 },
      [⟨.markLost m .stopped s.marks[m].lastSeq s.axes[s.marks[m].refAxis].value, []⟩], []⟩ m s := by
  rw [stopInput, loseMarks_eq]
  unfold MarkEffect.on State.setMark
  simp

theorem marksOn_iff (e : Entry) (m : MarkId) : e.marksOn m = true ↔ e.desc.reference ≠ .absolute ∧ e.desc.mark = m := by
  rw [Entry.marksOn, Bool.and_eq_true, bne_iff_ne, beq_iff_eq]

/-- Another port has an entry on the input. -/
abbrev ForeignEntry (s : State) (m : MarkId) (p : Port) : Prop :=
  ∃ i : EntryIx, ∃ e ∈ s.table[i].entry, e.owner ≠ p ∧ e.desc.reference ≠ .absolute ∧ e.desc.mark = m

/-- Another port has a pending group AT_MARK on the input. -/
abbrev ForeignGroup (s : State) (m : MarkId) (p : Port) : Prop :=
  ∃ q : Port, q ≠ p ∧ s.groups[q].state = .pending ∧ s.groups[q].boundary = some (.atMark m)

/-- Check 4 of MARK_STOP (R99). -/
theorem inputForeign_iff (s : State) (m : MarkId) (p : Port) :
    inputForeign s m p = true ↔ ForeignEntry s m p ∨ ForeignGroup s m p := by
  rw [inputForeign, Bool.or_eq_true, List.any_eq_true, List.any_eq_true]
  refine or_congr ⟨fun ⟨e, he, hf⟩ => ?_, fun ⟨i, e, he, hf⟩ => ?_⟩ (exists_congr fun q => ?_)
  · obtain ⟨i, hi⟩ := (mem_entriesOf s e).1 he
    rw [Bool.and_eq_true, bne_iff_ne, marksOn_iff] at hf
    exact ⟨i, e, hi, hf⟩
  · refine ⟨e, (mem_entriesOf s e).2 ⟨i, he⟩, ?_⟩
    rwa [Bool.and_eq_true, bne_iff_ne, marksOn_iff]
  · simp [and_assoc]

section
variable {p : Port} {pl : List Byte} {s : State}

theorem markStopAct_badField (h : fin4 (field pl 0 1) = none) : markStopAct p pl s = (s, .refuse .badField) := by
  unfold markStopAct
  rw [h]

variable {m : MarkId} (h : fin4 (field pl 0 1) = some m)
include h

theorem markStopAct_markState (hs : s.marks[m].state = .idle) : markStopAct p pl s = (s, .refuse .markState) := by
  unfold markStopAct
  rw [h]
  exact if_pos hs

variable (hs : s.marks[m].state ≠ .idle)
include hs

theorem markStopAct_notOwner (ho : s.marks[m].holder ≠ some p) : markStopAct p pl s = (s, .refuse .notOwner) := by
  unfold markStopAct
  rw [h]
  exact (if_neg hs).trans (if_pos ho)

variable (ho : s.marks[m].holder = some p)
include ho

theorem markStopAct_held : markStopAct p pl s =
    if inputForeign s m p then (s, .refuse .inUse) else (tellScu (.stop m p) (stopInput m s), .ok []) := by
  unfold markStopAct
  rw [h]
  exact (if_neg hs).trans (if_neg (not_not.2 ho))

theorem markStopAct_inUse (hf : ForeignEntry s m p ∨ ForeignGroup s m p) : markStopAct p pl s = (s, .refuse .inUse) :=
  (markStopAct_held h hs ho).trans (if_pos ((inputForeign_iff s m p).2 hf))

theorem markStopAct_ok (hf : ¬(ForeignEntry s m p ∨ ForeignGroup s m p)) :
    markStopAct p pl s = (tellScu (.stop m p) (stopInput m s), .ok []) :=
  (markStopAct_held h hs ho).trans (if_neg (mt (inputForeign_iff s m p).1 hf))

end

/-- Settles O32: the checks of each command in order, and its effect. -/
theorem markStartAndStop : Obligations.MarkStartAndStop := by
  refine ⟨⟨fun p n s h hn => ?_, fun p m s h => ⟨fun hs => ?_, fun hs ha => ?_, fun hs ha => ?_⟩⟩,
    fun p n s h hn => ?_, fun p m s h => ⟨fun hs => ?_, fun hs ho => ?_, fun hs ho hf => ?_, fun hs ho he hg => ?_⟩⟩
  · exact congrArg _ (takeFrame_refused h rfl (markStartAct_badField (fin4_none hn _)))
  · exact congrArg _ (takeFrame_refused h rfl (markStartAct_markState (fin4_axis m _) hs))
  · exact congrArg _ (takeFrame_refused h rfl (markStartAct_axisState (fin4_axis m _) hs ha))
  · exact congrArg _ (takeFrame_ok h rfl (markStartAct_ok (fin4_axis m _) hs ha) rfl rfl)
  · exact congrArg _ (takeFrame_refused h rfl (markStopAct_badField (fin4_none hn _)))
  · exact congrArg _ (takeFrame_refused h rfl (markStopAct_markState (fin4_axis m _) hs))
  · exact congrArg _ (takeFrame_refused h rfl (markStopAct_notOwner (fin4_axis m _) hs ho))
  · exact congrArg _ (takeFrame_refused h rfl (markStopAct_inUse (fin4_axis m _) hs ho hf))
  · have act := markStopAct_ok (s := leaseRenewed s p) (fin4_axis m []) hs ho (not_or.2 ⟨he, hg⟩)
    rw [stopInput_eq, MarkEffect.on, List.append_nil] at act
    exact congrArg _ (takeFrame_ok h rfl act rfl rfl)

/-! ## The MKU's part of a teardown (R101) -/

/-- An input that the port holds is stopped, and the SCU is told so. -/
def releasing (p : Port) (axes : Vector AxisRec 4) (m : MarkId) (r : MarkRec) : MarkEffect :=
  if r.holder = some p then
    ⟨{ r with state := .idle, holder := none, capture := none, deferred := false, misses := 0 },
      [⟨.markLost m .stopped r.lastSeq axes[r.refAxis].value, []⟩], [.holderStop m]⟩
  else ⟨r, [], []⟩

theorem releaseInput_eq (p : Port) (s : State) (m : MarkId) :
    releaseInput p s m = (releasing p s.axes m s.marks[m]).on m s := by
  unfold releaseInput releasing
  split
  · rw [stopInput_eq, MarkEffect.on, List.append_nil]
    rfl
  · exact (on_same m s).symm

/-- The inputs that a port holds, in ascending number. -/
abbrev heldInputs (s : State) (p : Port) : List MarkId := (List.finRange 4).filter (fun m => decide (s.marks[m].holder = some p))

theorem releaseInputs_eq (p : Port) (s : State) :
    ∃ marks : Vector MarkRec 4, releaseInputs p s = { s with
        marks := marks
        mkuToScu := s.mkuToScu ++ (heldInputs s p).map .holderStop
        posted := s.posted ++ (heldInputs s p).map (fun m =>
          ⟨.markLost m .stopped s.marks[m].lastSeq s.axes[s.marks[m].refAxis].value, []⟩) }
      ∧ ∀ m : MarkId, marks[m] = if s.marks[m].holder = some p then
          { s.marks[m] with state := .idle, holder := none, capture := none, deferred := false, misses := 0 } else s.marks[m] := by
  obtain ⟨marks, h1, h2⟩ := foldl_on (f := releaseInput p) (axes := s.axes) (effect := releasing p s.axes)
    (fun t m ht => by rw [releaseInput_eq, ht]) (List.nodup_finRange 4) s rfl
  refine ⟨marks, ?_, fun m => ?_⟩
  · have posted : (List.finRange 4).flatMap (fun m => (releasing p s.axes m s.marks[m]).posted)
        = (heldInputs s p).map (fun m => ⟨.markLost m .stopped s.marks[m].lastSeq s.axes[s.marks[m].refAxis].value, []⟩) := by
      rw [← flatMap_ite_singleton]
      refine List.flatMap_congr fun m _ => ?_
      unfold releasing
      by_cases hm : s.marks[m].holder = some p
      · rw [if_pos hm, if_pos (decide_eq_true hm)]
      · rw [if_neg hm, if_neg (mt of_decide_eq_true hm)]
    have handed : (List.finRange 4).flatMap (fun m => (releasing p s.axes m s.marks[m]).handed)
        = (heldInputs s p).map .holderStop := by
      rw [← flatMap_ite_singleton]
      refine List.flatMap_congr fun m _ => ?_
      unfold releasing
      by_cases hm : s.marks[m].holder = some p
      · rw [if_pos hm, if_pos (decide_eq_true hm)]
      · rw [if_neg hm, if_neg (mt of_decide_eq_true hm)]
    rw [posted, handed] at h1
    exact h1
  · rw [h2 m, if_pos (List.mem_finRange m)]
    unfold releasing
    split <;> rfl

/-- Settles O17: every input at once, and the report. -/
theorem mkuTeardown : Obligations.MkuTeardown := by
  intro p s h held
  obtain ⟨marks, h1, h2⟩ := releaseInputs_eq p s
  have done : teardownPart p .mku (releaseInputs p) s = reportPart p .mku (releaseInputs p s) := if_pos h
  rw [h1] at done
  exact ⟨_, congrArg Host.Outcome.next done, rfl, h2⟩

end Sys2Proof.Machine
end

section
/-! SUPPORT. What an edge, the end of a debounce and a step do at a mark input (R83 to R90): the operations of the MKU on an input
whose record was just written, as effects at that input (O33, O34, O35). -/

namespace Sys2Proof.Machine

/-! ## A change of level (R79, R83) -/

/-- A change to this level is an edge that the input captures. -/
abbrev Edge.Captures (e : Edge) (level : Bool) : Prop := e = .both ∨ e = .rise ∧ level = true ∨ e = .fall ∧ level = false

theorem selects_iff (e : Edge) (level : Bool) : e.selects level = true ↔ e.Captures level := by
  cases e <;> simp [Edge.selects, Edge.Captures]

/-- The level of a mark pin is this, the input not having seen it yet. -/
def pinChanged (m : MarkId) (level : Bool) (s : State) : State :=
  { s with pins := { s.pins with mark := upd s.pins.mark m level } }

section
variable {m : MarkId} {level : Bool} {s : State} (hr : s.inReset = false) (hl : level ≠ s.marks[m].level)
include hr hl

theorem markChange_quiet (h : s.marks[m].state = .idle ∨ s.marks[m].state = .suspended) :
    markChange m level s = (pinChanged m level s).setMark m { s.marks[m] with level := level } := by
  unfold markChange
  dsimp only
  rw [if_neg (ne_true_of_eq_false hr), if_neg hl]
  split
  next => rfl
  next => rfl
  next hs => exact absurd h (by rw [hs]; decide)
  next hs => exact absurd h (by rw [hs]; decide)

theorem markChange_active (h : s.marks[m].state = .seeking ∨ s.marks[m].state = .tracking) :
    markChange m level s = edgeSeen m level ((pinChanged m level s).setMark m { s.marks[m] with level := level }) := by
  unfold markChange
  dsimp only
  rw [if_neg (ne_true_of_eq_false hr), if_neg hl]
  split
  next hs => exact absurd h (by rw [hs]; decide)
  next hs => exact absurd h (by rw [hs]; decide)
  next => rfl
  next => rfl

end

/-! ## Misses (R87) -/

/-- What an input does asks for the axes and the uptime alone. -/
theorem missed_congr (r : MarkRec) (m : MarkId) (l : LastMark) {s t : State} (h1 : t.axes = s.axes) (h2 : t.uptime = s.uptime) :
    r.missed m l t = r.missed m l s := by
  unfold MarkRec.missed
  rw [h1, h2]

theorem deferredMiss_congr (r : MarkRec) (m : MarkId) (l : LastMark) {s t : State} (h1 : t.axes = s.axes) (h2 : t.uptime = s.uptime) :
    r.deferredMiss m l t = r.deferredMiss m l s := by
  unfold MarkRec.deferredMiss
  rw [missed_congr _ m l h1 h2, h1]

theorem judged_congr (r : MarkRec) (m : MarkId) (l : LastMark) (c : Capture) {s t : State} (h1 : t.axes = s.axes)
    (h2 : t.uptime = s.uptime) : r.judged m l c t = r.judged m l c s := by
  unfold MarkRec.judged
  rw [deferredMiss_congr r m l h1 h2]

section
variable (m : MarkId) (s : State) (r : MarkRec)

theorem setMark_setMark (r' : MarkRec) : (s.setMark m r).setMark m r' = s.setMark m r' := by
  unfold State.setMark
  rw [upd_upd]

/-- With no deferred miss there is none to resolve. -/
theorem resolveDeferred_none (h : r.deferred = false) : resolveDeferred m (s.setMark m r) = s.setMark m r :=
  if_neg (by rw [setMark_get, h]; decide)

section
variable (hc : r.capture = none) {l : LastMark} (hs : r.state = .tracking) (hl : r.last = some l)
include hc hs hl

theorem resolveDeferred_tracking : resolveDeferred m (s.setMark m r) = (r.deferredMiss m l s).on m s := by
  rw [resolveDeferred_eq m l (s.setMark m r) (by rw [setMark_get]; exact hs) (by rw [setMark_get]; exact hc)
    (by rw [setMark_get]; exact hl), on_setMark, setMark_get]
  exact congrArg (fun x => MarkEffect.on x m s) (deferredMiss_congr r m l rfl rfl)

/-! ## A capture that is judged (R85, R86) -/

theorem judgeCapture_tracking (c : Capture) : judgeCapture m c (s.setMark m r) = (r.judged m l c s).on m s := by
  rw [judgeCapture_eq m l c (s.setMark m r) (by rw [setMark_get]; exact hs) (by rw [setMark_get]; exact hc)
    (by rw [setMark_get]; exact hl), on_setMark, setMark_get]
  exact congrArg (fun x => MarkEffect.on x m s) (judged_congr r m l c rfl rfl)

end

theorem judgeCapture_seeking (hc : r.capture = none) (hs : r.state = .seeking) (c : Capture) :
    judgeCapture m c (s.setMark m r) = (r.counted m c .real c.values[r.refAxis] 0).on m s := by
  have accept := acceptCapture_eq m c (s.setMark m r) (by rw [setMark_get]; exact hc)
  simp only [on_setMark, setMark_get] at accept
  rw [← accept]
  unfold judgeCapture
  simp only [setMark_get, hs]

end

/-- The end of a debounce: the capture is judged, no longer pending. -/
theorem endDebounce_eq {m : MarkId} {p : PendingCapture} {s : State} (hc : s.marks[m].capture = some p) (hp : p.remaining = 0) :
    endDebounce m s = judgeCapture m p.record (s.setMark m { s.marks[m] with capture := none }) := by
  unfold endDebounce
  rw [hc]
  exact if_pos hp

/-! ## An edge at an active input (R83, R84) -/

section
variable (m : MarkId) (s : State) (r : MarkRec) {level : Bool}

section
variable (h : r.edge.Captures level)
include h

theorem edgeSeen_atOnce (hd : r.debounce = 0) : edgeSeen m level (s.setMark m r)
    = judgeCapture m (captureNow m s) (s.setMark m { r with capture := none }) := by
  unfold edgeSeen
  dsimp only
  rw [setMark_get, if_pos ((selects_iff ..).2 h), if_pos hd, setMark_setMark]
  rfl

theorem edgeSeen_captured (hd : r.debounce ≠ 0) : edgeSeen m level (s.setMark m r)
    = s.setMark m { r with capture := some ⟨captureNow m s, r.debounce⟩ } := by
  unfold edgeSeen
  dsimp only
  rw [setMark_get, if_pos ((selects_iff ..).2 h), if_neg hd, setMark_setMark]
  rfl

end

section
variable (h : ¬r.edge.Captures level)
include h

/-- An edge of the other kind discards the pending capture. -/
theorem edgeSeen_discards (hc : r.capture ≠ none) : edgeSeen m level (s.setMark m r)
    = resolveDeferred m (s.setMark m { r with capture := none }) := by
  unfold edgeSeen
  dsimp only
  rw [setMark_get, if_neg (mt (selects_iff ..).1 h), if_pos (Option.isSome_iff_ne_none.2 hc), setMark_setMark]

/-- With no capture pending, or with no deferred miss beside it, an edge of the other kind does nothing more. -/
theorem edgeSeen_ignored (hc : r.capture = none ∨ r.deferred = false) : edgeSeen m level (s.setMark m r)
    = s.setMark m { r with capture := none } := by
  by_cases hn : r.capture = none
  · have same : { r with capture := none } = r := by rw [← hn]
    unfold edgeSeen
    dsimp only
    rw [setMark_get, if_neg (mt (selects_iff ..).1 h), same, hn]
    rfl
  · rw [edgeSeen_discards m s r h hn]
    exact resolveDeferred_none m s _ (hc.resolve_left hn)

end

end

/-- Settles O33: at the end of a debounce and at an edge that is judged at once. -/
theorem markAccepted : Obligations.MarkAccepted := by
  intro m s hs r accept
  refine ⟨fun p hc hp => ?_, fun level hr hl hd hsel => ?_⟩
  · exact congrArg _ ((endDebounce_eq hc hp).trans (judgeCapture_seeking m s { r with capture := none } rfl hs p.record))
  · have judged := edgeSeen_atOnce m (pinChanged m level s) { r with level := level } hsel hd
    rw [judgeCapture_seeking m (pinChanged m level s) { r with level := level, capture := none } rfl hs] at judged
    exact congrArg _ ((markChange_active hr hl (.inl hs)).trans judged)

/-- Settles O34: by the state of the input and the kind of the edge. -/
theorem markEdges : Obligations.MarkEdges := by
  intro m level s hr hl r pins u selected c
  have quiet (h : r.state = .idle ∨ r.state = .suspended) : exec (.markEdge m level) s = .next (u r) :=
    congrArg _ (markChange_quiet hr hl h)
  have active {t : State} (h : r.state = .seeking ∨ r.state = .tracking)
      (ht : edgeSeen m level ((pinChanged m level s).setMark m { r with level := level }) = t) :
      exec (.markEdge m level) s = .next t := congrArg _ ((markChange_active hr hl h).trans ht)
  refine ⟨quiet, fun h hsel hd => active h ?_, fun l h hsel hd hlast => active (.inr h) ?_, fun h hsel hc => active h ?_,
    fun l h hsel hc hlast => active (.inr h) ?_⟩
  · exact edgeSeen_captured m (pinChanged m level s) { r with level := level } hsel hd
  · rw [edgeSeen_atOnce m _ { r with level := level } hsel hd,
      judgeCapture_tracking m _ { r with level := level, capture := none } rfl h hlast,
      judged_congr (s := s) (t := pinChanged m level s) _ m l _ rfl rfl]
    rfl
  · exact edgeSeen_ignored m (pinChanged m level s) { r with level := level } hsel hc
  · rw [edgeSeen_discards m _ { r with level := level } hsel hc,
      resolveDeferred_tracking m _ { r with level := level, capture := none } rfl h hlast,
      deferredMiss_congr (s := s) (t := pinChanged m level s) _ m l rfl rfl]
    rfl

/-! ## A step (R87 to R89) -/

theorem stepped_frozen (r : MarkRec) (m : MarkId) (a : AxisId) {msg : StepMsg} (s : State) (hf : msg.frozen = true) :
    r.stepped m a msg s = ⟨r, [], []⟩ := by
  unfold MarkRec.stepped
  cases r.last with
  | none => rfl
  | some l => exact if_neg fun k => ne_true_of_eq_false k.2.2.2.1 hf

theorem takeMkuStep_eq {a : AxisId} {msg : StepMsg} {rest : List AxuEvent} {s : State} (h : s.toMku[a] = .step msg :: rest) :
    takeMkuStep a s = if msg.frozen then s.setToMku a rest else (List.finRange 4).foldl (trackStep a msg) (s.setToMku a rest) := by
  unfold takeMkuStep
  rw [h]

/-- A step, frozen or not, at the four inputs. -/
theorem takeMkuStep_effects {a : AxisId} {msg : StepMsg} {rest : List AxuEvent} {s : State} (h : s.toMku[a] = .step msg :: rest) :
    ∃ marks : Vector MarkRec 4, takeMkuStep a s = { s with
        toMku := upd s.toMku a rest, marks := marks
        posted := s.posted ++ (List.finRange 4).flatMap (fun m => (s.marks[m].stepped m a msg s).posted)
        mkuToScu := s.mkuToScu ++ (List.finRange 4).flatMap (fun m => (s.marks[m].stepped m a msg s).handed) }
      ∧ ∀ m : MarkId, marks[m] = (s.marks[m].stepped m a msg s).record := by
  rw [takeMkuStep_eq h]
  by_cases hf : msg.frozen = true
  · refine ⟨s.marks, ?_, fun m => by rw [stepped_frozen _ m a s hf]⟩
    rw [if_pos hf, List.flatMap_eq_nil_iff.2 fun m _ => by rw [stepped_frozen _ m a s hf],
      List.flatMap_eq_nil_iff.2 fun m _ => by rw [stepped_frozen _ m a s hf], List.append_nil, List.append_nil]
    rfl
  · obtain ⟨t, h1, h2, h3⟩ := foldl_trackStep a msg (eq_false_of_ne_true hf) (List.finRange 4) (List.nodup_finRange 4) (s.setToMku a rest)
    rw [if_neg hf, h1]
    refine ⟨t.marks, h2, fun m => ?_⟩
    rw [h3 m, if_pos (List.mem_finRange m)]
    rfl

/-- Settles O35: a capture judged at the end of its debounce, and a step at every input. -/
theorem markWindowAndMiss : Obligations.MarkWindowAndMiss := by
  refine ⟨fun m l p s hs hlast hc hp => ?_, fun a msg rest s h => ?_⟩
  · exact congrArg _ ((endDebounce_eq hc hp).trans
      (judgeCapture_tracking m s { s.marks[m] with capture := none } rfl hs hlast p.record))
  · obtain ⟨marks, h1, h2⟩ := takeMkuStep_effects h
    exact ⟨_, congrArg Host.Outcome.next h1, rfl, h2⟩

end Sys2Proof.Machine
end

section
/-! SUPPORT. The SCU takes a mark (R92 to R96, R115 to R118) from the walks of the pending groups, of the owed-mark set and of the
waiting set (O41). -/

namespace Sys2Proof.Machine

/-- The owed-mark set, in the words of R92. -/
theorem owesOn_eq_any (s : State) (m : MarkId) : owesOn s m = fun i : EntryIx => s.table[i].entry.any (fun e =>
    decide (e.state = .armed ∧ e.desc.reference = .markEach ∧ e.desc.mark = m)) := by
  funext i
  unfold owesOn
  rw [Bool.eq_iff_iff]
  cases s.table[i].entry <;> simp [and_assoc]

/-- The waiting entries on an input, in the words of R92. -/
theorem waitsOn_eq_any (s : State) (m : MarkId) : waitsOn s m = fun i : EntryIx => s.table[i].entry.any (fun e =>
    decide (e.state = .waiting ∧ e.desc.reference ≠ .absolute ∧ e.desc.mark = m)) := by
  funext i
  unfold waitsOn
  rw [Bool.eq_iff_iff]
  cases s.table[i].entry <;> simp [marksOn_iff]

/-- The due lists one after another, by axis. -/
theorem flatten_due (s : State) : s.due.toList.flatten = s.due[0] ++ s.due[1] ++ s.due[2] ++ s.due[3] := by
  rw [toList_four]
  simp

/-- The groups that a mark reaches, then the entries that owe it as the groups have left them, then those that wait for it. -/
theorem takeMark_resolves {c : Capture} {s : State} (h : FiringOk s) :
    ∃ acts₁ t₁ t₂ acts₂ t₃,
      Reaches (fun a => s.axes[a].value) (.atMark c.input c.seq) (.atMark c.input) s.pendingGroups s acts₁ t₁
      ∧ Owes c (t₁.due.toList.flatten.filter (owesOn t₁ c.input)) t₁ t₂
      ∧ Resolves (fun a => s.axes[a].value) c (t₂.waiting.filter (waitsOn t₂ c.input)) t₂ acts₂ t₃
      ∧ takeMark c s = sent t₃ (acts₁ ++ acts₂) := by
  have sees : Sees none s (fun a => s.axes[a].value) := fun _ => rfl
  obtain ⟨acts₁, t₁, happly, hreach, firing₁⟩ := applyReached_reaches (.atMark c.input c.seq) (.atMark c.input) (.begin s) sees h
  have axes₁ := (applyReached_scuOnly (.begin s) none (.atMark c.input c.seq) (fun b => b == .atMark c.input)).axes
  rw [happly] at axes₁
  set owing := t₁.due.toList.flatten.filter (owesOn t₁ c.input)
  obtain ⟨howes, firing₂⟩ := foldl_giveOwed c owing t₁ firing₁ fun i hi => owesOn_markEach (List.mem_filter.1 hi).2
  set t₂ := owing.foldl (giveOwed c) t₁
  have axes₂ : t₂.axes = t₁.axes := (foldl_scuOnly (fun s i => giveOwed_scuOnly s c i) owing t₁).axes
  obtain ⟨acts₂, t₃, hfold, hresolve, -⟩ := foldl_resolveEntry c (t₂.waiting.filter (waitsOn t₂ c.input)) ⟨t₂, acts₁⟩
    ((sees.congr axes₁).congr axes₂) firing₂
  refine ⟨acts₁, t₁, t₂, acts₂, t₃, hreach, howes, hresolve, ?_⟩
  unfold takeMark
  dsimp only
  rw [happly]
  exact (congrArg Work.done hfold).trans (done_eq_sent _)

theorem takeMarkHandoff_eq {c : Capture} {rest : List MkuHandoff} {s : State} (h : s.mkuToScu = .mark c :: rest) :
    takeMarkHandoff s = takeMark c { s with mkuToScu := rest } := by
  unfold takeMarkHandoff
  rw [h]

/-- Settles O41: the three walks of the event, in its own words. -/
theorem markResolves : Obligations.MarkResolves := by
  intro c rest s h hs he val owing waits
  have firing : FiringOk { s with mkuToScu := rest } := (FiringOk.of_laws hs he).congr rfl rfl
  obtain ⟨acts₁, t₁, t₂, acts₂, t₃, hreach, howes, hresolve, hmark⟩ := takeMark_resolves (c := c) firing
  rw [flatten_due, owesOn_eq_any] at howes
  rw [waitsOn_eq_any] at hresolve
  exact ⟨acts₁, t₁, t₂, acts₂, t₃, hreach, howes, hresolve, congrArg _ ((takeMarkHandoff_eq h).trans hmark)⟩

end Sys2Proof.Machine
end

section
/-! SUPPORT. A stop request at the SCU (R100, R101, R111, R122, R125): the entries it frees, the groups it closes, the bursts it ends
and the staged ARMs it marks, each said apart, and from these the whole event (O42). -/

namespace Sys2Proof.Machine

/-! ## Entries freed one after another -/

/-- The entries of a list are freed. -/
def freeAll (l : List EntryIx) (s : State) : State := l.foldl (fun s i => freeEntry i s) s

/-- Freeing entries commutes with a change that freeing one of them commutes with. -/
theorem freeAll_comm {f : State → State} (h : ∀ s i, freeEntry i (f s) = f (freeEntry i s)) (l : List EntryIx) (s : State) :
    freeAll l (f s) = f (freeAll l s) := List.foldl_hom f fun s i => h s i

theorem freeAll_append (l l' : List EntryIx) (s : State) : freeAll (l ++ l') s = freeAll l' (freeAll l s) := List.foldl_append

theorem freeAll_groups (l : List EntryIx) (s : State) : (freeAll l s).groups = s.groups := by
  induction l generalizing s with
  | nil => rfl
  | cons i l ih => exact ih (freeEntry i s)

/-- Entries that stand in no due list leave the due lists as they are. -/
theorem freeAll_spec {l : List EntryIx} {s : State} (hl : l.Nodup) (hd : ∀ i ∈ l, ∀ a : AxisId, i ∉ s.due[a]) :
    ∃ table : Vector Slot 256,
      freeAll l s = { s with table := table, waiting := s.waiting.filter (fun i => !l.contains i) }
      ∧ ∀ i : EntryIx, table[i] = if i ∈ l then ⟨s.table[i].gen + 1, none⟩ else s.table[i] := by
  obtain ⟨t, h1, h2, h3, h4⟩ := foldl_freeEntry l hl s
  have due : t.due = s.due := by
    ext1 a ha
    refine (h3 ⟨a, ha⟩).trans (List.filter_eq_self.2 fun i hi => ?_)
    have absent : i ∉ l := fun k => hd i k ⟨a, ha⟩ hi
    simpa using absent
  rw [due] at h2
  exact ⟨t.table, h1.trans h2, h4⟩

/-! ## Withdrawals (R100, R101) -/

/-- WITHDRAWN for the entry at an index, if there is one. -/
def withdrawnNotice (m : MarkId) (cause : WithdrawCause) (s : State) (i : EntryIx) : List Posting :=
  s.table[i].entry.toList.map fun e => ⟨.withdrawn ⟨i, s.table[i].gen⟩ e.desc.tag m cause, [e.owner]⟩

theorem withdraw_eq (m : MarkId) (cause : WithdrawCause) {s : State} {i : EntryIx} (h : s.table[i].entry ≠ none) :
    withdraw m cause s i = { freeEntry i s with posted := s.posted ++ withdrawnNotice m cause s i } := by
  obtain ⟨e, he⟩ := Option.ne_none_iff_exists'.1 h
  unfold withdraw withdrawnNotice
  simp only [he]
  rfl

/-- The withdrawals are the freeing of the entries, with a notice for each. -/
theorem foldl_withdraw (m : MarkId) (cause : WithdrawCause) {l : List EntryIx} (hl : l.Nodup) (s : State)
    (he : ∀ i ∈ l, s.table[i].entry ≠ none) :
    l.foldl (withdraw m cause) s = { freeAll l s with posted := s.posted ++ l.flatMap (withdrawnNotice m cause s) } := by
  induction l generalizing s with
  | nil =>
    rw [List.flatMap_nil, List.append_nil]
    rfl
  | cons i l ih =>
    obtain ⟨hi, hl⟩ := List.nodup_cons.1 hl
    have first := withdraw_eq m cause (he i List.mem_cons_self)
    have others : ∀ j ∈ l, (withdraw m cause s i).table[j] = s.table[j] := fun j hj => by
      rw [first, freeEntry_eq]
      exact upd_get_ne _ _ (ne_of_mem_of_not_mem hj hi)
    have notices : l.flatMap (withdrawnNotice m cause (withdraw m cause s i)) = l.flatMap (withdrawnNotice m cause s) :=
      List.flatMap_congr fun j hj => by rw [withdrawnNotice, others j hj]; rfl
    have freed (x : List Posting) : freeAll l { freeEntry i s with posted := x } = { freeAll l (freeEntry i s) with posted := x } :=
      freeAll_comm (f := fun u => { u with posted := x }) (fun _ _ => rfl) l (freeEntry i s)
    rw [List.foldl_cons, ih hl _ fun j hj => by rw [others j hj]; exact he j (List.mem_cons_of_mem _ hj), notices, first, freed,
      List.flatMap_cons, ← List.append_assoc]
    rfl

/-! ## Discards (R122, R125) -/

/-- A group is closed with GROUP_DISCARDED to its port, what it reserves left aside. -/
def closeNoticed (cause : DiscardCause) (s : State) (p : Port) : State :=
  post (.groupDiscarded cause s.groups[p].ops.length s.groups[p].boundary) [p] (closeGroup p s)

theorem discardNoticed_eq (p : Port) (cause : DiscardCause) (s : State) :
    discardNoticed p cause s = freeAll (reservedBy s p) (closeNoticed cause s p) :=
  (freeAll_comm (f := fun u => post (.groupDiscarded cause s.groups[p].ops.length s.groups[p].boundary) [p] (closeGroup p u))
    (fun _ _ => rfl) (reservedBy s p) s).symm

theorem closeNoticed_freeAll (cause : DiscardCause) (l : List EntryIx) (p : Port) (s : State) :
    closeNoticed cause (freeAll l s) p = freeAll l (closeNoticed cause s p) :=
  (freeAll_comm (f := fun u => closeNoticed cause u p) (fun _ _ => rfl) l s).symm

/-- A group that a stop request discards: pending AT_MARK on the input, of a port that the request covers. -/
def discards (covers : Port → Bool) (m : MarkId) (s : State) (p : Port) : Bool :=
  decide (covers p ∧ s.groups[p].state = .pending ∧ s.groups[p].boundary = some (.atMark m))

theorem discardAtMark_eq (covers : Port → Bool) (m : MarkId) (s : State) (p : Port) : discardAtMark covers m s p =
    if discards covers m s p then freeAll (reservedBy s p) (closeNoticed .markStopped s p) else s := by
  unfold discardAtMark discards
  simp only [decide_eq_true_eq, discardNoticed_eq]

theorem discards_congr {covers : Port → Bool} {m : MarkId} {s t : State} {p : Port} (h : t.groups[p] = s.groups[p]) :
    discards covers m t p = discards covers m s p := by
  unfold discards
  rw [h]

theorem reservedBy_congr {s t : State} {p : Port} (h : t.groups[p] = s.groups[p]) : reservedBy t p = reservedBy s p := by
  unfold reservedBy
  rw [h]

/-- The discards are the closing of the groups with a notice for each, and the freeing of what they reserved. -/
theorem foldl_discardAtMark (covers : Port → Bool) (m : MarkId) {l : List Port} (hl : l.Nodup) (s : State) :
    l.foldl (discardAtMark covers m) s = freeAll ((l.filter (discards covers m s)).flatMap (reservedBy s))
      ((l.filter (discards covers m s)).foldl (closeNoticed .markStopped) s) := by
  induction l generalizing s with
  | nil => rfl
  | cons p l ih =>
    obtain ⟨hp, hl⟩ := List.nodup_cons.1 hl
    rw [List.foldl_cons, ih hl, discardAtMark_eq]
    by_cases h : discards covers m s p = true
    · rw [if_pos h, List.filter_cons_of_pos h, List.flatMap_cons, List.foldl_cons, freeAll_append]
      set u := closeNoticed .markStopped s p
      have others : ∀ q ∈ l, (freeAll (reservedBy s p) u).groups[q] = s.groups[q] := fun q hq => by
        rw [freeAll_groups]
        exact upd_get_ne _ _ (ne_of_mem_of_not_mem hq hp)
      have same : l.filter (discards covers m (freeAll (reservedBy s p) u)) = l.filter (discards covers m s) :=
        List.filter_congr fun q hq => discards_congr (others q hq)
      have reserved : (l.filter (discards covers m s)).flatMap (reservedBy (freeAll (reservedBy s p) u))
          = (l.filter (discards covers m s)).flatMap (reservedBy s) :=
        List.flatMap_congr fun q hq => reservedBy_congr (others q (List.mem_of_mem_filter hq))
      have closed : (l.filter (discards covers m s)).foldl (closeNoticed .markStopped) (freeAll (reservedBy s p) u)
          = freeAll (reservedBy s p) ((l.filter (discards covers m s)).foldl (closeNoticed .markStopped) u) :=
        List.foldl_hom (freeAll (reservedBy s p)) fun t q => closeNoticed_freeAll .markStopped _ q t
      rw [same, reserved, closed]
    · rw [if_neg h, List.filter_cons_of_neg h]

/-- GROUP_DISCARDED to a port, for its group as it stands. -/
def discardedNotice (cause : DiscardCause) (s : State) (p : Port) : Posting :=
  ⟨.groupDiscarded cause s.groups[p].ops.length s.groups[p].boundary, [p]⟩

/-- A group that is closed; its expiry period stays (log 15). -/
def GroupRec.closed (g : GroupRec) : GroupRec := { g with state := .none, ops := [], boundary := none, remaining := 0 }

theorem foldl_closeNoticed (cause : DiscardCause) {l : List Port} (hl : l.Nodup) (s : State) :
    ∃ groups : Vector GroupRec 4, l.foldl (closeNoticed cause) s = { s with
        groups := groups, pendingGroups := s.pendingGroups.filter (fun p => !l.contains p)
        posted := s.posted ++ l.map (discardedNotice cause s) }
      ∧ ∀ p : Port, groups[p] = if p ∈ l then s.groups[p].closed else s.groups[p] := by
  induction l generalizing s with
  | nil => exact ⟨s.groups, by simp, by simp⟩
  | cons q l ih =>
    obtain ⟨hq, hl⟩ := List.nodup_cons.1 hl
    obtain ⟨groups, h1, h2⟩ := ih hl (closeNoticed cause s q)
    have first : (closeNoticed cause s q).groups = upd s.groups q s.groups[q].closed := rfl
    have others : ∀ p : Port, p ≠ q → (closeNoticed cause s q).groups[p] = s.groups[p] := fun p hp => upd_get_ne _ _ hp
    have notices : l.map (discardedNotice cause (closeNoticed cause s q)) = l.map (discardedNotice cause s) :=
      List.map_congr_left fun p hp => by rw [discardedNotice, others p (ne_of_mem_of_not_mem hp hq)]; rfl
    refine ⟨groups, ?_, fun p => ?_⟩
    · rw [List.foldl_cons, h1, notices, closeNoticed, closeGroup_eq]
      simp only [post, List.filter_filter, List.append_assoc, List.map_cons, List.singleton_append, discardedNotice]
      congr 2
      funext p
      simp [Bool.and_comm]
    · rw [h2 p]
      rcases eq_or_ne p q with rfl | hp
      · rw [if_neg hq, if_pos List.mem_cons_self, first]
        exact upd_get ..
      · simp only [List.mem_cons, hp, false_or, others p hp]

/-- The ports whose groups a stop request discards, in the order of the pending-group list. -/
def discardedPorts (covers : Port → Bool) (m : MarkId) (s : State) : List Port := s.pendingGroups.filter (discards covers m s)

/-- The entries that the discarded groups reserved. -/
def discardedEntries (covers : Port → Bool) (m : MarkId) (s : State) : List EntryIx := (discardedPorts covers m s).flatMap (reservedBy s)

/-- The discards at the end of a stop request, when no entry that they free stands in a due list. -/
theorem discardsAtMark_spec {covers : Port → Bool} {m : MarkId} {s : State} (hp : s.pendingGroups.Nodup)
    (hr : (discardedEntries covers m s).Nodup) (hd : ∀ i ∈ discardedEntries covers m s, ∀ a : AxisId, i ∉ s.due[a]) :
    ∃ (table : Vector Slot 256) (groups : Vector GroupRec 4), s.pendingGroups.foldl (discardAtMark covers m) s = { s with
        table := table, groups := groups
        pendingGroups := s.pendingGroups.filter (fun p => !(discardedPorts covers m s).contains p)
        waiting := s.waiting.filter (fun i => !(discardedEntries covers m s).contains i)
        posted := s.posted ++ (discardedPorts covers m s).map (discardedNotice .markStopped s) }
      ∧ (∀ i : EntryIx, table[i] = if i ∈ discardedEntries covers m s then ⟨s.table[i].gen + 1, none⟩ else s.table[i])
      ∧ ∀ p : Port, groups[p] = if p ∈ discardedPorts covers m s then s.groups[p].closed else s.groups[p] := by
  obtain ⟨groups, h1, h2⟩ := foldl_closeNoticed .markStopped (hp.filter (discards covers m s)) s
  obtain ⟨table, h3, h4⟩ := freeAll_spec (s := (discardedPorts covers m s).foldl (closeNoticed .markStopped) s) hr (by
    rw [discardedPorts, h1]
    exact hd)
  rw [discardedPorts, h1, ← discardedPorts] at h3 h4
  refine ⟨table, groups, ?_, h4, h2⟩
  rw [foldl_discardAtMark covers m hp, ← discardedPorts, ← discardedEntries]
  rw [discardedPorts, h1, ← discardedPorts]
  exact h3

/-! ## Bursts and staged ARMs (R75, R100, R101, R111) -/

/-- An entry whose burst a stop request ends: ARMED, MARK_EACH on the input, of a port that the request covers. -/
abbrev Entry.BurstOn (e : Entry) (covers : Port → Bool) (m : MarkId) : Prop :=
  e.state = .armed ∧ e.desc.reference = .markEach ∧ e.desc.mark = m ∧ covers e.owner = true

/-- The record of an entry after a stop request. -/
def Entry.burstEnded (e : Entry) (covers : Port → Bool) (m : MarkId) : Entry :=
  if e.BurstOn covers m then { e with owed := none, finalBurst := true } else e

theorem stopBurst_eq (covers : Port → Bool) (m : MarkId) (x : Slot) :
    x.stopBurst covers m = ⟨x.gen, x.entry.map (·.burstEnded covers m)⟩ := by
  obtain ⟨gen, entry⟩ := x
  cases entry with
  | none => rfl
  | some e =>
    unfold Slot.stopBurst Entry.burstEnded
    dsimp only [Option.map_some]
    split <;> rfl

theorem burstEnded_staged {e : Entry} (h : e.state = .staged) (covers : Port → Bool) (m : MarkId) : e.burstEnded covers m = e :=
  if_neg fun k => absurd (h.symm.trans k.1) (by decide)

/-- The bursts end. -/
def burstsEnded (covers : Port → Bool) (m : MarkId) (s : State) : State := { s with table := s.table.map (Slot.stopBurst covers m) }

/-- The group of a covered port after its staged ARMs are marked. -/
def GroupRec.armsMarked (g : GroupRec) (s : State) (m : MarkId) : GroupRec := { g with ops := g.ops.map (GroupOp.markStopped s m) }

/-- The staged ARMs are marked. -/
def armsMarked (covers : Port → Bool) (m : MarkId) (s : State) : State :=
  { s with groups := .ofFn fun p => if covers p then s.groups[p].armsMarked s m else s.groups[p] }

theorem armsMarked_group (covers : Port → Bool) (m : MarkId) (s : State) (p : Port) :
    (armsMarked covers m s).groups[p] = if covers p then s.groups[p].armsMarked s m else s.groups[p] := Vector.getElem_ofFn ..

theorem reserved_markStopped (s : State) (m : MarkId) (op : GroupOp) : (op.markStopped s m).reserved = op.reserved := by
  cases op <;> rfl

/-- Marking keeps what an operation reserves. -/
theorem reservedBy_armsMarked (covers : Port → Bool) (m : MarkId) (s : State) (p : Port) :
    reservedBy (armsMarked covers m s) p = reservedBy s p := by
  unfold reservedBy
  rw [armsMarked_group]
  split
  · rw [GroupRec.armsMarked, List.filterMap_map]
    exact congrArg (fun f => List.filterMap f s.groups[p].ops) (funext (reserved_markStopped s m))
  · rfl

/-! ## The whole event -/

/-- The entries that a stop request withdraws, in waiting-set order. -/
def withdrawnEntries (covers : Port → Bool) (m : MarkId) (s : State) : List EntryIx :=
  s.waiting.filter (fun i => waitsOn s m i && s.table[i].entry.any (fun e => covers e.owner))

theorem mem_withdrawnEntries {covers : Port → Bool} {m : MarkId} {s : State} {i : EntryIx} (h : i ∈ withdrawnEntries covers m s) :
    ∃ e, s.table[i].entry = some e ∧ e.state = .waiting := by
  have waits := (Bool.and_eq_true_iff.1 (List.mem_filter.1 h).2).1
  rw [waitsOn_eq_any, Option.any_eq_true] at waits
  obtain ⟨e, he, waits⟩ := waits
  exact ⟨e, he, (of_decide_eq_true waits).1⟩

theorem mem_reservedBy {s : State} (hs : StagedOk s) {p : Port} {i : EntryIx} (h : i ∈ reservedBy s p) :
    ∃ e, s.table[i].entry = some e ∧ e.state = .staged ∧ e.owner = p := by
  have staged := ((hs p).2 i).1 h
  rw [stagedFor, Option.any_eq_true] at staged
  obtain ⟨e, he, staged⟩ := staged
  rw [Bool.and_eq_true, beq_iff_eq, beq_iff_eq] at staged
  exact ⟨e, he, staged⟩

/-- An entry that is not ARMED stands in no due list. -/
theorem ScheduleOk.not_due {s : State} (hs : ScheduleOk s) {i : EntryIx} {e : Entry} (he : s.table[i].entry = some e)
    (h : e.state ≠ .armed) (a : AxisId) : i ∉ s.due[a] := by
  rw [hs.1, armedOn, he]
  simp [h]

/-- An entry that is not WAITING is not in the waiting set. -/
theorem ScheduleOk.not_waiting {s : State} (hs : ScheduleOk s) {i : EntryIx} {e : Entry} (he : s.table[i].entry = some e)
    (h : e.state ≠ .waiting) : i ∉ s.waiting := by
  rw [hs.2.1, isWaiting, he]
  simp [h]

/-- Groups reserve each entry once, and no two the same. -/
theorem nodup_reserved {s : State} (hs : StagedOk s) {l : List Port} (hl : l.Nodup) : (l.flatMap (reservedBy s)).Nodup := by
  refine List.nodup_flatMap.2 ⟨fun p _ => (hs p).1, hl.imp fun {p q} hpq i hp hq => ?_⟩
  obtain ⟨e, he, -, rfl⟩ := mem_reservedBy hs hp
  obtain ⟨e', he', -, rfl⟩ := mem_reservedBy hs hq
  exact hpq (by rw [Option.some.inj (he.symm.trans he')])

/-- The entries are withdrawn and the bursts end. -/
def stoppedEntries (covers : Port → Bool) (m : MarkId) (cause : WithdrawCause) (s : State) : State :=
  burstsEnded covers m ((withdrawnEntries covers m s).foldl (withdraw m cause) s)

theorem stoppedEntries_spec {s : State} (hs : ScheduleOk s) (covers : Port → Bool) (m : MarkId) (cause : WithdrawCause) :
    ∃ table : Vector Slot 256, stoppedEntries covers m cause s = { s with
        table := table, waiting := s.waiting.filter (fun i => !(withdrawnEntries covers m s).contains i)
        posted := s.posted ++ (withdrawnEntries covers m s).flatMap (withdrawnNotice m cause s) }
      ∧ ∀ i : EntryIx, table[i] = if i ∈ withdrawnEntries covers m s then ⟨s.table[i].gen + 1, none⟩
          else ⟨s.table[i].gen, s.table[i].entry.map (·.burstEnded covers m)⟩ := by
  have nodup : (withdrawnEntries covers m s).Nodup := hs.2.2.2.1.filter _
  obtain ⟨table, h1, h2⟩ := freeAll_spec nodup fun i hi => by
    obtain ⟨e, he, hw⟩ := mem_withdrawnEntries hi
    exact hs.not_due he (by rw [hw]; decide)
  have withdrawn := foldl_withdraw m cause nodup s fun i hi => by
    obtain ⟨e, he, -⟩ := mem_withdrawnEntries hi
    rw [he]
    exact Option.some_ne_none e
  rw [h1] at withdrawn
  refine ⟨table.map (Slot.stopBurst covers m), ?_, fun i => ?_⟩
  · rw [stoppedEntries, withdrawn]
    rfl
  · refine ((Vector.getElem_map ..).trans (stopBurst_eq ..)).trans ?_
    rw [← Fin.getElem_fin, h2 i]
    split <;> rfl

/-- A staged entry is neither withdrawn nor in a burst. -/
theorem stoppedEntries_staged {s : State} (hs : ScheduleOk s) (covers : Port → Bool) (m : MarkId) (cause : WithdrawCause)
    {i : EntryIx} {e : Entry} (he : s.table[i].entry = some e) (h : e.state = .staged) :
    (stoppedEntries covers m cause s).table[i].entry = some e := by
  obtain ⟨table, h1, h2⟩ := stoppedEntries_spec hs covers m cause
  have stays : i ∉ withdrawnEntries covers m s := fun k => hs.not_waiting he (by rw [h]; decide) (List.mem_of_mem_filter k)
  have slot : (stoppedEntries covers m cause s).table[i] = table[i] := by rw [h1]
  rw [slot, h2 i, if_neg stays, he, Option.map_some, burstEnded_staged h]

theorem discards_armsMarked (covers : Port → Bool) (m : MarkId) (s : State) :
    discards covers m (armsMarked covers m s) = discards covers m s := by
  funext p
  unfold discards
  rw [armsMarked_group]
  split <;> rfl

theorem discardedNotice_armsMarked (cause : DiscardCause) (covers : Port → Bool) (m : MarkId) (s : State) :
    discardedNotice cause (armsMarked covers m s) = discardedNotice cause s := by
  funext p
  unfold discardedNotice
  rw [armsMarked_group]
  split
  · rw [GroupRec.armsMarked, List.length_map]
  · rfl

/-- The state at the first discard of a stop request. -/
def beforeDiscards (covers : Port → Bool) (m : MarkId) (cause : WithdrawCause) (s : State) : State :=
  armsMarked covers m (stoppedEntries covers m cause s)

theorem stopAtScu_eq (covers : Port → Bool) (m : MarkId) (cause : WithdrawCause) (s : State) : stopAtScu covers m cause s =
    (beforeDiscards covers m cause s).pendingGroups.foldl (discardAtMark covers m) (beforeDiscards covers m cause s) := rfl

section
variable {s : State} (hs : ScheduleOk s) (covers : Port → Bool) (m : MarkId) (cause : WithdrawCause)
include hs

theorem stoppedEntries_groups : (stoppedEntries covers m cause s).groups = s.groups := by
  obtain ⟨table, h, -⟩ := stoppedEntries_spec hs covers m cause
  rw [h]

theorem discardedPorts_beforeDiscards : discardedPorts covers m (beforeDiscards covers m cause s) = discardedPorts covers m s := by
  obtain ⟨table, h, -⟩ := stoppedEntries_spec hs covers m cause
  have kept : (stoppedEntries covers m cause s).pendingGroups = s.pendingGroups := by rw [h]
  have list : (beforeDiscards covers m cause s).pendingGroups = s.pendingGroups := kept
  rw [discardedPorts, discardedPorts, list, beforeDiscards, discards_armsMarked]
  exact List.filter_congr fun p _ => discards_congr (by rw [stoppedEntries_groups hs])

theorem discardedEntries_beforeDiscards : discardedEntries covers m (beforeDiscards covers m cause s) = discardedEntries covers m s := by
  rw [discardedEntries, discardedEntries, discardedPorts_beforeDiscards hs]
  refine List.flatMap_congr fun p _ => (reservedBy_armsMarked covers m _ p).trans (reservedBy_congr ?_)
  rw [stoppedEntries_groups hs]

theorem discardedNotice_beforeDiscards (c : DiscardCause) :
    discardedNotice c (beforeDiscards covers m cause s) = discardedNotice c s := by
  rw [beforeDiscards, discardedNotice_armsMarked]
  funext p
  rw [discardedNotice, stoppedEntries_groups hs]
  rfl

theorem beforeDiscards_group (p : Port) : (beforeDiscards covers m cause s).groups[p] =
    if covers p then s.groups[p].armsMarked (stoppedEntries covers m cause s) m else s.groups[p] := by
  rw [beforeDiscards, armsMarked_group, stoppedEntries_groups hs]

/-- The part after a stop request. -/
theorem stopAtScu_spec (hg : GroupsOk s) (hst : StagedOk s) :
    ∃ (table : Vector Slot 256) (groups : Vector GroupRec 4), stopAtScu covers m cause s = { s with
        table := table, groups := groups
        pendingGroups := s.pendingGroups.filter (fun p => !(discardedPorts covers m s).contains p)
        waiting := s.waiting.filter (fun i => !(withdrawnEntries covers m s).contains i)
        posted := s.posted ++ (withdrawnEntries covers m s).flatMap (withdrawnNotice m cause s)
          ++ (discardedPorts covers m s).map (discardedNotice .markStopped s) }
      ∧ (∀ i : EntryIx, table[i] = if i ∈ withdrawnEntries covers m s ∨ i ∈ discardedEntries covers m s then ⟨s.table[i].gen + 1, none⟩
          else ⟨s.table[i].gen, s.table[i].entry.map (·.burstEnded covers m)⟩)
      ∧ ∀ p : Port, groups[p] = if p ∈ discardedPorts covers m s then s.groups[p].closed
          else if covers p then s.groups[p].armsMarked (stoppedEntries covers m cause s) m else s.groups[p] := by
  set u := beforeDiscards covers m cause s with hu
  obtain ⟨table₁, h1, slots₁⟩ := stoppedEntries_spec hs covers m cause
  have marked : u = { s with
      table := table₁, groups := u.groups, waiting := s.waiting.filter (fun i => !(withdrawnEntries covers m s).contains i)
      posted := s.posted ++ (withdrawnEntries covers m s).flatMap (withdrawnNotice m cause s) } :=
    congrArg (fun x : State => { x with groups := u.groups }) h1
  have uTable : u.table = table₁ := congrArg State.table marked
  have staged : ∀ i ∈ discardedEntries covers m s, ∃ e, s.table[i].entry = some e ∧ e.state = .staged := fun i hi => by
    obtain ⟨p, -, hp⟩ := List.mem_flatMap.1 hi
    obtain ⟨e, he, h, -⟩ := mem_reservedBy hst hp
    exact ⟨e, he, h⟩
  have notWaiting : ∀ i ∈ discardedEntries covers m s, i ∉ s.waiting := fun i hi => by
    obtain ⟨e, he, h⟩ := staged i hi
    exact hs.not_waiting he (by rw [h]; decide)
  have nodup : u.pendingGroups.Nodup := by rw [marked]; exact hg.2.2
  obtain ⟨table, groups, h2, slots, groupsAt⟩ := discardsAtMark_spec (covers := covers) (m := m) (s := u) nodup
    (by rw [hu, discardedEntries_beforeDiscards hs]; exact nodup_reserved hst (hg.2.2.filter _))
    (fun i hi a => by
      rw [hu, discardedEntries_beforeDiscards hs] at hi
      obtain ⟨e, he, h⟩ := staged i hi
      rw [marked]
      exact hs.not_due he (by rw [h]; decide) a)
  rw [hu, discardedEntries_beforeDiscards hs, ← hu] at slots
  rw [hu, discardedPorts_beforeDiscards hs, ← hu] at groupsAt
  rw [hu, discardedEntries_beforeDiscards hs, discardedPorts_beforeDiscards hs, discardedNotice_beforeDiscards hs, ← hu] at h2
  refine ⟨table, groups, ?_, fun i => ?_, fun p => ?_⟩
  · have waiting : (s.waiting.filter (fun i => !(withdrawnEntries covers m s).contains i)).filter
          (fun i => !(discardedEntries covers m s).contains i)
        = s.waiting.filter (fun i => !(withdrawnEntries covers m s).contains i) := List.filter_eq_self.2 fun i hi => by
      have absent : i ∉ discardedEntries covers m s := fun k => notWaiting i k (List.mem_of_mem_filter hi)
      simpa using absent
    have unfolded := h2.trans (congrArg (fun x : State => { x with
      table := table, groups := groups
      pendingGroups := x.pendingGroups.filter (fun p => !(discardedPorts covers m s).contains p)
      waiting := x.waiting.filter (fun i => !(discardedEntries covers m s).contains i)
      posted := x.posted ++ (discardedPorts covers m s).map (discardedNotice .markStopped s) }) marked)
    dsimp only at unfolded
    rw [waiting] at unfolded
    exact (stopAtScu_eq covers m cause s).trans unfolded
  · rw [slots i, uTable, slots₁ i]
    by_cases hR : i ∈ discardedEntries covers m s
    · have stays : i ∉ withdrawnEntries covers m s := fun k => notWaiting i hR (List.mem_of_mem_filter k)
      rw [if_pos hR, if_pos (Or.inr hR), if_neg stays]
    · simp only [hR, if_false, or_false]
  · rw [groupsAt p, hu, beforeDiscards_group hs]
    by_cases hp : p ∈ discardedPorts covers m s
    · rw [if_pos hp, if_pos hp]
      split <;> rfl
    · rw [if_neg hp, if_neg hp]

end

/-! ## The words of R100 and R101 -/

theorem marksOn_eq (e : Entry) (m : MarkId) : e.marksOn m = decide (e.desc.reference ≠ .absolute ∧ e.desc.mark = m) := by
  rw [Bool.eq_iff_iff, marksOn_iff, decide_eq_true_iff]

theorem withdrawnEntries_eq (covers : Port → Bool) (m : MarkId) (s : State) : withdrawnEntries covers m s =
    s.waiting.filter (fun i => s.table[i].entry.any (fun e =>
      e.state == .waiting && decide (e.desc.reference ≠ .absolute ∧ e.desc.mark = m) && covers e.owner)) := by
  unfold withdrawnEntries waitsOn
  refine List.filter_congr fun i _ => ?_
  cases s.table[i].entry with
  | none => rfl
  | some e =>
    show (e.state == .waiting && e.marksOn m && covers e.owner) = _
    rw [marksOn_eq]
    rfl

/-- What remains of a list without the elements that a filter picks from it. -/
theorem filter_not_contains {α : Type} [BEq α] [LawfulBEq α] (f : α → Bool) (l : List α) :
    l.filter (fun x => !(l.filter f).contains x) = l.filter (fun x => !f x) := by
  refine List.filter_congr fun x hx => ?_
  rw [List.contains_eq_mem]
  simp [hx]

/-- A group in the pending-group list is PENDING, so its port and its boundary decide. -/
theorem discardedPorts_eq {s : State} (hg : GroupsOk s) (covers : Port → Bool) (m : MarkId) : discardedPorts covers m s =
    s.pendingGroups.filter (fun p => covers p && s.groups[p].boundary == some (.atMark m)) := by
  refine List.filter_congr fun p hp => ?_
  have pending := (hg.2.1 p).1 hp
  rw [discards, Bool.eq_iff_iff, decide_eq_true_iff, Bool.and_eq_true, beq_iff_eq]
  simp only [pending, true_and]

theorem mem_discardedPorts {covers : Port → Bool} {m : MarkId} {s : State} {p : Port} (h : p ∈ discardedPorts covers m s) :
    covers p = true ∧ s.groups[p].boundary = some (.atMark m) := by
  obtain ⟨hc, -, hb⟩ := of_decide_eq_true (List.mem_filter.1 h).2
  exact ⟨hc, hb⟩

/-- A staged ARM is marked when its entry is relative to the input. -/
theorem markStopped_arm {s : State} {i : EntryIx} {e : Entry} (he : s.table[i].entry = some e) (m : MarkId) (stopped : Bool) :
    (GroupOp.arm i stopped).markStopped s m
      = .arm i (stopped || decide (e.desc.reference ≠ .absolute ∧ e.desc.mark = m)) := by
  rw [GroupOp.markStopped, he, Option.any_some, marksOn_eq]

theorem markStopped_other (s : State) (m : MarkId) {op : GroupOp} (h : ∀ i stopped, op ≠ .arm i stopped) :
    op.markStopped s m = op := by
  cases op with
  | arm i stopped => exact absurd rfl (h i stopped)
  | cancel | drive => rfl

theorem takeStopRequest_eq {m : MarkId} {issuer : Port} {rest : List MkuHandoff} {s : State}
    (h : s.mkuToScu = .stop m issuer :: rest) :
    takeStopRequest s = stopAtScu (fun q => decide (q = issuer)) m .stopped { s with mkuToScu := rest } := by
  unfold takeStopRequest
  rw [h]
  rfl

theorem takeHolderStop_eq {m : MarkId} {rest : List MkuHandoff} {s : State} (h : s.mkuToScu = .holderStop m :: rest) :
    takeHolderStop s = stopAtScu (fun _ => true) m .holderGone { s with mkuToScu := rest } := by
  unfold takeHolderStop
  rw [h]

/-- The operations of a covered port's group after the event, read at an index. -/
theorem armsMarked_ops {s : State} (hs : ScheduleOk s) (covers : Port → Bool) (m : MarkId) (cause : WithdrawCause) (g : GroupRec)
    {k : Nat} {op : GroupOp} (hop : g.ops[k]? = some op) :
    let ops := (g.armsMarked (stoppedEntries covers m cause s) m).ops
    (∀ i stopped, op = .arm i stopped → ∀ e, s.table[i].entry = some e → e.state = .staged →
      ops[k]? = some (.arm i (stopped || decide (e.desc.reference ≠ .absolute ∧ e.desc.mark = m))))
    ∧ ((∀ i stopped, op ≠ .arm i stopped) → ops[k]? = some op) := by
  intro ops
  have marked : ops[k]? = some (op.markStopped (stoppedEntries covers m cause s) m) :=
    List.getElem?_map.trans (congrArg (Option.map _) hop)
  refine ⟨fun i stopped harm e he staged => ?_, fun other => ?_⟩
  · rw [marked, harm, markStopped_arm (stoppedEntries_staged hs covers m cause he staged)]
  · rw [marked, markStopped_other _ m other]

/-- Settles O42: the two requests differ in the ports they cover and in the cause. -/
theorem stopRequests : Obligations.StopRequests := by
  intro m rest s hs hg hst on effect
  suffices event : ∀ c covers cause, exec c s = .next (stopAtScu covers m cause { s with mkuToScu := rest }) →
      effect c covers cause from
    ⟨fun issuer h => event .stopRequest (fun q => decide (q = issuer)) .stopped (congrArg Host.Outcome.next (takeStopRequest_eq h)),
      fun h => event .holderStopRequest (fun _ => true) .holderGone (congrArg Host.Outcome.next (takeHolderStop_eq h))⟩
  intro c covers cause hc
  dsimp -zeta only [effect]
  intro gone leaving gives
  have left : leaving = withdrawnEntries covers m s := (withdrawnEntries_eq covers m s).symm
  have closes : gives = discardedPorts covers m s := (discardedPorts_eq hg covers m).symm
  have stays : s.waiting.filter (fun i => !(withdrawnEntries covers m s).contains i) = s.waiting.filter (fun i => !gone i) := by
    rw [← left]
    exact filter_not_contains gone s.waiting
  have notices : (discardedPorts covers m s).map (discardedNotice .markStopped s)
      = (discardedPorts covers m s).map (fun p => ⟨.groupDiscarded .markStopped s.groups[p].ops.length (some (.atMark m)), [p]⟩) :=
    List.map_congr_left fun p hp => by rw [discardedNotice, (mem_discardedPorts hp).2]
  have reserved (i : EntryIx) : i ∈ discardedEntries covers m s ↔ ∃ p ∈ gives, i ∈ reservedBy s p := by
    rw [closes]
    exact List.mem_flatMap
  obtain ⟨table, groups, form, slots, groupsAt⟩ := stopAtScu_spec (s := { s with mkuToScu := rest }) hs covers m cause hg hst
  refine ⟨_, hc.trans (congrArg Host.Outcome.next form), ?_, fun i hi => ?_, fun i hi hr => ?_,
    fun p => ⟨fun hp => ?_, fun hcov => ?_, fun hcov hp => ?_⟩⟩
  · rw [left, closes, ← stays, ← notices]
    rfl
  · rw [left, ← reserved] at hi
    exact (slots i).trans (if_pos hi)
  · rw [left] at hi
    refine (slots i).trans (if_neg (not_or.2 ⟨hi, fun k => ?_⟩))
    obtain ⟨p, hp, hip⟩ := (reserved i).1 k
    exact hr p hp hip
  · rw [closes] at hp
    exact (groupsAt p).trans (if_pos hp)
  · have absent : p ∉ discardedPorts covers m s := fun k => by
      rw [(mem_discardedPorts k).1] at hcov
      exact Bool.noConfusion hcov
    exact (groupsAt p).trans ((if_neg absent).trans (if_neg (by rw [hcov]; decide)))
  · rw [closes] at hp
    have group := (groupsAt p).trans ((if_neg hp).trans (if_pos hcov))
    refine ⟨?_, ?_, fun k op hop => ?_⟩
    · show groups[p] = { s.groups[p] with ops := groups[p].ops }
      rw [group]
      rfl
    · show groups[p].ops.length = _
      rw [group]
      exact List.length_map _
    · show (∀ i stopped, _ → ∀ e, _ → _ → groups[p].ops[k]? = _) ∧ (_ → groups[p].ops[k]? = _)
      rw [group]
      exact armsMarked_ops (s := { s with mkuToScu := rest }) hs covers m cause s.groups[p] hop

end Sys2Proof.Machine
end

section
/-! SUPPORT. What becomes of the groups and of the STAGED entries (R105 to R123): every command is a sequence of a few moves of
groups, so that the laws of the groups are shown once for each move (O58). -/

namespace Sys2Proof.Machine

/-! ## STAGED entries -/

/-- The groups stay as they are, and so do the STAGED entries but those of the list, which are STAGED no longer. -/
structure Unstaged (l : List EntryIx) (s t : State) : Prop where
  groups : t.groups = s.groups
  list : t.pendingGroups = s.pendingGroups
  staged : ∀ (i : EntryIx) (p : Port), stagedFor t i p = true ↔ stagedFor s i p = true ∧ i ∉ l

/-- Only one place of the table changes, no STAGED entry stands there afterwards, and the groups stay as they are. -/
structure Leaves (i : EntryIx) (s t : State) : Prop where
  groups : t.groups = s.groups
  list : t.pendingGroups = s.pendingGroups
  others : ∀ j : EntryIx, j ≠ i → t.table[j] = s.table[j]
  here : ∀ e ∈ t.table[i].entry, e.state ≠ .staged

theorem stagedFor_iff {s : State} {i : EntryIx} {p : Port} :
    stagedFor s i p = true ↔ ∃ e, s.table[i].entry = some e ∧ e.state = .staged ∧ e.owner = p := by
  simp [stagedFor, Option.any_eq_true]

theorem stagedFor_congr {s t : State} {i : EntryIx} (h : t.table[i] = s.table[i]) (p : Port) : stagedFor t i p = stagedFor s i p := by
  rw [stagedFor, stagedFor, h]

section
variable {s t u : State} {i : EntryIx} {e : Entry}

theorem Unstaged.of_eq (h1 : t.table = s.table) (h2 : t.groups = s.groups) (h3 : t.pendingGroups = s.pendingGroups) :
    Unstaged [] s t := by
  refine ⟨h2, h3, fun i p => ?_⟩
  have same : stagedFor t i p = stagedFor s i p := stagedFor_congr (congrArg (·[i]) h1) p
  rw [same]
  simp

theorem Unstaged.refl (s : State) : Unstaged [] s s := .of_eq rfl rfl rfl

theorem Unstaged.trans {l l' : List EntryIx} (h : Unstaged l s t) (k : Unstaged l' t u) : Unstaged (l ++ l') s u := by
  refine ⟨k.groups.trans h.groups, k.list.trans h.list, fun i p => ?_⟩
  rw [k.staged, h.staged, List.mem_append]
  tauto

/-- A list whose entries were not STAGED may be forgotten. -/
theorem Unstaged.forget {l : List EntryIx} (h : Unstaged l s t) (hl : ∀ i ∈ l, ∀ p, stagedFor s i p ≠ true) : Unstaged [] s t := by
  refine ⟨h.groups, h.list, fun i p => ?_⟩
  have absent : stagedFor s i p = true → i ∉ l := fun staged hi => hl i hi p staged
  rw [h.staged]
  simpa using absent

theorem Unstaged.foldl {α β : Type} {f : α → β → α} (st : α → State) (freed : β → List EntryIx)
    (h : ∀ a b, Unstaged (freed b) (st a) (st (f a b))) (l : List β) (a : α) :
    Unstaged (l.flatMap freed) (st a) (st (l.foldl f a)) := by
  induction l generalizing a with
  | nil => exact .refl _
  | cons b l ih => exact (h a b).trans (ih (f a b))

/-- A fold whose passes leave the groups and the STAGED entries as they are. -/
theorem Unstaged.foldl_stays {α β : Type} {f : α → β → α} (st : α → State) (h : ∀ a b, Unstaged [] (st a) (st (f a b)))
    (l : List β) (a : α) : Unstaged [] (st a) (st (l.foldl f a)) :=
  foldl_rel (R := fun a b => Unstaged [] (st a) (st b)) (fun _ => .refl _) (fun _ _ _ => .trans) h l a

/-- An entry is rewritten in its place, in its state and with its owner. -/
theorem Unstaged.rewrites {e' : Entry} (he : s.table[i].entry = some e) (hstate : e'.state = e.state) (howner : e'.owner = e.owner) :
    Unstaged [] s (writeEntry i e' s) := by
  refine ⟨rfl, rfl, fun j p => ?_⟩
  have same : stagedFor (writeEntry i e' s) j p = stagedFor s j p := by
    rcases eq_or_ne j i with rfl | hj
    · have written : (writeEntry j e' s).table[j].entry = some e' := congrArg Slot.entry (upd_get ..)
      rw [stagedFor, stagedFor, written, he, Option.any_some, Option.any_some, hstate, howner]
    · exact stagedFor_congr (upd_get_ne _ _ hj) p
  rw [same]
  simp

theorem Unstaged.done (w : Work) : Unstaged [] w.st w.done := by
  unfold Work.done
  split
  · exact .refl _
  · exact .of_eq rfl rfl rfl

/-! ## One place of the table -/

theorem Leaves.of_upd {x : Slot} (h1 : t.table = upd s.table i x) (h2 : t.groups = s.groups) (h3 : t.pendingGroups = s.pendingGroups)
    (hx : ∀ e ∈ x.entry, e.state ≠ .staged) : Leaves i s t := by
  refine ⟨h2, h3, fun j hj => ?_, ?_⟩
  · rw [h1, upd_get_ne _ _ hj]
  · rw [h1, upd_get]
    exact hx

theorem Leaves.unstaged (h : Leaves i s t) : Unstaged [i] s t := by
  refine ⟨h.groups, h.list, fun j p => ?_⟩
  rcases eq_or_ne j i with rfl | hj
  · have none : stagedFor t j p ≠ true := fun k => by
      obtain ⟨e, he, staged, -⟩ := stagedFor_iff.1 k
      exact h.here e he staged
    simp [none]
  · rw [stagedFor_congr (h.others j hj)]
    simp [hj]

/-- What does not start from a STAGED entry leaves all of them as they are. -/
theorem Leaves.stays (h : Leaves i s t) (hi : ∀ e ∈ s.table[i].entry, e.state ≠ .staged) : Unstaged [] s t :=
  h.unstaged.forget fun j hj p k => by
    obtain rfl := List.mem_singleton.1 hj
    obtain ⟨e, he, staged, -⟩ := stagedFor_iff.1 k
    exact hi e he staged

theorem Leaves.of_posts (ht : ∃ posts, t = { s with posted := posts }) (h : Leaves i t u) : Leaves i s u := by
  obtain ⟨posts, rfl⟩ := ht
  exact ⟨h.groups, h.list, h.others, h.here⟩

theorem Leaves.then_posts (h : Leaves i s t) (hu : ∃ posts, u = { t with posted := posts }) : Leaves i s u := by
  obtain ⟨posts, rfl⟩ := hu
  exact ⟨h.groups, h.list, h.others, h.here⟩

theorem Leaves.freeEntry (i : EntryIx) (s : State) : Leaves i s (freeEntry i s) := .of_upd rfl rfl rfl (by simp)

theorem Leaves.placeArmed (i : EntryIx) (e : Entry) (t : Int) (s : State) : Leaves i s (placeArmed i e t s) :=
  .of_upd rfl rfl rfl (by rintro _ ⟨⟩; exact fun k => nomatch k)

theorem Leaves.placeWaiting (i : EntryIx) (e : Entry) (s : State) : Leaves i s (placeWaiting i e s) :=
  .of_upd rfl rfl rfl (by rintro _ ⟨⟩; exact fun k => nomatch k)

theorem Leaves.retire (i : EntryIx) (e : Entry) (c : EndCause) (s : State) : Leaves i s (retire i e c s) := by
  rw [retire_eq_retired]
  exact .of_upd rfl rfl rfl (by simp)

theorem Leaves.endPlain (i : EntryIx) (e : Entry) (c : EndCause) (s : State) : Leaves i s (endPlain i e c s) := by
  unfold Machine.endPlain
  split
  · exact .retire ..
  · split
    · exact .retire ..
    · split
      · exact .retire ..
      · exact .placeWaiting ..

theorem Leaves.settlePlain (i : EntryIx) (r : Verdict) (s : State) : Leaves i s (settlePlain i r s) := by
  cases r with
  | armed e t => exact .placeArmed ..
  | ended e c => exact .endPlain ..

theorem Leaves.settle (view : View) (i : EntryIx) (r : Verdict) (w : Work) : Leaves i w.st (settle view i r w).st := by
  cases r with
  | armed e t => exact .placeArmed ..
  | ended e c =>
    unfold Machine.settle
    dsimp only
    split
    · unfold useOwed
      dsimp only
      split
      · exact .of_posts (admitTarget_posts ..) (.settlePlain ..)
      · exact (Leaves.placeWaiting ..).then_posts ⟨_, rfl⟩
    · exact .endPlain ..

theorem Leaves.giveTarget (view : View) (i : EntryIx) (e : Entry) (t : Int) (w : Work) :
    Leaves i w.st (giveTarget view i e t w).st :=
  .of_posts (admitTarget_posts ..) (.settle ..)

end

/-! ## Entries taken one after another -/

theorem Unstaged.crossEntry (a : AxisId) (v : Int) (w : Work) (i : EntryIx) : Unstaged [] w.st (crossEntry a v w i).st := by
  unfold Machine.crossEntry
  split
  · rename_i e he
    split
    · rename_i h
      refine (Leaves.of_posts (occur_posts ..) (.settle ..)).stays fun e' he' => ?_
      obtain rfl := Option.some.inj (he.symm.trans he')
      rw [h.1]
      decide
    · exact .refl _
  · exact .refl _

theorem Unstaged.resolveEntry (c : Capture) (w : Work) (i : EntryIx) : Unstaged [] w.st (resolveEntry c w i).st := by
  unfold Machine.resolveEntry
  split
  · exact .refl _
  · rename_i e he
    split
    · exact .refl _
    · rename_i waiting
      split
      · refine (Leaves.giveTarget ..).stays fun e' he' => ?_
        obtain rfl := Option.some.inj (he.symm.trans he')
        rw [not_not.1 waiting]
        decide
      · exact .of_eq rfl rfl rfl

theorem Unstaged.giveOwed (c : Capture) (s : State) (i : EntryIx) : Unstaged [] s (giveOwed c s i) := by
  unfold Machine.giveOwed
  split
  · exact .refl _
  · rename_i e he
    have given : Unstaged [] s (writeEntry i { e with owed := some c } s) := .rewrites he rfl rfl
    split
    · exact .refl _
    · dsimp only
      split
      · exact given
      · exact given.trans (.of_eq rfl rfl rfl)

theorem Unstaged.freeAll (l : List EntryIx) (s : State) : Unstaged l s (freeAll l s) := by
  have all := Unstaged.foldl id (fun i => [i]) (fun s i => (Leaves.freeEntry i s).unstaged) l s
  rwa [List.flatMap_singleton'] at all

theorem Unstaged.withdraw (m : MarkId) (c : WithdrawCause) (s : State) (i : EntryIx) : Unstaged [i] s (withdraw m c s i) := by
  unfold Machine.withdraw
  split
  · rename_i he
    exact Leaves.unstaged ⟨rfl, rfl, fun _ _ => rfl, by rw [he]; simp⟩
  · exact (Leaves.freeEntry i s).unstaged.trans (.of_eq rfl rfl rfl)

/-- A stop request withdraws WAITING entries only. -/
theorem Unstaged.withdrawn (covers : Port → Bool) (m : MarkId) (c : WithdrawCause) (s : State) :
    Unstaged [] s ((withdrawnEntries covers m s).foldl (Machine.withdraw m c) s) := by
  have all := Unstaged.foldl id (fun i => [i]) (fun s i => Unstaged.withdraw m c s i) (withdrawnEntries covers m s) s
  rw [List.flatMap_singleton'] at all
  refine all.forget fun i hi p k => ?_
  obtain ⟨e, he, waiting⟩ := mem_withdrawnEntries hi
  obtain ⟨e', he', staged, -⟩ := stagedFor_iff.1 k
  obtain rfl := Option.some.inj (he.symm.trans he')
  exact absurd (waiting.symm.trans staged) (by decide)

theorem Unstaged.burstsEnded (covers : Port → Bool) (m : MarkId) (s : State) : Unstaged [] s (Machine.burstsEnded covers m s) := by
  refine ⟨rfl, rfl, fun i p => ?_⟩
  have place := (InPlace.stopBursts (s := s) (t := Machine.burstsEnded covers m s) rfl rfl rfl).entry i
  have same : stagedFor (Machine.burstsEnded covers m s) i p = stagedFor s i p :=
    optionRel_any (fun _ _ r => by rw [r.state, r.owner]) place
  rw [same]
  simp

/-! ## An apply (R116) -/

/-- A staged operation takes the entry it reserved out of STAGED, and no other. -/
theorem Unstaged.applyOp (view : View) (p : Port) (w : Work) (op : GroupOp) :
    Unstaged op.reserved.toList w.st (applyOp view p w op).1.st := by
  cases op with
  | arm i stopped =>
    refine Leaves.unstaged (i := i) ?_
    unfold Machine.applyOp
    dsimp only
    split
    · rename_i he
      exact ⟨rfl, rfl, fun _ _ => rfl, by rw [he]; simp⟩
    · split
      · exact .giveTarget ..
      · split
        · exact .freeEntry ..
        · exact .placeWaiting ..
  | cancel h =>
    unfold Machine.applyOp
    dsimp only
    rcases judgeHandle_cases w.st p h with ⟨e, he, -, -, hq⟩ | ⟨st, hq, -⟩
    · rw [hq]
      dsimp only
      split
      · exact .refl _
      · rename_i live
        refine (Leaves.freeEntry ..).stays fun e' he' => ?_
        obtain rfl := Option.some.inj (he.symm.trans he')
        exact live
    · rw [hq]
      exact .refl _
  | drive mask act width => exact .refl _

theorem applyRun_take_work (view : View) (p : Port) (r : ApplyRun) (op : GroupOp) :
    (r.take view p op).work = (applyOp view p r.work op).1 := by
  unfold ApplyRun.take
  dsimp only
  split <;> rfl

theorem Unstaged.applyOps (view : View) (p : Port) (ops : List GroupOp) (r : ApplyRun) :
    Unstaged (ops.filterMap GroupOp.reserved) r.work.st (ops.foldl (ApplyRun.take view p) r).work.st := by
  rw [List.filterMap_eq_flatMap_toList]
  refine Unstaged.foldl (fun r : ApplyRun => r.work.st) (fun op => op.reserved.toList) (fun r op => ?_) ops r
  rw [applyRun_take_work]
  exact .applyOp ..

end Sys2Proof.Machine
end

section
/-! SUPPORT. The moves of the groups, and every command as a sequence of them (R106 to R123, O58). -/

namespace Sys2Proof.Machine

/-! ## The moves -/

/-- The moves of the groups, one after another. -/
inductive GroupMoves : State → State → Prop
  /-- Neither a group nor a STAGED entry changes. -/
  | stays {s t} : Unstaged [] s t → GroupMoves s t
  /-- A group opens (R106). -/
  | opens {p s} : s.groups[p].state = .none →
      GroupMoves s (s.setGroup p { s.groups[p] with state := .staging, ops := [], boundary := none, remaining := 0 })
  /-- A CANCEL or a DRIVE is staged (R107, R109, R110). -/
  | stages {p op s} : s.groups[p].state = .staging → s.groups[p].ops.length < 16 → op.reserved = none →
      GroupMoves s (stageOp p op s)
  /-- An ARM is staged, and its entry allocated (R107, R108). -/
  | arms {p i e s} : s.groups[p].state = .staging → s.groups[p].ops.length < 16 → s.table[i].entry = none →
      e.state = .staged → e.owner = p → GroupMoves s (stageOp p (.arm i false) (writeEntry i e s))
  /-- A group goes PENDING (R113). -/
  | pends {p b period s} : s.groups[p].state = .staging → period ≤ 65535 → GroupMoves s (pendGroup p b period s)
  /-- A group ends, once what it reserved is STAGED no longer (R118, R119, R121). -/
  | ends {p s t} : Unstaged (reservedBy s p) s t → GroupMoves s (closeGroup p t)
  /-- A group in NONE returns to its reset values (R123). -/
  | resets {p s} : s.groups[p].state = .none → GroupMoves s (s.setGroup p .reset)
  /-- Entries of a port whose group is in NONE are freed (R123). -/
  | removes {p l s} : s.groups[p].state = .none → (∀ i ∈ l, i ∈ ownedEntries s p) → GroupMoves s (freeAll l s)
  /-- Staged ARMs take the input-stopped marker (R111). -/
  | marks {covers m s} : GroupMoves s (armsMarked covers m s)
  /-- The expiries count down (R119). -/
  | ticks {s} : GroupMoves s (advance s)
  | trans {s t u} : GroupMoves s t → GroupMoves t u → GroupMoves s u

theorem GroupMoves.refl (s : State) : GroupMoves s s := .stays (.refl s)

theorem GroupMoves.of_eq {s t : State} (h1 : t.table = s.table) (h2 : t.groups = s.groups) (h3 : t.pendingGroups = s.pendingGroups) :
    GroupMoves s t := .stays (.of_eq h1 h2 h3)

theorem GroupMoves.then_posts {s t u : State} (h : GroupMoves s t) (hu : ∃ posts, u = { t with posted := posts }) :
    GroupMoves s u := by
  obtain ⟨posts, rfl⟩ := hu
  exact h.trans (.of_eq rfl rfl rfl)

theorem framing_groupMoves : Framing GroupMoves := ⟨GroupMoves.refl, GroupMoves.trans, fun _ _ _ => .of_eq rfl rfl rfl⟩

theorem GroupMoves.foldl_work {β : Type} {f : Work → β → Work} (h : ∀ w b, GroupMoves w.st (f w b).st) (l : List β) (w : Work) :
    GroupMoves w.st (l.foldl f w).st :=
  foldl_rel (R := fun w v : Work => GroupMoves w.st v.st) (fun w => .refl w.st) (fun _ _ _ => .trans) h l w

theorem GroupMoves.of_pif {s t : State} (h : By .pif s t) : GroupMoves s t := by
  simp only [By] at h
  rw [h]
  exact .of_eq rfl rfl rfl

/-! ## The end of a group -/

theorem GroupMoves.discardGroup (p : Port) (s : State) : GroupMoves s (discardGroup p s) := .ends (.freeAll (reservedBy s p) s)

theorem GroupMoves.discardNoticed (p : Port) (c : DiscardCause) (s : State) : GroupMoves s (discardNoticed p c s) :=
  (GroupMoves.discardGroup p s).then_posts ⟨_, rfl⟩

theorem GroupMoves.applyGroup (view : View) (p : Port) (at_ : AppliedAt) (w : Work) :
    GroupMoves w.st (applyGroup view p at_ w).st :=
  (GroupMoves.ends (.applyOps view p w.st.groups[p].ops ⟨w, 0, 0, 0, none⟩)).then_posts ⟨_, rfl⟩

theorem GroupMoves.applyReached (view : View) (at_ : AppliedAt) (f : Boundary → Bool) (w : Work) :
    GroupMoves w.st (applyReached view at_ f w).st :=
  .foldl_work (fun w p => by dsimp only; split; exact .applyGroup ..; exact .refl _) _ w

theorem GroupMoves.expireGroup (p : Port) (s : State) : GroupMoves s (expireGroup p s) := by
  unfold Machine.expireGroup
  split
  · exact .discardNoticed ..
  · exact .refl s

theorem GroupMoves.removePort (p : Port) (s : State) : GroupMoves s (removePort p s) := by
  have closed : (Machine.discardGroup p s).groups[p].state = .none := congrArg GroupRec.state (upd_get ..)
  have reset : ((Machine.discardGroup p s).setGroup p .reset).groups[p].state = .none := congrArg GroupRec.state (upd_get ..)
  exact ((GroupMoves.discardGroup p s).trans (.resets closed)).trans (.removes reset fun _ hi => hi)

/-! ## What the SCU takes -/

theorem GroupMoves.takeScuStep (a : AxisId) (s : State) : GroupMoves s (takeScuStep a s) := by
  unfold Machine.takeScuStep
  split
  · exact .refl s
  · rename_i m rest _
    have taken : GroupMoves s (s.setToScu a rest) := .of_eq rfl rfl rfl
    dsimp only
    split
    · exact taken
    · refine taken.trans (.trans ?_ (.stays (.done _)))
      exact (GroupMoves.applyReached (some (a, m.value)) _ _ (.begin _)).trans
        (.stays (.foldl_stays Work.st (fun w i => .crossEntry a m.value w i) _ _))

theorem GroupMoves.takeMark (c : Capture) (s : State) : GroupMoves s (takeMark c s) := by
  refine GroupMoves.trans ?_ (.stays (.done _))
  refine GroupMoves.trans ?_ (.stays (.foldl_stays Work.st (fun w i => .resolveEntry c w i) _ _))
  exact (GroupMoves.applyReached none _ _ (.begin s)).trans (.stays (.foldl_stays id (fun s i => .giveOwed c s i) _ _))

theorem GroupMoves.stopAtScu (covers : Port → Bool) (m : MarkId) (c : WithdrawCause) (s : State) :
    GroupMoves s (stopAtScu covers m c s) := by
  have discard (u : State) (p : Port) : GroupMoves u (discardAtMark covers m u p) := by
    unfold discardAtMark
    split
    · exact .discardNoticed ..
    · exact .refl u
  rw [stopAtScu_eq]
  refine GroupMoves.trans ?_ (framing_groupMoves.foldl discard _ _)
  exact (GroupMoves.stays ((Unstaged.withdrawn covers m c s).trans (.burstsEnded covers m _))).trans .marks

theorem GroupMoves.takeMarkHandoff (s : State) : GroupMoves s (takeMarkHandoff s) := by
  unfold Machine.takeMarkHandoff
  split
  · rename_i rest _
    exact (GroupMoves.of_eq rfl rfl rfl : GroupMoves s { s with mkuToScu := rest }).trans (.takeMark ..)
  · exact .refl s

theorem GroupMoves.takeStopRequest (s : State) : GroupMoves s (takeStopRequest s) := by
  unfold Machine.takeStopRequest
  split
  · rename_i rest _
    exact (GroupMoves.of_eq rfl rfl rfl : GroupMoves s { s with mkuToScu := rest }).trans (.stopAtScu ..)
  · exact .refl s

theorem GroupMoves.takeHolderStop (s : State) : GroupMoves s (takeHolderStop s) := by
  unfold Machine.takeHolderStop
  split
  · rename_i rest _
    exact (GroupMoves.of_eq rfl rfl rfl : GroupMoves s { s with mkuToScu := rest }).trans (.stopAtScu ..)
  · exact .refl s

/-! ## The commands of the SCU -/

theorem routeArm_unstaged (p : Port) {i : EntryIx} (d : TriggerDesc) {s : State} (h : s.table[i].entry = none) :
    Unstaged [] s (routeArm p i d s) := by
  have free : ∀ e ∈ s.table[i].entry, e.state ≠ .staged := by rw [h]; simp
  unfold routeArm
  split
  · exact ((Leaves.giveTarget none i (newEntry p d .armed) d.place (.begin s)).stays free).trans (.done _)
  · exact (Leaves.placeWaiting ..).stays free

/-- A group that is not full has room. -/
theorem room_of_not_full {s : State} {p : Port} (hf : ¬GroupFull s p) (hs : s.groups[p].state = .staging) :
    s.groups[p].ops.length < 16 := not_le.1 fun k => hf ⟨hs, k⟩

theorem GroupMoves.armAct (p : Port) (pl : List Byte) (s : State) : GroupMoves s (armAct p pl s).1 := by
  by_cases hf : GroupFull s p
  · rw [armAct_full hf]
    exact .refl s
  · cases hd : parseTrigger pl with
    | none =>
      rw [armAct_badField hf hd]
      exact .refl s
    | some d =>
      cases hi : armChecks p d s with
      | error st =>
        rw [armAct_refused hf hd hi]
        exact .refl s
      | ok i =>
        have free := (armChecks_ok hi).2
        by_cases hs : s.groups[p].state = .staging
        · rw [armAct_staged hf hd hi hs]
          exact .arms hs (room_of_not_full hf hs) free rfl rfl
        · rw [armAct_immediate hf hd hi hs]
          split
          · exact .refl s
          · exact .stays (routeArm_unstaged p d free)

theorem GroupMoves.cancelAct (p : Port) (pl : List Byte) (s : State) : GroupMoves s (cancelAct p pl s).1 := by
  by_cases hf : GroupFull s p
  · rw [cancelAct_full hf]
    exact .refl s
  · rcases judgeHandle_cases s p (parseHandle pl) with ⟨e, he, -, -, hj⟩ | ⟨st, hj, -⟩
    · rw [cancelAct_ok hf hj]
      split
      · exact .refl s
      · rename_i live
        split
        · rename_i hs
          exact .stages (beq_iff_eq.1 hs) (room_of_not_full hf (beq_iff_eq.1 hs)) rfl
        · refine .stays ((Leaves.freeEntry ..).stays fun e' he' => ?_)
          obtain rfl := Option.some.inj (he.symm.trans he')
          exact live
    · rw [cancelAct_refused hf hj]
      exact .refl s

theorem GroupMoves.channelDriveAct (p : Port) (pl : List Byte) (s : State) : GroupMoves s (channelDriveAct p pl s).1 := by
  by_cases hf : GroupFull s p
  · rw [channelDriveAct_full hf]
    exact .refl s
  · unfold Machine.channelDriveAct
    dsimp only
    split
    · exact .refl s
    · split
      · exact .refl s
      · split
        · exact .refl s
        · split
          · rename_i hs
            exact .stages hs (room_of_not_full hf hs) rfl
          · exact .of_pif (takeBatch_by ..)

theorem GroupMoves.groupBeginAct (p : Port) (s : State) : GroupMoves s (groupBeginAct p s).1 := by
  unfold Machine.groupBeginAct
  dsimp only
  split
  · exact .refl s
  · rename_i h
    exact .opens (not_not.1 h)

theorem groupEndPeriod_le (pl : List Byte) : groupEndPeriod pl ≤ 65535 := Nat.le_of_lt_succ (field_lt pl 9 2)

theorem GroupMoves.groupEndAct (p : Port) (pl : List Byte) (s : State) : GroupMoves s (groupEndAct p pl s).1 := by
  have apply (at_ : AppliedAt) : GroupMoves s (Machine.applyGroup none p at_ (.begin s)).done :=
    (GroupMoves.applyGroup none p at_ (.begin s)).trans (.stays (.done _))
  unfold Machine.groupEndAct
  dsimp only
  split
  · exact .refl s
  · rename_i h
    split
    · exact .refl s
    · exact apply _
    · split
      · exact .refl s
      · split
        · exact apply _
        · exact .pends (not_not.1 h) (groupEndPeriod_le pl)

theorem GroupMoves.groupDiscardAct (p : Port) (s : State) : GroupMoves s (groupDiscardAct p s).1 := by
  unfold Machine.groupDiscardAct
  dsimp only
  split
  · exact .refl s
  · exact .discardGroup p s

/-! ## Every command -/

/-- Every command taken at one place of the part moves groups, or leaves them as they are. -/
theorem exec_groupMoves {c : Instr} {k : Site} (hc : site c = some k) {s t : State} (ht : exec c s = .next t) : GroupMoves s t := by
  have by_ := exec_of_site hc ht
  have frame {p : Port} {c : Command} {pl : List Byte} {act : State → State × Answer} (hact : ∀ u, GroupMoves u (act u).1) :
      GroupMoves s (takeFrame p c pl act s) := takeFrame_rel framing_groupMoves hact s
  cases k with
  | axu => simp only [By] at by_; rw [by_]; exact .of_eq rfl rfl rfl
  | mku => simp only [By] at by_; rw [by_]; exact .of_eq rfl rfl rfl
  | pif => exact .of_pif by_
  | scu =>
    match c, hc with
    | .arm p pl, _ => cases ht; exact frame fun u => .armAct p pl u
    | .cancel p pl, _ => cases ht; exact frame fun u => .cancelAct p pl u
    | .groupBegin p _, _ => cases ht; exact frame fun u => .groupBeginAct p u
    | .groupEnd p pl, _ => cases ht; exact frame fun u => .groupEndAct p pl u
    | .groupDiscard p _, _ => cases ht; exact frame fun u => .groupDiscardAct p u
    | .channelDrive p pl, _ => cases ht; exact frame fun u => .channelDriveAct p pl u
    | .scuTeardown p, _ => cases ht; exact teardownPart_rel framing_groupMoves (fun u => .removePort p u) s
    | .scuStep a, _ => cases ht; exact .takeScuStep a s
    | .markHandoff, _ => cases ht; exact .takeMarkHandoff s
    | .stopRequest, _ => cases ht; exact .takeStopRequest s
    | .holderStopRequest, _ => cases ht; exact .takeHolderStop s
    | .groupExpiry p, _ => cases ht; exact .expireGroup p s

/-- A law that every move of the groups keeps, and that holds right after reset, is kept by every step. -/
theorem kept_of_groupMoves {law : State → Prop} (hreset : ∀ pins links, law (State.resetWith pins links))
    (h : ∀ {s t}, GroupMoves s t → law s → law t) : Kept law := by
  have same {s t : State} (h1 : t.table = s.table) (h2 : t.groups = s.groups) (h3 : t.pendingGroups = s.pendingGroups) :
      law s → law t := h (.of_eq h1 h2 h3)
  refine kept_of_exec (fun s _ _ _ => same rfl rfl rfl) (exec_keeps ?_ (fun s _ => ?_) (fun s => ?_) fun s hs _ => h .ticks hs)
  · exact fun c k hc s t hs ht => h (exec_groupMoves hc ht) hs
  · exact same (s := State.resetWith ..) rfl rfl rfl (hreset s.pins (.ofFn fun p => s.ports[p].link.abandon))
  · unfold releaseReset
    split
    · exact same rfl rfl rfl
    · exact id

end Sys2Proof.Machine
end

section
/-! SUPPORT. The laws of the groups (R105, R114), shown for each move of a group (O58). -/

namespace Sys2Proof.Machine

/-! ## The groups and the pending-group list -/

/-- A group keeps to its ranges: what R105 says of one record. -/
structure GroupRec.Ok (g : GroupRec) : Prop where
  capacity : g.ops.length ≤ 16
  empty : g.state = .none → g.ops = []
  boundary : g.boundary ≠ none ↔ g.state = .pending
  period : g.period ≤ 65535
  remaining : g.remaining ≤ g.period * 1000

theorem groupsOk_iff {s : State} : GroupsOk s ↔
    (∀ p : Port, s.groups[p].Ok) ∧ (∀ p : Port, p ∈ s.pendingGroups ↔ s.groups[p].state = .pending) ∧ s.pendingGroups.Nodup :=
  and_congr_left' (forall_congr' fun _ =>
    ⟨fun ⟨h1, h2, h3, h4, h5⟩ => ⟨h1, h2, h3, h4, h5⟩, fun ⟨h1, h2, h3, h4, h5⟩ => ⟨h1, h2, h3, h4, h5⟩⟩)

theorem GroupsOk.record {s : State} (hs : GroupsOk s) (p : Port) : s.groups[p].Ok := (groupsOk_iff.1 hs).1 p

section
variable {s t : State} {p : Port} {g : GroupRec} (hs : GroupsOk s)
include hs

/-- Every group keeps its state and its ranges, and the pending-group list stays. -/
theorem GroupsOk.congr (hstate : ∀ q : Port, t.groups[q].state = s.groups[q].state)
    (hok : ∀ q : Port, s.groups[q].Ok → t.groups[q].Ok) (hlist : t.pendingGroups = s.pendingGroups) : GroupsOk t := by
  obtain ⟨ok, listed, nodup⟩ := groupsOk_iff.1 hs
  refine groupsOk_iff.2 ⟨fun q => hok q (ok q), fun q => ?_, hlist ▸ nodup⟩
  rw [hlist, hstate]
  exact listed q

/-- One group changes, and with it at most its own place in the pending-group list. -/
theorem GroupsOk.replace (ht : t.groups = upd s.groups p g) (hg : g.Ok) (hp : p ∈ t.pendingGroups ↔ g.state = .pending)
    (hq : ∀ q ≠ p, q ∈ t.pendingGroups ↔ q ∈ s.pendingGroups) (hn : t.pendingGroups.Nodup) : GroupsOk t := by
  obtain ⟨ok, listed, -⟩ := groupsOk_iff.1 hs
  refine groupsOk_iff.2 ⟨fun q => ?_, fun q => ?_, hn⟩ <;> rw [ht] <;> rcases eq_or_ne q p with rfl | hne
  · rw [upd_get]
    exact hg
  · rw [upd_get_ne _ _ hne]
    exact ok q
  · rw [upd_get]
    exact hp
  · rw [upd_get_ne _ _ hne, hq q hne]
    exact listed q

/-- A group that was not PENDING changes, and is not PENDING then. -/
theorem GroupsOk.replace_unlisted (ht : t.groups = upd s.groups p g) (hlist : t.pendingGroups = s.pendingGroups) (hg : g.Ok)
    (before : s.groups[p].state ≠ .pending) (after : g.state ≠ .pending) : GroupsOk t := by
  refine hs.replace ht hg ?_ (fun q _ => by rw [hlist]) (hlist ▸ hs.2.2)
  rw [hlist, hs.2.1]
  exact iff_of_false before after

end

section
variable {g : GroupRec} (h : g.Ok)
include h

/-- A staged operation joins a group that is not full. -/
theorem GroupRec.Ok.staged (hs : g.state = .staging) (room : g.ops.length < 16) (op : GroupOp) :
    { g with ops := g.ops ++ [op] }.Ok where
  capacity := by rw [List.length_append]; exact room
  empty k := nomatch hs.symm.trans k
  boundary := h.boundary
  period := h.period
  remaining := h.remaining

/-- A group that leaves its state for NONE or STAGING keeps its expiry period (log 15). -/
theorem GroupRec.Ok.emptied {st : GroupState} (hst : st ≠ .pending) :
    { g with state := st, ops := [], boundary := none, remaining := 0 }.Ok where
  capacity := Nat.zero_le _
  empty _ := rfl
  boundary := iff_of_false (fun k => k rfl) hst
  period := h.period
  remaining := Nat.zero_le _

theorem GroupRec.Ok.pended (b : Boundary) {period : Nat} (hp : period ≤ 65535) :
    { g with state := .pending, boundary := some b, period := period, remaining := period * Config.ticksPerMs }.Ok where
  capacity := h.capacity
  empty k := nomatch k
  boundary := iff_of_true (Option.some_ne_none b) rfl
  period := hp
  remaining := le_refl _

theorem GroupRec.Ok.armsMarked (s : State) (m : MarkId) : (g.armsMarked s m).Ok where
  capacity := (List.length_map _).trans_le h.capacity
  empty k := by rw [GroupRec.armsMarked, h.empty k, List.map_nil]
  boundary := h.boundary
  period := h.period
  remaining := h.remaining

theorem GroupRec.Ok.tick : g.tick.Ok := by
  rw [tick_group]
  refine ⟨h.capacity, h.empty, h.boundary, h.period, ?_⟩
  dsimp only
  split
  · exact (Nat.sub_le _ _).trans h.remaining
  · exact h.remaining

end

theorem GroupRec.Ok.of_reset : GroupRec.reset.Ok :=
  ⟨Nat.zero_le _, fun _ => rfl, iff_of_false (fun k => k rfl) (by decide), Nat.zero_le _, Nat.zero_le _⟩

theorem advance_group (s : State) (p : Port) : (advance s).groups[p] = s.groups[p].tick := Vector.getElem_map ..

theorem closeGroup_groupsOk {s : State} (p : Port) (hs : GroupsOk s) : GroupsOk (closeGroup p s) := by
  rw [closeGroup_eq]
  refine hs.replace (g := s.groups[p].closed) rfl ((hs.record p).emptied (by decide)) ?_ (fun q hq => ?_) (hs.2.2.filter _)
  · exact iff_of_false (fun k => by simp at k) (fun k => nomatch k)
  · simp [hq]

theorem pendGroup_groupsOk {s : State} {p : Port} {period : Nat} (b : Boundary) (hs : GroupsOk s)
    (staging : s.groups[p].state = .staging) (hp : period ≤ 65535) : GroupsOk (pendGroup p b period s) := by
  have unlisted : p ∉ s.pendingGroups := fun k => nomatch staging.symm.trans ((hs.2.1 p).1 k)
  have list : (pendGroup p b period s).pendingGroups = s.pendingGroups ++ [p] := rfl
  refine hs.replace (p := p) rfl ((hs.record p).pended b hp) ?_ (fun q hq => ?_) ?_
  · rw [list]
    simp
  · rw [list]
    simp [hq]
  · rw [list, List.nodup_append_comm, List.singleton_append, List.nodup_cons]
    exact ⟨unlisted, hs.2.2⟩

theorem Unstaged.groupsOk {l : List EntryIx} {s t : State} (h : Unstaged l s t) (hs : GroupsOk s) : GroupsOk t :=
  hs.congr (fun q => by rw [h.groups]) (fun q k => by rw [h.groups]; exact k) h.list

theorem GroupMoves.groupsOk {s t : State} (h : GroupMoves s t) (hs : GroupsOk s) : GroupsOk t := by
  induction h with
  | stays h => exact h.groupsOk hs
  | opens none =>
    exact hs.replace_unlisted rfl rfl ((hs.record _).emptied (by decide)) (by rw [none]; decide) (fun k => nomatch k)
  | stages staging room | arms staging room =>
    have unlisted : _ ≠ GroupState.pending := fun k => nomatch staging.symm.trans k
    exact hs.replace_unlisted rfl rfl ((hs.record _).staged staging room _) unlisted unlisted
  | pends staging hp => exact pendGroup_groupsOk _ hs staging hp
  | ends h => exact closeGroup_groupsOk _ (h.groupsOk hs)
  | resets none => exact hs.replace_unlisted rfl rfl GroupRec.Ok.of_reset (by rw [none]; decide) (by decide)
  | removes => exact (Unstaged.freeAll ..).groupsOk hs
  | marks =>
    refine hs.congr (fun q => ?_) (fun q k => ?_) rfl <;> rw [armsMarked_group]
    · split <;> rfl
    · split
      · exact k.armsMarked ..
      · exact k
  | ticks =>
    refine hs.congr (fun q => ?_) (fun q k => ?_) rfl <;> rw [advance_group]
    · rw [tick_group]
    · exact k.tick
  | trans _ _ ih1 ih2 => exact ih2 (ih1 hs)

/-! ## The STAGED entries and the groups that list them -/

theorem reservedBy_upd {s t : State} {p : Port} {g : GroupRec} (ht : t.groups = upd s.groups p g) (q : Port) :
    reservedBy t q = if q = p then g.ops.filterMap GroupOp.reserved else reservedBy s q := by
  unfold reservedBy
  rw [ht]
  split
  · rename_i hq
    rw [hq, upd_get]
  · rename_i hq
    rw [upd_get_ne _ _ hq]

section
variable {s t : State} (hs : StagedOk s)
include hs

theorem StagedOk.congr (hr : ∀ p, reservedBy t p = reservedBy s p) (ht : ∀ i p, stagedFor t i p = true ↔ stagedFor s i p = true) :
    StagedOk t := by
  intro p
  rw [hr]
  refine ⟨(hs p).1, fun i => ?_⟩
  rw [ht]
  exact (hs p).2 i

/-- One group changes and reserves what it reserved before. -/
theorem StagedOk.replace {p : Port} {g : GroupRec} (htable : t.table = s.table) (hgroups : t.groups = upd s.groups p g)
    (hops : g.ops.filterMap GroupOp.reserved = reservedBy s p) : StagedOk t := by
  refine hs.congr (fun q => ?_) fun i q => by rw [stagedFor_congr (congrArg (·[i]) htable)]
  rw [reservedBy_upd hgroups]
  split
  · rename_i hq
    rw [hops, hq]
  · rfl

/-- An entry belongs to one group at most. -/
theorem StagedOk.owner {p q : Port} {i : EntryIx} (hp : i ∈ reservedBy s p) (hq : stagedFor s i q = true) : q = p := by
  obtain ⟨e, he, -, rfl⟩ := mem_reservedBy hs hp
  obtain ⟨e', he', -, rfl⟩ := stagedFor_iff.1 hq
  rw [Option.some.inj (he'.symm.trans he)]

theorem StagedOk.arms {p : Port} {i : EntryIx} {e : Entry} (free : s.table[i].entry = none) (staged : e.state = .staged)
    (owner : e.owner = p) : StagedOk (stageOp p (.arm i false) (writeEntry i e s)) := by
  set u := stageOp p (.arm i false) (writeEntry i e s) with hu
  have reserved (q : Port) : reservedBy u q = if q = p then reservedBy s p ++ [i] else reservedBy s q := by
    rw [reservedBy_upd (s := s) (t := u) rfl, List.filterMap_append]
    rfl
  have here (q : Port) : stagedFor u i q = true ↔ q = p := by
    have entry : u.table[i].entry = some e := congrArg Slot.entry (upd_get ..)
    rw [stagedFor_iff, entry]
    simp [staged, owner, eq_comm]
  have other {j : EntryIx} (hj : j ≠ i) (q : Port) : stagedFor u j q = stagedFor s j q :=
    stagedFor_congr (upd_get_ne _ _ hj) q
  have absent (q : Port) : i ∉ reservedBy s q := fun k => by
    obtain ⟨e', he', -⟩ := mem_reservedBy hs k
    nomatch free.symm.trans he'
  intro q
  rw [reserved]
  refine ⟨?_, fun j => ?_⟩
  · split
    · rw [List.nodup_append_comm, List.singleton_append, List.nodup_cons]
      exact ⟨absent p, (hs p).1⟩
    · exact (hs q).1
  · rcases eq_or_ne j i with rfl | hj
    · rw [here]
      split
      · rename_i hq
        simp [hq]
      · rename_i hq
        exact iff_of_false (absent q) hq
    · rw [other hj, ← (hs q).2 j]
      split
      · rename_i hq
        simp [hq, hj]
      · rfl

/-- A group ends: its list is empty, and no entry is STAGED for its port. -/
theorem StagedOk.ends {p : Port} {u : State} (h : Unstaged (reservedBy s p) s u) : StagedOk (closeGroup p u) := by
  have reserved (q : Port) : reservedBy (closeGroup p u) q = if q = p then [] else reservedBy s q := by
    rw [reservedBy_upd (s := u) (t := closeGroup p u) rfl, reservedBy_congr (congrArg (·[q]) h.groups)]
    rfl
  have staged (i : EntryIx) (q : Port) : stagedFor (closeGroup p u) i q = true ↔ stagedFor s i q = true ∧ i ∉ reservedBy s p :=
    h.staged i q
  intro q
  rw [reserved]
  refine ⟨?_, fun i => ?_⟩
  · split
    · exact List.nodup_nil
    · exact (hs q).1
  · rw [staged, ← (hs q).2 i]
    split
    · rename_i hq
      rw [hq]
      simp
    · rename_i hq
      have absent : i ∈ reservedBy s q → i ∉ reservedBy s p := fun hi k => hq (hs.owner k (((hs q).2 i).1 hi))
      exact ⟨fun hi => ⟨hi, absent hi⟩, fun hi => hi.1⟩

/-- A port whose group holds no operation has no STAGED entry. -/
theorem StagedOk.unstaged {p : Port} (h : s.groups[p].ops = []) (i : EntryIx) : stagedFor s i p ≠ true := by
  rw [ne_eq, ← (hs p).2 i, reservedBy, h]
  exact List.not_mem_nil

end

theorem Unstaged.stagedOk {s t : State} (h : Unstaged [] s t) (hs : StagedOk s) : StagedOk t :=
  hs.congr (fun p => reservedBy_congr (congrArg (·[p]) h.groups)) fun i p => by simpa using h.staged i p

theorem reservedBy_of_empty {s : State} {p : Port} (h : s.groups[p].ops = []) : reservedBy s p = [] := by
  rw [reservedBy, h, List.filterMap_nil]

theorem GroupMoves.stagedOk {s t : State} (h : GroupMoves s t) (hg : GroupsOk s) (hs : StagedOk s) : StagedOk t := by
  have empty {s : State} (hg : GroupsOk s) {p : Port} : s.groups[p].state = .none → s.groups[p].ops = [] := (hg.record p).empty
  induction h with
  | stays h => exact h.stagedOk hs
  | opens none => exact hs.replace rfl rfl (reservedBy_of_empty (empty hg none)).symm
  | stages _ _ nothing =>
    refine hs.replace rfl rfl ?_
    rw [List.filterMap_append, List.filterMap_cons_none nothing, List.filterMap_nil, List.append_nil]
    rfl
  | arms _ _ free staged owner => exact hs.arms free staged owner
  | pends => exact hs.replace rfl rfl rfl
  | ends h => exact hs.ends h
  | resets none => exact hs.replace rfl rfl (reservedBy_of_empty (empty hg none)).symm
  | removes none owned =>
    refine ((Unstaged.freeAll ..).forget fun i hi q staged => ?_).stagedOk hs
    obtain ⟨e, he, -, rfl⟩ := stagedFor_iff.1 staged
    have owner := mem_ownedEntries.1 (owned i hi)
    rw [he, Option.any_some, beq_iff_eq] at owner
    rw [owner] at staged
    exact hs.unstaged (empty hg none) i staged
  | marks => exact hs.congr (reservedBy_armsMarked _ _ _) fun i p => Iff.rfl
  | ticks =>
    refine hs.congr (fun p => ?_) fun i p => Iff.rfl
    rw [reservedBy, advance_group, tick_group]
    rfl
  | trans first _ ih1 ih2 => exact ih2 (first.groupsOk hg) (ih1 hg hs)

/-- Settles O58: each of the two laws is kept by every move of a group, the second with the help of the first. -/
theorem groupLawsKept : Obligations.GroupLawsKept :=
  ⟨kept_of_groupMoves groupsOk_resetWith fun h => h.groupsOk,
    kept_of_groupMoves (fun pins links => ⟨groupsOk_resetWith pins links, stagedOk_resetWith pins links⟩)
      fun h ⟨hg, hs⟩ => ⟨h.groupsOk hg, h.stagedOk hg hs⟩⟩

end Sys2Proof.Machine
end

section
/-! SUPPORT. How a group begins, is discarded and expires (R106, R119, R121; O43). -/

namespace Sys2Proof.Machine

/-- The part after a discard of a port's group, with this table and these due lists: the group is closed and keeps its expiry period
(log 15). -/
def groupDiscarded (p : Port) (table : Vector Slot 256) (due : Vector (List EntryIx) 4) (s : State) : State :=
  { s with
    table := table, due := due, waiting := s.waiting.filter (fun i => !(reservedBy s p).contains i)
    groups := upd s.groups p s.groups[p].closed, pendingGroups := s.pendingGroups.filter (· ≠ p) }

section
variable {p : Port} {s : State}

theorem groupBeginAct_ok (h : s.groups[p].state = .none) : groupBeginAct p s =
    (s.setGroup p { s.groups[p] with state := .staging, ops := [], boundary := none, remaining := 0 }, .ok []) :=
  if_neg (not_not.2 h)

theorem groupBeginAct_refused (h : s.groups[p].state ≠ .none) : groupBeginAct p s = (s, .refuse .groupState) := if_pos h

theorem groupDiscardAct_refused (h : s.groups[p].state = .none) : groupDiscardAct p s = (s, .refuse .groupState) := if_pos h

theorem groupDiscardAct_ok (h : s.groups[p].state ≠ .none) :
    groupDiscardAct p s = (discardGroup p s, .ok [byte s.groups[p].ops.length]) := if_neg h

theorem expireGroup_due (h1 : s.groups[p].state = .pending) (h2 : s.groups[p].period ≠ 0) (h3 : s.groups[p].remaining = 0) :
    expireGroup p s = discardNoticed p .expired s := if_pos (by
    rw [groupDue, h1, h3, bne_iff_ne.2 h2]
    rfl)

/-- A discard frees what the group reserves, each entry once, and closes the group. -/
theorem discardGroup_spec (hr : (reservedBy s p).Nodup) : ∃ (table : Vector Slot 256) (due : Vector (List EntryIx) 4),
    discardGroup p s = groupDiscarded p table due s
      ∧ (∀ a : AxisId, due[a] = s.due[a].filter (fun i => !(reservedBy s p).contains i))
      ∧ ∀ i : EntryIx, table[i] = if i ∈ reservedBy s p then ⟨s.table[i].gen + 1, none⟩ else s.table[i] := by
  obtain ⟨t, ht, form, due, table⟩ := foldl_freeEntry (reservedBy s p) hr s
  refine ⟨t.table, t.due, ?_, due, table⟩
  have discarded : discardGroup p s = closeGroup p t := congrArg (closeGroup p) ht
  rw [discarded, closeGroup_eq, form]
  rfl

end

/-- Settles O43: the discard on command and at the expiry is the same, with the notice at the expiry only. -/
theorem groupLifetime : Obligations.GroupLifetime := by
  refine ⟨fun p s h => ⟨fun none => ?_, fun live => ?_, fun none => ?_⟩, fun p s hs => ?_⟩
  · exact congrArg _ (takeFrame_ok h rfl (groupBeginAct_ok (s := leaseRenewed s p) none) rfl rfl)
  · exact congrArg _ (takeFrame_refused h rfl (groupBeginAct_refused (s := leaseRenewed s p) live))
  · exact congrArg _ (takeFrame_refused h rfl (groupDiscardAct_refused (s := leaseRenewed s p) none))
  · obtain ⟨table, due, form, dueAt, slots⟩ := discardGroup_spec (hs p).1
    refine ⟨fun h live => ?_, fun pending period remaining => ?_⟩
    · have renewed : discardGroup p (leaseRenewed s p) = { discardGroup p s with ports := (leaseRenewed s p).ports } :=
        congrArg (closeGroup p) (freeAll_comm (f := fun u => { u with ports := (leaseRenewed s p).ports }) (fun _ _ => rfl) _ s)
      have act := groupDiscardAct_ok (s := leaseRenewed s p) live
      rw [renewed, form] at act
      refine ⟨{ groupDiscarded p table due s with ports := answered s p (okResponse .groupDiscard [byte s.groups[p].ops.length]) },
        congrArg _ (takeFrame_ok h rfl act rfl rfl), rfl, dueAt, slots⟩
    · have expired := expireGroup_due pending period remaining
      rw [discardNoticed, form] at expired
      exact ⟨post (.groupDiscarded .expired s.groups[p].ops.length s.groups[p].boundary) [p] (groupDiscarded p table due s),
        congrArg _ expired, rfl, dueAt, slots⟩

end Sys2Proof.Machine
end

section
/-! SUPPORT. GROUP_END (R112, R113): what its payload reads as, its checks, and the group that waits or applies (O44). -/

namespace Sys2Proof.Machine

/-! ## The payload (R112) -/

/-- The payload of a GROUP_END. -/
abbrev groupEndPayload (b x d : Byte) (v : Int) (period : Nat) : List Byte := [b, x, d] ++ leInt48 v ++ leBytes 2 period

/-- A field of 48 bits reads 0 for the value 0 only. -/
theorem leValue_leInt48_eq_zero {v : Int} (h1 : -140737488355328 ≤ v) (h2 : v < 140737488355328) :
    leValue (leInt48 v) = 0 ↔ v = 0 := by
  refine ⟨fun h => ?_, fun h => by rw [h]; rfl⟩
  rw [← signed48_leInt48 h1 h2, h]
  rfl

theorem groupEndPeriod_payload (b x d : Byte) (v : Int) {period : Nat} (hp : period < 65536) :
    groupEndPeriod (groupEndPayload b x d v period) = period := field_leBytes 2 period hp

section
variable (b x d : Byte) {v : Int} (period : Nat) (h1 : -140737488355328 ≤ v) (h2 : v < 140737488355328)
include h1 h2

theorem parseGroupEnd_payload : parseGroupEnd (groupEndPayload b x d v period) =
    match b.toNat with
    | 0 => do
      demand (x.toNat == 0 && d.toNat == 0 && v == 0)
      return .now
    | 1 => do
      let m ← fin4 x.toNat
      demand (d.toNat == 0 && v == 0)
      return .at (.atMark m)
    | 2 => do
      let a ← fin4 x.toNat
      let dir ← Direction.ofCode d.toNat
      demand (!(a == timeAxis && dir == .reverse))
      let v ← rangedValue v
      return .at (.atPosition a v dir)
    | _ => none := by
  set pl := groupEndPayload b x d v period
  have bField : field pl 0 1 = b.toNat := field_one ..
  have xField : field pl 1 1 = x.toNat := field_one ..
  have dField : field pl 2 1 = d.toNat := field_one ..
  have vField : field pl 3 6 = leValue (leInt48 v) := field_append (leInt48_length v).symm
  have vValue : fieldInt48 pl 3 = v := fieldInt48_leInt48 h1 h2 _
  have zero : (field pl 3 6 == 0) = (v == 0) := by
    rw [vField, Bool.eq_iff_iff, beq_iff_eq, beq_iff_eq]
    exact leValue_leInt48_eq_zero h1 h2
  rw [parseGroupEnd, bField, xField, dField, zero, vValue] <;> rfl

/-- The reasons for which a GROUP_END is BAD_FIELD, by the boundary it names. -/
theorem parseGroupEnd_none
    (h : 2 < b.toNat ∨ (b = 0 ∧ (x ≠ 0 ∨ d ≠ 0 ∨ v ≠ 0)) ∨ (b = 1 ∧ (3 < x.toNat ∨ d ≠ 0 ∨ v ≠ 0))
      ∨ (b = 2 ∧ (3 < x.toNat ∨ 1 < d.toNat ∨ (x = 3 ∧ d = 1) ∨ v = -140737488355328))) :
    parseGroupEnd (groupEndPayload b x d v period) = none := by
  refine Option.eq_none_iff_forall_ne_some.2 fun op read => ?_
  rw [parseGroupEnd_payload b x d period h1 h2] at read
  split at read
  · rename_i now
    simp only [Option.bind_eq_bind, Option.bind_eq_some_iff, demand_eq_some, Bool.and_eq_true, beq_iff_eq] at read
    obtain ⟨-, ⟨⟨hx, hd⟩, hv⟩, -⟩ := read
    bv_omega
  · rename_i atMark
    simp only [Option.bind_eq_bind, Option.bind_eq_some_iff, demand_eq_some, fin4_eq_some, Bool.and_eq_true, beq_iff_eq] at read
    obtain ⟨m, hx, -, ⟨hd, hv⟩, -⟩ := read
    bv_omega
  · rename_i atPosition
    simp only [Option.bind_eq_bind, Option.bind_eq_some_iff, demand_eq_some, fin4_eq_some, rangedValue_eq_some] at read
    obtain ⟨a, hx, dir, hdir, -, time, w, ⟨range, rfl⟩, -⟩ := read
    have code := Direction.code_of_ofCode hdir
    have codeLt := dir.code_lt
    have low := ((inRange_iff _).1 range).1
    have forward : ¬(x.toNat = 3 ∧ d.toNat = 1) := fun ⟨h3, h1⟩ => by
      have reverse := Direction.code_eq_one.1 (code.trans h1)
      have last : a = timeAxis := Fin.ext (hx.symm.trans h3)
      simp [reverse, last] at time
    bv_omega
  · nomatch read

end

theorem parseGroupEnd_now (period : Nat) : parseGroupEnd (groupEndPayload 0 0 0 0 period) = some .now :=
  parseGroupEnd_payload 0 0 0 period (by decide) (by decide)

theorem parseGroupEnd_atMark (m : MarkId) (period : Nat) :
    parseGroupEnd (groupEndPayload 1 (byte m.val) 0 0 period) = some (.at (.atMark m)) := by
  rw [parseGroupEnd_payload _ _ _ _ (by decide) (by decide), byte_toNat_of_lt (by omega), fin4_eq_some.2 rfl]
  rfl

theorem parseGroupEnd_atPosition {a : AxisId} {d : Direction} {v : Int} (hv : inRange v = true) (hd : ¬(a = 3 ∧ d = .reverse))
    (period : Nat) :
    parseGroupEnd (groupEndPayload 2 (byte a.val) (byte d.code) v period) = some (.at (.atPosition a v d)) := by
  obtain ⟨low, high⟩ := (inRange_iff v).1 hv
  have code := d.code_lt
  have forward : (!(a == timeAxis && d == .reverse)) = true := by
    rw [Bool.not_eq_true', ← Bool.not_eq_true, Bool.and_eq_true, beq_iff_eq, beq_iff_eq]
    exact hd
  rw [parseGroupEnd_payload _ _ _ _ (by omega) (by omega), byte_toNat_of_lt (by omega), byte_toNat_of_lt (by omega),
    fin4_eq_some.2 rfl, Direction.ofCode_code, rangedValue_eq_some.2 ⟨hv, rfl⟩]
  simp only [Option.bind_eq_bind, Option.bind_some, forward]
  rfl

/-! ## The checks and what follows them (R112, R113) -/

theorem boundaryReached_iff {s : State} {a : AxisId} {v : Int} {d : Direction} :
    boundaryReached s (.atPosition a v d) = true ↔
      axisFrozen s a = false ∧ (d = .forward ∧ v ≤ s.axes[a].value ∨ d = .reverse ∧ s.axes[a].value ≤ v) := by
  cases d <;> simp [boundaryReached]

/-- What GROUP_END answers in the state `t` that it leaves: the group's state, and how many operations it held. -/
abbrev groupEndAnswer (p : Port) (s t : State) : State × Answer :=
  (t, .ok [byte t.groups[p].state.code, byte s.groups[p].ops.length])

section
variable {p : Port} {pl : List Byte} {s : State}

theorem groupEndAct_groupState (hs : s.groups[p].state ≠ .staging) : groupEndAct p pl s = (s, .refuse .groupState) := if_pos hs

section
variable (hs : s.groups[p].state = .staging)
include hs

theorem groupEndAct_badField (h : parseGroupEnd pl = none) : groupEndAct p pl s = (s, .refuse .badField) := by
  unfold groupEndAct
  rw [h]
  exact if_neg (not_not.2 hs)

theorem groupEndAct_now (h : parseGroupEnd pl = some .now) :
    groupEndAct p pl s = groupEndAnswer p s (applyGroup none p .now (.begin s)).done := by
  unfold groupEndAct
  rw [h]
  exact if_neg (not_not.2 hs)

section
variable {b : Boundary} (h : parseGroupEnd pl = some (.at b))
include h

theorem groupEndAct_refused {st : Status} (hb : boundaryRefusal s b = some st) : groupEndAct p pl s = (s, .refuse st) := by
  unfold groupEndAct
  rw [h]
  dsimp only
  rw [hb]
  exact if_neg (not_not.2 hs)

variable (hb : boundaryRefusal s b = none)
include hb

theorem groupEndAct_reached (hr : boundaryReached s b = true) :
    groupEndAct p pl s = groupEndAnswer p s (applyGroup none p (positionNow s b) (.begin s)).done := by
  unfold groupEndAct
  rw [h]
  dsimp only
  rw [hb]
  exact (if_neg (not_not.2 hs)).trans (if_pos hr)

theorem groupEndAct_pends (hr : boundaryReached s b ≠ true) :
    groupEndAct p pl s = groupEndAnswer p s (pendGroup p b (groupEndPeriod pl) s) := by
  unfold groupEndAct
  rw [h]
  dsimp only
  rw [hb]
  exact (if_neg (not_not.2 hs)).trans (if_neg hr)

end
end
end

theorem ScuOnly.ports {s t : State} (h : ScuOnly s t) : t.ports = s.ports := by rw [h]

/-- A group that applies within its GROUP_END: as R116 to R118 give, on the values that the AXU holds. -/
theorem applyGroup_atOnce (p : Port) (at_ : AppliedAt) {s : State} (h : FiringOk s) :
    ∃ acts t, (applyGroup none p at_ (.begin s)).done = sent t acts ∧ GroupApplies (fun a => s.axes[a].value) p at_ s acts t
      ∧ t.ports = s.ports ∧ t.groups[p].state = .none := by
  obtain ⟨acts, t, form, applies, -⟩ := applyGroup_applies (view := none) p at_ (.begin s) (fun _ => rfl) h
  have only := applyGroup_scuOnly (.begin s) none p at_
  refine ⟨acts, t, ?_, applies, ?_, ?_⟩
  · rw [done_eq_sent, form]
    rfl
  · rw [form] at only
    exact only.ports
  · obtain ⟨skipped, u, -, rfl⟩ := applies
    exact congrArg GroupRec.state (upd_get ..)

/-! ## The frame (R112, R113) -/

section
variable {p : Port} {s : State} (h : Admitted s p) {b x d : Byte} {v : Int} {period : Nat}
include h

theorem groupEnd_refused {st : Status}
    (hact : groupEndAct p (groupEndPayload b x d v period) (leaseRenewed s p) = (leaseRenewed s p, .refuse st)) :
    exec (.groupEnd p (groupEndPayload b x d v period)) s = .next (refused s p .groupEnd st) :=
  congrArg _ (takeFrame_refused h rfl hact)

/-- The group goes PENDING, at the tail of the list. -/
theorem groupEnd_pends {bd : Boundary} (hp : period < 65536)
    (hact : groupEndAct p (groupEndPayload b x d v period) (leaseRenewed s p) = groupEndAnswer p (leaseRenewed s p)
      (pendGroup p bd (groupEndPeriod (groupEndPayload b x d v period)) (leaseRenewed s p))) :
    exec (.groupEnd p (groupEndPayload b x d v period)) s = .next { s with
      groups := upd s.groups p { s.groups[p] with
        state := .pending, boundary := some bd, period := period, remaining := period * 1000 }
      pendingGroups := s.pendingGroups ++ [p]
      ports := answered s p (okResponse .groupEnd [byte 2, byte s.groups[p].ops.length]) } := by
  have pending : (pendGroup p bd period (leaseRenewed s p)).groups[p].state = .pending := congrArg GroupRec.state (upd_get ..)
  rw [groupEndPeriod_payload _ _ _ _ hp, groupEndAnswer, pending] at hact
  exact congrArg _ (takeFrame_ok h rfl hact rfl rfl)

/-- The group applies at once. -/
theorem groupEnd_applies {at_ : AppliedAt} (hf : FiringOk (leaseRenewed s p))
    (hact : groupEndAct p (groupEndPayload b x d v period) (leaseRenewed s p)
      = groupEndAnswer p (leaseRenewed s p) (applyGroup none p at_ (.begin (leaseRenewed s p))).done) :
    ∃ acts t, GroupApplies (fun a => s.axes[a].value) p at_ (leaseRenewed s p) acts t
      ∧ exec (.groupEnd p (groupEndPayload b x d v period)) s = .next { sent t acts with
          ports := answered s p (okResponse .groupEnd [byte 0, byte s.groups[p].ops.length]) } := by
  obtain ⟨acts, t, form, given, ports, group⟩ := applyGroup_atOnce p at_ hf
  have closed : (sent t acts).groups[p].state = .none := group
  rw [form, groupEndAnswer, closed] at hact
  exact ⟨acts, t, given, congrArg _ (takeFrame_ok h rfl hact ports rfl)⟩

end

/-- Settles O44: the payload is read, then the boundary is judged, and the group waits or applies. -/
theorem groupEnd : Obligations.GroupEnd := by
  intro p s h g
  refine ⟨fun hs pl hl => ?_, ?_⟩
  · exact congrArg _ (takeFrame_refused h hl (groupEndAct_groupState (s := leaseRenewed s p) hs))
  · intro staging period hp tail cmd atMark atPos resp pend applies reached
    have hs : (leaseRenewed s p).groups[p].state = .staging := staging
    refine ⟨fun b x d v h1 h2 bad => ?_, fun m idle => ?_, fun m live => ?_,
      fun a d v hv hd => ⟨fun disabled => ?_, fun enabled ahead => ?_, fun enabled met hsched hent => ?_⟩, fun hsched hent => ?_⟩
    · exact groupEnd_refused h (groupEndAct_badField hs (parseGroupEnd_none b x d period h1 h2 bad))
    · exact groupEnd_refused h (groupEndAct_refused hs (parseGroupEnd_atMark m period) (if_pos idle))
    · exact groupEnd_pends h hp (groupEndAct_pends hs (parseGroupEnd_atMark m period) (if_neg live) Bool.false_ne_true)
    · exact groupEnd_refused h (groupEndAct_refused hs (parseGroupEnd_atPosition hv hd period) (if_pos disabled))
    · exact groupEnd_pends h hp (groupEndAct_pends hs (parseGroupEnd_atPosition hv hd period) (if_neg enabled)
        (mt boundaryReached_iff.1 ahead))
    · exact groupEnd_applies h (.of_laws hsched hent) (groupEndAct_reached hs (parseGroupEnd_atPosition hv hd period)
        (if_neg enabled) (boundaryReached_iff.2 met))
    · exact groupEnd_applies h (.of_laws hsched hent) (groupEndAct_now hs (parseGroupEnd_now period))

end Sys2Proof.Machine
end

section
/-! SUPPORT. The law of the mark inputs (R79, R80): an event of the MKU writes the record of one input at a time, and writes one
that keeps to its ranges; the other commands leave the inputs as they are (O57). -/

namespace Sys2Proof.Machine

/-! ## The record of an input -/

section
variable {r : MarkRec}

/-- A record whose pending capture has just gone: nothing stands beside its deferred miss, and but for that it has its law. -/
structure MarkRec.CaptureGone (r : MarkRec) : Prop where
  active : r.state = .seeking ∨ r.state = .tracking
  capture : r.capture = none
  ok : { r with deferred := false }.ok

namespace MarkRec.ok

/-- A deferred miss is dropped. -/
theorem undeferred (h : r.ok) : { r with deferred := false }.ok := by
  obtain ⟨history, holder, pending, -, last, ranges⟩ := h
  exact ⟨history, holder, pending, nofun, last, ranges⟩

/-- A pending capture goes. -/
theorem captureGone (h : r.ok) (ha : r.state = .seeking ∨ r.state = .tracking) : { r with capture := none }.CaptureGone := by
  obtain ⟨history, holder, -, -, last, ranges⟩ := h
  exact ⟨ha, rfl, history, holder, (absurd rfl ·), nofun, last, ranges⟩

theorem captureGone_of_none (h : r.ok) (ha : r.state = .seeking ∨ r.state = .tracking) (hc : r.capture = none) : r.CaptureGone :=
  ⟨ha, hc, h.undeferred⟩

/-- A capture becomes pending. -/
theorem captured (h : r.ok) (ha : r.state = .seeking ∨ r.state = .tracking) (c : PendingCapture) :
    { r with capture := some c }.ok := by
  obtain ⟨history, holder, -, -, last, ranges⟩ := h
  exact ⟨history, holder, fun _ => ha, fun _ => nofun, last, ranges⟩

/-- A miss is deferred to a pending capture. -/
theorem deferring (h : r.ok) (hc : r.capture ≠ none) : { r with deferred := true }.ok := by
  obtain ⟨history, holder, pending, -, last, ranges⟩ := h
  exact ⟨history, holder, pending, fun _ => hc, last, ranges⟩

/-- An input that is not IDLE enters another such state, with no mark to track. -/
theorem entered (h : r.ok) (hs : r.state ≠ .idle) {st : MarkState} (hst : st = .seeking ∨ st = .suspended) :
    (r.enter st).ok := by
  obtain ⟨history, holder, -, -, -, misses, limit, -, ranges⟩ := h
  refine ⟨history, ⟨fun k => absurd (holder.1 k) hs, ?_⟩, (absurd rfl ·), nofun, ?_, misses, limit, ?_, ranges⟩
  all_goals rcases hst with rfl | rfl <;> exact nofun

/-- The miss count returns to 0. -/
theorem unmissed (h : r.ok) : { r with misses := 0 }.ok := by
  obtain ⟨history, holder, pending, deferred, last, -, limit, -, ranges⟩ := h
  exact ⟨history, holder, pending, deferred, last, Nat.zero_le _, limit, fun _ => rfl, ranges⟩

/-- The input becomes IDLE, with no holder. -/
theorem stopped (h : r.ok) :
    { r with state := .idle, holder := none, capture := none, deferred := false, misses := 0 }.ok := by
  obtain ⟨history, -, -, -, -, -, limit, -, ranges⟩ := h
  exact ⟨history, ⟨fun _ => rfl, fun _ => rfl⟩, (absurd rfl ·), nofun, nofun, Nat.zero_le _, limit, fun _ => rfl, ranges⟩

/-- An input starts for a port, its history empty. -/
theorem started (h : r.ok) (p : Port) {st : MarkState} (hst : st = .seeking ∨ st = .suspended) :
    { r.enter st with holder := some p, history := [], seq := 0, misses := 0, last := none }.ok := by
  obtain ⟨-, -, -, -, -, -, limit, -, ranges⟩ := h
  refine ⟨Nat.zero_le _, ⟨nofun, ?_⟩, (absurd rfl ·), nofun, ?_, Nat.zero_le _, limit, fun _ => rfl, ranges⟩
  all_goals rcases hst with rfl | rfl <;> exact nofun

/-- The next mark is counted and recorded. -/
theorem counted {l : LastMark} (h : { r with last := some l }.ok) (c : Capture) (seq : BitVec 16) (l' : LastMark) :
    { r with seq := seq, last := some l', history := (c :: r.history).take Config.historyCapacity }.ok := by
  obtain ⟨-, holder, pending, deferred, -, ranges⟩ := h
  exact ⟨List.length_take_le _ _, holder, pending, deferred, fun _ => nofun, ranges⟩

/-- A debounce counts down. -/
theorem tick (h : r.ok) : r.tick.ok := by
  obtain ⟨history, holder, pending, deferred, ranges⟩ := h
  exact ⟨history, holder, fun k => pending fun e => k (by rw [MarkRec.tick, e]; rfl),
    fun k e => deferred k (Option.map_eq_none_iff.1 e), ranges⟩

end MarkRec.ok

namespace MarkRec.CaptureGone

theorem notIdle (h : r.CaptureGone) : r.state ≠ .idle := by
  rcases h.active with k | k <;> rw [k] <;> decide

theorem undeferred (h : r.CaptureGone) : { r with deferred := false }.CaptureGone := ⟨h.active, h.capture, h.ok⟩

/-- With no deferred miss the record has its whole law. -/
theorem ok_of_not_deferred (h : r.CaptureGone) (hd : ¬r.deferred = true) : r.ok := by
  have ok := h.ok
  rwa [← eq_false_of_ne_true hd] at ok

/-- A capture is accepted: the input is TRACKING, on a last mark. -/
theorem accepted (h : r.CaptureGone) (l : LastMark) :
    { r with state := .tracking, misses := 0, deferred := false, last := some l }.ok := by
  obtain ⟨history, holder, -, -, -, -, limit, -, ranges⟩ := h.ok
  exact ⟨history, ⟨fun k => absurd (holder.1 k) h.notIdle, nofun⟩, (absurd h.capture ·), nofun, fun _ => nofun, Nat.zero_le _,
    limit, nofun, ranges⟩

/-- A miss is made good below the miss limit. -/
theorem substituted (h : r.CaptureGone) (hm : r.misses < r.missLimit) (l : LastMark) :
    { r with misses := r.misses + 1, deferred := false, last := some l }.ok := by
  obtain ⟨history, holder, pending, -, -, -, limit, -, ranges⟩ := h.ok
  exact ⟨history, holder, pending, nofun, fun _ => nofun, hm, limit, fun k => absurd k h.notIdle, ranges⟩

end MarkRec.CaptureGone

/-- What MARK_CONFIG carries lies in the ranges of R79. -/
theorem parseMarkConfig_ranges {pl : List Byte} {c : MarkConfigOp} (h : parseMarkConfig pl = some c) :
    c.missLimit ≤ 15 ∧ 1 ≤ c.pitch ∧ c.pitch ≤ Config.countMax ∧ c.tolerance < c.pitch ∧ c.debounce ≤ 255 := by
  simp only [parseMarkConfig, Option.bind_eq_bind, Option.bind_eq_some_iff, demand_eq_some, boundedNat_eq_some] at h
  obtain ⟨_, -, _, -, _, -, _, -, -, -, _, ⟨⟨low, high⟩, rfl⟩, -, within, _, ⟨⟨-, most⟩, rfl⟩, build⟩ := h
  cases build
  exact ⟨most, low, high, of_decide_eq_true within, Nat.le_of_lt_succ (field_lt pl 13 1)⟩

/-- An IDLE input takes a configuration. -/
theorem MarkRec.ok.configured (h : r.ok) (hs : r.state = .idle) {pl : List Byte} {c : MarkConfigOp}
    (hc : parseMarkConfig pl = some c) :
    { r with refAxis := c.refAxis, edge := c.edge, direction := c.direction, pitch := c.pitch, tolerance := c.tolerance,
             missLimit := c.missLimit, debounce := c.debounce }.ok := by
  obtain ⟨history, holder, pending, deferred, last, -, -, idle, -⟩ := h
  obtain ⟨limit, ranges⟩ := parseMarkConfig_ranges hc
  exact ⟨history, holder, pending, deferred, last, (idle hs).symm ▸ Nat.zero_le _, limit, idle, ranges⟩

end

/-! ## Events at one input -/

/-- At most the record of one input has been written, and it has its law. -/
def MarkOkAt (m : MarkId) (s t : State) : Prop := ∃ r : MarkRec, r.ok ∧ t.marks = upd s.marks m r

section
variable {m : MarkId} {s t u : State}

namespace MarkOkAt

theorem of_same (h : s.marks[m].ok) (ht : t.marks = s.marks) : MarkOkAt m s t := by
  have same : upd s.marks m s.marks[m] = s.marks := upd_same ..
  exact ⟨_, h, by rw [ht, same]⟩

/-- What the input was before its record was written does not matter. -/
theorem after {r : MarkRec} (h : MarkOkAt m u t) (hu : u.marks = upd s.marks m r) : MarkOkAt m s t := by
  obtain ⟨r', hr, ht⟩ := h
  exact ⟨r', hr, by rw [ht, hu, upd_upd]⟩

theorem marksOk (h : MarkOkAt m s t) (hs : MarksOk s) : MarksOk t := by
  obtain ⟨r, hr, ht⟩ := h
  intro k
  rw [ht]
  exact forall_upd (P := fun _ r => MarkRec.ok r) s.marks m r hr (fun j _ => hs j) k

end MarkOkAt

theorem countMark_okAt {l : LastMark} (h : { s.marks[m] with last := some l }.ok) (c : Capture) (k : CaptureKind) (v : Int) :
    MarkOkAt m s (countMark m c k v s) := ⟨_, h.counted .., rfl⟩

theorem loseMarks_okAt (h : s.marks[m].ok) (hs : s.marks[m].state ≠ .idle) (c : LostCause) {st : MarkState}
    (hst : st = .seeking ∨ st = .suspended) : MarkOkAt m s (loseMarks m c st s) := ⟨_, (h.entered hs hst).unmissed, rfl⟩

theorem stopInput_okAt (h : s.marks[m].ok) : MarkOkAt m s (stopInput m s) := by
  rw [stopInput_eq]
  exact ⟨_, h.stopped, rfl⟩

section
variable (h : s.marks[m].CaptureGone)
include h

theorem acceptCapture_okAt (c : Capture) : MarkOkAt m s (acceptCapture m c s) := by
  refine MarkOkAt.after (u := s.setMark m { s.marks[m] with state := .tracking, misses := 0, deferred := false })
    (countMark_okAt (l := ⟨0, 0⟩) ?_ ..) rfl
  rw [setMark_get]
  exact h.accepted _

theorem substituteMark_okAt (hm : s.marks[m].misses < s.marks[m].missLimit) (v : Int) :
    MarkOkAt m s (substituteMark m v s) := by
  refine MarkOkAt.after (u := s.setMark m { s.marks[m] with misses := s.marks[m].misses + 1, deferred := false })
    (countMark_okAt (l := ⟨0, 0⟩) ?_ ..) rfl
  rw [setMark_get]
  exact h.substituted hm _

/-- Marks that are missed are lost whether a miss is deferred or not. -/
theorem loseMissed_okAt : MarkOkAt m s (loseMarks m .missed .seeking s) :=
  ⟨_, (h.ok.entered h.notIdle (.inl rfl)).unmissed, rfl⟩

theorem declareMiss_okAt : MarkOkAt m s (declareMiss m s) := by
  unfold declareMiss
  dsimp only
  split
  · split
    · rename_i hm
      exact substituteMark_okAt h hm _
    · exact loseMissed_okAt h
  · exact loseMissed_okAt h

theorem resolveDeferred_okAt : MarkOkAt m s (resolveDeferred m s) := by
  unfold resolveDeferred
  dsimp only
  split
  · have cleared : MarkOkAt m s (s.setMark m { s.marks[m] with deferred := false }) := ⟨_, h.ok, rfl⟩
    split
    · split
      · exact (declareMiss_okAt (by rw [setMark_get]; exact h.undeferred)).after rfl
      · exact cleared
    · exact cleared
  · rename_i hd
    exact .of_same (h.ok_of_not_deferred hd) rfl

theorem judgeCapture_okAt (c : Capture) : MarkOkAt m s (judgeCapture m c s) := by
  have accept := acceptCapture_okAt h c
  unfold judgeCapture
  dsimp only
  split
  next => exact accept
  next =>
    split
    · split
      · exact resolveDeferred_okAt (s := post _ _ s) h
      · exact accept
    · exact accept
  next hs => exact absurd hs h.notIdle
  next hs => exact absurd h.active (by rw [hs]; decide)

end

section
variable (h : s.marks[m].ok)
include h

theorem edgeSeen_okAt (ha : s.marks[m].state = .seeking ∨ s.marks[m].state = .tracking) (level : Bool) :
    MarkOkAt m s (edgeSeen m level s) := by
  have gone : (s.setMark m { s.marks[m] with capture := none }).marks[m].CaptureGone := by
    rw [setMark_get]
    exact h.captureGone ha
  unfold edgeSeen
  dsimp only
  split
  · split
    · exact (judgeCapture_okAt gone _).after rfl
    · exact ⟨_, h.captured ha _, rfl⟩
  · split
    · exact (resolveDeferred_okAt gone).after rfl
    · exact .of_same h rfl

theorem endDebounce_okAt : MarkOkAt m s (endDebounce m s) := by
  unfold endDebounce
  split
  · rename_i c hc
    split
    · have ⟨_, _, pending, _⟩ := h
      have active := pending (by rw [hc]; exact nofun)
      exact (judgeCapture_okAt (by rw [setMark_get]; exact h.captureGone active) _).after rfl
    · exact .of_same h rfl
  · exact .of_same h rfl

theorem markChange_okAt (level : Bool) : MarkOkAt m s (markChange m level s) := by
  have followed : { s.marks[m] with level := level }.ok := h
  unfold markChange
  dsimp only
  split
  · exact .of_same h rfl
  · split
    · exact .of_same h rfl
    · split
      · exact ⟨_, followed, rfl⟩
      · exact ⟨_, followed, rfl⟩
      next hs => exact (edgeSeen_okAt (by rw [setMark_get]; exact followed) (by rw [setMark_get]; exact .inl hs) level).after rfl
      next hs => exact (edgeSeen_okAt (by rw [setMark_get]; exact followed) (by rw [setMark_get]; exact .inr hs) level).after rfl

theorem trackStep_okAt (a : AxisId) (msg : StepMsg) : MarkOkAt m s (trackStep a msg s m) := by
  unfold trackStep
  dsimp only
  split
  · rename_i hs _
    split
    · split
      · rename_i hc
        exact ⟨_, h.deferring (Option.isSome_iff_ne_none.1 hc), rfl⟩
      · rename_i hc
        exact declareMiss_okAt (h.captureGone_of_none (.inr hs) (Option.not_isSome_iff_eq_none.1 hc))
    · exact .of_same h rfl
  all_goals exact .of_same h rfl

theorem freezeInput_okAt (a : AxisId) : MarkOkAt m s (freezeInput a s m) := by
  unfold freezeInput
  dsimp only
  split
  · rename_i hs
    exact loseMarks_okAt h (by rcases hs.2 with k | k <;> exact k.trans_ne (by decide)) _ (.inr rfl)
  · exact .of_same h rfl

theorem thawInput_okAt (a : AxisId) : MarkOkAt m s (thawInput a s m) := by
  unfold thawInput
  dsimp only
  split
  · rename_i hs
    exact ⟨_, h.entered (hs.2.trans_ne (by decide)) (.inl rfl), rfl⟩
  · exact .of_same h rfl

theorem rebaseInput_okAt (a : AxisId) : MarkOkAt m s (rebaseInput a s m) := by
  unfold rebaseInput
  dsimp only
  split
  · rename_i hs
    exact loseMarks_okAt h (by rcases hs.2 with k | k <;> exact k.trans_ne (by decide)) _ (.inl rfl)
  · exact .of_same h rfl

theorem releaseInput_okAt (p : Port) : MarkOkAt m s (releaseInput p s m) := by
  unfold releaseInput
  split
  · exact stopInput_okAt h
  · exact .of_same h rfl

end

end

/-! ## All inputs -/

theorem releaseNotices_marks (a : AxisId) (s : State) : (releaseNotices a s).marks = s.marks := by
  unfold releaseNotices
  split <;> rfl

section
variable {s : State} (h : MarksOk s)
include h

theorem marksOk_foldl {f : State → MarkId → State} (hf : ∀ s m, s.marks[m].ok → MarkOkAt m s (f s m)) (l : List MarkId) :
    MarksOk (l.foldl f s) :=
  foldl_rel (R := fun s t => MarksOk s → MarksOk t) (fun _ => id) (fun _ _ _ f g => g ∘ f)
    (fun s m k => (hf s m (k m)).marksOk k) l s h

theorem marksOk_releaseInputs (p : Port) : MarksOk (releaseInputs p s) := marksOk_foldl h (fun _ _ k => releaseInput_okAt k p) _

theorem marksOk_markConfigAct (pl : List Byte) : MarksOk (markConfigAct pl s).1 := by
  unfold markConfigAct
  split
  · exact h
  · rename_i c hc
    dsimp only
    split
    · exact h
    · rename_i hs
      exact MarkOkAt.marksOk (m := c.m) ⟨_, (h c.m).configured (not_not.1 hs) hc, rfl⟩ h

theorem marksOk_markStartAct (p : Port) (pl : List Byte) : MarksOk (markStartAct p pl s).1 := by
  unfold markStartAct
  split
  · exact h
  · rename_i m _
    dsimp only
    split
    · exact h
    · split
      · exact h
      · exact MarkOkAt.marksOk (m := m) ⟨_, (h m).started p (by split <;> simp), rfl⟩ h

theorem marksOk_markStopAct (p : Port) (pl : List Byte) : MarksOk (markStopAct p pl s).1 := by
  unfold markStopAct
  split
  · exact h
  · rename_i m _
    split
    · exact h
    · split
      · exact h
      · split
        · exact h
        · exact (stopInput_okAt (h m)).marksOk h

theorem marksOk_takeMkuStep (a : AxisId) : MarksOk (takeMkuStep a s) := by
  unfold takeMkuStep
  split
  · dsimp only
    split
    · exact h
    · exact marksOk_foldl (s := s.setToMku ..) h (fun _ _ k => trackStep_okAt k a _) _
  · exact h

theorem marksOk_takeFreeze (a : AxisId) : MarksOk (takeFreeze a s) := by
  unfold takeFreeze
  split
  · exact marksOk_foldl (s := s.setToMku ..) h (fun _ _ k => freezeInput_okAt k a) _
  · exact h

theorem marksOk_takeThaw (a : AxisId) : MarksOk (takeThaw a s) := by
  unfold takeThaw
  split
  · exact marksOk_foldl (s := s.setToMku ..) h (fun _ _ k => thawInput_okAt k a) _
  · exact h

theorem marksOk_takeRebase (a : AxisId) : MarksOk (takeRebase a s) := by
  unfold takeRebase
  split
  · rename_i rest _
    have rebased := marksOk_foldl (s := s.setToMku a rest) h (fun _ _ k => rebaseInput_okAt k a) (List.finRange 4)
    intro m
    rw [releaseNotices_marks]
    exact rebased m
  · exact h

theorem marksOk_releaseReset : MarksOk (releaseReset s) := by
  unfold releaseReset
  split
  · intro m
    have record : (Vector.ofFn fun m : MarkId => { s.marks[m] with level := s.pins.mark[m] })[m] =
        { s.marks[m] with level := s.pins.mark[m] } := Vector.getElem_ofFn ..
    dsimp only
    rw [record]
    exact h m
  · exact h

theorem marksOk_advance : MarksOk (advance s) := by
  intro m
  have record : (advance s).marks[m] = s.marks[m].tick := Vector.getElem_map ..
  rw [record]
  exact (h m).tick

end

/-! ## Every command -/

theorem marksOk_mku {c : Instr} (hc : site c = some .mku) {s t : State} (h : MarksOk s) (ht : exec c s = .next t) : MarksOk t := by
  have port : PortFree MarksOk := fun _ _ _ _ h => h
  have frame {p : Port} {c : Command} {pl : List Byte} {act : State → State × Answer}
      (hact : ∀ u, MarksOk u → MarksOk (act u).1) : MarksOk (takeFrame p c pl act s) := takeFrame_rel port.framing hact s h
  match c, hc with
  | .markConfig _ pl, _ => cases ht; exact frame fun _ k => marksOk_markConfigAct k pl
  | .markStart p pl, _ => cases ht; exact frame fun _ k => marksOk_markStartAct k p pl
  | .markStop p pl, _ => cases ht; exact frame fun _ k => marksOk_markStopAct k p pl
  | .mkuTeardown p, _ => cases ht; exact teardownPart_rel port.framing (fun _ k => marksOk_releaseInputs k p) s h
  | .freezeEvent a, _ => cases ht; exact marksOk_takeFreeze h a
  | .thawEvent a, _ => cases ht; exact marksOk_takeThaw h a
  | .rebaseEvent a, _ => cases ht; exact marksOk_takeRebase h a
  | .mkuStep a, _ => cases ht; exact marksOk_takeMkuStep h a
  | .markEdge m level, _ => cases ht; exact (markChange_okAt (h m) level).marksOk h
  | .debounceEnd m, _ => cases ht; exact (endDebounce_okAt (h m)).marksOk h

theorem marksOk_exec (c : Instr) (s t : State) (h : MarksOk s) (ht : exec c s = .next t) : MarksOk t := by
  refine exec_keeps (law := MarksOk) (fun c k hc s t h ht => ?_) (fun s _ => ?_) (fun _ => marksOk_releaseReset)
    (fun _ h _ => marksOk_advance h) c s t h ht
  · by_cases hk : k = .mku
    · subst hk
      exact marksOk_mku hc h ht
    · have by_ := exec_of_site hc ht
      have marks : t.marks = s.marks := by
        cases k
        case mku => exact absurd rfl hk
        all_goals simp only [By] at by_; rw [by_]
      intro m
      rw [marks]
      exact h m
  · exact marksOk_resetWith s.pins (.ofFn fun p => s.ports[p].link.abandon)

end Sys2Proof.Machine
end

section
/-! SUPPORT. The channels (R126, R127): what an action, a release and a base tick do to the record of one, and the law between its
owner, its state and its pulse time, which every command keeps; with the law of the mark inputs (O57). -/

namespace Sys2Proof.Machine

/-! ## The record of a channel -/

/-- The law of one channel (R126, R127). -/
abbrev ChanRec.ok (r : ChanRec) : Prop := (r.owner = none ↔ r.state = .unowned) ∧ (r.remaining ≠ 0 → r.state = .pulsing)

section
variable {r : ChanRec}

theorem ChanRec.toggle_rest (w : Nat) (h : r.state = .rest) :
    r.act .toggle w = { r with state := .active, remaining := 0 } := by
  unfold ChanRec.act
  simp only [h]

theorem ChanRec.toggle_driven (w : Nat) (h : r.state = .active ∨ r.state = .pulsing) :
    r.act .toggle w = { r with state := .rest, remaining := 0 } := by
  unfold ChanRec.act
  rcases h with h | h <;> simp only [h]

/-- The table of R133, for whatever it says of the state and the time that result. -/
theorem ChanRec.act_table {act : Action} {w : Nat} {becomes : ChanState → Nat → Prop}
    (h : ∀ st left, r.act act w = { r with state := st, remaining := left } → becomes st left) :
    (act = .pulse → becomes .pulsing w) ∧ (act = .set → becomes .active 0) ∧ (act = .clear → becomes .rest 0)
      ∧ (act = .toggle → r.state = .rest → becomes .active 0)
      ∧ (act = .toggle → r.state = .active ∨ r.state = .pulsing → becomes .rest 0) := by
  refine ⟨?_, ?_, ?_, ?_, ?_⟩ <;> rintro rfl
  · exact h _ _ rfl
  · exact h _ _ rfl
  · exact h _ _ rfl
  · exact fun hs => h _ _ (ChanRec.toggle_rest w hs)
  · exact fun hs => h _ _ (ChanRec.toggle_driven w hs)

theorem ChanRec.ok_of_owned {p : Port} (h : r.owner = some p) (hs : r.state ≠ .unowned)
    (hr : r.remaining ≠ 0 → r.state = .pulsing) : r.ok :=
  ⟨⟨fun k => (nomatch h.symm.trans k), fun k => absurd k hs⟩, hr⟩

/-- An action on an owned channel leaves no time but to a pulse. -/
theorem ChanRec.act_ok {p : Port} (h : r.owner = some p) (act : Action) (w : Nat) : (r.act act w).ok := by
  cases act with
  | pulse => exact ok_of_owned h nofun fun _ => rfl
  | set => exact ok_of_owned h nofun (absurd rfl ·)
  | clear => exact ok_of_owned h nofun (absurd rfl ·)
  | toggle =>
    unfold ChanRec.act
    dsimp only
    split <;> exact ok_of_owned h nofun (absurd rfl ·)

theorem ChanRec.release_ok (r : ChanRec) : r.release.ok := ⟨⟨fun _ => rfl, fun _ => rfl⟩, (absurd rfl ·)⟩

/-- A pulse whose time has run out ends. -/
theorem ChanRec.ok.expired (h : r.ok) (hs : r.state = .pulsing) (hr : r.remaining = 0) : { r with state := .rest }.ok :=
  ⟨⟨fun k => (nomatch hs.symm.trans (h.1.1 k)), nofun⟩, (absurd hr ·)⟩

theorem ChanRec.ok.tick (h : r.ok) : r.tick.ok := by
  unfold ChanRec.tick
  split
  · rename_i hs
    exact ⟨h.1, fun _ => hs⟩
  · exact h

end

/-! ## What the OTU does -/

section
variable {s : State}

theorem setChan_get (s : State) (c : ChanId) (r : ChanRec) : (s.setChan c r).chans[c] = r := upd_get ..

theorem setChan_get_ne (s : State) {c d : ChanId} (r : ChanRec) (h : d ≠ c) : (s.setChan c r).chans[d] = s.chans[d] :=
  upd_get_ne _ _ h

theorem takeAction_owned {x : OutAction} (h : s.chans[x.chan].owner = some x.port) :
    takeAction s x = s.setChan x.chan (s.chans[x.chan].act x.act x.width) := if_pos h

theorem takeAction_foreign {x : OutAction} (h : s.chans[x.chan].owner ≠ some x.port) : takeAction s x = s := if_neg h

theorem pulseDue_iff (s : State) (c : ChanId) : pulseDue s c = true ↔ s.chans[c].state = .pulsing ∧ s.chans[c].remaining = 0 := by
  rw [pulseDue, Bool.and_eq_true, beq_iff_eq, beq_iff_eq]

theorem expirePulse_due {c : ChanId} (hs : s.chans[c].state = .pulsing) (hr : s.chans[c].remaining = 0) :
    expirePulse c s = s.setChan c { s.chans[c] with state := .rest } := if_pos ((pulseDue_iff s c).2 ⟨hs, hr⟩)

section
variable (h : ChannelsOk s)
include h

/-- The record of one channel is written, with its law. -/
theorem channelsOk_setChan (c : ChanId) {r : ChanRec} (hr : r.ok) : ChannelsOk (s.setChan c r) :=
  forall_upd (P := fun _ r => ChanRec.ok r) s.chans c r hr fun j _ => h j

theorem channelsOk_takeAction (x : OutAction) : ChannelsOk (takeAction s x) := by
  by_cases ho : s.chans[x.chan].owner = some x.port
  · rw [takeAction_owned ho]
    exact channelsOk_setChan h _ (ChanRec.act_ok ho ..)
  · rwa [takeAction_foreign ho]

theorem channelsOk_takeBatch (batch : List OutAction) : ChannelsOk (takeBatch batch s) :=
  foldl_rel (R := fun s t => ChannelsOk s → ChannelsOk t) (fun _ => id) (fun _ _ _ f g => g ∘ f)
    (fun _ x k => channelsOk_takeAction k x) batch s h

theorem channelsOk_takeOldestBatch : ChannelsOk (takeOldestBatch s) := by
  unfold takeOldestBatch
  split
  · exact h
  · rename_i batch rest _
    exact channelsOk_takeBatch (s := { s with toOtu := rest }) h batch

theorem channelsOk_expirePulse (c : ChanId) : ChannelsOk (expirePulse c s) := by
  unfold expirePulse
  split
  · rename_i due
    obtain ⟨hs, hr⟩ := (pulseDue_iff s c).1 due
    exact channelsOk_setChan h c (ChanRec.ok.expired (h c) hs hr)
  · exact h

theorem channelsOk_channelClaimAct (p : Port) (pl : List Byte) : ChannelsOk (channelClaimAct p pl s).1 := by
  have claimed (c : ChanId) (pol : Polarity) (safe : Bool) : ChannelsOk (claimChannel p c pol safe s) :=
    channelsOk_setChan h c (ChanRec.ok_of_owned rfl nofun (absurd rfl ·))
  unfold channelClaimAct
  split
  · exact h
  · split
    · split
      · exact claimed _ _ _
      · exact h
    · exact claimed _ _ _

theorem channelsOk_channelReleaseAct (p : Port) (pl : List Byte) : ChannelsOk (channelReleaseAct p pl s).1 := by
  unfold channelReleaseAct
  split
  · exact h
  · split
    · exact h
    · split
      · exact h
      · exact channelsOk_setChan h _ (ChanRec.release_ok _)

theorem channelsOk_channelDriveAct (p : Port) (pl : List Byte) : ChannelsOk (channelDriveAct p pl s).1 := by
  unfold channelDriveAct
  dsimp only
  split
  · exact h
  · split
    · exact h
    · split
      · exact h
      · split
        · exact h
        · exact channelsOk_takeBatch h _

theorem channelsOk_releaseChannels (p : Port) : ChannelsOk (releaseChannels p s) := by
  intro c
  rw [releaseChannels_chan]
  split
  · exact ChanRec.release_ok _
  · exact h c

theorem channelsOk_advance : ChannelsOk (advance s) := by
  intro c
  have record : (advance s).chans[c] = s.chans[c].tick := Vector.getElem_map ..
  rw [record]
  exact ChanRec.ok.tick (h c)

end
end

/-! ## The commands that leave the channels as they are -/

/-- The commands that the OTU acts on. -/
def ofOtu : Instr → Bool
  | .channelClaim .. | .channelRelease .. | .channelDrive .. | .otuTeardown _ | .action | .pulseExpiry _ => true
  | _ => false

/-- The channels are the same. -/
def SameChans (s t : State) : Prop := t.chans = s.chans

theorem framing_sameChans : Framing SameChans := ⟨fun _ => rfl, fun h k => k.trans h, fun _ _ _ => rfl⟩

theorem ScuOnly.sameChans {s t : State} (h : ScuOnly s t) : SameChans s t := by
  unfold SameChans
  rw [h]

section
variable (s : State)

theorem takeScuStep_sameChans (a : AxisId) : SameChans s (takeScuStep a s) := by
  unfold takeScuStep
  split
  · rfl
  · rename_i rest _
    dsimp only
    split
    · rfl
    · exact ((scuStepWork_scuOnly (s.setToScu a rest) a _).trans (done_scuOnly _)).sameChans

theorem takeMarkHandoff_sameChans : SameChans s (takeMarkHandoff s) := by
  unfold takeMarkHandoff
  split
  · exact (takeMark_scuOnly { s with mkuToScu := _ } _).sameChans
  · rfl

theorem takeStopRequest_sameChans : SameChans s (takeStopRequest s) := by
  unfold takeStopRequest
  split
  · exact (stopAtScu_scuOnly { s with mkuToScu := _ } _ _ _).sameChans
  · rfl

theorem takeHolderStop_sameChans : SameChans s (takeHolderStop s) := by
  unfold takeHolderStop
  split
  · exact (stopAtScu_scuOnly { s with mkuToScu := _ } _ _ _).sameChans
  · rfl

theorem takePostings_sameChans : SameChans s (takePostings s) := by
  rw [takePostings_eq]
  rfl

theorem takePosting_sameChans : SameChans s (takePosting s) := by
  unfold takePosting
  split <;> rfl

theorem fallSelect_sameChans (p : Port) : SameChans s (fallSelect p s) := by
  unfold fallSelect
  split
  · rfl
  · split
    · exact framing_sameChans.trans (takePostings_sameChans s) (framing_sameChans.port ..)
    all_goals rfl

theorem takeMalformed_sameChans (p : Port) (bytes : List Byte) : SameChans s (takeMalformed p bytes s) := by
  unfold takeMalformed
  split
  · rfl
  · split
    · exact atRise_rel framing_sameChans (fun u => framing_sameChans.port u p _) s
    · rfl

theorem takeUnknown_sameChans (p : Port) (code : Byte) (pl : List Byte) : SameChans s (takeUnknown p code pl s) := by
  unfold takeUnknown
  split
  · rfl
  · refine atRise_rel framing_sameChans (fun u => ?_) s
    split
    · rfl
    · exact framing_sameChans.trans (renewLease_rel framing_sameChans p u) (framing_sameChans.port ..)

theorem takeNop_sameChans (p : Port) (pl : List Byte) : SameChans s (takeNop p pl s) := by
  refine atRise_rel framing_sameChans (fun u => ?_) s
  have renewed := renewLease_rel framing_sameChans p u
  dsimp only
  split
  · rfl
  · split
    · exact framing_sameChans.trans renewed (framing_sameChans.port ..)
    · exact renewed

theorem attachAct_sameChans (p : Port) (pl : List Byte) : SameChans s (attachAct p pl s).1 := by
  unfold attachAct attachPort
  split
  · rfl
  · dsimp only
    split <;> rfl

theorem noticeReadAct_sameChans (p : Port) (pl : List Byte) : SameChans s (noticeReadAct p pl s).1 := by
  unfold noticeReadAct
  split <;> rfl

theorem subscribeAct_sameChans (p : Port) (pl : List Byte) : SameChans s (subscribeAct p pl s).1 := by
  unfold subscribeAct
  split <;> rfl

theorem postPeerAct_sameChans (p : Port) (pl : List Byte) : SameChans s (postPeerAct p pl s).1 := by
  unfold postPeerAct
  split
  · rfl
  · dsimp only
    split
    · rfl
    · split <;> rfl

theorem expireLease_sameChans (p : Port) : SameChans s (expireLease p s) := by
  unfold expireLease
  split <;> rfl

theorem takePartDone_sameChans (p : Port) (b : Block) : SameChans s (takePartDone p b s) := by
  unfold takePartDone
  dsimp only
  split
  · split <;> rfl
  · rfl

end

/-- Only the commands of the OTU change the channels. -/
theorem exec_sameChans {c : Instr} {k : Site} (hc : site c = some k) (ho : ofOtu c = false) {s t : State}
    (ht : exec c s = .next t) : SameChans s t := by
  have frame {p : Port} {c : Command} {pl : List Byte} {act : State → State × Answer}
      (hact : ∀ u, SameChans u (act u).1) : SameChans s (takeFrame p c pl act s) := takeFrame_rel framing_sameChans hact s
  have read {u v : State} (h : v = u) : SameChans u v := congrArg State.chans h
  have by_ := exec_of_site hc ht
  cases k with
  | axu => simp only [By] at by_; rw [by_]; rfl
  | mku => simp only [By] at by_; rw [by_]; rfl
  | scu =>
    match c, hc, ho with
    | .arm p pl, _, _ => cases ht; exact frame fun u => (armAct_scuOnly p pl u).sameChans
    | .cancel p pl, _, _ => cases ht; exact frame fun u => (cancelAct_scuOnly p pl u).sameChans
    | .groupBegin p _, _, _ => cases ht; exact frame fun u => (groupBeginAct_scuOnly p u).sameChans
    | .groupEnd p pl, _, _ => cases ht; exact frame fun u => (groupEndAct_scuOnly p pl u).sameChans
    | .groupDiscard p _, _, _ => cases ht; exact frame fun u => (groupDiscardAct_scuOnly p u).sameChans
    | .scuTeardown p, _, _ => cases ht; exact teardownPart_rel framing_sameChans (fun u => (removePort_scuOnly u p).sameChans) s
    | .scuStep a, _, _ => cases ht; exact takeScuStep_sameChans s a
    | .markHandoff, _, _ => cases ht; exact takeMarkHandoff_sameChans s
    | .stopRequest, _, _ => cases ht; exact takeStopRequest_sameChans s
    | .holderStopRequest, _, _ => cases ht; exact takeHolderStop_sameChans s
    | .groupExpiry p, _, _ => cases ht; exact (expireGroup_scuOnly s p).sameChans
  | pif =>
    match c, hc, ho with
    | .chipSelectFall p, _, _ => cases ht; exact fallSelect_sameChans s p
    | .emptyTransaction _, _, _ => cases ht; rfl
    | .malformedFrame p bytes, _, _ => cases ht; exact takeMalformed_sameChans s p bytes
    | .unknownCode p code pl, _, _ => cases ht; exact takeUnknown_sameChans s p code pl
    | .nop p pl, _, _ => cases ht; exact takeNop_sameChans s p pl
    | .ident .., _, _ => cases ht; exact frame fun _ => rfl
    | .attach p pl, _, _ => cases ht; exact frame fun u => attachAct_sameChans u p pl
    | .detach .., _, _ => cases ht; exact frame fun _ => rfl
    | .status .., _, _ => cases ht; exact frame fun _ => rfl
    | .axisRead .., _, _ => cases ht; exact frame fun _ => rfl
    | .recordRead p pl, _, _ => cases ht; exact frame fun u => read (recordReadAct_state p pl u)
    | .tableStatus .., _, _ => cases ht; exact frame fun _ => rfl
    | .groupStatus .., _, _ => cases ht; exact frame fun _ => rfl
    | .markRead _ pl, _, _ => cases ht; exact frame fun u => read (markReadAct_state pl u)
    | .markStatus _ pl, _, _ => cases ht; exact frame fun u => read (markStatusAct_state pl u)
    | .channelStatus .., _, _ => cases ht; exact frame fun _ => rfl
    | .noticeRead p pl, _, _ => cases ht; exact frame fun u => noticeReadAct_sameChans u p pl
    | .subscribe p pl, _, _ => cases ht; exact frame fun u => subscribeAct_sameChans u p pl
    | .postPeer p pl, _, _ => cases ht; exact frame fun u => postPeerAct_sameChans u p pl
    | .leaseExpiry p, _, _ => cases ht; exact expireLease_sameChans s p
    | .teardownPartDone p b, _, _ => cases ht; exact takePartDone_sameChans s p b
    | .noticePosting, _, _ => cases ht; exact takePosting_sameChans s

/-! ## The law, command by command -/

theorem SameChans.channelsOk {s t : State} (h : SameChans s t) (hs : ChannelsOk s) : ChannelsOk t := by
  intro c
  rw [h]
  exact hs c

theorem channelsOk_otu {c : Instr} (hc : ofOtu c = true) {s t : State} (h : ChannelsOk s) (ht : exec c s = .next t) :
    ChannelsOk t := by
  have port : PortFree ChannelsOk := fun _ _ _ _ h => h
  have frame {p : Port} {c : Command} {pl : List Byte} {act : State → State × Answer}
      (hact : ∀ u, ChannelsOk u → ChannelsOk (act u).1) : ChannelsOk (takeFrame p c pl act s) := takeFrame_rel port.framing hact s h
  match c, hc with
  | .channelClaim p pl, _ => cases ht; exact frame fun _ k => channelsOk_channelClaimAct k p pl
  | .channelRelease p pl, _ => cases ht; exact frame fun _ k => channelsOk_channelReleaseAct k p pl
  | .channelDrive p pl, _ => cases ht; exact frame fun _ k => channelsOk_channelDriveAct k p pl
  | .otuTeardown p, _ => cases ht; exact teardownPart_rel port.framing (fun _ k => channelsOk_releaseChannels k p) s h
  | .action, _ => cases ht; exact channelsOk_takeOldestBatch h
  | .pulseExpiry c, _ => cases ht; exact channelsOk_expirePulse h c

theorem channelsOk_exec (c : Instr) (s t : State) (h : ChannelsOk s) (ht : exec c s = .next t) : ChannelsOk t := by
  refine exec_keeps (law := ChannelsOk) (fun c k hc s t h ht => ?_) (fun s _ => ?_) (fun s h => ?_)
    (fun _ h _ => channelsOk_advance h) c s t h ht
  · cases ho : ofOtu c with
    | true => exact channelsOk_otu ho h ht
    | false => exact (exec_sameChans hc ho ht).channelsOk h
  · exact channelsOk_resetWith s.pins (.ofFn fun p => s.ports[p].link.abandon)
  · unfold releaseReset
    split <;> exact h

/-- Settles O57: every command keeps both laws, and neither speaks of the ports. -/
theorem channelAndMarkLawsKept : Obligations.ChannelAndMarkLawsKept :=
  ⟨kept_of_exec (fun _ _ _ _ h => h) channelsOk_exec, kept_of_exec (fun _ _ _ _ h => h) marksOk_exec⟩

end Sys2Proof.Machine
end

section
/-! SUPPORT. CHANNEL_CLAIM and CHANNEL_RELEASE (R128 to R131; O45): what their payloads read, what each act answers, and from these
what the part is after the frame. -/

namespace Sys2Proof.Machine

/-! ## CHANNEL_CLAIM (R128, R129) -/

theorem chanOf_chan (c : ChanId) (bs : List Byte) : chanOf (field (byte c.val :: bs) 0 1) = some c := by
  rw [field_one, byte_toNat_of_lt (by omega), chanOf, dif_pos c.isLt]

theorem chanOf_none {n : Byte} (h : 11 < n.toNat) (bs : List Byte) : chanOf (field (n :: bs) 0 1) = none := by
  rw [field_one, chanOf, dif_neg (by omega)]

theorem Polarity.ofCode_code (pol : Polarity) : Polarity.ofCode pol.code = some pol := by cases pol <;> rfl

theorem Polarity.ofCode_none {n : Nat} (h : 1 < n) : Polarity.ofCode n = none := by
  match n, h with
  | _ + 2, _ => rfl

theorem Polarity.code_lt (pol : Polarity) : pol.code < 2 := by cases pol <;> decide

/-- The three reasons for which a CHANNEL_CLAIM is BAD_FIELD. -/
theorem parseClaim_none {c pol safe : Byte} (h : 11 < c.toNat ∨ 1 < pol.toNat ∨ 1 < safe.toNat) :
    parseClaim [c, pol, safe] = none := by
  have polField : field [c, pol, safe] 1 1 = pol.toNat := field_one pol [safe]
  have safeField : field [c, pol, safe] 2 1 = safe.toNat := field_one safe []
  refine Option.eq_none_iff_forall_ne_some.2 fun x read => ?_
  rw [parseClaim, polField, safeField] at read
  simp only [Option.bind_eq_bind, Option.bind_eq_some_iff] at read
  obtain ⟨_, hc, _, hpol, _, hsafe, -⟩ := read
  rcases h with h | h | h
  · exact nomatch (chanOf_none h _).symm.trans hc
  · exact nomatch (Polarity.ofCode_none h).symm.trans hpol
  · exact nomatch (flagOf_none h).symm.trans hsafe

theorem parseClaim_some (c : ChanId) (pol : Polarity) (safe : Bool) :
    parseClaim [byte c.val, byte pol.code, byte (if safe then 1 else 0)] = some (c, pol, safe) := by
  have polField : field [byte c.val, byte pol.code, byte (if safe then 1 else 0)] 1 1 = pol.code :=
    (field_one _ _).trans (byte_toNat_of_lt (by have := pol.code_lt; omega))
  have safeField : flagOf (field [byte c.val, byte pol.code, byte (if safe then 1 else 0)] 2 1) = some safe := by
    cases safe <;> rfl
  rw [parseClaim, chanOf_chan, polField, Polarity.ofCode_code, safeField]
  rfl

section
variable {p : Port} {pl : List Byte} {s : State}

theorem channelClaimAct_badField (h : parseClaim pl = none) : channelClaimAct p pl s = (s, .refuse .badField) := by
  unfold channelClaimAct
  rw [h]

variable {c : ChanId} {pol : Polarity} {safe : Bool} (h : parseClaim pl = some (c, pol, safe))
include h

theorem channelClaimAct_owned {q : Port} (ho : s.chans[c].owner = some q) (hq : q ≠ p) :
    channelClaimAct p pl s = (s, .refuse .owned) := by
  unfold channelClaimAct
  rw [h]
  dsimp only
  rw [ho]
  exact if_neg hq

/-- An UNOWNED channel is granted, and the issuer's own is re-claimed. -/
theorem channelClaimAct_ok (ho : s.chans[c].owner = none ∨ s.chans[c].owner = some p) :
    channelClaimAct p pl s = (claimChannel p c pol safe s, .ok []) := by
  unfold channelClaimAct
  rw [h]
  dsimp only
  rcases ho with ho | ho <;> rw [ho]
  exact if_pos rfl

end

/-! ## CHANNEL_RELEASE (R130, R131) -/

/-- A port's entries or its staged drives name a channel. -/
abbrev Named (s : State) (p : Port) (c : ChanId) : Prop :=
  (∃ i : EntryIx, ∃ e ∈ s.table[i].entry, e.owner = p ∧ e.desc.mask.getLsbD c.val = true)
    ∨ ∃ mask act width, .drive mask act width ∈ s.groups[p].ops ∧ mask.getLsbD c.val = true

theorem drives_iff (c : ChanId) (op : GroupOp) :
    op.drives c = true ↔ ∃ mask act width, op = .drive mask act width ∧ mask.getLsbD c.val = true := by
  cases op with
  | drive mask act width =>
    refine ⟨fun h => ⟨mask, act, width, rfl, h⟩, ?_⟩
    rintro ⟨_, _, _, ⟨⟩, h⟩
    exact h
  | arm _ _ => exact ⟨nofun, nofun⟩
  | cancel _ => exact ⟨nofun, nofun⟩

/-- Check 3 of R130. -/
theorem channelNamed_iff (s : State) (p : Port) (c : ChanId) : channelNamed s p c = true ↔ Named s p c := by
  rw [channelNamed, Bool.or_eq_true, List.any_eq_true, List.any_eq_true]
  refine or_congr ⟨fun ⟨e, he, hn⟩ => ?_, fun ⟨i, e, he, hn⟩ => ?_⟩ ⟨fun ⟨op, hop, hd⟩ => ?_, fun ⟨mask, act, width, hop, hd⟩ => ?_⟩
  · obtain ⟨i, hi⟩ := (mem_entriesOf s e).1 he
    rw [Bool.and_eq_true, beq_iff_eq] at hn
    exact ⟨i, e, hi, hn⟩
  · exact ⟨e, (mem_entriesOf s e).2 ⟨i, he⟩, by rwa [Bool.and_eq_true, beq_iff_eq]⟩
  · obtain ⟨mask, act, width, rfl, hm⟩ := (drives_iff c op).1 hd
    exact ⟨mask, act, width, hop, hm⟩
  · exact ⟨_, hop, hd⟩

section
variable {p : Port} {pl : List Byte} {s : State}

theorem channelReleaseAct_badField (h : chanOf (field pl 0 1) = none) : channelReleaseAct p pl s = (s, .refuse .badField) := by
  unfold channelReleaseAct
  rw [h]

variable {c : ChanId} (h : chanOf (field pl 0 1) = some c)
include h

theorem channelReleaseAct_notOwner (ho : s.chans[c].owner ≠ some p) : channelReleaseAct p pl s = (s, .refuse .notOwner) := by
  unfold channelReleaseAct
  rw [h]
  exact if_pos ho

variable (ho : s.chans[c].owner = some p)
include ho

theorem channelReleaseAct_owned : channelReleaseAct p pl s =
    if channelNamed s p c then (s, .refuse .inUse) else (s.setChan c s.chans[c].release, .ok []) := by
  unfold channelReleaseAct
  rw [h]
  exact if_neg (not_not.2 ho)

theorem channelReleaseAct_inUse (hn : Named s p c) : channelReleaseAct p pl s = (s, .refuse .inUse) :=
  (channelReleaseAct_owned h ho).trans (if_pos ((channelNamed_iff s p c).2 hn))

theorem channelReleaseAct_ok (hn : ¬Named s p c) : channelReleaseAct p pl s = (s.setChan c s.chans[c].release, .ok []) :=
  (channelReleaseAct_owned h ho).trans (if_neg (mt (channelNamed_iff s p c).1 hn))

end

/-- Settles O45: the checks of each command in order, and its effect. -/
theorem channelOwnership : Obligations.ChannelOwnership := by
  refine ⟨⟨fun p c pol safe s h bad => ?_, fun p c pol safe s h => ⟨fun q ho hq => ?_, fun ho => ?_⟩⟩,
    fun p n s h hn => ?_, fun p c s h => ⟨fun ho => ?_, fun ho hn => ?_, fun ho hn => ?_⟩⟩
  · exact congrArg _ (takeFrame_refused h rfl (channelClaimAct_badField (parseClaim_none bad)))
  · exact congrArg _ (takeFrame_refused h rfl (channelClaimAct_owned (parseClaim_some c pol safe) ho hq))
  · exact congrArg _ (takeFrame_ok h rfl (channelClaimAct_ok (parseClaim_some c pol safe) ho) rfl rfl)
  · exact congrArg _ (takeFrame_refused h rfl (channelReleaseAct_badField (chanOf_none hn [])))
  · exact congrArg _ (takeFrame_refused h rfl (channelReleaseAct_notOwner (chanOf_chan c []) ho))
  · exact congrArg _ (takeFrame_refused h rfl (channelReleaseAct_inUse (chanOf_chan c []) ho hn))
  · exact congrArg _ (takeFrame_ok h rfl (channelReleaseAct_ok (s := leaseRenewed s p) (chanOf_chan c []) ho hn) rfl rfl)

end Sys2Proof.Machine
end

section
/-! SUPPORT. Actions on the channels (R127, R132 to R137): one action, the actions of one event, the end of a pulse and the drive of
a mask (O46, O47). -/

namespace Sys2Proof.Machine

/-! ## The level of the pin (R127) -/

section
variable {r : ChanRec}

theorem pin_unowned (h : r.state = .unowned) : r.pin = r.safe := by
  unfold ChanRec.pin
  rw [h]

theorem pin_rest (h : r.state = .rest) : r.pin = (r.polarity == .activeLow) := by
  unfold ChanRec.pin
  rw [h]

theorem pin_driven (h : r.state = .active ∨ r.state = .pulsing) : r.pin = (r.polarity == .activeHigh) := by
  unfold ChanRec.pin
  rcases h with h | h <;> rw [h]

end

/-! ## The actions of one event (R132, R136) -/

theorem takeBatch_cons (x : OutAction) (more : List OutAction) (s : State) :
    takeBatch (x :: more) s = takeBatch more (takeAction s x) := rfl

theorem takeOldestBatch_eq {batch : List OutAction} {rest : List (List OutAction)} {s : State} (h : s.toOtu = batch :: rest) :
    takeOldestBatch s = takeBatch batch { s with toOtu := rest } := by
  unfold takeOldestBatch
  rw [h]

theorem takeOldestBatch_head (s : State) (batch : List OutAction) (rest : List (List OutAction)) :
    takeOldestBatch { s with toOtu := batch :: rest } = takeBatch batch { s with toOtu := rest } := rfl

/-- An action asks for nothing of the batches still on their way, and leaves them. -/
theorem takeAction_toOtu (s : State) (x : OutAction) (l : List (List OutAction)) :
    takeAction { s with toOtu := l } x = { takeAction s x with toOtu := l } := by
  by_cases ho : s.chans[x.chan].owner = some x.port
  · rw [takeAction_owned ho, takeAction_owned (s := { s with toOtu := l }) ho]
    rfl
  · rw [takeAction_foreign ho, takeAction_foreign (s := { s with toOtu := l }) ho]

/-- The first action of a batch, taken by itself, leaves the rest of the batch to be taken. -/
theorem takeOldestBatch_first {x : OutAction} {more : List OutAction} {rest : List (List OutAction)} {s : State}
    (h : s.toOtu = (x :: more) :: rest) :
    takeOldestBatch s = takeOldestBatch (takeOldestBatch { s with toOtu := [x] :: more :: rest }) := by
  have first : takeOldestBatch { s with toOtu := [x] :: more :: rest } = { takeAction s x with toOtu := more :: rest } :=
    (takeOldestBatch_head s [x] _).trans (takeAction_toOtu s x (more :: rest))
  calc takeOldestBatch s
      = takeBatch more (takeAction { s with toOtu := rest } x) := takeOldestBatch_eq h
    _ = takeBatch more { takeAction s x with toOtu := rest } := by rw [takeAction_toOtu]
    _ = takeOldestBatch { takeAction s x with toOtu := more :: rest } := (takeOldestBatch_head _ more rest).symm
    _ = _ := by rw [first]

/-- Settles O46: the pin by the state, an action by the owner and the table of R133, and the end of a pulse. -/
theorem channelActionsAndPulseEnd : Obligations.ChannelActionsAndPulseEnd := by
  refine ⟨fun r => ⟨pin_unowned, fun hp => ⟨fun hs => ?_, fun hs => ?_⟩, fun hp => ⟨fun hs => ?_, fun hs => ?_⟩⟩, ?_, ?_⟩
  · rw [pin_rest hs, hp]; rfl
  · rw [pin_driven hs, hp]; rfl
  · rw [pin_rest hs, hp]; rfl
  · rw [pin_driven hs, hp]; rfl
  · intro p c act w rest s hb r becomes
    have run : exec .action s = .next (takeAction { s with toOtu := rest } ⟨p, c, act, w⟩) :=
      congrArg Host.Outcome.next (takeOldestBatch_eq hb)
    refine ⟨fun ho => run.trans (congrArg _ (takeAction_foreign ho)), fun ho => ChanRec.act_table fun st left hact => ?_⟩
    refine run.trans (congrArg _ ((takeAction_owned ho).trans ?_))
    exact congrArg (State.setChan { s with toOtu := rest } c) hact
  · exact fun c s hs hr => congrArg _ (expirePulse_due hs hr)

/-! ## The drive of a mask (R137) -/

theorem mem_maskChans (mask : BitVec 12) (c : ChanId) : c ∈ maskChans mask ↔ mask.getLsbD c.val = true := by
  rw [maskChans, List.mem_filter]
  exact and_iff_right (List.mem_finRange c)

theorem maskChans_nodup (mask : BitVec 12) : (maskChans mask).Nodup := (List.nodup_finRange 12).filter _

/-- A port's action on the channels of a list that holds each once, all of them its own. -/
theorem takeBatch_owned {p : Port} {act : Action} {w : Nat} {l : List ChanId} (hn : l.Nodup) {s : State}
    (ho : ∀ c ∈ l, s.chans[c].owner = some p) :
    ∃ chans : Vector ChanRec 12, takeBatch (l.map fun c => ⟨p, c, act, w⟩) s = { s with chans := chans }
      ∧ ∀ c : ChanId, chans[c] = if c ∈ l then s.chans[c].act act w else s.chans[c] := by
  induction l generalizing s with
  | nil => exact ⟨s.chans, rfl, fun c => (if_neg List.not_mem_nil).symm⟩
  | cons k l ih =>
    obtain ⟨hk, hn⟩ := List.nodup_cons.1 hn
    set u := s.setChan k (s.chans[k].act act w) with hu
    have first : takeAction s ⟨p, k, act, w⟩ = u := takeAction_owned (ho k List.mem_cons_self)
    have others {c : ChanId} (hc : c ≠ k) : u.chans[c] = s.chans[c] := setChan_get_ne s _ hc
    obtain ⟨chans, h1, h2⟩ := ih hn (s := u) fun c hc => by
      rw [others (ne_of_mem_of_not_mem hc hk)]
      exact ho c (List.mem_cons_of_mem _ hc)
    refine ⟨chans, ?_, fun c => ?_⟩
    · rw [List.map_cons, takeBatch_cons, first, h1]
      rfl
    · rw [h2 c]
      by_cases hc : c = k
      · subst hc
        rw [if_neg hk, if_pos List.mem_cons_self]
        exact setChan_get ..
      · rw [others hc]
        simp [hc]

theorem takeBatch_actionsFor {p : Port} {mask : BitVec 12} {s : State}
    (ho : ∀ c : ChanId, mask.getLsbD c.val = true → s.chans[c].owner = some p) (act : Action) (w : Nat) :
    ∃ chans : Vector ChanRec 12, takeBatch (actionsFor p mask act w) s = { s with chans := chans }
      ∧ ∀ c : ChanId, chans[c] = if mask.getLsbD c.val = true then s.chans[c].act act w else s.chans[c] := by
  obtain ⟨chans, h1, h2⟩ := takeBatch_owned (act := act) (w := w) (maskChans_nodup mask) (s := s)
    fun c hc => ho c ((mem_maskChans mask c).1 hc)
  refine ⟨chans, h1, fun c => ?_⟩
  rw [h2 c]
  simp only [mem_maskChans]

theorem channelDriveAct_immediate {p : Port} {pl : List Byte} {s : State} (hs : s.groups[p].state ≠ .staging) {d : DriveOp}
    (h : parseDrive pl = some d) (ho : ∀ c : ChanId, d.mask.getLsbD c.val = true → s.chans[c].owner = some p) :
    channelDriveAct p pl s = (takeBatch (actionsFor p d.mask d.act d.width) s, .ok [0xFF]) := by
  unfold channelDriveAct
  rw [h]
  dsimp only
  rw [(ownsMask_iff s p d.mask).2 ho]
  exact (if_neg fun k => hs k.1).trans (if_neg hs)

/-- Settles O47: a batch one action at a time, and a drive by its checks in order. -/
theorem channelDrive : Obligations.ChannelDrive := by
  refine ⟨fun x more rest s h => ⟨_, rfl, congrArg Host.Outcome.next (takeOldestBatch_first h)⟩, fun p s h hs => ?_⟩
  have immediate : ¬GroupFull (leaseRenewed s p) p := fun k => hs k.1
  have len (mask : Nat) (act : Byte) (width : Nat) : (drivePayload mask act width).length = Command.channelDrive.length := rfl
  refine ⟨fun mask act width hm hw bad => ?_, fun mask act width hm hw hwidth => ?_⟩
  · exact congrArg _ (takeFrame_refused h (len ..) (channelDriveAct_badField immediate (parseDrive_none hm hw bad)))
  · have read := parseDrive_some hm hw hwidth
    refine ⟨fun foreign => ?_, fun owns => ?_⟩
    · exact congrArg _ (takeFrame_refused h (len ..) (channelDriveAct_notOwner immediate read foreign))
    · obtain ⟨chans, batch, each⟩ := takeBatch_actionsFor (s := leaseRenewed s p) owns act width
      have drive := channelDriveAct_immediate (s := leaseRenewed s p) hs read owns
      rw [batch] at drive
      refine ⟨_, congrArg Host.Outcome.next (takeFrame_ok h (len ..) drive rfl rfl), rfl, fun c => ⟨fun hc => ?_, fun hc => ?_⟩⟩
      · exact (each c).trans (if_neg (ne_true_of_eq_false hc))
      · exact ChanRec.act_table fun st left hact => ((each c).trans (if_pos hc)).trans hact

end Sys2Proof.Machine
end

section
/-! SUPPORT. The frame commands as one row (R142 to R146): the act that each owning block makes, what such an act can answer, and from
these what the port state, the length and the code of a frame decide (O6 to O9, O13). -/

namespace Sys2Proof.Machine

/-! ## The act of each command -/

/-- What the owning block of a command does once the checks of R145 have passed. A NOP frame has no owning block; code 0x00 with
another LEN never comes so far (R144). -/
def frameAct (p : Port) (pl : List Byte) : Command → State → State × Answer
  | .nop => fun s => (s, .refuse .badLength)
  | .ident => fun s => (s, .ok (identBytes p))
  | .attach => attachAct p pl
  | .detach => fun s => (startTeardown p .detached s, .ok [])
  | .status => statusAct p
  | .axisConfig => axisConfigAct pl
  | .axisEnable => axisEnableAct pl
  | .axisDisable => axisDisableAct pl
  | .axisSet => axisSetAct p pl
  | .axisHome => axisHomeAct pl
  | .axisRead => fun s => (s, .ok (snapshotBytes s))
  | .timePreset => timePresetAct p pl
  | .timePresetClear => timePresetClearAct p
  | .arm => armAct p pl
  | .cancel => cancelAct p pl
  | .recordRead => recordReadAct p pl
  | .tableStatus => fun s => (s, .ok (tableStatusBytes s p))
  | .groupBegin => groupBeginAct p
  | .groupEnd => groupEndAct p pl
  | .groupDiscard => groupDiscardAct p
  | .groupStatus => fun s => (s, .ok s.groups[p].bytes)
  | .markConfig => markConfigAct pl
  | .markStart => markStartAct p pl
  | .markStop => markStopAct p pl
  | .markRead => markReadAct pl
  | .markStatus => markStatusAct pl
  | .channelClaim => channelClaimAct p pl
  | .channelRelease => channelReleaseAct p pl
  | .channelDrive => channelDriveAct p pl
  | .channelStatus => fun s => (s, .ok (channelStatusBytes s))
  | .noticeRead => noticeReadAct p pl
  | .subscribe => subscribeAct p pl
  | .postPeer => postPeerAct p pl

/-- Code 0x00 with a payload is taken as any other command of a wrong length (R144). -/
theorem takeNop_payload {pl : List Byte} (h : pl ≠ []) (p : Port) (act : State → State × Answer) (s : State) :
    takeNop p pl s = takeFrame p .nop pl act s := by
  have wrong : pl.length ≠ Command.nop.length := mt List.length_eq_zero_iff.1 h
  unfold takeNop takeFrame
  simp only [if_pos wrong]

/-- A frame other than the NOP frame goes through the checks of R145 to the act of its owning block. -/
theorem exec_frame {c : Command} {pl : List Byte} (h : ¬(c = .nop ∧ pl = [])) (p : Port) (s : State) :
    exec (c.instr p pl) s = .next (takeFrame p c pl (frameAct p pl c) s) := by
  cases c
  case nop => exact congrArg _ (takeNop_payload (fun k => h ⟨rfl, k⟩) p _ s)
  all_goals rfl

theorem exec_nop (p : Port) (pl : List Byte) (s : State) : exec (.nop p pl) s = .next (takeNop p pl s) := rfl

/-! ## What an act can answer -/

/-- An act refuses, and then it has changed nothing and the response has no payload; or it answers OK with a payload that a
response can hold (R144, R145, R167). -/
inductive Answers (s : State) : State × Answer → Prop
  | refuses (st : Status) : Answers s (s, .refuse st)
  | accepts (t : State) {pl : List Byte} : pl.length ≤ 58 → Answers s (t, .ok pl)

/-- An act that answers OK with an empty payload. -/
theorem Answers.done {s : State} (t : State) : Answers s (t, .ok []) := .accepts t (Nat.zero_le _)

section
variable (p : Port) (pl : List Byte) (s : State)

/-! ### The PIF -/

theorem attachAct_answers : Answers s (attachAct p pl s) := by
  unfold attachAct
  split
  · exact .refuses _
  · exact .accepts _ (by simp)

theorem statusBytes_length : (statusBytes s p).length = 13 := by simp [statusBytes]

theorem statusAct_answers : Answers s (statusAct p s) := .accepts _ (by rw [statusBytes_length]; decide)

/-- Every notice body fits into the 13 bytes of a notice. -/
theorem notice_fields_length (b : NoticeBody) : b.fields.length ≤ 13 := by
  have boundary (o : Option Boundary) : (boundaryBytes o).length = 9 := by
    unfold boundaryBytes
    split <;> simp
  cases b with
  | groupApplied at_ applied skipped first => cases at_ <;> simp [NoticeBody.fields]
  | _ => simp [NoticeBody.fields, Handle.bytes, boundary]

theorem notice_bytes_length (n : Notice) : n.bytes.length = 18 := by
  have fields := notice_fields_length n.body
  simp only [Notice.bytes, List.cons_append, List.length_cons, List.length_append, leBytes_length, List.length_replicate]
  omega

theorem notices_bytes_length (l : List Notice) : (l.flatMap Notice.bytes).length = 18 * l.length := by
  rw [List.length_flatMap, List.map_congr_left fun n _ => notice_bytes_length n, List.map_const', List.sum_replicate,
    smul_eq_mul, Nat.mul_comm]

/-- NOTICE_READ returns at most three notices of 18 bytes (R161). -/
theorem noticeReadAct_answers : Answers s (noticeReadAct p pl s) := by
  unfold noticeReadAct
  split
  · exact .refuses _
  · rename_i n hn
    obtain ⟨⟨-, most⟩, rfl⟩ := boundedNat_eq_some.1 hn
    refine .accepts _ ?_
    rw [List.length_append, leBytes_length, notices_bytes_length, List.length_take]
    omega

theorem subscribeAct_answers : Answers s (subscribeAct p pl s) := by
  unfold subscribeAct
  split
  · exact .refuses _
  · exact .accepts _ (by simp)

theorem postPeerAct_answers : Answers s (postPeerAct p pl s) := by
  unfold postPeerAct
  split
  · exact .refuses _
  · dsimp only
    split
    · exact .refuses _
    · split
      · exact .refuses _
      · exact .done _

/-! ### The AXU -/

theorem axisConfigAct_answers : Answers s (axisConfigAct pl s) := by
  unfold axisConfigAct
  split
  · exact .refuses _
  · split
    · exact .refuses _
    · split <;> exact .done _

theorem axisEnableAct_answers : Answers s (axisEnableAct pl s) := by
  unfold axisEnableAct
  split
  · exact .refuses _
  · split
    · exact .refuses _
    · dsimp only
      split <;> exact .done _

theorem axisDisableAct_answers : Answers s (axisDisableAct pl s) := by
  unfold axisDisableAct
  split
  · exact .refuses _
  · split
    · exact .refuses _
    · split
      · exact .refuses _
      · dsimp only
        split <;> exact .done _

theorem axisSetAct_answers : Answers s (axisSetAct p pl s) := by
  unfold axisSetAct
  split
  · exact .refuses _
  · split
    · exact .refuses _
    · exact .done _

theorem axisHomeAct_answers : Answers s (axisHomeAct pl s) := by
  unfold axisHomeAct
  split
  · exact .refuses _
  · split
    · exact .refuses _
    · exact .done _

theorem snapshotBytes_length : (snapshotBytes s).length = 32 := by
  rw [snapshotBytes_eq]
  simp

theorem timePresetAct_answers : Answers s (timePresetAct p pl s) := by
  rw [timePresetAct_eq]
  split
  · exact .refuses _
  · split
    · exact .refuses _
    · split
      · exact .refuses _
      · exact .done _

theorem timePresetClearAct_answers : Answers s (timePresetClearAct p s) := by
  unfold timePresetClearAct
  split
  · exact .done _
  · split
    · exact .done _
    · exact .refuses _

/-! ### The SCU -/

theorem armPayload_length (h : Handle) (state opIndex : Nat) : (armPayload h state opIndex).length = 4 := by
  simp [armPayload, Handle.bytes]

theorem armAct_answers : Answers s (armAct p pl s) := by
  have payload (h : Handle) (state opIndex : Nat) : (armPayload h state opIndex).length ≤ 58 := by
    rw [armPayload_length]
    decide
  unfold armAct
  dsimp only
  split
  · exact .refuses _
  · split
    · exact .refuses _
    · split
      · exact .refuses _
      · split
        · exact .accepts _ (payload ..)
        · split
          · exact .refuses _
          · exact .accepts _ (payload ..)

theorem cancelAct_answers : Answers s (cancelAct p pl s) := by
  unfold cancelAct
  dsimp only
  split
  · exact .refuses _
  · split
    · exact .refuses _
    · split
      · exact .refuses _
      · split <;> exact .accepts _ (by simp)

theorem entry_bytes_length (h : Handle) (e : Entry) : (e.bytes h).length = 52 := by
  have owed : (owedBytes e.desc.axis e.owed).length = 13 := by
    unfold owedBytes
    split <;> simp
  simp [Entry.bytes, TriggerDesc.bytes, owed]

theorem recordReadAct_answers : Answers s (recordReadAct p pl s) := by
  unfold recordReadAct
  dsimp only
  split
  · exact .refuses _
  · exact .accepts _ (by rw [entry_bytes_length]; decide)

theorem groupBeginAct_answers : Answers s (groupBeginAct p s) := by
  unfold groupBeginAct
  dsimp only
  split
  · exact .refuses _
  · exact .done _

theorem groupEndAct_answers : Answers s (groupEndAct p pl s) := by
  unfold groupEndAct
  dsimp only
  split
  · exact .refuses _
  · split
    · exact .refuses _
    · exact .accepts _ (by simp)
    · split
      · exact .refuses _
      · split <;> exact .accepts _ (by simp)

theorem groupDiscardAct_answers : Answers s (groupDiscardAct p s) := by
  unfold groupDiscardAct
  dsimp only
  split
  · exact .refuses _
  · exact .accepts _ (by simp)

theorem group_bytes_length (g : GroupRec) : g.bytes.length = 14 := by
  have boundary : (boundaryBytes g.boundary).length = 9 := by
    unfold boundaryBytes
    split <;> simp
  simp [GroupRec.bytes, boundary]

/-! ### The MKU -/

theorem markConfigAct_answers : Answers s (markConfigAct pl s) := by
  unfold markConfigAct
  split
  · exact .refuses _
  · dsimp only
    split
    · exact .refuses _
    · exact .done _

theorem markStartAct_answers : Answers s (markStartAct p pl s) := by
  unfold markStartAct
  split
  · exact .refuses _
  · dsimp only
    split
    · exact .refuses _
    · split
      · exact .refuses _
      · exact .done _

theorem markStopAct_answers : Answers s (markStopAct p pl s) := by
  unfold markStopAct
  split
  · exact .refuses _
  · split
    · exact .refuses _
    · split
      · exact .refuses _
      · split
        · exact .refuses _
        · exact .done _

theorem capture_bytes_length (c : Capture) : c.bytes.length = 36 := by
  simp [Capture.bytes, toList_four]

theorem markReadAct_answers : Answers s (markReadAct pl s) := by
  unfold markReadAct
  split
  · exact .refuses _
  · split
    · exact .refuses _
    · exact .accepts _ (by rw [capture_bytes_length]; decide)

theorem mark_bytes_length (r : MarkRec) : r.bytes.length = 26 := by simp [MarkRec.bytes]

theorem markStatusAct_answers : Answers s (markStatusAct pl s) := by
  unfold markStatusAct
  split
  · exact .refuses _
  · exact .accepts _ (by rw [mark_bytes_length]; decide)

/-! ### The OTU -/

theorem channelClaimAct_answers : Answers s (channelClaimAct p pl s) := by
  unfold channelClaimAct
  split
  · exact .refuses _
  · split
    · split
      · exact .done _
      · exact .refuses _
    · exact .done _

theorem channelReleaseAct_answers : Answers s (channelReleaseAct p pl s) := by
  unfold channelReleaseAct
  split
  · exact .refuses _
  · split
    · exact .refuses _
    · split
      · exact .refuses _
      · exact .done _

theorem channelDriveAct_answers : Answers s (channelDriveAct p pl s) := by
  unfold channelDriveAct
  dsimp only
  split
  · exact .refuses _
  · split
    · exact .refuses _
    · split
      · exact .refuses _
      · split <;> exact .accepts _ (by simp)

theorem channelStatusBytes_length : (channelStatusBytes s).length = 48 := by
  have record (r : ChanRec) : r.bytes.length = 4 := by simp [ChanRec.bytes]
  rw [channelStatusBytes, List.length_flatMap, List.map_congr_left fun r _ => record r, List.map_const', List.sum_replicate,
    Vector.length_toList]
  rfl

/-! ### Every command -/

/-- Whatever the command, its act refuses and changes nothing, or answers OK. -/
theorem frameAct_answers (c : Command) : Answers s (frameAct p pl c s) :=
  match c with
  | .nop => .refuses _
  | .ident => .accepts _ (by simp [identBytes])
  | .attach => attachAct_answers p pl s
  | .detach => .done _
  | .status => statusAct_answers p s
  | .axisConfig => axisConfigAct_answers pl s
  | .axisEnable => axisEnableAct_answers pl s
  | .axisDisable => axisDisableAct_answers pl s
  | .axisSet => axisSetAct_answers p pl s
  | .axisHome => axisHomeAct_answers pl s
  | .axisRead => .accepts _ (by rw [snapshotBytes_length]; decide)
  | .timePreset => timePresetAct_answers p pl s
  | .timePresetClear => timePresetClearAct_answers p s
  | .arm => armAct_answers p pl s
  | .cancel => cancelAct_answers p pl s
  | .recordRead => recordReadAct_answers p pl s
  | .tableStatus => .accepts _ (by simp [tableStatusBytes])
  | .groupBegin => groupBeginAct_answers p s
  | .groupEnd => groupEndAct_answers p pl s
  | .groupDiscard => groupDiscardAct_answers p s
  | .groupStatus => .accepts _ (by rw [group_bytes_length]; decide)
  | .markConfig => markConfigAct_answers pl s
  | .markStart => markStartAct_answers p pl s
  | .markStop => markStopAct_answers p pl s
  | .markRead => markReadAct_answers pl s
  | .markStatus => markStatusAct_answers pl s
  | .channelClaim => channelClaimAct_answers p pl s
  | .channelRelease => channelReleaseAct_answers p pl s
  | .channelDrive => channelDriveAct_answers p pl s
  | .channelStatus => .accepts _ (by rw [channelStatusBytes_length]; decide)
  | .noticeRead => noticeReadAct_answers p pl s
  | .subscribe => subscribeAct_answers p pl s
  | .postPeer => postPeerAct_answers p pl s

end

/-! ## Refusals (R145, R167) -/

theorem refused_buffer (s : State) (p : Port) (c : Command) (st : Status) : (refused s p c st).ports[p].buffer = refusal c st :=
  congrArg PortRec.buffer (upd_get ..)

theorem respond_buffer (p : Port) (echo : Byte) (ans : Answer) (s : State) :
    (respond p echo ans s).ports[p].buffer = ⟨ans.status, echo, ans.payload⟩ := congrArg PortRec.buffer (upd_get ..)

/-- An act's answer that is not OK is a refusal. -/
theorem respond_answers {p : Port} {c : Command} {s : State} {x : State × Answer} (h : Answers (leaseRenewed s p) x) :
    x.2.status = .ok ∨ respond p c.code x.2 x.1 = refused s p c x.2.status := by
  cases h with
  | refuses st => exact .inr (respond_refuse_leaseRenewed ..)
  | accepts t _ => exact .inl rfl

/-- Settles O8: LEN and the port state refuse on their own, and an act that does not answer OK has changed nothing
(`frameAct_answers`). -/
theorem refusalChangesNothing : Obligations.RefusalChangesNothing := by
  intro p c pl s t taken fits notNop ht
  rw [exec_frame notNop, takeFrame_taken taken fits] at ht
  cases ht
  split
  · intro _
    rw [refused_buffer]
    rfl
  · split
    · intro _
      rw [refused_buffer]
      rfl
    · rw [respond_buffer]
      exact (respond_answers (frameAct_answers p pl _ c)).resolve_left

/-! ## The checks of a frame (R142 to R145) -/

/-- No command has the code. -/
theorem commandOfCode_none {code : Byte} (h : ∀ c : Command, c.code ≠ code) : commandOfCode code = none := by
  rw [commandOfCode, List.find?_eq_none]
  exact fun c _ => by simpa using h c

section
variable {p : Port} {s : State}

theorem raiseSelect_eq (p : Port) (s : State) :
    raiseSelect p s = { s with ports := upd s.ports p { s.ports[p] with link := .high } } := rfl

theorem takeUnknown_undefined {code : Byte} (h : ∀ c : Command, c.code ≠ code) (pl : List Byte) :
    takeUnknown p code pl s = atRise p (fun s => if Config.maxPayload < pl.length then rejectFrame p code s
      else respond p code (.refuse .unknownCode) (renewLease p s)) s := by
  rw [takeUnknown, commandOfCode_none h]
  rfl

theorem takeMalformed_malformed {b : Byte} {rest : List Byte} (h : malformed (b :: rest) = true) :
    takeMalformed p (b :: rest) s = atRise p (rejectFrame p b) s := if_pos h

/-- A frame of a transaction that began before the release of reset, or that ends while reset is asserted, is ignored (R142). -/
theorem exec_frame_ignored (h : ¬Taken s p) (c : Command) (pl : List Byte) :
    exec (c.instr p pl) s = .next (raiseSelect p s) := by
  by_cases hc : c = .nop ∧ pl = []
  · obtain ⟨rfl, rfl⟩ := hc
    exact congrArg _ (atRise_not_taken h)
  · rw [exec_frame hc]
    exact congrArg _ (atRise_not_taken h)

section
variable (h : Taken s p)
include h

theorem takeNop_taken : takeNop p [] s = leaseRenewed s p := by
  rw [takeNop, atRise_taken h, renewLease_raiseSelect]
  rfl

theorem takeUnknown_taken {code : Byte} (hc : ∀ c : Command, c.code ≠ code) {pl : List Byte} (hl : pl.length ≤ 58) :
    takeUnknown p code pl s = { s with ports := answered s p ⟨.unknownCode, code, []⟩ } := by
  have short : ¬Config.maxPayload < pl.length := not_lt.2 hl
  rw [takeUnknown_undefined hc, atRise_taken h, if_neg short, renewLease_raiseSelect]
  simp [respond, leaseRenewed, answered, Answer.refuse, State.setPort]

theorem exec_wrong_length {c : Command} {pl : List Byte} (hm : pl.length ≤ 58) (hl : pl.length ≠ c.length) :
    exec (c.instr p pl) s = .next (refused s p c .badLength) := by
  have notNop : ¬(c = .nop ∧ pl = []) := by
    rintro ⟨rfl, rfl⟩
    exact hl rfl
  rw [exec_frame notNop, takeFrame_bad_length h hm hl]

theorem exec_state_refused {c : Command} {pl : List Byte} (hl : pl.length = c.length) (hc : c ≠ .nop) {st : Status}
    (hs : stateRefusal c s.ports[p].state = some st) : exec (c.instr p pl) s = .next (refused s p c st) := by
  rw [exec_frame (fun k => hc k.1), takeFrame_state_refused h hl hs]

theorem takeMalformed_taken {b : Byte} {rest : List Byte} (hb : malformed (b :: rest) = true) :
    takeMalformed p (b :: rest) s =
      { s with ports := upd s.ports p { s.ports[p] with link := .high, buffer := ⟨.frameError, b, []⟩ } } := by
  rw [takeMalformed_malformed hb, atRise_taken h, raiseSelect_eq]
  simp [rejectFrame, respond, Answer.refuse, State.setPort]

end
end

/-- The table of R145 for a command that not every port state admits. -/
theorem stateRefusal_table {c : Command} (h : c ≠ .nop ∧ c ≠ .ident ∧ c ≠ .status) :
    stateRefusal c .releasing = some .busy
      ∧ (c ≠ .attach → stateRefusal c .detached = some .notAttached ∧ stateRefusal c .expired = some .expired) := by
  obtain ⟨hn, hi, hs⟩ := h
  cases c
  case nop => exact absurd rfl hn
  case ident => exact absurd rfl hi
  case status => exact absurd rfl hs
  case attach => exact ⟨rfl, fun k => absurd rfl k⟩
  all_goals exact ⟨rfl, fun _ => ⟨rfl, rfl⟩⟩

/-- Settles O7: each check of R145 by the lemma on the taking of a frame that it decides. -/
theorem frameChecks : Obligations.FrameChecks := by
  refine ⟨fun p s h => ?_, ⟨fun p s h => congrArg _ (takeNop_taken h),
    fun p code pl s h hc hl => congrArg _ (takeUnknown_taken h hc hl), fun p c pl s h hm hl => exec_wrong_length h hm hl⟩,
    fun p c pl s h hl hc => ?_⟩
  · intro ignored
    refine ⟨exec_frame_ignored h, fun code pl hc => congrArg Host.Outcome.next ?_, fun b rest hb => congrArg Host.Outcome.next ?_⟩
    · rw [takeUnknown_undefined hc]
      exact atRise_not_taken h
    · rw [takeMalformed_malformed hb]
      exact atRise_not_taken h
  · obtain ⟨releasing, others⟩ := stateRefusal_table hc
    have refuse {st : Status} := exec_state_refused h hl hc.1 (st := st)
    exact ⟨fun hs => refuse (hs ▸ releasing), fun ha hs => refuse (hs ▸ (others ha).1), fun ha hs => refuse (hs ▸ (others ha).2)⟩

/-! ## Malformed transactions (R143) -/

theorem field_byte (bytes : List Byte) (i : Nat) : field bytes i 1 = (bytes.getD i 0).toNat := by
  rw [field, List.getD_eq_getElem?_getD, ← List.head?_drop]
  cases bytes.drop i <;> simp [leValue]

/-- A field of two bytes; what stands beyond the end reads 0. -/
theorem field_two (bytes : List Byte) (i : Nat) :
    field bytes i 2 = (bytes.getD i 0).toNat + 256 * (bytes.getD (i + 1) 0).toNat := by
  have first := field_byte bytes i
  have second := field_byte bytes (i + 1)
  rw [field] at first second ⊢
  rw [← List.drop_drop] at second
  rw [← first, ← second]
  rcases bytes.drop i with _ | ⟨b, _ | ⟨b', _⟩⟩ <;> simp [leValue]

theorem malformed_iff (bytes : List Byte) : malformed bytes = true ↔
    bytes.length < 2 ∨ bytes.length < frameLen bytes + 4 ∨ 58 < frameLen bytes ∨ 64 < bytes.length
      ∨ (∃ c ∈ bytes.drop (frameLen bytes + 4), c ≠ 0xFF)
      ∨ field bytes (frameLen bytes + 2) 2 ≠ byteSum (bytes.take (frameLen bytes + 2)) := by
  simp only [malformed, Bool.or_eq_true, decide_eq_true_eq, List.any_eq_true, bne_iff_ne, or_assoc]
  rfl

/-- Settles O6: the judgement of R143 condition by condition, and the effect of the transaction. -/
theorem malformedFrame : Obligations.MalformedFrame := by
  refine ⟨fun b rest => ?_, fun p b rest s h hb => congrArg _ (takeMalformed_taken h hb)⟩
  intro bytes len
  have hlen : frameLen bytes = len := field_byte bytes 1
  have single : bytes.length < 2 ↔ bytes.length = 1 := by
    simp only [bytes, List.length_cons]
    omega
  rw [malformed_iff, hlen, single, field_two, byteSum, ← or_assoc, or_comm (a := bytes.length = 1)]

/-! ## IDENT and STATUS (R153, R154) -/

/-- Settles O9: no port state refuses IDENT. -/
theorem ident : Obligations.Ident :=
  fun _ _ h => congrArg _ ((takeFrame_admitted h rfl rfl).trans (respond_of_ports .ident (.ok _) rfl))

/-- A lease just renewed has its whole period left. -/
theorem ticksToMs_period (period : Nat) : ticksToMs (period * Config.ticksPerMs) = period := by
  unfold ticksToMs Config.ticksPerMs
  omega

theorem leaseRenewed_get (s : State) (p : Port) : (leaseRenewed s p).ports[p] = s.ports[p].renewed := upd_get ..

/-- The STATUS payload of a port whose lease has just been renewed. -/
theorem statusBytes_leaseRenewed (s : State) (p : Port) : statusBytes (leaseRenewed s p) p =
    [byte p.val, byte s.ports[p].state.code] ++ leBytes 2 s.ports[p].period
      ++ leBytes 2 (if s.ports[p].state = .attached then s.ports[p].period else 0)
      ++ [byte s.ports[p].queue.length, byte (if s.ports[p].overrun then 1 else 0), byte s.groups[p].state.code]
      ++ leBytes 2 (ownedMask s p) ++ [byte (liveCount s p), byte (heldMask s p)] := by
  have lease : (if s.ports[p].renewed.state = .attached then ticksToMs s.ports[p].renewed.remaining else 0)
      = if s.ports[p].state = .attached then s.ports[p].period else 0 := by
    by_cases h : s.ports[p].state = .attached
    · simp only [PortRec.renewed, if_pos h, ticksToMs_period]
    · exact (if_neg h).trans (if_neg h).symm
  unfold statusBytes
  dsimp only
  rw [leaseRenewed_get, lease]
  simp only [leBytes_one, List.append_assoc]
  rfl

/-- Settles O13: no port state refuses STATUS, which reads the port after the renewal. -/
theorem statusCommand : Obligations.StatusCommand := by
  intro p s h r
  refine congrArg _ ((takeFrame_admitted h rfl rfl).trans ?_)
  unfold statusAct
  rw [statusBytes_leaseRenewed, leaseRenewed_get]
  simp [respond, leaseRenewed, State.setPort, okResponse, Answer.ok, r]

end Sys2Proof.Machine
end

section
/-! SUPPORT. Reading the bytes of a transaction (R142, R143, R166; O51): a frame is not malformed, whatever read-out bytes follow it,
and its code and its payload stand where they are read. -/

namespace Sys2Proof

/-- The code, the length and the payload of a frame: what its check is summed over. -/
def frameHead (code : Byte) (pl : List Byte) : List Byte := code :: BitVec.ofNat 8 pl.length :: pl

theorem frameBytes_eq (code : Byte) (pl : List Byte) :
    frameBytes code pl = frameHead code pl ++ leBytes 2 (byteSum (frameHead code pl)) := rfl

theorem frameHead_length (code : Byte) (pl : List Byte) : (frameHead code pl).length = pl.length + 2 := rfl

/-- The check is a number of two bytes. -/
theorem leValue_check (code : Byte) (pl : List Byte) :
    leValue (leBytes 2 (byteSum (frameHead code pl))) = byteSum (frameHead code pl) := by
  rw [leValue_leBytes, byteSum]
  omega

section
variable {code : Byte} {pl : List Byte} (fits : pl.length ≤ 58) (readOut : List Byte)

theorem frame_length : (frameBytes code pl ++ readOut).length = pl.length + 4 + readOut.length := by
  rw [frameBytes_eq, List.length_append, List.length_append, frameHead_length, leBytes_length]

include fits in
theorem frameLen_frame : frameLen (frameBytes code pl ++ readOut) = pl.length := by
  have second : (BitVec.ofNat 8 pl.length).toNat = pl.length := by
    rw [BitVec.toNat_ofNat]
    omega
  exact (Machine.field_byte _ 1).trans second

theorem frame_drop : (frameBytes code pl ++ readOut).drop (pl.length + 4) = readOut :=
  List.drop_left' (by simpa using frame_length (code := code) (pl := pl) [])

theorem frame_take : (frameBytes code pl ++ readOut).take (pl.length + 2) = frameHead code pl := by
  rw [frameBytes_eq, List.append_assoc]
  exact List.take_left' (frameHead_length code pl)

theorem frame_check : field (frameBytes code pl ++ readOut) (pl.length + 2) 2 = byteSum (frameHead code pl) := by
  rw [frameBytes_eq, field_mid _ _ _ (frameHead_length code pl).symm (leBytes_length ..).symm, leValue_check]

include fits in
/-- A frame is well formed, alone or with read-out bytes after it (R143). -/
theorem frame_not_malformed (within : pl.length + 4 + readOut.length ≤ 64) (h : ∀ b ∈ readOut, b = 0xFF) :
    malformed (frameBytes code pl ++ readOut) = false := by
  rw [← Bool.not_eq_true, Machine.malformed_iff, frameLen_frame fits, frame_length, frame_drop, frame_take, frame_check]
  rintro (short | short | long | long | ⟨b, hb, other⟩ | check)
  · omega
  · omega
  · omega
  · omega
  · exact other (h b hb)
  · exact check rfl

include fits in
/-- The command that a frame spells is the one its code names (R145). -/
theorem decodeFrame_frame (p : Port) (within : pl.length + 4 + readOut.length ≤ 64) (h : ∀ b ∈ readOut, b = 0xFF) :
    decodeFrame p (frameBytes code pl ++ readOut)
      = (commandOfCode code).elim (.unknownCode p code pl) (Command.instr p pl) := by
  have payload : ((frameBytes code pl ++ readOut).drop 2).take pl.length = pl := by
    rw [List.take_drop, Nat.add_comm, frame_take]
    rfl
  have first : ((frameBytes code pl ++ readOut).take 1).headD 0 = code := rfl
  have notEmpty : (frameBytes code pl ++ readOut).isEmpty = false := rfl
  unfold decodeFrame
  simp only [notEmpty, frame_not_malformed fits readOut within h, frameLen_frame fits, payload, first, Bool.false_eq_true,
    if_false]
  cases commandOfCode code <;> rfl

end

theorem commandOfCode_code (c : Command) : commandOfCode c.code = some c := by cases c <;> rfl

/-- The frame of a command is read as that command. -/
theorem decodeFrame_command (p : Port) {c : Command} {pl : List Byte} (fits : pl.length ≤ 58) :
    decodeFrame p (frameBytes c.code pl) = c.instr p pl := by
  have read := decodeFrame_frame (code := c.code) fits [] p (by simp only [List.length_nil]; omega) (by simp)
  rw [List.append_nil, commandOfCode_code] at read
  exact read

theorem decodeFrame_unknown (p : Port) {code : Byte} {pl : List Byte} (hc : commandOfCode code = none) (fits : pl.length ≤ 58) :
    decodeFrame p (frameBytes code pl) = .unknownCode p code pl := by
  have read := decodeFrame_frame (code := code) fits [] p (by simp only [List.length_nil]; omega) (by simp)
  rw [List.append_nil, hc] at read
  exact read

/-- The bytes of a transaction that is malformed are read as that. -/
theorem decodeFrame_malformed (p : Port) {bytes : List Byte} (hb : bytes ≠ []) (h : malformed bytes = true) :
    decodeFrame p bytes = .malformedFrame p bytes := by
  unfold decodeFrame
  rw [List.isEmpty_eq_false_iff.2 hb, h]
  rfl

namespace Machine

/-- Settles O51: the four kinds of transaction, and a frame with the read-out bytes after it. -/
theorem decodeEncode : Obligations.DecodeEncode := by
  refine ⟨fun i p bytes wf encoded => ?_, fun c p pl n fits within => ?_⟩
  · cases i
    case emptyTransaction => cases encoded; rfl
    case malformedFrame q received =>
      cases encoded
      obtain ⟨some, bad⟩ := Bool.and_eq_true_iff.1 wf
      exact decodeFrame_malformed _ (by simpa using some) bad
    case unknownCode q code pl =>
      cases encoded
      obtain ⟨undefined, fits⟩ := Bool.and_eq_true_iff.1 wf
      exact decodeFrame_unknown _ (Option.isNone_iff_eq_none.1 undefined) (of_decide_eq_true fits)
    all_goals cases encoded
    all_goals exact decodeFrame_command _ (of_decide_eq_true wf)
  · have read := decodeFrame_frame (code := c.code) fits (List.replicate n 0xFF) p (by rwa [List.length_replicate])
      fun b hb => List.eq_of_mem_replicate hb
    rw [commandOfCode_code] at read
    exact read

end Machine

end Sys2Proof
end

section
/-! SUPPORT. Ports, leases and teardown (R148 to R152): ATTACH, what starts a teardown and what ends it (O14, O15, O19). -/

namespace Sys2Proof.Machine

/-! ## ATTACH (R148) -/

section
variable {p : Port} {pl : List Byte} {s : State}

theorem attachAct_ok {period : Nat} (h : boundedNat 10 60000 (field pl 0 2) = some period) :
    attachAct p pl s = (attachPort p period s, .ok (byte p.val :: leBytes 2 period)) := by
  unfold attachAct
  rw [h]
  rfl

theorem attachAct_badField (h : boundedNat 10 60000 (field pl 0 2) = none) : attachAct p pl s = (s, .refuse .badField) := by
  unfold attachAct
  rw [h]

theorem attachPort_attached (h : s.ports[p].state = .attached) (period : Nat) : attachPort p period s =
    s.setPort p { s.ports[p] with state := .attached, period := period, remaining := period * Config.ticksPerMs } := if_pos h

theorem attachPort_idle (h : s.ports[p].state ≠ .attached) (period : Nat) : attachPort p period s =
    s.setPort p { s.ports[p] with state := .attached, period := period, remaining := period * Config.ticksPerMs, markSubs := 0,
                                  axisSubs := 0, peerEnable := false, overrun := false } := if_neg h

/-- ATTACH is refused by the port state in RELEASING only (R145, R148). -/
theorem stateRefusal_attach {st : PortState} (h : st ≠ .releasing) : stateRefusal .attach st = none := by
  cases st
  case releasing => exact absurd rfl h
  all_goals rfl

section
variable (h : Taken s p) (hs : s.ports[p].state ≠ .releasing)
include h hs

theorem exec_attach_ok {period : Nat} (low : 10 ≤ period) (high : period ≤ 60000) : exec (.attach p (leBytes 2 period)) s =
    .next (respond p Command.attach.code (.ok (byte p.val :: leBytes 2 period)) (attachPort p period (leaseRenewed s p))) := by
  have read : boundedNat 10 60000 (field (leBytes 2 period) 0 2) = some period :=
    boundedNat_eq_some.2 ⟨by rw [field_leBytes 2 period (by omega)]; exact ⟨low, high⟩, field_leBytes 2 period (by omega)⟩
  refine congrArg _ ((takeFrame_admitted h (leBytes_length ..) (stateRefusal_attach hs)).trans ?_)
  rw [attachAct_ok read]

theorem exec_attach_badField {period : Nat} (word : period < 65536) (out : period < 10 ∨ 60000 < period) :
    exec (.attach p (leBytes 2 period)) s = .next (refused s p .attach .badField) := by
  have read : boundedNat 10 60000 (field (leBytes 2 period) 0 2) = none := by
    rw [field_leBytes 2 period word]
    exact if_neg (by omega)
  refine congrArg _ ((takeFrame_admitted h (leBytes_length ..) (stateRefusal_attach hs)).trans ?_)
  rw [attachAct_badField read]
  exact respond_refuse_leaseRenewed ..

end
end

/-- Settles O14: the period is read back, and the port takes it by its state. -/
theorem attach : Obligations.Attach := by
  refine ⟨fun p period s h low high => ⟨fun hs => ?_, fun hs => ?_⟩, fun p period s h hs word out => ?_⟩
  · have idle : s.ports[p].state ≠ .attached := by rcases hs with hs | hs <;> rw [hs] <;> decide
    have admits : s.ports[p].state ≠ .releasing := by rcases hs with hs | hs <;> rw [hs] <;> decide
    rw [exec_attach_ok h admits low high, attachPort_idle (by rwa [leaseRenewed_get]), leaseRenewed_get]
    simp [respond, State.setPort, leaseRenewed, PortRec.renewed, okResponse, Answer.ok, Config.ticksPerMs]
  · have admits : s.ports[p].state ≠ .releasing := by rw [hs]; decide
    rw [exec_attach_ok h admits low high, attachPort_attached (by rwa [leaseRenewed_get]), leaseRenewed_get]
    simp [respond, State.setPort, leaseRenewed, PortRec.renewed, okResponse, Answer.ok, Config.ticksPerMs, ← hs]
  · exact exec_attach_badField h hs word out

/-! ## The start of a teardown (R149 to R151) -/

/-- A port whose teardown has started, with this end state. -/
def PortRec.tornDown (r : PortRec) (e : EndState) : PortRec :=
  { r with state := .releasing, endState := some e, remaining := 0, queue := [], markSubs := 0, axisSubs := 0,
           peerEnable := false, overrun := false, outstanding := .full, requested := .full, reported := .empty }

theorem startTeardown_eq (p : Port) (e : EndState) (s : State) : startTeardown p e s = s.setPort p (s.ports[p].tornDown e) := rfl

section
variable {p : Port} {s : State}

theorem leaseDue_iff : leaseDue s p = true ↔ s.ports[p].state = .attached ∧ s.ports[p].remaining = 0 := by
  simp [leaseDue, attached]

theorem expireLease_due (hs : s.ports[p].state = .attached) (hr : s.ports[p].remaining = 0) :
    exec (.leaseExpiry p) s = .next (s.setPort p (s.ports[p].tornDown .expired)) :=
  congrArg Host.Outcome.next (if_pos (leaseDue_iff.2 ⟨hs, hr⟩))

theorem exec_detach (h : Admitted s p) : exec (.detach p []) s = .next (s.setPort p
    { s.ports[p].tornDown .detached with link := .high, buffer := okResponse .detach [] }) := by
  refine congrArg Host.Outcome.next ((takeFrame_attached h rfl).trans ?_)
  simp [startTeardown_eq, PortRec.tornDown, leaseRenewed, respond, State.setPort, PortRec.renewed, okResponse, Answer.ok]

/-- Outside of ATTACHED the attention line is deasserted (R165). -/
theorem attnAsserted_of_not_attached (h : s.ports[p].state ≠ .attached) : attnAsserted s p = false := by
  have idle : attached s p = false := beq_eq_false_iff_ne.2 h
  rw [attnAsserted, idle, Bool.false_and]

end

/-- Settles O15: both causes start the same teardown, and a port in RELEASING asserts no line. -/
theorem teardownStart : Obligations.TeardownStart := by
  refine ⟨fun p s t started => attnAsserted_of_not_attached ?_, fun p s h => exec_detach h, fun p s hs hr => expireLease_due hs hr⟩
  rcases started with ⟨h, ht⟩ | ⟨hs, hr, ht⟩
  · rw [exec_detach h] at ht
    cases ht
    simp [PortRec.tornDown]
  · rw [expireLease_due hs hr] at ht
    cases ht
    simp [PortRec.tornDown]

/-! ## The end of a teardown (R152) -/

/-- Settles O19: the report leaves the set of reports, its block the parts outstanding, and the last one ends RELEASING. -/
theorem teardownPartDone : Obligations.TeardownPartDone := by
  intro p b s h r left
  have taken : exec (.teardownPartDone p b) s = .next (if left = .empty then
        s.setPort p { r with reported := r.reported.put b false, outstanding := left, state := endPortState r.endState
                             endState := none }
      else s.setPort p { r with reported := r.reported.put b false, outstanding := left }) := congrArg Host.Outcome.next (if_pos h)
  refine ⟨fun more => taken.trans (congrArg _ (if_neg more)), fun last ends => ?_, fun last ends => ?_⟩
  · exact taken.trans (congrArg _ ((if_pos last).trans (by rw [ends]; rfl)))
  · exact taken.trans (congrArg _ ((if_pos last).trans (by rw [ends]; rfl)))

end Sys2Proof.Machine
end

section
/-! SUPPORT. What the commands do to the port records (R144, R147, R149 to R153, R156, R167; O55): every command but eight leaves
what a port may hold as it is, and every command keeps each record and its response buffer to the laws. -/

namespace Sys2Proof.Machine

/-! ## The blocks of a teardown -/

/-- A block's part is outstanding while the block is asked for it or has reported it, and never both (log 3). -/
abbrev PartOk (outstanding requested reported : Bool) : Prop :=
  outstanding = (requested != reported) ∧ (requested && reported) = false

/-- The block takes the request and reports. -/
theorem PartOk.report {o rep : Bool} (h : PartOk o true rep) : PartOk o false true := by
  revert h
  cases o <;> cases rep <;> decide

/-- The PIF takes the report. -/
theorem PartOk.done {o req : Bool} (h : PartOk o req true) : o = true ∧ req = false := by
  revert h
  cases o <;> cases req <;> decide

theorem PartOk.requested {o rep : Bool} (h : PartOk o true rep) : o = true := by
  revert h
  cases o <;> cases rep <;> decide

theorem PartOk.not_requested {req rep : Bool} (h : PartOk false req rep) : req = false := by
  revert h
  cases req <;> cases rep <;> decide

theorem has_put (b : BlockSet) (k j : Block) (v : Bool) : (b.put k v).has j = if j = k then v else b.has j := by
  cases k <;> cases j <;> rfl

theorem has_empty (k : Block) : BlockSet.empty.has k = false := by cases k <;> rfl

theorem has_full (k : Block) : BlockSet.full.has k = true := by cases k <;> rfl

theorem ne_empty_of_has {b : BlockSet} {k : Block} (h : b.has k = true) : b ≠ .empty := by
  rintro rfl
  rw [has_empty] at h
  nomatch h

/-! ## The record of a port -/

/-- A stored response keeps to R144 and R167. -/
abbrev Response.Fits (b : Response) : Prop := b.payload.length ≤ 58 ∧ (b.status ≠ .ok → b.payload = [])

/-- The parts of a teardown, block by block. -/
abbrev PortRec.PartsOk (r : PortRec) : Prop := ∀ k : Block, PartOk (r.outstanding.has k) (r.requested.has k) (r.reported.has k)

theorem PortRec.ok_iff (r : PortRec) : r.ok ↔
    (r.queue.length ≤ 32 ∧ (r.state ≠ .attached → r.queue = [] ∧ r.remaining = 0)
      ∧ (r.period = 0 ∨ (10 ≤ r.period ∧ r.period ≤ 60000)) ∧ (r.state = .attached → r.period ≠ 0)
      ∧ r.remaining ≤ r.period * 1000)
    ∧ ((r.state = .releasing ↔ r.outstanding ≠ .empty) ∧ (r.state = .releasing ↔ r.endState ≠ none)) ∧ r.PartsOk := by
  constructor
  · rintro ⟨queue, idle, period, lease, remaining, parts, ends, scu, otu, mku, axu⟩
    exact ⟨⟨queue, idle, period, lease, remaining⟩, ⟨parts, ends⟩, fun k => by cases k <;> assumption⟩
  · rintro ⟨⟨queue, idle, period, lease, remaining⟩, ⟨parts, ends⟩, blocks⟩
    exact ⟨queue, idle, period, lease, remaining, parts, ends, blocks .scu, blocks .otu, blocks .mku, blocks .axu⟩

/-- A port that a block is asked to tear down is RELEASING. -/
theorem PortRec.ok.releasing {r : PortRec} (h : r.ok) {k : Block} (hk : r.requested.has k = true) : r.state = .releasing := by
  obtain ⟨-, ⟨parts, -⟩, blocks⟩ := r.ok_iff.1 h
  have part := blocks k
  rw [hk] at part
  exact parts.2 (ne_empty_of_has part.requested)

/-- A record that had the laws of the PIF has them still. -/
structure PortRec.Keeps (r r' : PortRec) : Prop where
  ok : r.ok → r'.ok
  fits : r.buffer.Fits → r'.buffer.Fits

/-- And what the port may hold is the same (R152). -/
structure PortRec.Quiet (r r' : PortRec) : Prop extends PortRec.Keeps r r' where
  state : r'.state = r.state
  requested : r'.requested = r.requested

namespace PortRec

theorem Keeps.trans {r r' r'' : PortRec} (h : r.Keeps r') (k : r'.Keeps r'') : r.Keeps r'' := ⟨k.ok ∘ h.ok, k.fits ∘ h.fits⟩

theorem Quiet.refl (r : PortRec) : r.Quiet r := ⟨⟨id, id⟩, rfl, rfl⟩

theorem Quiet.trans {r r' r'' : PortRec} (h : r.Quiet r') (k : r'.Quiet r'') : r.Quiet r'' :=
  ⟨h.toKeeps.trans k.toKeeps, k.state.trans h.state, k.requested.trans h.requested⟩

section
variable (r : PortRec)

/-! ### Records in which the port may hold what it might before -/

theorem Quiet.withLink (l : Link) : r.Quiet { r with link := l } := ⟨⟨id, id⟩, rfl, rfl⟩

theorem Quiet.responding {b : Response} (hb : b.Fits) : r.Quiet { r with buffer := b } := ⟨⟨id, fun _ => hb⟩, rfl, rfl⟩

theorem Quiet.overrunCleared : r.Quiet { r with overrun := false } := ⟨⟨id, id⟩, rfl, rfl⟩

theorem Quiet.subscribing (m a : BitVec 4) (peer : Bool) : r.Quiet { r with markSubs := m, axisSubs := a, peerEnable := peer } :=
  ⟨⟨id, id⟩, rfl, rfl⟩

/-- The lease of an ATTACHED port is renewed (R149). -/
theorem Quiet.leased (hs : r.state = .attached) : r.Quiet { r with remaining := r.period * Config.ticksPerMs } := by
  refine ⟨⟨fun h => ?_, id⟩, rfl, rfl⟩
  obtain ⟨⟨queue, -, period, lease, -⟩, rest⟩ := r.ok_iff.1 h
  exact (ok_iff _).2 ⟨⟨queue, fun k => absurd hs k, period, lease, le_refl _⟩, rest⟩

theorem Quiet.renewed : r.Quiet r.renewed := by
  by_cases hs : r.state = .attached
  · have eq : r.renewed = { r with remaining := r.period * Config.ticksPerMs, link := .high } := by
      simp only [PortRec.renewed, if_pos hs]
    rw [eq]
    exact (Quiet.leased r hs).trans (.withLink _ _)
  · have eq : r.renewed = { r with link := .high } := by simp only [PortRec.renewed, if_neg hs]
    rw [eq]
    exact .withLink ..

/-- Notices leave the queue (R161). -/
theorem Quiet.reading (n : Nat) : r.Quiet { r with queue := r.queue.drop n } := by
  refine ⟨⟨fun h => ?_, id⟩, rfl, rfl⟩
  obtain ⟨⟨queue, idle, rest⟩, parts⟩ := r.ok_iff.1 h
  refine (ok_iff _).2 ⟨⟨?_, fun k => ?_, rest⟩, parts⟩
  · rw [List.length_drop]
    exact (Nat.sub_le ..).trans queue
  · obtain ⟨empty, none⟩ := idle k
    exact ⟨by rw [empty, List.drop_nil], none⟩

/-- A notice joins a queue with room (R156, R157). -/
theorem Quiet.receive (n : Notice) : r.Quiet (r.receive n) := by
  unfold PortRec.receive
  split
  · rename_i hs
    split
    · rename_i room
      refine ⟨⟨fun h => ?_, id⟩, rfl, rfl⟩
      obtain ⟨⟨-, -, rest⟩, parts⟩ := r.ok_iff.1 h
      refine (ok_iff _).2 ⟨⟨?_, fun k => absurd hs k, rest⟩, parts⟩
      rw [List.length_append]
      exact room
    · exact ⟨⟨id, id⟩, rfl, rfl⟩
  · exact .refl r

theorem Quiet.tick : r.Quiet r.tick := by
  unfold PortRec.tick
  split
  · rename_i hs
    refine ⟨⟨fun h => ?_, id⟩, rfl, rfl⟩
    obtain ⟨⟨queue, -, period, lease, remaining⟩, rest⟩ := r.ok_iff.1 h
    exact (ok_iff _).2 ⟨⟨queue, fun k => absurd hs k, period, lease, (Nat.sub_le ..).trans remaining⟩, rest⟩
  · exact .refl r

/-! ### Records in which it may hold more or less -/

/-- A port that is not RELEASING is ATTACHED with a lease period in its range (R148). -/
theorem Keeps.attaching (hs : r.state ≠ .releasing) {period : Nat} (low : 10 ≤ period) (high : period ≤ 60000) :
    r.Keeps { r with state := .attached, period := period, remaining := period * Config.ticksPerMs } := by
  refine ⟨fun h => ?_, id⟩
  obtain ⟨⟨queue, -⟩, ⟨parts, ends⟩, blocks⟩ := r.ok_iff.1 h
  refine (ok_iff _).2 ⟨⟨queue, (absurd rfl ·), .inr ⟨low, high⟩, fun _ => Nat.ne_zero_of_lt low, le_refl _⟩,
    ⟨iff_of_false nofun (mt parts.2 hs), iff_of_false nofun (mt ends.2 hs)⟩, blocks⟩

/-- A teardown starts (R151). -/
theorem Keeps.tornDown (e : EndState) : r.Keeps (r.tornDown e) := by
  refine ⟨fun h => ?_, id⟩
  obtain ⟨⟨-, -, period, -⟩, -⟩ := r.ok_iff.1 h
  refine (ok_iff _).2 ⟨⟨Nat.zero_le _, fun _ => ⟨rfl, rfl⟩, period, nofun, Nat.zero_le _⟩,
    ⟨iff_of_true rfl (ne_empty_of_has (has_full .scu)), iff_of_true rfl nofun⟩, fun k => ?_⟩
  show PartOk (BlockSet.full.has k) (BlockSet.full.has k) (BlockSet.empty.has k)
  rw [has_full, has_empty]
  decide

/-- A block has done its part (R152). -/
theorem Keeps.reporting {k : Block} (hk : r.requested.has k = true) :
    r.Keeps { r with requested := r.requested.put k false, reported := r.reported.put k true } := by
  refine ⟨fun h => ?_, id⟩
  obtain ⟨ranges, ends, blocks⟩ := r.ok_iff.1 h
  refine (ok_iff _).2 ⟨ranges, ends, fun j => ?_⟩
  show PartOk _ ((r.requested.put k false).has j) ((r.reported.put k true).has j)
  rw [has_put, has_put]
  by_cases hj : j = k
  · subst hj
    have part := blocks j
    rw [hk] at part
    rw [if_pos rfl, if_pos rfl]
    exact part.report
  · rw [if_neg hj, if_neg hj]
    exact blocks j

/-- The record once the PIF has taken a block's report. -/
def partTaken (b : Block) : PortRec :=
  { r with reported := r.reported.put b false, outstanding := r.outstanding.put b false }

section
variable {r} {b : Block} (h : r.ok) (hb : r.reported.has b = true)
include h hb

/-- A block that reports was RELEASING the port, and is asked for nothing more. -/
theorem ok.reports : r.state = .releasing ∧ r.requested.has b = false := by
  obtain ⟨-, ⟨parts, -⟩, blocks⟩ := r.ok_iff.1 h
  have part := blocks b
  rw [hb] at part
  obtain ⟨outstanding, requested⟩ := part.done
  exact ⟨parts.2 (ne_empty_of_has outstanding), requested⟩

theorem ok.partsTaken : (r.partTaken b).PartsOk := by
  obtain ⟨-, -, blocks⟩ := r.ok_iff.1 h
  intro j
  show PartOk ((r.outstanding.put b false).has j) (r.requested.has j) ((r.reported.put b false).has j)
  rw [has_put, has_put]
  by_cases hj : j = b
  · subst hj
    rw [if_pos rfl, if_pos rfl, (ok.reports h hb).2]
    decide
  · rw [if_neg hj, if_neg hj]
    exact blocks j

/-- While parts are outstanding the port stays RELEASING. -/
theorem ok.partDone (left : (r.partTaken b).outstanding ≠ .empty) : (r.partTaken b).ok := by
  obtain ⟨ranges, ⟨-, ends⟩, -⟩ := r.ok_iff.1 h
  exact (ok_iff _).2 ⟨ranges, ⟨iff_of_true (ok.reports h hb).1 left, ends⟩, ok.partsTaken h hb⟩

/-- With the last part the port takes its end state (R152). -/
theorem ok.lastPartDone (left : (r.partTaken b).outstanding = .empty) :
    { r.partTaken b with state := endPortState r.endState, endState := none }.ok := by
  obtain ⟨⟨queue, idle, period, -, remaining⟩, -⟩ := r.ok_iff.1 h
  have still := idle (by rw [(ok.reports h hb).1]; decide)
  have ended : endPortState r.endState ≠ .releasing ∧ endPortState r.endState ≠ .attached := by
    rcases r.endState with _ | _ | _ <;> decide
  exact (ok_iff _).2 ⟨⟨queue, fun _ => still, period, fun k => absurd k ended.2, remaining⟩,
    ⟨iff_of_false ended.1 (absurd left ·), iff_of_false ended.1 (absurd rfl ·)⟩, ok.partsTaken h hb⟩

end
end
end PortRec

/-! ## The records of all ports -/

/-- Every port's record keeps its laws. -/
def PortsKeep (s t : State) : Prop := ∀ p : Port, s.ports[p].Keeps t.ports[p]

/-- And what every port may hold is the same. -/
def PortsQuiet (s t : State) : Prop := ∀ p : Port, s.ports[p].Quiet t.ports[p]

theorem PortsQuiet.keep {s t : State} (h : PortsQuiet s t) : PortsKeep s t := fun p => (h p).toKeeps

theorem PortsKeep.trans {s t u : State} (h : PortsKeep s t) (k : PortsKeep t u) : PortsKeep s u := fun p => (h p).trans (k p)

namespace PortsQuiet

theorem of_ports {s t : State} (h : t.ports = s.ports) : PortsQuiet s t := fun p => by rw [h]; exact .refl _

theorem refl (s : State) : PortsQuiet s s := .of_ports rfl

theorem trans {s t u : State} (h : PortsQuiet s t) (k : PortsQuiet t u) : PortsQuiet s u := fun p => (h p).trans (k p)

theorem setPort {s : State} {p : Port} {r : PortRec} (h : s.ports[p].Quiet r) : PortsQuiet s (s.setPort p r) :=
  forall_upd (P := fun q r => s.ports[q].Quiet r) s.ports p r h fun _ _ => .refl _

end PortsQuiet

theorem PortsKeep.setPort {s : State} {p : Port} {r : PortRec} (h : s.ports[p].Keeps r) : PortsKeep s (s.setPort p r) :=
  forall_upd (P := fun q r => s.ports[q].Keeps r) s.ports p r h fun _ _ => ⟨id, id⟩

/-! ## Frames -/

section
variable (s : State) (p : Port)

theorem raiseSelect_quiet : PortsQuiet s (raiseSelect p s) := .setPort (.withLink ..)

theorem leaseRenewed_quiet : PortsQuiet s (leaseRenewed s p) := .setPort (.renewed _)

theorem renewLease_quiet : PortsQuiet s (renewLease p s) := by
  unfold renewLease
  split
  · rename_i h
    exact .setPort (.leased _ (beq_iff_eq.1 h))
  · exact .refl s

theorem respond_quiet (echo : Byte) {ans : Answer} (h : Response.Fits ⟨ans.status, echo, ans.payload⟩) :
    PortsQuiet s (respond p echo ans s) := .setPort (.responding _ h)

theorem refuse_quiet (echo : Byte) (st : Status) : PortsQuiet s (respond p echo (.refuse st) s) :=
  respond_quiet s p echo ⟨Nat.zero_le _, fun _ => rfl⟩

theorem atRise_quiet {run : State → State} (h : ∀ u, PortsQuiet u (run u)) : PortsQuiet s (atRise p run s) := by
  unfold atRise
  split
  · exact raiseSelect_quiet s p
  · exact (raiseSelect_quiet s p).trans (h _)

theorem Answers.fits {s : State} {x : State × Answer} (h : Answers s x) (echo : Byte) :
    Response.Fits ⟨x.2.status, echo, x.2.payload⟩ := by
  cases h with
  | refuses st => exact ⟨Nat.zero_le _, fun _ => rfl⟩
  | accepts t fits => exact ⟨fits, (absurd rfl ·)⟩

/-- A frame either ends before any act, and then its port's record keeps to its laws and nothing else changes; or the port state
admits the command, and the act is made with the lease renewed (R145, R146). -/
theorem takeFrame_cases (c : Command) (pl : List Byte) (act : State → State × Answer) :
    (∃ r, s.ports[p].Quiet r ∧ takeFrame p c pl act s = s.setPort p r)
      ∨ stateRefusal c s.ports[p].state = none
        ∧ takeFrame p c pl act s = respond p c.code (act (leaseRenewed s p)).2 (act (leaseRenewed s p)).1 := by
  have refusing (st : Status) : s.ports[p].Quiet { s.ports[p].renewed with buffer := refusal c st } :=
    (PortRec.Quiet.renewed _).trans (.responding _ ⟨Nat.zero_le _, fun _ => rfl⟩)
  by_cases taken : Taken s p
  · by_cases long : Config.maxPayload < pl.length
    · refine .inl ⟨{ s.ports[p] with link := .high, buffer := ⟨.frameError, c.code, []⟩ },
        (PortRec.Quiet.withLink _ .high).trans (PortRec.Quiet.responding _ ⟨Nat.zero_le _, fun _ => rfl⟩), ?_⟩
      rw [takeFrame, atRise_taken taken, if_pos long, raiseSelect_eq]
      simp [rejectFrame, respond, Answer.refuse, State.setPort]
    · rw [takeFrame_taken taken (not_lt.1 long)]
      split
      · exact .inl ⟨_, refusing .badLength, rfl⟩
      · split
        · exact .inl ⟨_, refusing _, rfl⟩
        · rename_i admitted
          exact .inr ⟨admitted, rfl⟩
  · exact .inl ⟨_, .withLink _ .high, atRise_not_taken taken⟩

/-- What the acts of a command keep wherever the port state admits it, its frame keeps. -/
theorem takeFrame_keep {c : Command} {pl : List Byte}
    (h : ∀ u : State, stateRefusal c u.ports[p].state = none → PortsKeep u (frameAct p pl c u).1) :
    PortsKeep s (takeFrame p c pl (frameAct p pl c) s) := by
  obtain ⟨r, hr, eq⟩ | ⟨admitted, eq⟩ := takeFrame_cases s p c pl (frameAct p pl c)
  · rw [eq]
    exact (PortsQuiet.setPort hr).keep
  · rw [eq]
    refine (leaseRenewed_quiet s p).keep.trans ((h _ ?_).trans ?_)
    · rwa [leaseRenewed_get]
    · exact (respond_quiet _ p _ ((frameAct_answers p pl _ c).fits _)).keep

theorem takeFrame_quiet {c : Command} {pl : List Byte} (h : ∀ u : State, PortsQuiet u (frameAct p pl c u).1) :
    PortsQuiet s (takeFrame p c pl (frameAct p pl c) s) := by
  obtain ⟨r, hr, eq⟩ | ⟨-, eq⟩ := takeFrame_cases s p c pl (frameAct p pl c)
  · rw [eq]
    exact .setPort hr
  · rw [eq]
    exact (leaseRenewed_quiet s p).trans ((h _).trans (respond_quiet _ p _ ((frameAct_answers p pl _ c).fits _)))

end

/-! ## Acts that change no port record -/

section
variable {s t : State}

theorem AxuOnly.samePorts (h : AxuOnly s t) : t.ports = s.ports := by rw [h]

theorem MkuOnly.samePorts (h : MkuOnly s t) : t.ports = s.ports := by rw [h]

theorem ScuOnly.samePorts (h : ScuOnly s t) : t.ports = s.ports := by rw [h]

variable (s) (p : Port) (pl : List Byte)

theorem takeBatch_ports (batch : List OutAction) : (takeBatch batch s).ports = s.ports := by
  refine foldl_rel (R := fun s t : State => t.ports = s.ports) (fun _ => rfl) (fun _ _ _ h k => k.trans h) (fun s x => ?_) batch s
  unfold takeAction
  split <;> rfl

theorem channelClaimAct_ports : (channelClaimAct p pl s).1.ports = s.ports := by
  unfold channelClaimAct
  split
  · rfl
  · split
    · split <;> rfl
    · rfl

theorem channelReleaseAct_ports : (channelReleaseAct p pl s).1.ports = s.ports := by
  unfold channelReleaseAct
  split
  · rfl
  · split
    · rfl
    · split <;> rfl

theorem channelDriveAct_ports : (channelDriveAct p pl s).1.ports = s.ports := by
  unfold channelDriveAct
  dsimp only
  split
  · rfl
  · split
    · rfl
    · split
      · rfl
      · split
        · rfl
        · exact takeBatch_ports ..

/-! ## The acts of the PIF's commands -/

theorem noticeReadAct_quiet : PortsQuiet s (noticeReadAct p pl s).1 := by
  unfold noticeReadAct
  split
  · exact .refl s
  · exact .setPort (.reading ..)

theorem subscribeAct_quiet : PortsQuiet s (subscribeAct p pl s).1 := by
  unfold subscribeAct
  split
  · exact .refl s
  · exact .setPort (.subscribing ..)

theorem postPeerAct_quiet : PortsQuiet s (postPeerAct p pl s).1 := by
  unfold postPeerAct
  split
  · exact .refl s
  · dsimp only
    split
    · exact .refl s
    · split
      · exact .refl s
      · exact .setPort (.receive ..)

/-- Only ATTACH and DETACH change what their port may hold. -/
theorem frameAct_quiet {c : Command} (ha : c ≠ .attach) (hd : c ≠ .detach) : PortsQuiet s (frameAct p pl c s).1 :=
  match c with
  | .attach => absurd rfl ha
  | .detach => absurd rfl hd
  | .nop | .ident | .axisRead | .tableStatus | .groupStatus | .channelStatus => .refl s
  | .status => .setPort (.overrunCleared _)
  | .axisConfig => .of_ports (axisConfigAct_axuOnly pl s).samePorts
  | .axisEnable => .of_ports (axisEnableAct_axuOnly pl s).samePorts
  | .axisDisable => .of_ports (axisDisableAct_axuOnly pl s).samePorts
  | .axisSet => .of_ports (axisSetAct_axuOnly p pl s).samePorts
  | .axisHome => .of_ports (axisHomeAct_axuOnly pl s).samePorts
  | .timePreset => .of_ports (timePresetAct_axuOnly p pl s).samePorts
  | .timePresetClear => .of_ports (timePresetClearAct_axuOnly p s).samePorts
  | .arm => .of_ports (armAct_scuOnly p pl s).samePorts
  | .cancel => .of_ports (cancelAct_scuOnly p pl s).samePorts
  | .recordRead => .of_ports (congrArg State.ports (recordReadAct_state p pl s))
  | .groupBegin => .of_ports (groupBeginAct_scuOnly p s).samePorts
  | .groupEnd => .of_ports (groupEndAct_scuOnly p pl s).samePorts
  | .groupDiscard => .of_ports (groupDiscardAct_scuOnly p s).samePorts
  | .markConfig => .of_ports (markConfigAct_mkuOnly pl s).samePorts
  | .markStart => .of_ports (markStartAct_mkuOnly p pl s).samePorts
  | .markStop => .of_ports (markStopAct_mkuOnly p pl s).samePorts
  | .markRead => .of_ports (congrArg State.ports (markReadAct_state pl s))
  | .markStatus => .of_ports (congrArg State.ports (markStatusAct_state pl s))
  | .channelClaim => .of_ports (channelClaimAct_ports s p pl)
  | .channelRelease => .of_ports (channelReleaseAct_ports s p pl)
  | .channelDrive => .of_ports (channelDriveAct_ports s p pl)
  | .noticeRead => noticeReadAct_quiet s p pl
  | .subscribe => subscribeAct_quiet s p pl
  | .postPeer => postPeerAct_quiet s p pl

/-! ## Transactions that are no command of a block -/

theorem takeMalformed_quiet (bytes : List Byte) : PortsQuiet s (takeMalformed p bytes s) := by
  unfold takeMalformed
  split
  · exact .refl s
  · split
    · exact atRise_quiet s p fun u => refuse_quiet u p _ _
    · exact .refl s

theorem takeUnknown_quiet (code : Byte) : PortsQuiet s (takeUnknown p code pl s) := by
  unfold takeUnknown
  split
  · exact .refl s
  · refine atRise_quiet s p fun u => ?_
    split
    · exact refuse_quiet u p code _
    · exact (renewLease_quiet u p).trans (refuse_quiet _ p code _)

theorem takeNop_quiet : PortsQuiet s (takeNop p pl s) := by
  refine atRise_quiet s p fun u => ?_
  dsimp only
  split
  · exact refuse_quiet u p _ _
  · split
    · exact (renewLease_quiet u p).trans (refuse_quiet _ p _ _)
    · exact renewLease_quiet u p

/-! ## Notices -/

theorem deliver_quiet (q : Posting) : PortsQuiet s (deliver q s) := by
  intro p
  rw [deliver_ports]
  split
  · exact .receive ..
  · exact .refl _

theorem takePosting_quiet : PortsQuiet s (takePosting s) := by
  unfold takePosting
  split
  · exact .refl s
  · rename_i q rest _
    exact deliver_quiet { s with posted := rest } q

theorem takePostings_quiet : PortsQuiet s (takePostings s) :=
  foldl_rel (R := PortsQuiet) PortsQuiet.refl (fun _ _ _ => PortsQuiet.trans) deliver_quiet s.posted { s with posted := [] }

theorem fallSelect_quiet : PortsQuiet s (fallSelect p s) := by
  unfold fallSelect
  split
  · exact .setPort (.withLink ..)
  · split
    · exact (takePostings_quiet s).trans (.setPort (.withLink ..))
    all_goals exact .refl s

/-! ## Events that change no port record -/

theorem encoderChange_ports (x : EncId) (a b : Bool) : (encoderChange x a b s).ports = s.ports := by
  unfold encoderChange
  dsimp only
  split
  · rfl
  · split
    · exact (quadError_axuOnly _ x).samePorts
    · split
      · exact (count_axuOnly _ _ _).samePorts
      · rfl

theorem indexChange_ports (x : EncId) (level : Bool) : (indexChange x level s).ports = s.ports := by
  unfold indexChange
  dsimp only
  split
  · rfl
  · split
    · exact ((rebase_axuOnly _ _ _ _).trans (endSearch_axuOnly _ _ _)).samePorts
    · rfl

theorem epochChange_ports (level : Bool) : (epochChange level s).ports = s.ports := by
  unfold epochChange
  dsimp only
  split
  · rfl
  · split
    · exact (epochRise_axuOnly _).samePorts
    · rfl

theorem markChange_ports (m : MarkId) (level : Bool) : (markChange m level s).ports = s.ports :=
  (markChange_mkuOnly m level s).samePorts

theorem takeMkuStep_ports (a : AxisId) : (takeMkuStep a s).ports = s.ports := by
  unfold takeMkuStep
  split
  · dsimp only
    split
    · rfl
    · exact (foldl_mkuOnly (fun s m => trackStep_mkuOnly s a _ m) _ _).samePorts
  · rfl

theorem takeFreeze_ports (a : AxisId) : (takeFreeze a s).ports = s.ports := by
  unfold takeFreeze
  split
  · exact (foldl_mkuOnly (fun s m => freezeInput_mkuOnly s a m) _ _).samePorts
  · rfl

theorem takeThaw_ports (a : AxisId) : (takeThaw a s).ports = s.ports := by
  unfold takeThaw
  split
  · exact (foldl_mkuOnly (fun s m => thawInput_mkuOnly s a m) _ _).samePorts
  · rfl

theorem releaseNotices_ports (a : AxisId) : (releaseNotices a s).ports = s.ports := by
  unfold releaseNotices
  split <;> rfl

theorem takeRebase_ports (a : AxisId) : (takeRebase a s).ports = s.ports := by
  unfold takeRebase
  split
  · exact (releaseNotices_ports ..).trans (foldl_mkuOnly (fun s m => rebaseInput_mkuOnly s a m) _ _).samePorts
  · rfl

theorem takeScuStep_ports (a : AxisId) : (takeScuStep a s).ports = s.ports := by
  unfold takeScuStep
  split
  · rfl
  · dsimp only
    split
    · rfl
    · exact ((scuStepWork_scuOnly _ a _).trans (done_scuOnly _)).samePorts

theorem takeMarkHandoff_ports : (takeMarkHandoff s).ports = s.ports := by
  unfold takeMarkHandoff
  split
  · exact (takeMark_scuOnly _ _).samePorts
  · rfl

theorem takeStopRequest_ports : (takeStopRequest s).ports = s.ports := by
  unfold takeStopRequest
  split
  · exact (stopAtScu_scuOnly _ _ _ _).samePorts
  · rfl

theorem takeHolderStop_ports : (takeHolderStop s).ports = s.ports := by
  unfold takeHolderStop
  split
  · exact (stopAtScu_scuOnly _ _ _ _).samePorts
  · rfl

theorem takeOldestBatch_ports : (takeOldestBatch s).ports = s.ports := by
  unfold takeOldestBatch
  split
  · rfl
  · exact takeBatch_ports ..

theorem expirePulse_ports (c : ChanId) : (expirePulse c s).ports = s.ports := by
  unfold expirePulse
  split <;> rfl

end

/-! ## Every command -/

/-- The commands that change what a port may hold: it is attached, or its teardown starts, goes on or ends (R148 to R152). -/
def ofTeardown : Instr → Bool
  | .attach .. | .detach .. | .leaseExpiry _ | .axuTeardown _ | .scuTeardown _ | .mkuTeardown _ | .otuTeardown _
  | .teardownPartDone .. => true
  | _ => false

/-- Every other command keeps the laws of the port records, and what each port may hold. -/
theorem exec_portsQuiet {c : Instr} {k : Site} (hc : site c = some k) (hq : ofTeardown c = false) {s t : State}
    (ht : exec c s = .next t) : PortsQuiet s t := by
  have frame {p : Port} {pl : List Byte} (c : Command) (ha : c ≠ .attach) (hd : c ≠ .detach) :
      PortsQuiet s (takeFrame p c pl (frameAct p pl c) s) := takeFrame_quiet s p fun u => frameAct_quiet u p pl ha hd
  match c, hc, hq with
  | .chipSelectFall p, _, _ => cases ht; exact fallSelect_quiet s p
  | .emptyTransaction p, _, _ => cases ht; exact raiseSelect_quiet s p
  | .malformedFrame p bytes, _, _ => cases ht; exact takeMalformed_quiet s p bytes
  | .unknownCode p code pl, _, _ => cases ht; exact takeUnknown_quiet s p pl code
  | .nop p pl, _, _ => cases ht; exact takeNop_quiet s p pl
  | .ident .., _, _ => cases ht; exact frame .ident nofun nofun
  | .status .., _, _ => cases ht; exact frame .status nofun nofun
  | .axisConfig .., _, _ => cases ht; exact frame .axisConfig nofun nofun
  | .axisEnable .., _, _ => cases ht; exact frame .axisEnable nofun nofun
  | .axisDisable .., _, _ => cases ht; exact frame .axisDisable nofun nofun
  | .axisSet .., _, _ => cases ht; exact frame .axisSet nofun nofun
  | .axisHome .., _, _ => cases ht; exact frame .axisHome nofun nofun
  | .axisRead .., _, _ => cases ht; exact frame .axisRead nofun nofun
  | .timePreset .., _, _ => cases ht; exact frame .timePreset nofun nofun
  | .timePresetClear .., _, _ => cases ht; exact frame .timePresetClear nofun nofun
  | .arm .., _, _ => cases ht; exact frame .arm nofun nofun
  | .cancel .., _, _ => cases ht; exact frame .cancel nofun nofun
  | .recordRead .., _, _ => cases ht; exact frame .recordRead nofun nofun
  | .tableStatus .., _, _ => cases ht; exact frame .tableStatus nofun nofun
  | .groupBegin .., _, _ => cases ht; exact frame .groupBegin nofun nofun
  | .groupEnd .., _, _ => cases ht; exact frame .groupEnd nofun nofun
  | .groupDiscard .., _, _ => cases ht; exact frame .groupDiscard nofun nofun
  | .groupStatus .., _, _ => cases ht; exact frame .groupStatus nofun nofun
  | .markConfig .., _, _ => cases ht; exact frame .markConfig nofun nofun
  | .markStart .., _, _ => cases ht; exact frame .markStart nofun nofun
  | .markStop .., _, _ => cases ht; exact frame .markStop nofun nofun
  | .markRead .., _, _ => cases ht; exact frame .markRead nofun nofun
  | .markStatus .., _, _ => cases ht; exact frame .markStatus nofun nofun
  | .channelClaim .., _, _ => cases ht; exact frame .channelClaim nofun nofun
  | .channelRelease .., _, _ => cases ht; exact frame .channelRelease nofun nofun
  | .channelDrive .., _, _ => cases ht; exact frame .channelDrive nofun nofun
  | .channelStatus .., _, _ => cases ht; exact frame .channelStatus nofun nofun
  | .noticeRead .., _, _ => cases ht; exact frame .noticeRead nofun nofun
  | .subscribe .., _, _ => cases ht; exact frame .subscribe nofun nofun
  | .postPeer .., _, _ => cases ht; exact frame .postPeer nofun nofun
  | .encoderTransition x a b, _, _ => cases ht; exact .of_ports (encoderChange_ports s x a b)
  | .prescalerExpiry, _, _ => cases ht; exact .of_ports (expirePrescaler_axuOnly s).samePorts
  | .indexEdge x level, _, _ => cases ht; exact .of_ports (indexChange_ports s x level)
  | .epochEdge level, _, _ => cases ht; exact .of_ports (epochChange_ports s level)
  | .freezeEvent a, _, _ => cases ht; exact .of_ports (takeFreeze_ports s a)
  | .thawEvent a, _, _ => cases ht; exact .of_ports (takeThaw_ports s a)
  | .rebaseEvent a, _, _ => cases ht; exact .of_ports (takeRebase_ports s a)
  | .scuStep a, _, _ => cases ht; exact .of_ports (takeScuStep_ports s a)
  | .mkuStep a, _, _ => cases ht; exact .of_ports (takeMkuStep_ports s a)
  | .markEdge m level, _, _ => cases ht; exact .of_ports (markChange_ports s m level)
  | .debounceEnd m, _, _ => cases ht; exact .of_ports (endDebounce_mkuOnly s m).samePorts
  | .markHandoff, _, _ => cases ht; exact .of_ports (takeMarkHandoff_ports s)
  | .stopRequest, _, _ => cases ht; exact .of_ports (takeStopRequest_ports s)
  | .holderStopRequest, _, _ => cases ht; exact .of_ports (takeHolderStop_ports s)
  | .groupExpiry p, _, _ => cases ht; exact .of_ports (expireGroup_scuOnly s p).samePorts
  | .action, _, _ => cases ht; exact .of_ports (takeOldestBatch_ports s)
  | .pulseExpiry c, _, _ => cases ht; exact .of_ports (expirePulse_ports s c)
  | .noticePosting, _, _ => cases ht; exact takePosting_quiet s

/-! ## Attaching and tearing down -/

section
variable (s : State) (p : Port)

theorem attachAct_keep (pl : List Byte) (hs : s.ports[p].state ≠ .releasing) : PortsKeep s (attachAct p pl s).1 := by
  cases hp : boundedNat 10 60000 (field pl 0 2) with
  | none =>
    rw [attachAct_badField hp]
    exact (PortsQuiet.refl s).keep
  | some period =>
    obtain ⟨⟨low, high⟩, rfl⟩ := boundedNat_eq_some.1 hp
    have attaching := PortRec.Keeps.attaching s.ports[p] hs low high
    rw [attachAct_ok hp]
    by_cases ha : s.ports[p].state = .attached
    · rw [attachPort_attached ha]
      exact .setPort attaching
    · rw [attachPort_idle ha]
      exact .setPort (attaching.trans ((PortRec.Quiet.subscribing _ 0 0 false).trans (.overrunCleared _)).toKeeps)

theorem expireLease_keep : PortsKeep s (expireLease p s) := by
  unfold expireLease
  split
  · exact .setPort (.tornDown ..)
  · exact (PortsQuiet.refl s).keep

theorem teardownPart_keep (k : Block) {part : State → State} (h : (part s).ports = s.ports) :
    PortsKeep s (teardownPart p k part s) := by
  unfold teardownPart
  split
  · rename_i hk
    have same : PortsKeep s (part s) := (PortsQuiet.of_ports h).keep
    exact same.trans (.setPort (.reporting _ (by rw [h]; exact hk)))
  · exact (PortsQuiet.refl s).keep

/-- What the PIF does with a report, by whether parts are left (R152). -/
theorem takePartDone_cases (b : Block) : takePartDone p b s = s
    ∨ s.ports[p].reported.has b = true ∧
      ((s.ports[p].partTaken b).outstanding ≠ .empty ∧ takePartDone p b s = s.setPort p (s.ports[p].partTaken b)
        ∨ (s.ports[p].partTaken b).outstanding = .empty ∧ takePartDone p b s = s.setPort p
            { s.ports[p].partTaken b with state := endPortState s.ports[p].endState, endState := none }) := by
  by_cases h : s.ports[p].reported.has b = true
  · refine .inr ⟨h, ?_⟩
    by_cases left : (s.ports[p].partTaken b).outstanding = .empty
    · exact .inr ⟨left, (if_pos h).trans (if_pos left)⟩
    · exact .inl ⟨left, (if_pos h).trans (if_neg left)⟩
  · exact .inl (if_neg h)

theorem takePartDone_keep (b : Block) : PortsKeep s (takePartDone p b s) := by
  obtain eq | ⟨h, ⟨left, eq⟩ | ⟨left, eq⟩⟩ := takePartDone_cases s p b <;> rw [eq]
  · exact (PortsQuiet.refl s).keep
  · exact .setPort ⟨fun ok => ok.partDone h left, id⟩
  · exact .setPort ⟨fun ok => ok.lastPartDone h left, id⟩

end

/-- Every command taken at one place keeps the laws of the port records. -/
theorem exec_portsKeep {c : Instr} {k : Site} (hc : site c = some k) {s t : State} (ht : exec c s = .next t) : PortsKeep s t := by
  cases hq : ofTeardown c with
  | false => exact (exec_portsQuiet hc hq ht).keep
  | true =>
    match c, hq with
    | .attach p pl, _ =>
      cases ht
      refine takeFrame_keep (c := .attach) s p fun u admitted => attachAct_keep u p pl fun releasing => ?_
      rw [releasing] at admitted
      nomatch admitted
    | .detach p pl, _ => cases ht; exact takeFrame_keep (c := .detach) s p fun u _ => .setPort (.tornDown ..)
    | .leaseExpiry p, _ => cases ht; exact expireLease_keep s p
    | .axuTeardown p, _ => cases ht; exact teardownPart_keep s p .axu (clearPreset_axuOnly p s).samePorts
    | .scuTeardown p, _ => cases ht; exact teardownPart_keep s p .scu (removePort_scuOnly s p).samePorts
    | .mkuTeardown p, _ => cases ht; exact teardownPart_keep s p .mku (releaseInputs_mkuOnly s p).samePorts
    | .otuTeardown p, _ => cases ht; exact teardownPart_keep s p .otu rfl
    | .teardownPartDone p b, _ => cases ht; exact takePartDone_keep s p b

theorem advance_quiet (s : State) : PortsQuiet s (advance s) := by
  intro p
  have record : (advance s).ports[p] = s.ports[p].tick := Vector.getElem_map ..
  rw [record]
  exact .tick _

theorem releaseReset_ports (s : State) : (releaseReset s).ports = s.ports := by
  unfold releaseReset
  split <;> rfl

/-- An edge on the serial pins changes no more of the ports than a link. -/
theorem takeEdge_quiet (e : SerialEdge) (s : State) : PortsQuiet s (takeEdge e s) := by
  obtain ⟨p, l, q, edge⟩ := takeEdge_changes e s
  rw [edge]
  exact PortsQuiet.setPort (.withLink _ l)

/-- A law that holds right after reset, that every command taken at one place keeps, and that is kept where only links, stamps
and counters change, is kept by every step. -/
theorem kept_of_sites {law : State → Prop}
    (hsite : ∀ (c : Instr) (k : Site), site c = some k → ∀ s t : State, law s → exec c s = .next t → law t)
    (hqueue : ∀ (s : State) (pending : List Instr) (serial : List SerialEdge), law s →
      law { s with pending := pending, serial := serial })
    (hedge : ∀ (e : SerialEdge) (s : State), law s → law (takeEdge e s))
    (hreset : ∀ s, law s → law (resetDevice s)) (hrelease : ∀ s, law s → law (releaseReset s))
    (htick : ∀ s, law s → law (advance s)) : Kept law := by
  intro s t hs ht
  unfold step at ht
  split at ht
  · split at ht
    · cases ht
      exact hs
    · cases ht
      exact hedge _ _ (hqueue s s.pending _ hs)
  · exact exec_keeps hsite hreset hrelease (fun s h _ => htick s h) _ _ t (hqueue s _ s.serial hs) ht

/-- A law of the port records that every change of them keeps. -/
theorem kept_of_portsKeep {law : State → Prop} (h : ∀ {s t}, PortsKeep s t → law s → law t)
    (hreset : ∀ pins links, law (State.resetWith pins links)) : Kept law := by
  have same {s t : State} (k : t.ports = s.ports) : law s → law t := h (PortsQuiet.of_ports k).keep
  refine kept_of_sites (fun c k hc s t hs ht => h (exec_portsKeep hc ht) hs) (fun s _ _ => same rfl)
    (fun e s => h (takeEdge_quiet e s).keep) (fun s _ => ?_) (fun s => same (releaseReset_ports s))
    (fun s => h (advance_quiet s).keep)
  exact same (s := State.resetWith ..) rfl (hreset s.pins (.ofFn fun p => s.ports[p].link.abandon))

/-- Settles O55: both laws are laws of each record, which every command keeps (`exec_portsKeep`). -/
theorem portLawsKept : Obligations.PortLawsKept :=
  ⟨kept_of_portsKeep (fun k h p => (k p).ok (h p)) portsOk_resetWith,
    kept_of_portsKeep (fun k h p => (k p).fits (h p)) responsesOk_resetWith⟩

end Sys2Proof.Machine
end

section
/-! SUPPORT. What the ports hold at the blocks, through every operation (R22, R25, R50, R82, R100, R101, R106, R123, R128, R131,
R140): only seven commands give a port something or change the owner of a channel. -/

namespace Sys2Proof.Machine

/-! ## The preset at the AXU -/

/-- The preset is the one there was, or none. -/
structure PresetKeeps (s t : State) : Prop where
  preset : ∀ x ∈ t.preset, x ∈ s.preset

theorem PresetKeeps.of_eq {s t : State} (h : t.preset = s.preset) : PresetKeeps s t := ⟨fun _ hx => h ▸ hx⟩

theorem PresetKeeps.emptied {s t : State} (h : t.preset = none) : PresetKeeps s t := ⟨fun _ hx => nomatch h ▸ hx⟩

theorem framing_presetKeeps : Framing PresetKeeps :=
  ⟨fun _ => .of_eq rfl, fun h k => ⟨fun x hx => h.preset x (k.preset x hx)⟩, fun _ _ _ => .of_eq rfl⟩

section
variable (s : State)

theorem searchStep_preset (x : EncId) : (searchStep x s).preset = s.preset := by
  unfold searchStep
  dsimp only
  split
  · split <;> rfl
  · rfl

theorem applyCount_preset (a : AxisId) (d : Direction) : (applyCount a d s).preset = s.preset := by
  unfold applyCount
  dsimp only
  split
  · split
    · exact searchStep_preset ..
    · rfl
  · rfl

theorem refuseCount_preset (a : AxisId) : (refuseCount a s).preset = s.preset := by
  unfold refuseCount
  split
  · rfl
  · dsimp only
    split <;> rfl
  · dsimp only
    split <;> split <;> rfl
  · split <;> rfl

theorem count_preset (a : AxisId) (d : Direction) : (count a d s).preset = s.preset := by
  unfold count
  split
  · rfl
  · split
    · exact applyCount_preset ..
    · exact refuseCount_preset ..

theorem quadError_preset (x : EncId) : (quadError x s).preset = s.preset := by
  unfold quadError
  dsimp only
  split <;> rfl

theorem encoderChange_preset (x : EncId) (a b : Bool) : (encoderChange x a b s).preset = s.preset := by
  unfold encoderChange
  dsimp only
  split
  · rfl
  · split
    · exact quadError_preset ..
    · split
      · exact count_preset ..
      · rfl

theorem expirePrescaler_preset : (expirePrescaler s).preset = s.preset := by
  unfold expirePrescaler
  split
  · exact count_preset ..
  · rfl

theorem rebase_preset (a : AxisId) (cause : RebaseCause) (v : Int) : (rebase a cause v s).preset = s.preset := by rw [rebase_eq]

theorem endSearch_preset (x : EncId) (way : Recovery) : (endSearch x way s).preset = s.preset := by
  unfold endSearch
  dsimp only
  split <;> rfl

theorem setAxisValue_preset (a : AxisId) (v : Int) : (setAxisValue a v s).preset = s.preset := by
  have based := rebase_preset s a .set v
  unfold setAxisValue
  split
  · rfl
  · exact based
  · dsimp only
    split <;> exact based
  · split
    · exact (endSearch_preset ..).trans based
    · exact based

theorem startSearch_preset (x : EncId) (home : Int) (limit : Nat) : (startSearch x home limit s).preset = s.preset := by
  rw [startSearch_eq]

theorem indexChange_preset (x : EncId) (level : Bool) : (indexChange x level s).preset = s.preset := by
  unfold indexChange
  dsimp only
  split
  · rfl
  · split
    · exact (endSearch_preset ..).trans (rebase_preset ..)
    · rfl

theorem axisConfigAct_preset (pl : List Byte) : (axisConfigAct pl s).1.preset = s.preset := by
  unfold axisConfigAct
  split
  · rfl
  · split
    · rfl
    · split <;> rfl

theorem axisEnableAct_preset (pl : List Byte) : (axisEnableAct pl s).1.preset = s.preset := by
  unfold axisEnableAct
  split
  · rfl
  · split
    · rfl
    · dsimp only
      split <;> rfl

theorem axisDisableAct_preset (pl : List Byte) : (axisDisableAct pl s).1.preset = s.preset := by
  unfold axisDisableAct
  split
  · rfl
  · split
    · rfl
    · split
      · rfl
      · dsimp only
        split <;> rfl

theorem axisSetAct_preset (p : Port) (pl : List Byte) : (axisSetAct p pl s).1.preset = s.preset := by
  unfold axisSetAct
  split
  · rfl
  · split
    · rfl
    · exact setAxisValue_preset ..

theorem axisHomeAct_preset (pl : List Byte) : (axisHomeAct pl s).1.preset = s.preset := by
  unfold axisHomeAct
  split
  · rfl
  · split
    · rfl
    · exact startSearch_preset ..

theorem timePresetClearAct_preset (p : Port) : PresetKeeps s (timePresetClearAct p s).1 := by
  unfold timePresetClearAct
  split
  · exact .of_eq rfl
  · split
    · exact .emptied rfl
    · exact .of_eq rfl

theorem epochRise_preset : PresetKeeps s (epochRise s) := by
  unfold epochRise
  split
  · exact .of_eq rfl
  · split
    · exact .of_eq rfl
    · split <;> exact .emptied rfl

theorem epochChange_preset (level : Bool) : PresetKeeps s (epochChange level s) := by
  unfold epochChange
  dsimp only
  split
  · exact .of_eq rfl
  · split
    · exact ⟨(epochRise_preset _).preset⟩
    · exact .of_eq rfl

theorem clearPreset_preset (p : Port) : ∀ x ∈ (clearPreset p s).preset, x ∈ s.preset ∧ x.setter ≠ p := by
  rw [clearPreset_eq]
  intro x hx
  obtain ⟨held, other⟩ := Option.filter_eq_some_iff.1 hx
  exact ⟨held, of_decide_eq_true other⟩

end

/-- Of the AXU's commands only TIME_PRESET gives a port the preset. -/
theorem exec_presetKeeps {c : Instr} (hc : site c = some .axu) (hset : ∀ p pl, c ≠ .timePreset p pl) {s t : State}
    (ht : exec c s = .next t) : PresetKeeps s t := by
  have frame {p : Port} {c : Command} {pl : List Byte} {act : State → State × Answer}
      (hact : ∀ u, PresetKeeps u (act u).1) : PresetKeeps s (takeFrame p c pl act s) := takeFrame_rel framing_presetKeeps hact s
  match c, hc with
  | .timePreset p pl, _ => exact absurd rfl (hset p pl)
  | .axisConfig _ pl, _ => cases ht; exact frame fun u => .of_eq (axisConfigAct_preset u pl)
  | .axisEnable _ pl, _ => cases ht; exact frame fun u => .of_eq (axisEnableAct_preset u pl)
  | .axisDisable _ pl, _ => cases ht; exact frame fun u => .of_eq (axisDisableAct_preset u pl)
  | .axisSet p pl, _ => cases ht; exact frame fun u => .of_eq (axisSetAct_preset u p pl)
  | .axisHome _ pl, _ => cases ht; exact frame fun u => .of_eq (axisHomeAct_preset u pl)
  | .timePresetClear p _, _ => cases ht; exact frame fun u => timePresetClearAct_preset u p
  | .axuTeardown p, _ =>
    cases ht
    exact teardownPart_rel framing_presetKeeps (fun u => ⟨fun x hx => (clearPreset_preset u p x hx).1⟩) s
  | .encoderTransition x a b, _ => cases ht; exact .of_eq (encoderChange_preset s x a b)
  | .prescalerExpiry, _ => cases ht; exact .of_eq (expirePrescaler_preset s)
  | .indexEdge x level, _ => cases ht; exact .of_eq (indexChange_preset s x level)
  | .epochEdge level, _ => cases ht; exact epochChange_preset s level

/-! ## The holders at the MKU -/

/-- The holder of every input is the one there was, or none. -/
structure HoldersKeep (s t : State) : Prop where
  holder : ∀ m : MarkId, ∀ p ∈ t.marks[m].holder, p ∈ s.marks[m].holder

namespace HoldersKeep

theorem of_marks {s t : State} (h : t.marks = s.marks) : HoldersKeep s t := ⟨by rw [h]; exact fun _ _ => id⟩

/-- One input changes. -/
theorem input {s t : State} {m : MarkId} {r : MarkRec} (h : t.marks = upd s.marks m r)
    (hr : ∀ p ∈ r.holder, p ∈ s.marks[m].holder) : HoldersKeep s t := by
  refine ⟨?_⟩
  rw [h]
  exact forall_upd (P := fun m r => ∀ p ∈ MarkRec.holder r, p ∈ s.marks[m].holder) s.marks m r hr fun _ _ _ => id

theorem refl (s : State) : HoldersKeep s s := .of_marks rfl

theorem trans {s t u : State} (h : HoldersKeep s t) (k : HoldersKeep t u) : HoldersKeep s u :=
  ⟨fun m p hp => h.holder m p (k.holder m p hp)⟩

theorem after {s t u : State} (k : HoldersKeep t u) (h : HoldersKeep s t) : HoldersKeep s u := h.trans k

theorem framing : Framing HoldersKeep := ⟨refl, trans, fun _ _ _ => .of_marks rfl⟩

section
variable (s : State) (m : MarkId)

theorem loseMarks (c : LostCause) (st : MarkState) : HoldersKeep s (loseMarks m c st s) :=
  .input (r := { s.marks[m].enter st with misses := 0 }) rfl fun _ => id

theorem countMark (c : Capture) (k : CaptureKind) (v : Int) : HoldersKeep s (countMark m c k v s) :=
  .input (m := m) rfl fun _ => id

/-- An input keeps its holder. -/
theorem setMark {r : MarkRec} (h : r.holder = s.marks[m].holder) : HoldersKeep s (s.setMark m r) :=
  .input rfl fun _ hp => h ▸ hp

theorem acceptCapture (c : Capture) : HoldersKeep s (acceptCapture m c s) := (countMark ..).after (setMark s m rfl)

theorem declareMiss : HoldersKeep s (declareMiss m s) := by
  unfold Machine.declareMiss
  dsimp only
  split
  · split
    · exact (countMark ..).after (setMark s m rfl)
    · exact loseMarks ..
  · exact loseMarks ..

theorem resolveDeferred : HoldersKeep s (resolveDeferred m s) := by
  unfold Machine.resolveDeferred
  dsimp only
  split
  · have cleared : HoldersKeep s (s.setMark m { s.marks[m] with deferred := false }) := setMark s m rfl
    split
    · split
      · exact cleared.trans (declareMiss ..)
      · exact cleared
    · exact cleared
  · exact refl s

theorem judgeCapture (c : Capture) : HoldersKeep s (judgeCapture m c s) := by
  unfold Machine.judgeCapture
  dsimp only
  split
  · exact acceptCapture ..
  · split
    · split
      · exact (resolveDeferred _ m).after (.of_marks rfl)
      · exact acceptCapture ..
    · exact acceptCapture ..
  · exact refl s
  · exact refl s

theorem edgeSeen (level : Bool) : HoldersKeep s (edgeSeen m level s) := by
  have emptied : HoldersKeep s (s.setMark m { s.marks[m] with capture := none }) := setMark s m rfl
  unfold Machine.edgeSeen
  dsimp only
  split
  · split
    · exact emptied.trans (judgeCapture ..)
    · exact setMark s m rfl
  · split
    · exact emptied.trans (resolveDeferred ..)
    · exact refl s

theorem endDebounce : HoldersKeep s (endDebounce m s) := by
  unfold Machine.endDebounce
  split
  · split
    · exact (judgeCapture ..).after (setMark s m rfl)
    · exact refl s
  · exact refl s

theorem markChange (level : Bool) : HoldersKeep s (markChange m level s) := by
  unfold Machine.markChange
  dsimp only
  split
  · exact of_marks rfl
  · split
    · exact of_marks rfl
    · have followed : HoldersKeep s (State.setMark { s with pins := { s.pins with mark := upd s.pins.mark m level } } m
          { s.marks[m] with level := level }) := .input rfl fun _ => id
      split
      · exact followed
      · exact followed
      all_goals exact followed.trans (edgeSeen ..)

theorem trackStep (a : AxisId) (msg : StepMsg) : HoldersKeep s (trackStep a msg s m) := by
  unfold Machine.trackStep
  dsimp only
  split
  · split
    · split
      · exact setMark s m rfl
      · exact declareMiss ..
    · exact refl s
  all_goals exact refl s

theorem freezeInput (a : AxisId) : HoldersKeep s (freezeInput a s m) := by
  unfold Machine.freezeInput
  dsimp only
  split
  · exact loseMarks ..
  · exact refl s

theorem thawInput (a : AxisId) : HoldersKeep s (thawInput a s m) := by
  unfold Machine.thawInput
  dsimp only
  split
  · exact setMark s m rfl
  · exact refl s

theorem rebaseInput (a : AxisId) : HoldersKeep s (rebaseInput a s m) := by
  unfold Machine.rebaseInput
  dsimp only
  split
  · exact loseMarks ..
  · exact refl s

theorem stopInput : HoldersKeep s (stopInput m s) := by
  rw [stopInput_eq]
  exact .input rfl nofun

theorem markConfigAct (pl : List Byte) : HoldersKeep s (markConfigAct pl s).1 := by
  unfold Machine.markConfigAct
  split
  · exact refl s
  · dsimp only
    split
    · exact refl s
    · exact setMark s _ rfl

theorem markStopAct (p : Port) (pl : List Byte) : HoldersKeep s (markStopAct p pl s).1 := by
  unfold Machine.markStopAct
  split
  · exact refl s
  · split
    · exact refl s
    · split
      · exact refl s
      · split
        · exact refl s
        · exact (stopInput s _).trans (.of_marks rfl)

end

section
variable (s : State) (a : AxisId)

theorem takeMkuStep : HoldersKeep s (takeMkuStep a s) := by
  unfold Machine.takeMkuStep
  split
  · rename_i msg _ _
    dsimp only
    split
    · exact of_marks rfl
    · exact (framing.foldl (fun s m => trackStep s m a msg) _ _).after (.of_marks rfl)
  · exact refl s

theorem takeFreeze : HoldersKeep s (takeFreeze a s) := by
  unfold Machine.takeFreeze
  split
  · exact (framing.foldl (fun s m => freezeInput s m a) _ _).after (.of_marks rfl)
  · exact refl s

theorem takeThaw : HoldersKeep s (takeThaw a s) := by
  unfold Machine.takeThaw
  split
  · exact (framing.foldl (fun s m => thawInput s m a) _ _).after (.of_marks rfl)
  · exact refl s

theorem releaseNotices : HoldersKeep s (releaseNotices a s) := by
  unfold Machine.releaseNotices
  split <;> exact of_marks rfl

theorem takeRebase : HoldersKeep s (takeRebase a s) := by
  unfold Machine.takeRebase
  split
  · refine (releaseNotices ..).after ?_
    exact (framing.foldl (fun s m => rebaseInput s m a) _ _).after (.of_marks rfl)
  · exact refl s

end
end HoldersKeep

/-- The teardown at the MKU leaves the port no input. -/
theorem releaseInputs_holders (p : Port) (s : State) (m : MarkId) :
    ∀ q ∈ (releaseInputs p s).marks[m].holder, q ∈ s.marks[m].holder ∧ q ≠ p := by
  obtain ⟨marks, eq, inputs⟩ := releaseInputs_eq p s
  rw [eq]
  intro q hq
  dsimp only at hq
  rw [inputs m] at hq
  split at hq
  · nomatch hq
  · rename_i other
    refine ⟨hq, fun same => other ?_⟩
    rw [← same]
    exact hq

/-- Of the MKU's commands only MARK_START gives a port an input. -/
theorem exec_holdersKeep {c : Instr} (hc : site c = some .mku) (hstart : ∀ p pl, c ≠ .markStart p pl) {s t : State}
    (ht : exec c s = .next t) : HoldersKeep s t := by
  have frame {p : Port} {c : Command} {pl : List Byte} {act : State → State × Answer}
      (hact : ∀ u, HoldersKeep u (act u).1) : HoldersKeep s (takeFrame p c pl act s) := takeFrame_rel HoldersKeep.framing hact s
  match c, hc with
  | .markStart p pl, _ => exact absurd rfl (hstart p pl)
  | .markConfig _ pl, _ => cases ht; exact frame fun u => .markConfigAct u pl
  | .markStop p pl, _ => cases ht; exact frame fun u => .markStopAct u p pl
  | .mkuTeardown p, _ =>
    cases ht
    exact teardownPart_rel HoldersKeep.framing (fun u => ⟨fun m q hq => (releaseInputs_holders p u m q hq).1⟩) s
  | .freezeEvent a, _ => cases ht; exact .takeFreeze s a
  | .thawEvent a, _ => cases ht; exact .takeThaw s a
  | .rebaseEvent a, _ => cases ht; exact .takeRebase s a
  | .mkuStep a, _ => cases ht; exact .takeMkuStep s a
  | .markEdge m level, _ => cases ht; exact .markChange s m level
  | .debounceEnd m, _ => cases ht; exact .endDebounce s m

end Sys2Proof.Machine
end

section
/-! SUPPORT. What the ports hold at the SCU and the OTU, and what every command but seven leaves of it (O56). -/

namespace Sys2Proof.Machine

/-! ## The groups -/

/-- A group that is open was open before. -/
structure GroupsClose (s t : State) : Prop where
  isOpen : ∀ p : Port, t.groups[p].state ≠ .none → s.groups[p].state ≠ .none

namespace GroupsClose

theorem of_groups {s t : State} (h : t.groups = s.groups) : GroupsClose s t := ⟨by rw [h]; exact fun _ => id⟩

theorem stays {l : List EntryIx} {s t : State} (h : Unstaged l s t) : GroupsClose s t := .of_groups h.groups

/-- One group changes. -/
theorem group {s t : State} {p : Port} {g : GroupRec} (h : t.groups = upd s.groups p g)
    (hg : g.state ≠ .none → s.groups[p].state ≠ .none) : GroupsClose s t := by
  refine ⟨?_⟩
  rw [h]
  exact forall_upd (P := fun p g => GroupRec.state g ≠ .none → s.groups[p].state ≠ .none) s.groups p g hg fun _ _ => id

theorem of_pif {s t : State} (h : By .pif s t) : GroupsClose s t := by
  simp only [By] at h
  rw [h]
  exact .of_groups rfl

theorem refl (s : State) : GroupsClose s s := .of_groups rfl

theorem trans {s t u : State} (h : GroupsClose s t) (k : GroupsClose t u) : GroupsClose s u :=
  ⟨fun p hp => h.isOpen p (k.isOpen p hp)⟩

theorem after {s t u : State} (k : GroupsClose t u) (h : GroupsClose s t) : GroupsClose s u := h.trans k

theorem then_posts {s t u : State} (h : GroupsClose s t) (hu : ∃ posts, u = { t with posted := posts }) : GroupsClose s u := by
  obtain ⟨posts, rfl⟩ := hu
  exact h.trans (.of_groups rfl)

theorem framing : Framing GroupsClose := ⟨refl, trans, fun _ _ _ => .of_groups rfl⟩

theorem foldl_work {β : Type} {f : Work → β → Work} (h : ∀ w b, GroupsClose w.st (f w b).st) (l : List β) (w : Work) :
    GroupsClose w.st (l.foldl f w).st :=
  foldl_rel (R := fun w v : Work => GroupsClose w.st v.st) (fun w => .refl w.st) (fun _ _ _ => .trans) h l w

section
variable (s : State) (p : Port)

theorem stageOp (op : GroupOp) : GroupsClose s (stageOp p op s) := .group rfl id

theorem closeGroup : GroupsClose s (closeGroup p s) :=
  .group (g := { s.groups[p] with state := .none, ops := [], boundary := none, remaining := 0 }) rfl (absurd rfl)

theorem discardGroup : GroupsClose s (discardGroup p s) := (stays (.freeAll (reservedBy s p) s)).trans (closeGroup ..)

theorem discardNoticed (c : DiscardCause) : GroupsClose s (discardNoticed p c s) :=
  (discardGroup s p).then_posts ⟨_, rfl⟩

theorem expireGroup : GroupsClose s (expireGroup p s) := by
  unfold Machine.expireGroup
  split
  · exact discardNoticed ..
  · exact refl s

theorem removePort : GroupsClose s (removePort p s) := by
  have reset : GroupsClose s ((Machine.discardGroup p s).setGroup p .reset) :=
    (discardGroup s p).trans (.group rfl (absurd rfl))
  exact reset.trans (stays (.freeAll ..))

end

theorem applyGroup (view : View) (p : Port) (at_ : AppliedAt) (w : Work) : GroupsClose w.st (applyGroup view p at_ w).st :=
  ((stays (.applyOps view p w.st.groups[p].ops ⟨w, 0, 0, 0, none⟩)).trans (closeGroup _ p)).then_posts ⟨_, rfl⟩

theorem applyReached (view : View) (at_ : AppliedAt) (f : Boundary → Bool) (w : Work) :
    GroupsClose w.st (applyReached view at_ f w).st :=
  foldl_work (fun w p => by dsimp only; split; exact applyGroup ..; exact refl _) _ w

section
variable (s : State)

theorem takeScuStep (a : AxisId) : GroupsClose s (takeScuStep a s) := by
  unfold Machine.takeScuStep
  split
  · exact refl s
  · rename_i m rest _
    have taken : GroupsClose s (s.setToScu a rest) := .of_groups rfl
    dsimp only
    split
    · exact taken
    · refine taken.trans (.trans ?_ (.stays (.done _)))
      exact (applyReached (some (a, m.value)) _ _ (.begin _)).trans
        (.stays (.foldl_stays Work.st (fun w i => .crossEntry a m.value w i) _ _))

theorem takeMark (c : Capture) : GroupsClose s (takeMark c s) := by
  refine .trans (.trans ?_ (.stays (.foldl_stays Work.st (fun w i => .resolveEntry c w i) _ _))) (.stays (.done _))
  exact (applyReached none _ _ (.begin s)).trans (.stays (.foldl_stays id (fun s i => .giveOwed c s i) _ _))

theorem armsMarked (covers : Port → Bool) (m : MarkId) : GroupsClose s (armsMarked covers m s) := by
  refine ⟨fun p => ?_⟩
  rw [armsMarked_group]
  split <;> exact id

theorem stopAtScu (covers : Port → Bool) (m : MarkId) (c : WithdrawCause) : GroupsClose s (stopAtScu covers m c s) := by
  have discard (u : State) (p : Port) : GroupsClose u (discardAtMark covers m u p) := by
    unfold discardAtMark
    split
    · exact discardNoticed ..
    · exact refl u
  rw [stopAtScu_eq]
  refine (GroupsClose.framing.foldl discard _ _).after ?_
  exact (stays ((Unstaged.withdrawn covers m c s).trans (.burstsEnded covers m _))).trans (armsMarked ..)

theorem takeMarkHandoff : GroupsClose s (takeMarkHandoff s) := by
  unfold Machine.takeMarkHandoff
  split
  · exact (takeMark ..).after (.of_groups rfl)
  · exact refl s

theorem takeStopRequest : GroupsClose s (takeStopRequest s) := by
  unfold Machine.takeStopRequest
  split
  · exact (stopAtScu ..).after (.of_groups rfl)
  · exact refl s

theorem takeHolderStop : GroupsClose s (takeHolderStop s) := by
  unfold Machine.takeHolderStop
  split
  · exact (stopAtScu ..).after (.of_groups rfl)
  · exact refl s

theorem armAct (p : Port) (pl : List Byte) : GroupsClose s (armAct p pl s).1 := by
  by_cases hf : GroupFull s p
  · rw [armAct_full hf]
    exact refl s
  · cases hd : parseTrigger pl with
    | none =>
      rw [armAct_badField hf hd]
      exact refl s
    | some d =>
      cases hi : armChecks p d s with
      | error st =>
        rw [armAct_refused hf hd hi]
        exact refl s
      | ok i =>
        by_cases hs : s.groups[p].state = .staging
        · rw [armAct_staged hf hd hi hs]
          exact .group rfl id
        · rw [armAct_immediate hf hd hi hs]
          split
          · exact refl s
          · exact .stays (routeArm_unstaged p d (armChecks_ok hi).2)

theorem cancelAct (p : Port) (pl : List Byte) : GroupsClose s (cancelAct p pl s).1 := by
  by_cases hf : GroupFull s p
  · rw [cancelAct_full hf]
    exact refl s
  · rcases judgeHandle_cases s p (parseHandle pl) with ⟨e, he, -, -, hj⟩ | ⟨st, hj, -⟩
    · rw [cancelAct_ok hf hj]
      split
      · exact refl s
      · split
        · exact stageOp ..
        · exact .of_groups rfl
    · rw [cancelAct_refused hf hj]
      exact refl s

theorem channelDriveAct (p : Port) (pl : List Byte) : GroupsClose s (channelDriveAct p pl s).1 := by
  unfold Machine.channelDriveAct
  dsimp only
  split
  · exact refl s
  · split
    · exact refl s
    · split
      · exact refl s
      · split
        · exact stageOp ..
        · exact .of_pif (takeBatch_by ..)

theorem groupEndAct (p : Port) (pl : List Byte) : GroupsClose s (groupEndAct p pl s).1 := by
  have apply (at_ : AppliedAt) : GroupsClose s (Machine.applyGroup none p at_ (.begin s)).done :=
    (applyGroup none p at_ (.begin s)).trans (.stays (.done _))
  unfold Machine.groupEndAct
  dsimp only
  split
  · exact refl s
  · rename_i h
    split
    · exact refl s
    · exact apply _
    · split
      · exact refl s
      · split
        · exact apply _
        · exact .group rfl fun _ => by rw [not_not.1 h]; decide

theorem groupDiscardAct (p : Port) : GroupsClose s (groupDiscardAct p s).1 := by
  unfold Machine.groupDiscardAct
  dsimp only
  split
  · exact refl s
  · exact discardGroup ..

end
end GroupsClose

/-- Of the SCU's commands only GROUP_BEGIN opens a group. -/
theorem exec_groupsClose {c : Instr} (hc : site c = some .scu) (hbegin : ∀ p pl, c ≠ .groupBegin p pl) {s t : State}
    (ht : exec c s = .next t) : GroupsClose s t := by
  have frame {p : Port} {c : Command} {pl : List Byte} {act : State → State × Answer} (hact : ∀ u, GroupsClose u (act u).1) :
      GroupsClose s (takeFrame p c pl act s) := takeFrame_rel GroupsClose.framing hact s
  match c, hc with
  | .groupBegin p pl, _ => exact absurd rfl (hbegin p pl)
  | .arm p pl, _ => cases ht; exact frame fun u => .armAct u p pl
  | .cancel p pl, _ => cases ht; exact frame fun u => .cancelAct u p pl
  | .groupEnd p pl, _ => cases ht; exact frame fun u => .groupEndAct u p pl
  | .groupDiscard p _, _ => cases ht; exact frame fun u => .groupDiscardAct u p
  | .channelDrive p pl, _ => cases ht; exact frame fun u => .channelDriveAct u p pl
  | .scuTeardown p, _ => cases ht; exact teardownPart_rel GroupsClose.framing (fun u => .removePort u p) s
  | .scuStep a, _ => cases ht; exact .takeScuStep s a
  | .markHandoff, _ => cases ht; exact .takeMarkHandoff s
  | .stopRequest, _ => cases ht; exact .takeStopRequest s
  | .holderStopRequest, _ => cases ht; exact .takeHolderStop s
  | .groupExpiry p, _ => cases ht; exact .expireGroup s p

/-! ## The entries -/

/-- Of the SCU's commands only ARM writes a new description and owner. -/
theorem exec_scuHolds {P : TriggerDesc → Port → Prop} {c : Instr} (hc : site c = some .scu) (harm : ∀ p pl, c ≠ .arm p pl)
    {s t : State} (ht : exec c s = .next t) (h : ScuHolds P (fun _ => True) s) : ScuHolds P (fun _ => True) t := by
  have framing : Framing (fun s t => ScuHolds P (fun _ => True) s → ScuHolds P (fun _ => True) t) :=
    framing_law fun s p r k => k.congr rfl rfl
  have frame {p : Port} {c : Command} {pl : List Byte} {act : State → State × Answer}
      (hact : ∀ u, ScuHolds P (fun _ => True) u → ScuHolds P (fun _ => True) (act u).1) :
      ScuHolds P (fun _ => True) (takeFrame p c pl act s) := takeFrame_rel framing hact s h
  match c, hc with
  | .arm p pl, _ => exact absurd rfl (harm p pl)
  | .cancel p pl, _ => cases ht; exact frame fun _ k => k.cancelAct p pl
  | .groupBegin p _, _ => cases ht; exact frame fun _ k => k.groupBeginAct p
  | .groupEnd p pl, _ => cases ht; exact frame fun _ k => k.groupEndAct p pl fun _ _ => trivial
  | .groupDiscard p _, _ => cases ht; exact frame fun _ k => k.groupDiscardAct p
  | .channelDrive p pl, _ => cases ht; exact frame fun _ k => k.channelDriveAct p pl
  | .scuTeardown p, _ => cases ht; exact teardownPart_rel framing (fun _ k => k.removePort p) s h
  | .scuStep a, _ => cases ht; exact h.takeScuStep a
  | .markHandoff, _ => cases ht; exact h.takeMarkHandoff
  | .stopRequest, _ => cases ht; exact h.takeStopRequest
  | .holderStopRequest, _ => cases ht; exact h.takeHolderStop
  | .groupExpiry p, _ => cases ht; exact h.expireGroup p

theorem armChecks_owns {p : Port} {d : TriggerDesc} {s : State} {i : EntryIx} (h : armChecks p d s = .ok i) :
    ownsMask s p d.mask = true := by
  unfold armChecks at h
  split at h
  · nomatch h
  · split at h
    · nomatch h
    · split at h
      · nomatch h
      · rename_i owned
        simpa using owned

/-- ARM writes one entry, of the issuer, and every channel of its mask is the issuer's (R41). -/
theorem ScuHolds.armAct_owned {P : TriggerDesc → Port → Prop} {Q : Boundary → Prop} {s : State} (h : ScuHolds P Q s) (p : Port)
    (pl : List Byte) (hP : ∀ d : TriggerDesc, ownsMask s p d.mask = true → P d p) : ScuHolds P Q (Machine.armAct p pl s).1 := by
  by_cases hf : GroupFull s p
  · rw [armAct_full hf]
    exact h
  · cases hd : parseTrigger pl with
    | none =>
      rw [armAct_badField hf hd]
      exact h
    | some d =>
      cases hi : armChecks p d s with
      | error st =>
        rw [armAct_refused hf hd hi]
        exact h
      | ok i =>
        have owned := hP d (armChecks_owns hi)
        by_cases hs : s.groups[p].state = .staging
        · rw [armAct_staged hf hd hi hs]
          exact (h.writeEntry i (e := newEntry p d .staged) owned).stageOp ..
        · rw [armAct_immediate hf hd hi hs]
          split
          · exact h
          · unfold routeArm
            split
            · exact (giveTarget (w := .begin s) h none i (e := newEntry p d .armed) _ owned).done
            · exact h.placeWaiting i (e := newEntry p d .waiting) owned

/-! ## The owners of the channels -/

theorem act_owner (r : ChanRec) (act : Action) (width : Nat) : (r.act act width).owner = r.owner := by
  cases act with
  | pulse | set | clear => rfl
  | toggle =>
    dsimp only [ChanRec.act]
    split <;> rfl

/-- Every channel keeps its owner. -/
structure OwnersStay (s t : State) : Prop where
  owner : ∀ c : ChanId, t.chans[c].owner = s.chans[c].owner

namespace OwnersStay

theorem of_chans {s t : State} (h : SameChans s t) : OwnersStay s t := ⟨fun _ => by rw [h]⟩

theorem setChan {s : State} {c : ChanId} {r : ChanRec} (h : r.owner = s.chans[c].owner) : OwnersStay s (s.setChan c r) :=
  ⟨forall_upd (P := fun c r => ChanRec.owner r = s.chans[c].owner) s.chans c r h fun _ _ => rfl⟩

theorem refl (s : State) : OwnersStay s s := .of_chans rfl

theorem trans {s t u : State} (h : OwnersStay s t) (k : OwnersStay t u) : OwnersStay s u :=
  ⟨fun c => (k.owner c).trans (h.owner c)⟩

theorem after {s t u : State} (k : OwnersStay t u) (h : OwnersStay s t) : OwnersStay s u := h.trans k

theorem framing : Framing OwnersStay := ⟨refl, trans, fun _ _ _ => .of_chans rfl⟩

theorem takeAction (s : State) (x : OutAction) : OwnersStay s (takeAction s x) := by
  by_cases ho : s.chans[x.chan].owner = some x.port
  · rw [takeAction_owned ho]
    exact .setChan (act_owner ..)
  · rw [takeAction_foreign ho]
    exact refl s

theorem takeBatch (s : State) (batch : List OutAction) : OwnersStay s (takeBatch batch s) :=
  framing.foldl takeAction batch s

theorem takeOldestBatch (s : State) : OwnersStay s (takeOldestBatch s) := by
  unfold Machine.takeOldestBatch
  split
  · exact refl s
  · exact (takeBatch ..).after (.of_chans rfl)

theorem expirePulse (c : ChanId) (s : State) : OwnersStay s (expirePulse c s) := by
  unfold Machine.expirePulse
  split
  · exact .setChan rfl
  · exact refl s

theorem channelDriveAct (p : Port) (pl : List Byte) (s : State) : OwnersStay s (channelDriveAct p pl s).1 := by
  unfold Machine.channelDriveAct
  dsimp only
  split
  · exact refl s
  · split
    · exact refl s
    · split
      · exact refl s
      · split
        · exact .of_chans rfl
        · exact takeBatch ..

end OwnersStay

/-! ## All blocks -/

/-- The commands that give a port something, or change the owner of a channel. -/
def ofHolding : Instr → Bool
  | .timePreset .. | .markStart .. | .arm .. | .groupBegin .. | .channelClaim .. | .channelRelease .. | .otuTeardown _ => true
  | _ => false

/-- Channels change owner only by three of those. -/
theorem exec_ownersStay {c : Instr} {k : Site} (hc : site c = some k) (hh : ofHolding c = false) {s t : State}
    (ht : exec c s = .next t) : OwnersStay s t := by
  cases ho : ofOtu c with
  | false => exact .of_chans (exec_sameChans hc ho ht)
  | true =>
    match c, ho, hh with
    | .channelDrive p pl, _, _ =>
      cases ht
      exact takeFrame_rel OwnersStay.framing (fun u => .channelDriveAct p pl u) s
    | .action, _, _ => cases ht; exact .takeOldestBatch s
    | .pulseExpiry c, _, _ => cases ht; exact .expirePulse c s

/-- No port has the preset, an input or an open group that it did not have, and no channel changes owner. -/
structure HoldsLess (s t : State) : Prop extends PresetKeeps s t, HoldersKeep s t, GroupsClose s t, OwnersStay s t

theorem exec_holdsLess {c : Instr} {k : Site} (hc : site c = some k) (hh : ofHolding c = false) {s t : State}
    (ht : exec c s = .next t) : HoldsLess s t := by
  have by_ := exec_of_site hc ht
  have owners := exec_ownersStay hc hh ht
  cases k with
  | axu =>
    have kept := exec_presetKeeps hc (by rintro p pl rfl; nomatch hh) ht
    simp only [By] at by_
    refine ⟨kept, .of_marks ?_, .of_groups ?_, owners⟩ <;> rw [by_]
  | mku =>
    have kept := exec_holdersKeep hc (by rintro p pl rfl; nomatch hh) ht
    simp only [By] at by_
    refine ⟨.of_eq ?_, kept, .of_groups ?_, owners⟩ <;> rw [by_]
  | scu =>
    have kept := exec_groupsClose hc (by rintro p pl rfl; nomatch hh) ht
    simp only [By] at by_
    refine ⟨.of_eq ?_, .of_marks ?_, kept, owners⟩ <;> rw [by_]
  | pif =>
    simp only [By] at by_
    refine ⟨.of_eq ?_, .of_marks ?_, .of_groups ?_, owners⟩ <;> rw [by_]

/-- No command but ARM writes a new description and owner. -/
theorem exec_entriesKeep {P : TriggerDesc → Port → Prop} {c : Instr} {k : Site} (hc : site c = some k)
    (harm : ∀ p pl, c ≠ .arm p pl) {s t : State} (ht : exec c s = .next t) (h : ScuHolds P (fun _ => True) s) :
    ScuHolds P (fun _ => True) t := by
  have by_ := exec_of_site hc ht
  cases k with
  | scu => exact exec_scuHolds hc harm ht h
  | axu | mku | pif =>
    simp only [By] at by_
    refine h.congr ?_ ?_ <;> rw [by_]

end Sys2Proof.Machine
end

section
/-! SUPPORT. Only a port that may still hold things holds any, and the entries of an ATTACHED port name only its own channels (R41,
R152): every command keeps both (O56). -/

namespace Sys2Proof.Machine

/-! ## What a port holds -/

/-- What a port holds at a block. -/
def Holds (s : State) (p : Port) : Block → Prop
  | .scu => (∃ i : EntryIx, ∃ e ∈ s.table[i].entry, e.owner = p) ∨ s.groups[p].state ≠ .none
  | .otu => ∃ c : ChanId, s.chans[c].owner = some p
  | .mku => ∃ m : MarkId, s.marks[m].holder = some p
  | .axu => ∃ x ∈ s.preset, x.setter = p

/-- While its owner is ATTACHED, an entry names only channels its owner owns (R41). -/
abbrev MasksOwned (s : State) : Prop :=
  ∀ i : EntryIx, ∀ e ∈ s.table[i].entry, s.ports[e.owner].state = .attached → ownsMask s e.owner e.desc.mask = true

theorem holdingsOk_iff (s : State) : HoldingsOk s ↔ (∀ p b, Holds s p b → MayHold s p b) ∧ MasksOwned s := by
  constructor
  · rintro ⟨entries, masks, groups, chans, marks, preset⟩
    refine ⟨fun p b held => ?_, masks⟩
    cases b with
    | scu =>
      obtain ⟨i, e, he, rfl⟩ | isOpen := held
      · exact entries i e he
      · exact groups p isOpen
    | otu => exact held.elim fun c hc => chans c p hc
    | mku => exact held.elim fun m hm => marks m p hm
    | axu =>
      obtain ⟨x, hx, rfl⟩ := held
      exact preset x hx
  · rintro ⟨held, masks⟩
    exact ⟨fun i e he => held e.owner .scu (.inl ⟨i, e, he, rfl⟩), masks, fun p hp => held p .scu (.inr hp),
      fun c p hp => held p .otu ⟨c, hp⟩, fun m p hp => held p .mku ⟨m, hp⟩, fun x hx => held x.setter .axu ⟨x, hx, rfl⟩⟩

section
variable {s t : State} {p : Port}

/-! ## The record of one port -/

theorem setPort_get (s : State) (p : Port) (r : PortRec) : (s.setPort p r).ports[p] = r := upd_get ..

/-- The record of a port is written: what the port holds, it must still be allowed to hold. -/
theorem holdingsOk_setPort (hs : HoldingsOk s) {r : PortRec}
    (may : ∀ b, Holds s p b → MayHold s p b → MayHold (s.setPort p r) p b)
    (still : Holds s p .scu → r.state = .attached → s.ports[p].state = .attached) : HoldingsOk (s.setPort p r) := by
  obtain ⟨held, masks⟩ := (holdingsOk_iff s).1 hs
  have other {q : Port} (hq : q ≠ p) : (s.setPort p r).ports[q] = s.ports[q] := upd_get_ne _ _ hq
  have before (q : Port) (hq : Holds s q .scu) (attached : (s.setPort p r).ports[q].state = .attached) :
      s.ports[q].state = .attached := by
    by_cases same : q = p
    · subst same
      rw [setPort_get] at attached
      exact still hq attached
    · rwa [other same] at attached
  refine (holdingsOk_iff _).2 ⟨fun q b hb => ?_, fun i e he attached => ?_⟩
  · have had : Holds s q b := by cases b <;> exact hb
    by_cases hq : q = p
    · subst hq
      exact may b had (held q b had)
    · rw [MayHold, other hq]
      exact held q b had
  · exact masks i e he (before e.owner (.inl ⟨i, e, he, rfl⟩) attached)

theorem holdingsOk_setPort_quiet (hs : HoldingsOk s) {r : PortRec} (h : s.ports[p].Quiet r) : HoldingsOk (s.setPort p r) := by
  refine holdingsOk_setPort hs (fun b _ may => ?_) fun _ attached => h.state ▸ attached
  rw [MayHold, setPort_get, h.state, h.requested]
  exact may

/-! ## Nothing new is held -/

/-- A port that may hold things at the SCU, and owns the channels of a description while it is ATTACHED. -/
abbrev MayName (s : State) (d : TriggerDesc) (p : Port) : Prop :=
  MayHold s p .scu ∧ (s.ports[p].state = .attached → ownsMask s p d.mask = true)

theorem HoldingsOk.named (hs : HoldingsOk s) : ScuHolds (MayName s) (fun _ => True) s :=
  ⟨fun i e he => ⟨hs.1 i e he, hs.2.1 i e he⟩, fun _ _ _ _ => trivial⟩

theorem PortsQuiet.mayHold (h : PortsQuiet s t) (p : Port) (b : Block) (may : MayHold s p b) : MayHold t p b := by
  rw [MayHold, (h p).state, (h p).requested]
  exact may

theorem OwnersStay.ownsMask (h : OwnersStay s t) {mask : BitVec 12} (owned : ownsMask s p mask = true) :
    ownsMask t p mask = true := by
  rw [ownsMask_iff] at owned ⊢
  exact fun c hc => (h.owner c).trans (owned c hc)

theorem holdingsOk_less (hs : HoldingsOk s) (h : HoldsLess s t) (named : ScuHolds (MayName s) (fun _ => True) t)
    (quiet : PortsQuiet s t) : HoldingsOk t := by
  obtain ⟨-, -, groups, chans, marks, preset⟩ := hs
  refine ⟨fun i e he => quiet.mayHold _ _ (named.entries i e he).1, fun i e he attached => ?_,
    fun p hp => quiet.mayHold p _ (groups p (h.isOpen p hp)), fun c p hp => quiet.mayHold p _ (chans c p (h.owner c ▸ hp)),
    fun m p hp => quiet.mayHold p _ (marks m p (h.holder m p hp)), fun x hx => quiet.mayHold _ _ (preset x (h.preset x hx))⟩
  exact h.toOwnersStay.ownsMask ((named.entries i e he).2 ((quiet e.owner).state ▸ attached))

/-! ## The channels -/

/-- The channels change: their owners may hold them, and the entries of ATTACHED ports keep theirs. -/
theorem holdingsOk_chans (hs : HoldingsOk s) {chans : Vector ChanRec 12}
    (held : ∀ c : ChanId, ∀ p ∈ chans[c].owner, MayHold s p .otu)
    (kept : ∀ i : EntryIx, ∀ e ∈ s.table[i].entry, s.ports[e.owner].state = .attached → ∀ c : ChanId,
      e.desc.mask.getLsbD c.val = true → s.chans[c].owner = some e.owner → chans[c].owner = some e.owner) :
    HoldingsOk { s with chans := chans } := by
  obtain ⟨entries, masks, groups, -, marks, preset⟩ := hs
  refine ⟨entries, fun i e he attached => (ownsMask_iff _ _ _).2 fun c hc => ?_, groups, held, marks, preset⟩
  exact kept i e he attached c hc ((ownsMask_iff _ _ _).1 (masks i e he attached) c hc)

theorem holdingsOk_claimChannel (hs : HoldingsOk s) (attached : s.ports[p].state = .attached) {c : ChanId}
    (ho : s.chans[c].owner = none ∨ s.chans[c].owner = some p) (pol : Polarity) (safe : Bool) :
    HoldingsOk (claimChannel p c pol safe s) := by
  obtain ⟨-, -, -, chans, -, -⟩ := id hs
  refine holdingsOk_chans hs (forall_upd (P := fun _ r => ∀ q ∈ ChanRec.owner r, MayHold s q .otu) s.chans c _ ?_ ?_)
    fun i e he _ d hd owned => ?_
  · rintro q ⟨⟩
    exact .inl attached
  · exact fun d _ => chans d
  · by_cases hc : d = c
    · subst hc
      obtain none | mine := ho
      · rw [none] at owned
        nomatch owned
      · rw [upd_get]
        exact mine.symm.trans owned
    · rwa [upd_get_ne _ _ hc]

theorem holdingsOk_releaseChannel (hs : HoldingsOk s) {c : ChanId} (ho : s.chans[c].owner = some p) (hn : ¬Named s p c) :
    HoldingsOk (s.setChan c s.chans[c].release) := by
  obtain ⟨-, -, -, chans, -, -⟩ := id hs
  refine holdingsOk_chans hs (forall_upd (P := fun _ r => ∀ q ∈ ChanRec.owner r, MayHold s q .otu) s.chans c _ nofun
    fun d _ => chans d) fun i e he _ d hd owned => ?_
  by_cases hc : d = c
  · subst hc
    exact absurd (.inl ⟨i, e, he, Option.some.inj (owned.symm.trans ho), hd⟩) hn
  · rwa [upd_get_ne _ _ hc]

theorem holdingsOk_releaseChannels (hs : HoldingsOk s) (torn : s.ports[p].state ≠ .attached) :
    HoldingsOk (releaseChannels p s) := by
  obtain ⟨-, -, -, chans, -, -⟩ := id hs
  refine holdingsOk_chans hs (fun c q hq => ?_) fun i e he attached c _ owned => ?_
  · change q ∈ (releaseChannels p s).chans[c].owner at hq
    rw [releaseChannels_chan] at hq
    split at hq
    · nomatch hq
    · exact chans c q hq
  · have other : s.chans[c].owner ≠ some p := fun mine => by
      obtain rfl := Option.some.inj (owned.symm.trans mine)
      exact torn attached
    have record := releaseChannels_chan p s c
    rw [if_neg other] at record
    exact (congrArg ChanRec.owner record).trans owned

end
end Sys2Proof.Machine
end

section
/-! SUPPORT. The commands that give a port something, and those that attach it or tear it down; and every step (O56). -/

namespace Sys2Proof.Machine

section
variable {s : State} {p : Port}

/-! ## What an ATTACHED port is given -/

section
variable (hs : HoldingsOk s) (attached : s.ports[p].state = .attached) (pl : List Byte)
include hs attached

theorem holdingsOk_timePresetAct : HoldingsOk (timePresetAct p pl s).1 := by
  obtain ⟨entries, masks, groups, chans, marks, -⟩ := id hs
  rw [timePresetAct_eq]
  split
  · exact hs
  · split
    · exact hs
    · split
      · exact hs
      · refine ⟨entries, masks, groups, chans, marks, ?_⟩
        rintro x ⟨⟩
        exact .inl attached

theorem holdingsOk_markStartAct : HoldingsOk (markStartAct p pl s).1 := by
  obtain ⟨entries, masks, groups, chans, marks, preset⟩ := id hs
  unfold markStartAct
  split
  · exact hs
  · dsimp only
    split
    · exact hs
    · split
      · exact hs
      · refine ⟨entries, masks, groups, chans, ?_, preset⟩
        refine forall_upd (P := fun _ r => ∀ q ∈ MarkRec.holder r, MayHold s q .mku) s.marks _ _ ?_ fun m _ => marks m
        rintro q ⟨⟩
        exact .inl attached

theorem holdingsOk_groupBeginAct : HoldingsOk (groupBeginAct p s).1 := by
  obtain ⟨entries, masks, groups, rest⟩ := id hs
  unfold groupBeginAct
  dsimp only
  split
  · exact hs
  · refine ⟨entries, masks, ?_, rest⟩
    exact forall_upd (P := fun q g => GroupRec.state g ≠ .none → MayHold s q .scu) s.groups p _ (fun _ => .inl attached)
      fun q _ => groups q

theorem holdingsOk_armAct : HoldingsOk (armAct p pl s).1 := by
  have by_ := armAct_scuOnly p pl s
  have named : ScuHolds (MayName s) (fun _ => True) (armAct p pl s).1 :=
    hs.named.armAct_owned p pl fun d owned => ⟨.inl attached, fun _ => owned⟩
  refine holdingsOk_less hs ⟨.of_eq ?_, .of_marks ?_, .armAct s p pl, .of_chans by_.sameChans⟩ named (.of_ports by_.samePorts)
  all_goals rw [by_]

theorem holdingsOk_channelClaimAct : HoldingsOk (channelClaimAct p pl s).1 := by
  unfold channelClaimAct
  split
  · exact hs
  · split
    · rename_i q owner
      split
      · rename_i same
        exact holdingsOk_claimChannel hs attached (.inr (owner.trans (congrArg some same))) _ _
      · exact hs
    · rename_i unowned
      exact holdingsOk_claimChannel hs attached (.inl unowned) _ _

end

theorem holdingsOk_channelReleaseAct (hs : HoldingsOk s) (pl : List Byte) : HoldingsOk (channelReleaseAct p pl s).1 := by
  unfold channelReleaseAct
  split
  · exact hs
  · split
    · exact hs
    · rename_i mine
      split
      · exact hs
      · rename_i free
        exact holdingsOk_releaseChannel hs (not_not.1 mine) (mt (channelNamed_iff ..).2 free)

/-! ## Attaching, and the start of a teardown -/

theorem holdingsOk_attachAct (hs : HoldingsOk s) (here : s.ports[p].state ≠ .releasing) (pl : List Byte) :
    HoldingsOk (attachAct p pl s).1 := by
  have attaching {r : PortRec} (hr : r.state = .attached) : HoldingsOk (s.setPort p r) := by
    refine holdingsOk_setPort hs (fun b _ _ => .inl ?_) fun held _ => ?_
    · rw [setPort_get]
      exact hr
    · exact (((holdingsOk_iff s).1 hs).1 p .scu held).resolve_right fun may => here may.1
  cases hp : boundedNat 10 60000 (field pl 0 2) with
  | none =>
    rw [attachAct_badField hp]
    exact hs
  | some period =>
    rw [attachAct_ok hp]
    by_cases ha : s.ports[p].state = .attached
    · rw [attachPort_attached ha]
      exact attaching rfl
    · rw [attachPort_idle ha]
      exact attaching rfl

/-- As its teardown starts every block is asked, and the port may hold what it held. -/
theorem holdingsOk_startTeardown (hs : HoldingsOk s) (e : EndState) : HoldingsOk (startTeardown p e s) := by
  refine holdingsOk_setPort hs (fun b _ _ => .inr ?_) fun _ torn => nomatch torn
  rw [setPort_get]
  exact ⟨rfl, has_full b⟩

theorem holdingsOk_expireLease (hs : HoldingsOk s) : HoldingsOk (expireLease p s) := by
  unfold expireLease
  split
  · exact holdingsOk_startTeardown hs _
  · exact hs

/-! ## The parts of a teardown -/

/-- A block takes the request and does its part, after which the port holds nothing there. -/
theorem holdingsOk_teardownPart {k : Block} {part : State → State} (hp : PortsOk s) (hs : HoldingsOk s)
    (h : s.ports[p].state = .releasing → HoldingsOk (part s) ∧ ¬Holds (part s) p k) :
    HoldingsOk (teardownPart p k part s) := by
  unfold teardownPart
  split
  · rename_i asked
    obtain ⟨kept, gone⟩ := h ((hp p).releasing asked)
    refine holdingsOk_setPort kept (fun b held may => ?_) fun _ => id
    have other : b ≠ k := by
      rintro rfl
      exact gone held
    rw [MayHold, setPort_get]
    refine may.imp_right fun ⟨releasing, requested⟩ => ⟨releasing, ?_⟩
    rw [has_put, if_neg other]
    exact requested
  · exact hs

theorem holdingsOk_axuTeardown (hp : PortsOk s) (hs : HoldingsOk s) : HoldingsOk (teardownPart p .axu (clearPreset p) s) := by
  refine holdingsOk_teardownPart hp hs fun _ => ⟨?_, ?_⟩
  · obtain ⟨entries, masks, groups, chans, marks, preset⟩ := id hs
    have left := clearPreset_preset s p
    rw [clearPreset_eq] at left ⊢
    exact ⟨entries, masks, groups, chans, marks, fun x hx => preset x (left x hx).1⟩
  · rintro ⟨x, hx, mine⟩
    exact (clearPreset_preset s p x hx).2 mine

theorem holdingsOk_mkuTeardown (hp : PortsOk s) (hs : HoldingsOk s) : HoldingsOk (teardownPart p .mku (releaseInputs p) s) := by
  refine holdingsOk_teardownPart hp hs fun _ => ⟨?_, ?_⟩
  · obtain ⟨entries, masks, groups, chans, marks, preset⟩ := id hs
    have left := releaseInputs_holders p s
    have by_ := releaseInputs_mkuOnly s p
    rw [by_]
    exact ⟨entries, masks, groups, chans, fun m q hq => marks m q (left m q hq).1, preset⟩
  · rintro ⟨m, hm⟩
    exact (releaseInputs_holders p s m p hm).2 rfl

theorem holdingsOk_otuTeardown (hp : PortsOk s) (hs : HoldingsOk s) : HoldingsOk (teardownPart p .otu (releaseChannels p) s) := by
  refine holdingsOk_teardownPart hp hs fun releasing => ⟨holdingsOk_releaseChannels hs (by rw [releasing]; decide), ?_⟩
  rintro ⟨c, hc⟩
  rw [releaseChannels_chan] at hc
  split at hc
  · nomatch hc
  · rename_i other
    exact other hc

/-- The SCU's part frees every entry of the port and closes its group. -/
theorem removePort_holds (p : Port) (s : State) : ¬Holds (removePort p s) p .scu := by
  obtain ⟨t, eq, form, -, table⟩ := foldl_freeEntry (ownedEntries ((discardGroup p s).setGroup p .reset) p)
    (ownedEntries_nodup ..) ((discardGroup p s).setGroup p .reset)
  have removed : removePort p s = t := eq
  rw [removed]
  rintro (⟨i, e, he, mine⟩ | isOpen)
  · rw [table i] at he
    split at he
    · nomatch he
    · rename_i foreign
      rw [mem_ownedEntries, Option.mem_def.1 he] at foreign
      exact foreign (beq_iff_eq.2 mine)
  · rw [form] at isOpen
    exact isOpen (congrArg GroupRec.state (upd_get ..))

theorem holdingsOk_scuTeardown (hp : PortsOk s) (hs : HoldingsOk s) : HoldingsOk (teardownPart p .scu (removePort p) s) := by
  have by_ := removePort_scuOnly s p
  refine holdingsOk_teardownPart hp hs fun _ => ⟨?_, removePort_holds p s⟩
  refine holdingsOk_less hs ⟨.of_eq ?_, .of_marks ?_, .removePort s p, .of_chans by_.sameChans⟩ (hs.named.removePort p)
    (.of_ports by_.samePorts)
  all_goals rw [by_]

/-- While parts are outstanding nothing changes in what the port may hold; and with the last part it holds nothing. -/
theorem holdingsOk_takePartDone (hp : PortsOk s) (hs : HoldingsOk s) (b : Block) : HoldingsOk (takePartDone p b s) := by
  obtain eq | ⟨reported, ⟨-, eq⟩ | ⟨left, eq⟩⟩ := takePartDone_cases s p b <;> rw [eq]
  · exact hs
  · refine holdingsOk_setPort hs (fun k _ may => ?_) fun _ => id
    rw [MayHold, setPort_get]
    exact may
  · obtain ⟨releasing, -⟩ := (hp p).reports reported
    have nothing (k : Block) : ¬MayHold s p k := by
      rintro (attached | ⟨-, requested⟩)
      · rw [releasing] at attached
        nomatch attached
      · have part := (hp p).partsTaken reported k
        rw [left, has_empty] at part
        exact Bool.noConfusion (requested.symm.trans part.not_requested)
    exact holdingsOk_setPort hs (fun k _ may => absurd may (nothing k)) fun held =>
      absurd (((holdingsOk_iff s).1 hs).1 p .scu held) (nothing .scu)

/-! ## Frames -/

/-- What the act of a command keeps wherever the port state admits it, its frame keeps. -/
theorem holdingsOk_takeFrame {c : Command} {pl : List Byte} (hs : HoldingsOk s)
    (h : ∀ u : State, stateRefusal c u.ports[p].state = none → HoldingsOk u → HoldingsOk (frameAct p pl c u).1) :
    HoldingsOk (takeFrame p c pl (frameAct p pl c) s) := by
  obtain ⟨r, hr, eq⟩ | ⟨admitted, eq⟩ := takeFrame_cases s p c pl (frameAct p pl c) <;> rw [eq]
  · exact holdingsOk_setPort_quiet hs hr
  · have renewed : HoldingsOk (leaseRenewed s p) := holdingsOk_setPort_quiet hs (.renewed _)
    refine holdingsOk_setPort_quiet (h _ ?_ renewed) (.responding _ ((frameAct_answers p pl _ c).fits _))
    rwa [leaseRenewed_get]

/-- A command that not every port state admits, other than ATTACH, is admitted in ATTACHED only (R145). -/
theorem attached_of_admitted {c : Command} (h : c ≠ .nop ∧ c ≠ .ident ∧ c ≠ .status) (ha : c ≠ .attach) {st : PortState}
    (admitted : stateRefusal c st = none) : st = .attached := by
  obtain ⟨busy, idle⟩ := stateRefusal_table h
  obtain ⟨notAttached, expired⟩ := idle ha
  cases st with
  | attached => rfl
  | releasing => exact nomatch busy.symm.trans admitted
  | detached => exact nomatch notAttached.symm.trans admitted
  | expired => exact nomatch expired.symm.trans admitted

theorem holdingsOk_takeFrame_attached {c : Command} {pl : List Byte} (hs : HoldingsOk s)
    (hc : (c ≠ .nop ∧ c ≠ .ident ∧ c ≠ .status) ∧ c ≠ .attach)
    (h : ∀ u : State, HoldingsOk u → u.ports[p].state = .attached → HoldingsOk (frameAct p pl c u).1) :
    HoldingsOk (takeFrame p c pl (frameAct p pl c) s) :=
  holdingsOk_takeFrame hs fun u admitted hu => h u hu (attached_of_admitted hc.1 hc.2 admitted)

end

/-! ## Every command -/

/-- Every command taken at one place keeps the law of what the ports hold. -/
theorem holdingsOk_exec {c : Instr} {k : Site} (hc : site c = some k) {s t : State} (hp : PortsOk s) (hs : HoldingsOk s)
    (ht : exec c s = .next t) : HoldingsOk t := by
  cases hd : ofTeardown c with
  | true =>
    match c, hd with
    | .attach p pl, _ =>
      cases ht
      refine holdingsOk_takeFrame (c := .attach) hs fun u admitted hu => holdingsOk_attachAct hu (fun releasing => ?_) pl
      rw [releasing] at admitted
      nomatch admitted
    | .detach p pl, _ => cases ht; exact holdingsOk_takeFrame (c := .detach) hs fun u _ hu => holdingsOk_startTeardown hu _
    | .leaseExpiry p, _ => cases ht; exact holdingsOk_expireLease hs
    | .axuTeardown p, _ => cases ht; exact holdingsOk_axuTeardown hp hs
    | .scuTeardown p, _ => cases ht; exact holdingsOk_scuTeardown hp hs
    | .mkuTeardown p, _ => cases ht; exact holdingsOk_mkuTeardown hp hs
    | .otuTeardown p, _ => cases ht; exact holdingsOk_otuTeardown hp hs
    | .teardownPartDone p b, _ => cases ht; exact holdingsOk_takePartDone hp hs b
  | false =>
    have acting {p : Port} {pl : List Byte} (c : Command) := holdingsOk_takeFrame_attached (p := p) (c := c) (pl := pl) hs
    cases hh : ofHolding c with
    | true =>
      match c, hh with
      | .timePreset p pl, _ => cases ht; exact acting .timePreset (by decide) fun u hu ha => holdingsOk_timePresetAct hu ha pl
      | .markStart p pl, _ => cases ht; exact acting .markStart (by decide) fun u hu ha => holdingsOk_markStartAct hu ha pl
      | .arm p pl, _ => cases ht; exact acting .arm (by decide) fun u hu ha => holdingsOk_armAct hu ha pl
      | .groupBegin p pl, _ => cases ht; exact acting .groupBegin (by decide) fun u hu ha => holdingsOk_groupBeginAct hu ha
      | .channelClaim p pl, _ =>
        cases ht
        exact acting .channelClaim (by decide) fun u hu ha => holdingsOk_channelClaimAct hu ha pl
      | .channelRelease p pl, _ =>
        cases ht
        exact acting .channelRelease (by decide) fun u hu _ => holdingsOk_channelReleaseAct hu pl
    | false =>
      exact holdingsOk_less hs (exec_holdsLess hc hh ht)
        (exec_entriesKeep hc (by rintro p pl rfl; nomatch hh) ht hs.named) (exec_portsQuiet hc hd ht)

/-! ## Every step -/

/-- A base tick counts down, and changes nothing that a port holds. -/
theorem advance_holdsLess (s : State) : HoldsLess s (advance s) := by
  refine ⟨.of_eq rfl, ⟨fun m p hp => ?_⟩, ⟨fun p => ?_⟩, ⟨fun c => ?_⟩⟩
  · have record : (advance s).marks[m] = s.marks[m].tick := Vector.getElem_map ..
    rw [record] at hp
    exact hp
  · rw [advance_group]
    unfold GroupRec.tick
    split <;> exact id
  · have record : (advance s).chans[c] = s.chans[c].tick := Vector.getElem_map ..
    rw [record]
    unfold ChanRec.tick
    split <;> rfl

theorem holdingsOk_advance {s : State} (hs : HoldingsOk s) : HoldingsOk (advance s) :=
  holdingsOk_less hs (advance_holdsLess s) ⟨hs.named.entries, fun _ _ _ _ => trivial⟩ (advance_quiet s)

theorem holdingsOk_releaseReset {s : State} (hs : HoldingsOk s) : HoldingsOk (releaseReset s) := by
  obtain ⟨entries, masks, groups, chans, marks, preset⟩ := id hs
  unfold releaseReset
  split
  · refine ⟨entries, masks, groups, chans, fun m p hp => marks m p ?_, preset⟩
    have record : (Vector.ofFn fun m : MarkId => { s.marks[m] with level := s.pins.mark[m] })[m]
        = { s.marks[m] with level := s.pins.mark[m] } := Vector.getElem_ofFn ..
    dsimp only at hp
    rw [record] at hp
    exact hp
  · exact hs

theorem holdingsOk_takeEdge {s : State} (hs : HoldingsOk s) (e : SerialEdge) : HoldingsOk (takeEdge e s) := by
  obtain ⟨p, l, q, edge⟩ := takeEdge_changes e s
  rw [edge]
  exact holdingsOk_setPort_quiet (s := { s with pending := q }) hs (.withLink s.ports[p] l)

/-- Settles O56: every command keeps the law of what the ports hold, for the teardowns by the laws of the port records. -/
theorem holdingsKept : Obligations.HoldingsKept := by
  refine kept_of_sites (fun c k hc s t ⟨hp, hs⟩ ht => ⟨fun p => (exec_portsKeep hc ht p).ok (hp p), holdingsOk_exec hc hp hs ht⟩)
    (fun _ _ _ => id) (fun e s ⟨hp, hs⟩ => ⟨fun p => (takeEdge_quiet e s p).ok (hp p), holdingsOk_takeEdge hs e⟩)
    (fun s _ => ⟨?_, ?_⟩) (fun s ⟨hp, hs⟩ => ⟨?_, holdingsOk_releaseReset hs⟩)
    (fun s ⟨hp, hs⟩ => ⟨fun p => (advance_quiet s p).ok (hp p), holdingsOk_advance hs⟩)
  · exact portsOk_resetWith (pins := s.pins) (links := .ofFn fun p => s.ports[p].link.abandon)
  · exact holdingsOk_resetWith (pins := s.pins) (links := .ofFn fun p => s.ports[p].link.abandon)
  · rw [PortsOk, releaseReset_ports]
    exact hp

end Sys2Proof.Machine
end

section
/-! SUPPORT. Notices (R159 to R161, R163 to R165, R167): the 18 bytes of a notice, the attention line, and the commands
NOTICE_READ, SUBSCRIBE and POST_PEER (O48, O49). -/

namespace Sys2Proof.Machine

/-! ## The bytes of a notice (R159, R167) -/

/-- The 13 bytes of a notice body: its fields, and 0 in every byte that the layout does not assign. -/
def NoticeBody.padded (b : NoticeBody) : List Byte := b.fields ++ List.replicate (13 - b.fields.length) 0

/-- A notice is its kind, its stamp and its body. -/
theorem notice_bytes {b : NoticeBody} {kind : Byte} {body : List Byte} (hk : b.kind = kind) (hb : b.padded = body)
    (stamp : BitVec 32) : (⟨stamp, b⟩ : Notice).bytes = kind :: (leBytes 4 stamp.toNat ++ body) := by
  rw [← hk, ← hb]
  rfl

theorem handle_bytes (h : Handle) : h.bytes = [byte h.index.val, h.gen] := by
  rw [Handle.bytes, leBytes_one, leBytes_one, byte_toNat_self]
  rfl

theorem byte_bit (b : Bool) : byte (bit b) = if b then 1 else 0 := by cases b <;> rfl

/-! ## The attention line (R165) -/

theorem attnAsserted_iff (s : State) (p : Port) :
    attnAsserted s p = true ↔ s.ports[p].state = .attached ∧ s.ports[p].queue ≠ [] := by
  simp [attnAsserted, attached]

/-! ## A frame whose act changes the record of its own port -/

theorem takeFrame_ownPort {s : State} {p : Port} {c : Command} {pl : List Byte} {act : State → State × Answer} {r : PortRec}
    {payload : List Byte} (h : Admitted s p) (hl : pl.length = c.length)
    (hact : act (leaseRenewed s p) = ((leaseRenewed s p).setPort p r, .ok payload)) :
    takeFrame p c pl act s = { s with ports := upd s.ports p { r with buffer := okResponse c payload } } := by
  rw [takeFrame_attached h hl, hact]
  simp [respond, leaseRenewed, State.setPort, okResponse, Answer.ok]

/-! ## NOTICE_READ (R161) -/

section
variable {p : Port} {n : Byte} {s : State}

theorem noticeReadAct_badField (h : n.toNat < 1 ∨ 3 < n.toNat) : noticeReadAct p [n] s = (s, .refuse .badField) := by
  have read : boundedNat 1 3 (field [n] 0 1) = none := by
    rw [field_one, boundedNat, if_neg (by omega)]
  unfold noticeReadAct
  rw [read]

theorem noticeReadAct_ok (low : 1 ≤ n.toNat) (high : n.toNat ≤ 3) : noticeReadAct p [n] s =
    (s.setPort p { s.ports[p] with queue := s.ports[p].queue.drop n.toNat },
      .ok (byte (min n.toNat s.ports[p].queue.length) :: (s.ports[p].queue.take n.toNat).flatMap Notice.bytes)) := by
  have read : boundedNat 1 3 (field [n] 0 1) = some n.toNat :=
    boundedNat_eq_some.2 ⟨by rw [field_one]; exact ⟨low, high⟩, field_one ..⟩
  unfold noticeReadAct
  rw [read]
  dsimp only
  rw [List.length_take, leBytes_one]
  rfl

theorem exec_noticeRead_ok (h : Admitted s p) (low : 1 ≤ n.toNat) (high : n.toNat ≤ 3) :
    exec (.noticeRead p [n]) s = .next { s with
      ports := upd s.ports p { s.ports[p].renewed with
        queue := s.ports[p].queue.drop n.toNat
        buffer := okResponse .noticeRead (byte (min n.toNat s.ports[p].queue.length)
          :: (s.ports[p].queue.take n.toNat).flatMap Notice.bytes) } } := by
  have act := noticeReadAct_ok (p := p) (s := leaseRenewed s p) low high
  rw [leaseRenewed_get] at act
  exact congrArg _ (takeFrame_ownPort h rfl act)

/-- A read leaves the attention line asserted exactly if it leaves notices. -/
theorem attnAsserted_noticeRead {t : State} (h : Admitted s p) (low : 1 ≤ n.toNat) (high : n.toNat ≤ 3)
    (ht : exec (.noticeRead p [n]) s = .next t) : attnAsserted t p = true ↔ n.toNat < s.ports[p].queue.length := by
  rw [exec_noticeRead_ok h low high] at ht
  cases ht
  rw [attnAsserted_iff, upd_get]
  dsimp only
  rw [renewed_state, Ne, List.drop_eq_nil_iff, not_le]
  exact and_iff_right h.2

end

/-! ## SUBSCRIBE (R160) -/

/-- A flag is written back as it was read. -/
theorem flagOf_byte {b : Byte} (h : b.toNat ≤ 1) :
    flagOf b.toNat = some (decide (b = 1)) ∧ leBytes 1 (bit (decide (b = 1))) = [b] := by
  have value : b.toNat = 0 ∨ b.toNat = 1 := by omega
  rcases value with e | e
  · cases (BitVec.eq_of_toNat_eq e : b = 0)
    exact ⟨rfl, rfl⟩
  · cases (BitVec.eq_of_toNat_eq e : b = 1)
    exact ⟨rfl, rfl⟩

/-- A set of numbers up to 3 is written back as it was read. -/
theorem leBytes_set {b : Byte} (h : b.toNat ≤ 15) : leBytes 1 (BitVec.ofNat 4 b.toNat).toNat = [b] := by
  have small : b.toNat % 2 ^ 4 = b.toNat := Nat.mod_eq_of_lt (by omega)
  rw [leBytes_one, BitVec.toNat_ofNat, small, byte_toNat_self]

/-- What SUBSCRIBE reads, and its check. -/
theorem parseSubscribe_eq_some {marks axes peer : Byte} {x : BitVec 4 × BitVec 4 × Bool} :
    parseSubscribe [marks, axes, peer] = some x ↔ marks.toNat ≤ 15 ∧ axes.toNat ≤ 15
      ∧ ∃ f, flagOf peer.toNat = some f ∧ (BitVec.ofNat 4 marks.toNat, BitVec.ofNat 4 axes.toNat, f) = x := by
  have marksField : field [marks, axes, peer] 0 1 = marks.toNat := field_one ..
  have axesField : field [marks, axes, peer] 1 1 = axes.toNat := field_one axes [peer]
  have peerField : field [marks, axes, peer] 2 1 = peer.toNat := field_one peer []
  simp [parseSubscribe, marksField, axesField, peerField, demand, Option.bind_eq_some_iff, Nat.lt_succ_iff]

section
variable {p : Port} {marks axes peer : Byte} {s : State}

theorem subscribeAct_badField (h : 15 < marks.toNat ∨ 15 < axes.toNat ∨ 1 < peer.toNat) :
    subscribeAct p [marks, axes, peer] s = (s, .refuse .badField) := by
  have read : parseSubscribe [marks, axes, peer] = none := by
    refine Option.eq_none_iff_forall_ne_some.2 fun x read => ?_
    obtain ⟨hm, ha, f, hf, -⟩ := parseSubscribe_eq_some.1 read
    rcases h with h | h | h
    · omega
    · omega
    · exact nomatch (flagOf_none h).symm.trans hf
  unfold subscribeAct
  rw [read]

theorem subscribeAct_ok (hm : marks.toNat ≤ 15) (ha : axes.toNat ≤ 15) (hp : peer.toNat ≤ 1) :
    subscribeAct p [marks, axes, peer] s =
      (s.setPort p { s.ports[p] with
        markSubs := BitVec.ofNat 4 marks.toNat, axisSubs := BitVec.ofNat 4 axes.toNat, peerEnable := decide (peer = 1) },
        .ok [marks, axes, peer]) := by
  obtain ⟨flag, flagBack⟩ := flagOf_byte hp
  unfold subscribeAct
  rw [parseSubscribe_eq_some.2 ⟨hm, ha, _, flag, rfl⟩]
  dsimp only
  rw [leBytes_set hm, leBytes_set ha, flagBack]
  rfl

theorem exec_subscribe_ok (h : Admitted s p) (hm : marks.toNat ≤ 15) (ha : axes.toNat ≤ 15) (hp : peer.toNat ≤ 1) :
    exec (.subscribe p [marks, axes, peer]) s = .next { s with
      ports := upd s.ports p { s.ports[p].renewed with
        markSubs := BitVec.ofNat 4 marks.toNat, axisSubs := BitVec.ofNat 4 axes.toNat, peerEnable := decide (peer = 1)
        buffer := okResponse .subscribe [marks, axes, peer] } } := by
  have act := subscribeAct_ok (p := p) (s := leaseRenewed s p) hm ha hp
  rw [leaseRenewed_get] at act
  exact congrArg _ (takeFrame_ownPort h rfl act)

end

/-- Settles O48: the layouts notice by notice, the attention line, and the two commands by their checks. -/
theorem noticeReadAndSubscribe : Obligations.NoticeReadAndSubscribe := by
  refine ⟨⟨?entries, ?marks, ?applied, ?discarded, ?axes, ?peer, rfl, rfl, rfl, rfl, rfl, rfl, rfl, rfl, rfl, rfl, rfl⟩,
    attnAsserted_iff, fun p n s t h low high => attnAsserted_noticeRead h low high,
    fun p n s h => ⟨fun out => congrArg _ (takeFrame_refused h rfl (noticeReadAct_badField out)), exec_noticeRead_ok h⟩,
    fun p marks axes peer s h =>
      ⟨fun bad => congrArg _ (takeFrame_refused h rfl (subscribeAct_badField bad)), exec_subscribe_ok h⟩⟩
  case entries =>
    intro h tag
    refine ⟨fun occ v late => notice_bytes rfl ?_, fun cause occ => notice_bytes rfl ?_,
      fun first count ended => notice_bytes rfl ?_, fun m cause => notice_bytes rfl ?_, fun m old new => notice_bytes rfl ?_,
      fun m seq a v => notice_bytes rfl ?_⟩
    all_goals simp [NoticeBody.padded, NoticeBody.fields, handle_bytes, leBytes_one, byte_bit]
  case marks =>
    intro m seq v
    refine ⟨fun kind misses => notice_bytes rfl ?_, notice_bytes rfl ?_, fun cause => notice_bytes rfl ?_⟩
    all_goals simp [NoticeBody.padded, NoticeBody.fields, leBytes_one]
  case applied =>
    intro applied skipped first
    refine ⟨notice_bytes rfl ?_, fun m seq => notice_bytes rfl ?_, fun a v => notice_bytes rfl ?_⟩
    all_goals simp [NoticeBody.padded, NoticeBody.fields, leBytes_one, byte]
  case discarded =>
    intro cause count
    refine ⟨fun m => notice_bytes rfl ?_, fun a v d => notice_bytes rfl ?_, notice_bytes rfl ?_⟩
    all_goals simp [NoticeBody.padded, NoticeBody.fields, boundaryBytes, leBytes, byte]
  case axes =>
    intro a v
    refine ⟨fun cause continued => notice_bytes rfl ?_, fun way => notice_bytes rfl ?_, fun cause old => notice_bytes rfl ?_,
      fun result => notice_bytes rfl ?_⟩
    all_goals simp [NoticeBody.padded, NoticeBody.fields, leBytes_one, byte_bit]
  case peer =>
    intro sender word
    exact notice_bytes rfl (by simp [NoticeBody.padded, NoticeBody.fields, leBytes_one])

/-! ## POST_PEER (R163, R164) -/

/-- The payload of a POST_PEER. -/
theorem postPeer_fields (target : Port) (word : BitVec 16) :
    fin4 (field (byte target.val :: leBytes 2 word.toNat) 0 1) = some target
      ∧ field (byte target.val :: leBytes 2 word.toNat) 1 2 = word.toNat :=
  ⟨fin4_axis .., (field_cons ..).trans (field_leBytes 2 _ word.isLt)⟩

section
variable {p target : Port} {word : BitVec 16} {pl : List Byte} {s : State}

theorem postPeerAct_badField (h : fin4 (field pl 0 1) = none) : postPeerAct p pl s = (s, .refuse .badField) := by
  unfold postPeerAct
  rw [h]

section
variable (ht : fin4 (field pl 0 1) = some target)
include ht

theorem postPeerAct_unavailable (h : s.ports[target].state ≠ .attached ∨ s.ports[target].peerEnable = false) :
    postPeerAct p pl s = (s, .refuse .peerUnavailable) := by
  unfold postPeerAct
  rw [ht]
  exact if_pos h

variable (ha : s.ports[target].state = .attached) (he : s.ports[target].peerEnable = true)
include ha he

theorem postPeerAct_available : postPeerAct p pl s =
    if 32 ≤ s.ports[target].queue.length then (s, .refuse .peerFull)
    else (s.setPort target (s.ports[target].receive ⟨s.uptime, .peer p (BitVec.ofNat 16 (field pl 1 2))⟩), .ok []) := by
  unfold postPeerAct
  rw [ht]
  exact if_neg (not_or.2 ⟨not_not.2 ha, by rw [he]; decide⟩)

theorem postPeerAct_full (hq : 32 ≤ s.ports[target].queue.length) : postPeerAct p pl s = (s, .refuse .peerFull) := by
  rw [postPeerAct_available ht ha he, if_pos hq]

theorem postPeerAct_ok (hq : s.ports[target].queue.length < 32) (hw : field pl 1 2 = word.toNat) : postPeerAct p pl s =
    (s.setPort target { s.ports[target] with queue := s.ports[target].queue ++ [⟨s.uptime, .peer p word⟩] }, .ok []) := by
  rw [postPeerAct_available ht ha he, if_neg (not_le.2 hq), receive_queued ha hq, hw, BitVec.ofNat_toNat, BitVec.setWidth_eq]

end

/-- The renewal of a lease leaves what POST_PEER asks of its target. -/
theorem leaseRenewed_target (s : State) (p target : Port) :
    (leaseRenewed s p).ports[target].state = s.ports[target].state
      ∧ (leaseRenewed s p).ports[target].peerEnable = s.ports[target].peerEnable
      ∧ (leaseRenewed s p).ports[target].queue = s.ports[target].queue := by
  by_cases h : target = p
  · subst h
    rw [leaseRenewed_get]
    exact ⟨rfl, rfl, rfl⟩
  · rw [leaseRenewed_ports, upd_get_ne _ _ h]
    exact ⟨rfl, rfl, rfl⟩

theorem answered_state (s : State) (p target : Port) (resp : Response) :
    (answered s p resp)[target].state = s.ports[target].state := by
  by_cases h : target = p
  · subst h
    rw [answered, upd_get]
    rfl
  · rw [answered, upd_get_ne _ _ h]

/-- The answer of the issuer and the queue of the target, which may be the issuer itself. -/
theorem respond_setPort_queue (c : Command) (l : List Notice) :
    respond p c.code (.ok []) ((leaseRenewed s p).setPort target { (leaseRenewed s p).ports[target] with queue := l })
      = { s with
          ports := upd (answered s p (okResponse c [])) target { (answered s p (okResponse c []))[target] with queue := l } } := by
  by_cases h : target = p
  · subst h
    simp [respond, answered, leaseRenewed, State.setPort, okResponse, Answer.ok]
  · have own (r : PortRec) : (upd (leaseRenewed s p).ports target r)[p] = s.ports[p].renewed :=
      (upd_get_ne _ _ (Ne.symm h)).trans (leaseRenewed_get s p)
    have others : (leaseRenewed s p).ports[target] = s.ports[target] := upd_get_ne _ _ h
    rw [respond, State.setPort_ports, own, others, answered, upd_get_ne _ _ h]
    simp only [State.setPort, leaseRenewed, upd_comm _ _ _ h, upd_upd]
    rfl

theorem exec_postPeer_ok (h : Admitted s p) (ha : s.ports[target].state = .attached) (he : s.ports[target].peerEnable = true)
    (hq : s.ports[target].queue.length < 32) :
    exec (.postPeer p (byte target.val :: leBytes 2 word.toNat)) s = .next { s with
      ports := upd (answered s p (okResponse .postPeer [])) target { (answered s p (okResponse .postPeer []))[target] with
        queue := s.ports[target].queue ++ [⟨s.uptime, .peer p word⟩] } } := by
  obtain ⟨ht, hw⟩ := postPeer_fields target word
  obtain ⟨hstate, henable, hqueue⟩ := leaseRenewed_target s p target
  refine congrArg _ ((takeFrame_attached h rfl).trans ?_)
  rw [postPeerAct_ok ht (hstate.trans ha) (henable.trans he) (by rwa [hqueue]) hw, hqueue]
  exact respond_setPort_queue ..

end

/-- Settles O49: the checks in order, and the copy that joins the target's queue. -/
theorem postPeer : Obligations.PostPeer := by
  refine ⟨fun p n lo hi s h bad => congrArg _ (takeFrame_refused h rfl (postPeerAct_badField (fin4_none bad _))), ?_⟩
  intro p target word s h c r
  obtain ⟨ht, -⟩ := postPeer_fields target word
  obtain ⟨hstate, henable, hqueue⟩ := leaseRenewed_target s p target
  refine ⟨fun hr => ?_, fun ha he hq => ?_, fun ha he hq =>
    ⟨_, exec_postPeer_ok h ha he hq, rfl, fun q other => upd_get_ne _ _ other, upd_get .., ?_⟩⟩
  · exact congrArg _ (takeFrame_refused h rfl (postPeerAct_unavailable ht (by rwa [hstate, henable])))
  · exact congrArg _ (takeFrame_refused h rfl (postPeerAct_full ht (hstate.trans ha) (henable.trans he) (by rwa [hqueue])))
  · rw [attnAsserted_iff, upd_get]
    exact ⟨(answered_state ..).trans ha, by simp⟩

end Sys2Proof.Machine
end

section
/-! SUPPORT. One step of the part (logs 1, 18): what it does with a command waiting, and that it idles with nothing to take (O1). -/

namespace Sys2Proof.Machine

variable {s : State}

/-- With a command waiting it is run, whatever edges are to come on the serial pins (log 18). -/
theorem step_command {c : Instr} {rest : List Instr} (waiting : s.pending = c :: rest) :
    step s = exec c { s with pending := rest } := by
  unfold step
  rw [waiting]

/-- With no command waiting and no edge to come the part idles (log 1). -/
theorem step_idle (noCommand : s.pending = []) (noEdge : s.serial = []) : step s = .next s := by
  unfold step
  simp only [noCommand, noEdge]

/-- Settles O1: the two branches of a step that take no serial edge. -/
theorem stepRunsFrontCommand : Obligations.StepRunsFrontCommand :=
  ⟨fun _ _ _ waiting => step_command waiting, fun _ noCommand noEdge => step_idle noCommand noEdge⟩

end Sys2Proof.Machine
end
